-- ==== Sys2Proof/Word.lean ====
section
/-! DEFINITION. The word types of the engine: a byte and a 16-bit length (spec R13, R132). -/

namespace Sys2Proof

/-- An unsigned 8-bit value (R13). -/
abbrev Byte := BitVec 8

/-- `u16`, an unsigned 16-bit value (R13). -/
abbrev Half := BitVec 16

end Sys2Proof
end

