-- ==== Sys2Proof/Machine/Literals.lean ====
section
/-! DEFINITION. The source's numeric literals, each once and by name, with the values of spec R8 (R9). -/

namespace Sys2Proof.Literal

/-- FRAME_LEN: bytes in one over-the-air frame. -/
abbrev frameLen : Nat := 21
/-- CTS_READY: the ready-signal value that means "ready"; every other byte means busy (R63, R153). -/
def ctsReady : Byte := 0xFF
/-- CTS_RETRY_MAX's default (R8, D11). -/
abbrev ctsRetryDefault : Nat := 5000
/-- INT_STATUS_RESP_LEN: bytes read back by CLEAR_INTS. -/
abbrev intStatusRespLen : Nat := 8
/-- OP_SET_PROPERTY (R112). -/
def opSetProperty : Byte := 0x11
/-- OP_FIFO_RESET (R113). -/
def opFifoReset : Byte := 0x15
/-- FIFO_SUB_TX. -/
def fifoSubTx : Byte := 1
/-- FIFO_SUB_RX. -/
def fifoSubRx : Byte := 2
/-- FIFO_SUB_BOTH. -/
def fifoSubBoth : Byte := 3
/-- OP_START_TX (R114). -/
def opStartTx : Byte := 0x31
/-- OP_START_RX (R116). -/
def opStartRx : Byte := 0x32
/-- OP_WRITE_TX_FIFO (R118). -/
def opWriteTxFifo : Byte := 0x66
/-- OP_READ_RX_FIFO (R119). -/
def opReadRxFifo : Byte := 0x77
/-- SEND_CHANNEL: SEND_FRAME's start_tx channel (R242). -/
def sendChannel : Byte := 0
/-- SEND_CONDITION: SEND_FRAME's start_tx condition (R115, R242). -/
def sendCondition : Byte := 0x30
/-- The 16-bit length of SEND_FRAME's start_tx and of REARM_ARGS. -/
def frameLength : Half := BitVec.ofNat 16 frameLen
/-- REARM_ARGS: channel, condition; the length is `frameLength`. RX_ARM_ARGS is decided equal (D21). -/
def rearmChannel : Byte := 0
/-- REARM_ARGS: condition. -/
def rearmCondition : Byte := 0
/-- REARM_ARGS: on_timeout. -/
def rearmOnTimeout : Byte := 0
/-- REARM_ARGS: on_valid. -/
def rearmOnValid : Byte := 3
/-- REARM_ARGS: on_invalid. -/
def rearmOnInvalid : Byte := 3
/-- The lower bound of T_RST_ASSERT_US, in microseconds (R308). -/
abbrev rstAssertMinUs : Nat := 300
/-- The lower bound of T_SETTLE_MS, in milliseconds (R308). -/
abbrev settleMinMs : Nat := 5
/-- DUMMY_BYTE: the MOSI byte sent while the engine reads (D6, this spec's decision). -/
def dummyByte : Byte := 0x00
/-- The next-state code of Standby/Ready (R117, R218). -/
def codeStandby : Byte := 3
/-- The next-state code "no change" (R117, R218). -/
def codeNoChange : Byte := 0
/-- The SET_FREQ argument's length (R198). -/
abbrev freqLen : Nat := 8
/-- The SET_POWER argument's length (R199). -/
abbrev powerLen : Nat := 2

end Sys2Proof.Literal
end

