-- ==== Sys2Proof/Config.lean ====
section
/-! DEFINITION. The implementation parameters of spec R8 as one record, the reference set of D43, and the one free value
of the model. The record is configuration (R50): State carries it as the model's argument, and no operation writes it.
Parameters whose value the source fixes are in Machine/Literals.lean. -/

namespace Sys2Proof

/-- One entry `(group, offset, start, count)` of FREQ_PLAN or POWER_PLAN (R198). -/
structure PlanEntry where
  group : Byte
  offset : Byte
  start : Nat
  count : Nat
  deriving DecidableEq, Repr

/-- BRINGUP_EXTRA: six slots, each a list of zero or more frames, sent in this order (R204, D19). -/
structure BringupExtra where
  frr : List (List Byte)
  preamble : List (List Byte)
  syncWord : List (List Byte)
  pktBitOrder : List (List Byte)
  gpioMap : List (List Byte)
  xtalTrim : List (List Byte)
  deriving DecidableEq, Repr

/-- The parameters of R8 that the source leaves open or tunable. -/
structure Config where
  /-- CTS_RETRY_MAX (D11). -/
  ctsRetryMax : Nat
  /-- T_RST_ASSERT_US (D23). -/
  tRstAssertUs : Nat
  /-- T_SETTLE_MS (D23). -/
  tSettleMs : Nat
  /-- OP_READ_CMD_BUFF (D7). -/
  opReadCmdBuff : Byte
  /-- POWER_UP_FRAME (D8). -/
  powerUpFrame : List Byte
  /-- OP_GET_INT_STATUS (D9). -/
  opGetIntStatus : Byte
  /-- INT_CLR_ARGS (D9). -/
  intClrArgs : List Byte
  /-- OP_CHANGE_STATE (D10). -/
  opChangeState : Byte
  /-- STANDBY_CODE (D10). -/
  standbyCode : Byte
  /-- CONFIG_TABLE (D17). -/
  configTable : List Byte
  /-- FREQ_PARAMS (D18). -/
  freqParams : List Byte
  /-- POWER_PARAMS (D18). -/
  powerParams : List Byte
  /-- FREQ_PLAN (D18). -/
  freqPlan : List PlanEntry
  /-- POWER_PLAN (D18). -/
  powerPlan : List PlanEntry
  /-- BRINGUP_EXTRA (D19). -/
  bringupExtra : BringupExtra
  /-- RX_IRQ_ENABLE (D20). -/
  rxIrqEnable : List (List Byte)
  /-- TX_IRQ_ENABLE (D20). -/
  txIrqEnable : List (List Byte)
  /-- RSSI_PLACEHOLDER (D22). -/
  rssiPlaceholder : Byte
  /-- CMD_BUF_CAP (D28). -/
  cmdBufCap : Nat
  /-- RESP_BUF_CAP (D28). -/
  respBufCap : Nat
  /-- PROP_MAX (D29). -/
  propMax : Nat
  /-- FIFO_CAP (D38). -/
  fifoCap : Nat
  /-- SEL_ACTIVE_LEVEL (D3). -/
  selActiveLevel : Bool
  /-- RST_ACTIVE_LEVEL (D4). -/
  rstActiveLevel : Bool
  deriving DecidableEq, Repr

/-- The reference parameter set of D43, "for the test vectors only and never normative". The three values D43 does not give
(the two electrical levels and the symbolic RSSI placeholder) are DESIGN CHOICE (log entry 1). -/
def Config.reference : Config where
  ctsRetryMax := Literal.ctsRetryDefault
  tRstAssertUs := Literal.rstAssertMinUs
  tSettleMs := Literal.settleMinMs
  opReadCmdBuff := 0x44
  powerUpFrame := [0x02, 0x01, 0x00, 0x01, 0xC9, 0xC3, 0x80]
  opGetIntStatus := 0x20
  intClrArgs := [0x00, 0x00, 0x00]
  opChangeState := 0x34
  standbyCode := 0x03
  configTable := [6, 0x11, 0x10, 0x02, 0x00, 0x08, 0x14, 0]
  freqParams := [0x38, 0x0E, 0x66, 0x66, 0x44, 0x44, 0x20, 0xFE]
  powerParams := [0x7F, 0x00]
  freqPlan := [⟨0x40, 0x00, 0, 8⟩]
  powerPlan := [⟨0x22, 0x01, 0, 2⟩]
  bringupExtra := { frr := [], preamble := [], syncWord := [], pktBitOrder := [], gpioMap := []
                    xtalTrim := [[0x11, 0x00, 0x01, 0x00, 0x52]] }
  rxIrqEnable := [[0x11, 0x01, 0x02, 0x00, 0x01, 0x10]]
  txIrqEnable := [[0x11, 0x01, 0x02, 0x00, 0x01, 0x20]]
  rssiPlaceholder := 0x00
  cmdBufCap := 16
  respBufCap := 16
  propMax := 12
  fifoCap := 64
  selActiveLevel := false
  rstActiveLevel := true

/-- The free value of the model: the `n`-th free draw of a run (R60). It has no body, so nothing can be proved of it
(log entry 2). -/
opaque Config.freeNat : Nat → Nat

end Sys2Proof
end

