-- ==== Sys2Proof/Syntax.lean ====
section
/-! DEFINITION. The instructions: one constructor per row of spec/opcode_table.json. The table has three formats (R136):
host operations (R131), wire frame kinds (R112 to R124; their constructors begin with `wire`) and pseudo-instructions
(R135). Byte and u16 arguments are typed, so the range check REF_BYTE_RANGE of R133 falls to the decoder; counts are
unbounded naturals (R132). -/

namespace Sys2Proof

/-- One instruction of the opcode table. -/
inductive Instr where
  -- Host operations, in the order of R131.
  | waitCts
  | sendCmd (frame : List Byte)
  | getResp (n : Nat)
  | readRxFifo (n : Nat)
  | writeTxFifo (data : List Byte)
  | setProperty (group offset : Byte) (data : List Byte)
  | replay (table : List Byte)
  | powerUp
  | clearInts
  | setFreq (p : List Byte)
  | setPower (p : List Byte)
  | startTx (channel condition : Byte) (length : Half)
  | startRx (channel condition : Byte) (length : Half) (onTimeout onValid onInvalid : Byte)
  | resetFifo (sub : Byte)
  | standby
  | enterRx
  | enterTx
  | tryReceive
  | sendFrame (frame : List Byte)
  | readRssi
  -- Wire frame kinds, in the order of the table (R112 to R124).
  | wirePropWrite (group count offset : Byte) (data : List Byte)
  | wireFifoReset (sub : Byte)
  | wireStartTx (channel condition : Byte) (length : Half)
  | wireStartRx (channel condition : Byte) (length : Half) (onTimeout onValid onInvalid : Byte)
  | wireWriteTxFifo (data : List Byte)
  | wireReadRxFifo (n : Nat)
  | wireReadCmdBuff (n : Nat)
  | wireGetIntStatus (args : List Byte)
  | wireChangeState (code : Byte)
  | wirePowerUp (args : List Byte)
  -- Pseudo-instructions (R135).
  | resetTxFifo
  | resetRxFifo
  | resetBothFifos
  | rearmRx
  deriving DecidableEq, Repr

end Sys2Proof
end

