-- ==== Sys2Proof/Machine/Admission.lean ====
section
/-! DEFINITION. What is checked before anything runs: the refusal checks of a request (spec R133), the framing of a
configuration table (R125, R185 to R187), and the admission of a configuration (R133, last paragraph, with R8, R36, R37,
R128, R198, R199). -/

namespace Sys2Proof

/-- The names of R133's checks, in the table's order; the last three are the model's own (log entry 10). -/
inductive Check where
  /-- REF_UNKNOWN_OP. -/
  | unknownOp
  /-- REF_BYTE_RANGE. -/
  | byteRange
  /-- REF_EMPTY_FRAME. -/
  | emptyFrame
  /-- REF_FRAME_TOO_LONG. -/
  | frameTooLong
  /-- REF_RESP_TOO_LONG. -/
  | respTooLong
  /-- REF_FIFO_LEN. -/
  | fifoLen
  /-- REF_PROP_COUNT. -/
  | propCount
  /-- REF_PARAM_COUNT. -/
  | paramCount
  /-- REF_FIFO_SUB. -/
  | fifoSub
  /-- REF_FRAME_SIZE. -/
  | frameSize
  /-- REF_TABLE. -/
  | table
  /-- The model's own: the argument tuple has not the shape of the operation's row (R16, U19). -/
  | argShape
  /-- The model's own: a wire frame whose first byte is no opcode of the table. -/
  | unknownFrame
  /-- The model's own: a wire frame with a known opcode and a payload of another form. -/
  | malformedFrame
  deriving DecidableEq, Repr

/-! ### Configuration tables -/

/-- The record frames of a table, in table order, or none if the framing breaks (R185). Each unfolding reads one record
at the head of what is left; `fuel` bounds the number of records. -/
def tableRecordsFuel : Nat → List Byte → Option (List (List Byte))
  | 0, _ => none
  | _ + 1, [] => none
  | fuel + 1, l :: rest =>
    if l = 0 then some []
    else if l.toNat ≤ rest.length then
      (tableRecordsFuel fuel (rest.drop l.toNat)).map (rest.take l.toNat :: ·)
    else none

/-- The record frames `f_0 … f_{K-1}` of a table that meets R185 (a) to (c). -/
def tableRecords (t : List Byte) : Option (List (List Byte)) :=
  tableRecordsFuel (t.length + 1) t

/-- `WF(T)` (R185), with condition (d) for a command buffer of capacity `cap`. -/
def tableWF (cap : Nat) (t : List Byte) : Bool :=
  match tableRecords t with
  | some fs => fs.all (fun f => decide (f.length ≤ cap))
  | none => false

/-- `count(T)` (R186): the number of records before the terminator. -/
def tableCount (t : List Byte) : Nat := ((tableRecords t).getD []).length

/-- Whether one frame is a property-group write whose count byte is its number of data bytes (R112, R187). -/
def propFrameConsistent (f : List Byte) : Bool :=
  match f with
  | _ :: _ :: count :: _ :: data => count.toNat == data.length
  | _ => false

/-- `PropWF(T)` (R187): every record with opcode 0x11 has a count byte that matches. The engine does not check it. -/
def tablePropWF (t : List Byte) : Bool :=
  ((tableRecords t).getD []).all (fun f => f.head? != some Literal.opSetProperty || propFrameConsistent f)

/-! ### Requests -/

/-- The first of R133's checks that an instruction fails, in the table's order (R270). The first two rows, REF_UNKNOWN_OP
and REF_BYTE_RANGE, are the decoder's. A wire frame is checked as the request that would send it is. -/
def Instr.failingCheck (c : Config) : Instr → Option Check
  | .sendCmd frame =>
    if frame.length = 0 then some .emptyFrame
    else if c.cmdBufCap < frame.length then some .frameTooLong
    else none
  | .getResp n => if c.respBufCap < n then some .respTooLong else none
  | .readRxFifo n => if c.fifoCap < n then some .fifoLen else none
  | .writeTxFifo data => if c.fifoCap < data.length then some .fifoLen else none
  | .setProperty _ _ data => if data.length = 0 ∨ c.propMax < data.length then some .propCount else none
  | .setFreq p => if p.length = Literal.freqLen then none else some .paramCount
  | .setPower p => if p.length = Literal.powerLen then none else some .paramCount
  | .resetFifo sub =>
    if sub = Literal.fifoSubTx ∨ sub = Literal.fifoSubRx ∨ sub = Literal.fifoSubBoth then none else some .fifoSub
  | .sendFrame frame => if frame.length = Literal.frameLen then none else some .frameSize
  | .replay table => if tableWF c.cmdBufCap table then none else some .table
  | .wirePropWrite _ _ _ data => if c.cmdBufCap < 4 + data.length then some .frameTooLong else none
  | .wireGetIntStatus args => if c.cmdBufCap < 1 + args.length then some .frameTooLong else none
  | .wirePowerUp args => if c.cmdBufCap < 1 + args.length then some .frameTooLong else none
  | .wireReadCmdBuff n => if c.respBufCap < n then some .respTooLong else none
  | .wireReadRxFifo n => if c.fifoCap < n then some .fifoLen else none
  | .wireWriteTxFifo data => if c.fifoCap < data.length then some .fifoLen else none
  | .waitCts => none
  | .powerUp => none
  | .clearInts => none
  | .startTx _ _ _ => none
  | .startRx _ _ _ _ _ _ => none
  | .standby => none
  | .enterRx => none
  | .enterTx => none
  | .tryReceive => none
  | .readRssi => none
  | .wireFifoReset _ => none
  | .wireStartTx _ _ _ => none
  | .wireStartRx _ _ _ _ _ _ => none
  | .wireChangeState _ => none
  | .resetTxFifo => none
  | .resetRxFifo => none
  | .resetBothFifos => none
  | .rearmRx => none

/-! ### Configurations -/

/-- The frames of BRINGUP_EXTRA, slot by slot in the order of R204. -/
def bringupFrames (b : BringupExtra) : List (List Byte) :=
  b.frr ++ b.preamble ++ b.syncWord ++ b.pktBitOrder ++ b.gpioMap ++ b.xtalTrim

/-- Every parameter that is a whole command frame (R133, last paragraph). -/
def Config.frameParams (c : Config) : List (List Byte) :=
  c.powerUpFrame :: (bringupFrames c.bringupExtra ++ c.rxIrqEnable ++ c.txIrqEnable)

/-- A frame parameter passes REF_EMPTY_FRAME and REF_FRAME_TOO_LONG. -/
def frameFits (cap : Nat) (f : List Byte) : Bool := decide (1 ≤ f.length) && decide (f.length ≤ cap)

/-- A plan for an argument of `len` bytes is admitted (R198, R199). -/
def planOk (propMax len : Nat) (plan : List PlanEntry) : Bool :=
  !plan.isEmpty && plan.all (fun e =>
    decide (1 ≤ e.count) && decide (e.count ≤ propMax) && decide (e.start + e.count ≤ len))

/-- The bounds of R8, R36, R37. `propMax ≤ 255` is DEDUCED: the count is one byte of the frame (log entry 11). -/
def Config.boundsOk (c : Config) : Bool :=
  decide (1 ≤ c.ctsRetryMax) && decide (Literal.rstAssertMinUs ≤ c.tRstAssertUs) &&
  decide (Literal.settleMinMs ≤ c.tSettleMs) && decide (8 ≤ c.cmdBufCap) && decide (4 + c.propMax ≤ c.cmdBufCap) &&
  decide (1 + c.intClrArgs.length ≤ c.cmdBufCap) && decide (Literal.intStatusRespLen ≤ c.respBufCap) &&
  decide (1 ≤ c.propMax) && decide (c.propMax ≤ 255) && decide (Literal.frameLen ≤ c.fifoCap)

/-- The opcodes the rules distinguish (R128): the six fixed ones and the four parameters. -/
def Config.opcodes (c : Config) : List Byte :=
  [Literal.opSetProperty, Literal.opFifoReset, Literal.opStartTx, Literal.opStartRx, Literal.opWriteTxFifo,
    Literal.opReadRxFifo, c.opReadCmdBuff, c.opGetIntStatus, c.opChangeState, c.powerUpFrame.headD 0]

/-- Pairwise distinct opcodes (R128). -/
def Config.opcodesDistinct (c : Config) : Bool := decide c.opcodes.Nodup

/-- The frame parameters, the table, the plans and their arguments are admitted (R133, R185, R198, R199). -/
def Config.dataOk (c : Config) : Bool :=
  c.frameParams.all (frameFits c.cmdBufCap) && tableWF c.cmdBufCap c.configTable &&
  decide (c.freqParams.length = Literal.freqLen) && decide (c.powerParams.length = Literal.powerLen) &&
  planOk c.propMax Literal.freqLen c.freqPlan && planOk c.propMax Literal.powerLen c.powerPlan

/-- The configuration is admitted: the run may start (R133: "A configuration that fails is refused as a whole"). -/
def Config.admitted (c : Config) : Bool := c.boundsOk && c.opcodesDistinct && c.dataOk

end Sys2Proof
end

