-- ==== Sys2Proof/WellFormed.lean ====
section
/-! DEFINITION. Well-formed instructions: those that R133 admits and, for a wire frame, whose fields meet its format
(R112, R113, R124, R123, R122). The checks themselves are in Machine/Admission.lean. -/

namespace Sys2Proof

/-- The field rules of the wire formats that are not capacity checks: the property count matches the data and is in
1..PROP_MAX (R112, R127), the FIFO sub-code is one of three (R113), and the parameter frames are the configured ones
(R122, R123, R124). -/
def Instr.wireFieldsOk (c : Config) : Instr → Bool
  | .wirePropWrite _ count _ data =>
    decide (count.toNat = data.length) && decide (1 ≤ data.length) && decide (data.length ≤ c.propMax)
  | .wireFifoReset sub =>
    decide (sub = Literal.fifoSubTx ∨ sub = Literal.fifoSubRx ∨ sub = Literal.fifoSubBoth)
  | .wireGetIntStatus args => decide (args = c.intClrArgs)
  | .wireChangeState code => decide (code = c.standbyCode)
  | .wirePowerUp args => decide (args = c.powerUpFrame.tail)
  | _ => true

/-- The instruction is well formed under the configuration. -/
def Instr.wellFormed (c : Config) (i : Instr) : Bool := (i.failingCheck c).isNone && i.wireFieldsOk c

end Sys2Proof
end

