-- ==== Sys2Proof/Decode.lean ====
section
/-! DEFINITION. The two encodings of the spec. Host level: a request is `(hop, args)` (R130 to R132). Wire level: a frame
is the MOSI bytes of one select window (R110 to R124). First the decoders, total and rejecting by name; then the encoders,
from the same tables; then the word interface the host of this row asks for. -/

namespace Sys2Proof

/-! ### 16-bit fields -/

/-- `hi8(v) = v[15:8]` (R13). -/
def hi8 (v : Half) : Byte := v.extractLsb' 8 8

/-- `lo8(v) = v[7:0]` (R13). -/
def lo8 (v : Half) : Byte := v.extractLsb' 0 8

/-- The 16-bit value whose high byte travels first (R86). -/
def half (hi lo : Byte) : Half := hi ++ lo

/-! ### Requests and frames -/

/-- One argument of a request: a natural, or a list of naturals. Both are unbounded here; R133 checks their range. -/
inductive Arg where
  | num (n : Nat)
  | list (l : List Nat)
  deriving DecidableEq, Repr

/-- A host request `(hop, args)` (R130). -/
structure Request where
  hop : Byte
  args : List Arg
  deriving DecidableEq, Repr

/-- What the machine is given to run: a host request, or (DESIGN CHOICE, log entry 5) the MOSI bytes of one wire
transaction, so that each wire row of the table can be run as a step of its own. -/
inductive Item where
  | request (r : Request)
  | transaction (mosi : List Byte)
  deriving DecidableEq, Repr

/-! ### Decoding a request (R131, R132)

DESIGN CHOICE (log entry 10): a tuple that has not its row's shape is refused as `argShape`, and so before `byteRange` where it
holds a number out of range too; U19 says only that it is refused. -/

/-- A byte argument, or REF_BYTE_RANGE. -/
def byteArg (n : Nat) : Except Check Byte := if n < 256 then .ok (BitVec.ofNat 8 n) else .error .byteRange

/-- A u16 argument, or REF_BYTE_RANGE. -/
def halfArg (n : Nat) : Except Check Half := if n < 65536 then .ok (BitVec.ofNat 16 n) else .error .byteRange

/-- A byte list argument, or REF_BYTE_RANGE. -/
def bytesArg (l : List Nat) : Except Check (List Byte) :=
  if l.all (fun n => decide (n < 256)) then .ok (l.map (BitVec.ofNat 8)) else .error .byteRange

/-- An operation with no argument. -/
def decodeNone (i : Instr) : List Arg → Except Check Instr
  | [] => .ok i
  | _ => .error .argShape

/-- An operation with one byte list. -/
def decodeList (f : List Byte → Instr) : List Arg → Except Check Instr
  | [.list l] => (bytesArg l).map f
  | _ => .error .argShape

/-- An operation with one natural count. -/
def decodeCount (f : Nat → Instr) : List Arg → Except Check Instr
  | [.num n] => .ok (f n)
  | _ => .error .argShape

/-- RESET_FIFO's one byte. -/
def decodeByte (f : Byte → Instr) : List Arg → Except Check Instr
  | [.num n] => (byteArg n).map f
  | _ => .error .argShape

/-- SET_PROPERTY's group, offset and data. -/
def decodeSetProperty : List Arg → Except Check Instr
  | [.num g, .num o, .list d] =>
    (byteArg g).bind fun g => (byteArg o).bind fun o => (bytesArg d).map fun d => .setProperty g o d
  | _ => .error .argShape

/-- START_TX's channel, condition and length. A tuple such as (300), of the wrong shape and with a number out of range, is
refused as `argShape`: DESIGN CHOICE (log entry 10). -/
def decodeStartTx : List Arg → Except Check Instr
  | [.num ch, .num cond, .num len] =>
    (byteArg ch).bind fun ch => (byteArg cond).bind fun cond => (halfArg len).map fun len => .startTx ch cond len
  | _ => .error .argShape

/-- START_RX's channel, condition, length and three next-state codes. -/
def decodeStartRx : List Arg → Except Check Instr
  | [.num ch, .num cond, .num len, .num t, .num v, .num x] =>
    (byteArg ch).bind fun ch => (byteArg cond).bind fun cond => (halfArg len).bind fun len =>
    (byteArg t).bind fun t => (byteArg v).bind fun v => (byteArg x).map fun x => .startRx ch cond len t v x
  | _ => .error .argShape

/-- The host operation of a request, or the first check of R133's first two rows that fails (R131). -/
def decodeRequest (r : Request) : Except Check Instr :=
  match r.hop.toNat with
  | 0x01 => decodeNone .waitCts r.args
  | 0x02 => decodeList .sendCmd r.args
  | 0x03 => decodeCount .getResp r.args
  | 0x04 => decodeCount .readRxFifo r.args
  | 0x05 => decodeList .writeTxFifo r.args
  | 0x06 => decodeSetProperty r.args
  | 0x07 => decodeList .replay r.args
  | 0x08 => decodeNone .powerUp r.args
  | 0x09 => decodeNone .clearInts r.args
  | 0x0A => decodeList .setFreq r.args
  | 0x0B => decodeList .setPower r.args
  | 0x0C => decodeStartTx r.args
  | 0x0D => decodeStartRx r.args
  | 0x0E => decodeByte .resetFifo r.args
  | 0x0F => decodeNone .standby r.args
  | 0x10 => decodeNone .enterRx r.args
  | 0x11 => decodeNone .enterTx r.args
  | 0x12 => decodeNone .tryReceive r.args
  | 0x13 => decodeList .sendFrame r.args
  | 0x14 => decodeNone .readRssi r.args
  | _ => .error .unknownOp

/-! ### Decoding a wire frame (R112 to R124) -/

/-- PROP_WRITE: group, count, offset, data (R112). -/
def decodePropWrite : List Byte → Except Check Instr
  | g :: n :: o :: d => .ok (.wirePropWrite g n o d)
  | _ => .error .malformedFrame

/-- One payload byte. -/
def decodeOneByte (f : Byte → Instr) : List Byte → Except Check Instr
  | [b] => .ok (f b)
  | _ => .error .malformedFrame

/-- START_TX: channel, condition, big-endian length (R114). -/
def decodeWireStartTx : List Byte → Except Check Instr
  | [ch, cond, hi, lo] => .ok (.wireStartTx ch cond (half hi lo))
  | _ => .error .malformedFrame

/-- START_RX: channel, condition, big-endian length, three next-state codes (R116). -/
def decodeWireStartRx : List Byte → Except Check Instr
  | [ch, cond, hi, lo, t, v, x] => .ok (.wireStartRx ch cond (half hi lo) t v x)
  | _ => .error .malformedFrame

/-- Every MOSI byte after the opcode is DUMMY_BYTE: the engine is reading (R119, R120, R121). -/
def allDummy (l : List Byte) : Bool := l.all (fun b => decide (b = Literal.dummyByte))

/-- READ_RX_FIFO: as many reads as dummy bytes (R119). -/
def decodeWireReadRx (l : List Byte) : Except Check Instr :=
  if allDummy l then .ok (.wireReadRxFifo l.length) else .error .malformedFrame

/-- READ_CMD_BUFF: the CTS read and then as many response reads as further dummy bytes (R120, R121). -/
def decodeWirePoll : List Byte → Except Check Instr
  | d :: rest => if allDummy (d :: rest) then .ok (.wireReadCmdBuff rest.length) else .error .malformedFrame
  | [] => .error .malformedFrame

/-- The frame kind of a window's MOSI bytes, by its first byte (R128, R136). -/
def decodeFrame (c : Config) : List Byte → Except Check Instr
  | [] => .error .emptyFrame
  | op :: rest =>
    if op = Literal.opSetProperty then decodePropWrite rest
    else if op = Literal.opFifoReset then decodeOneByte .wireFifoReset rest
    else if op = Literal.opStartTx then decodeWireStartTx rest
    else if op = Literal.opStartRx then decodeWireStartRx rest
    else if op = Literal.opWriteTxFifo then .ok (.wireWriteTxFifo rest)
    else if op = Literal.opReadRxFifo then decodeWireReadRx rest
    else if op = c.opReadCmdBuff then decodeWirePoll rest
    else if op = c.opGetIntStatus then .ok (.wireGetIntStatus rest)
    else if op = c.opChangeState then decodeOneByte .wireChangeState rest
    else if op = c.powerUpFrame.headD 0 then .ok (.wirePowerUp rest)
    else .error .unknownFrame

/-- The instruction of an item, or the name of its rejection. -/
def decode (c : Config) : Item → Except Check Instr
  | .request r => decodeRequest r
  | .transaction mosi => decodeFrame c mosi

/-! ### Encoding -/

/-- The instruction an assembler puts in a pseudo-instruction's place before it encodes (R135). -/
def Instr.expand : Instr → Instr
  | .resetTxFifo => .resetFifo Literal.fifoSubTx
  | .resetRxFifo => .resetFifo Literal.fifoSubRx
  | .resetBothFifos => .resetFifo Literal.fifoSubBoth
  | .rearmRx => .startRx Literal.rearmChannel Literal.rearmCondition Literal.frameLength
      Literal.rearmOnTimeout Literal.rearmOnValid Literal.rearmOnInvalid
  | i => i

/-- A byte list as a request's argument. -/
def listArg (l : List Byte) : Arg := .list (l.map BitVec.toNat)

/-- A byte or a u16 as a request's argument. -/
def numArg {w : Nat} (b : BitVec w) : Arg := .num b.toNat

/-- RESET_FIFO's request, into which three of the pseudo-instructions expand (R135). -/
def resetFifoRequest (sub : Byte) : Request := ⟨0x0E, [numArg sub]⟩

/-- START_RX's request with REARM_ARGS, into which REARM_RX expands (R135). -/
def rearmRequest : Request :=
  ⟨0x0D, [numArg Literal.rearmChannel, numArg Literal.rearmCondition, numArg Literal.frameLength,
    numArg Literal.rearmOnTimeout, numArg Literal.rearmOnValid, numArg Literal.rearmOnInvalid]⟩

/-- The bytes of a wire frame (R112 to R124). Only wire constructors have one. -/
def encodeFrame (c : Config) : Instr → List Byte
  | .wirePropWrite g n o d => Literal.opSetProperty :: g :: n :: o :: d
  | .wireFifoReset sub => [Literal.opFifoReset, sub]
  | .wireStartTx ch cond len => [Literal.opStartTx, ch, cond, hi8 len, lo8 len]
  | .wireStartRx ch cond len t v x => [Literal.opStartRx, ch, cond, hi8 len, lo8 len, t, v, x]
  | .wireWriteTxFifo d => Literal.opWriteTxFifo :: d
  | .wireReadRxFifo n => Literal.opReadRxFifo :: List.replicate n Literal.dummyByte
  | .wireReadCmdBuff n => c.opReadCmdBuff :: List.replicate (n + 1) Literal.dummyByte
  | .wireGetIntStatus args => c.opGetIntStatus :: args
  | .wireChangeState code => [c.opChangeState, code]
  | .wirePowerUp args => c.powerUpFrame.headD 0 :: args
  | _ => []

/-- The item of an instruction: the request of a host operation (R131), the frame of a wire row, the request of its
expansion for a pseudo-instruction (R135). -/
def encode (c : Config) : Instr → Item
  | .waitCts => .request ⟨0x01, []⟩
  | .sendCmd f => .request ⟨0x02, [listArg f]⟩
  | .getResp n => .request ⟨0x03, [.num n]⟩
  | .readRxFifo n => .request ⟨0x04, [.num n]⟩
  | .writeTxFifo d => .request ⟨0x05, [listArg d]⟩
  | .setProperty g o d => .request ⟨0x06, [numArg g, numArg o, listArg d]⟩
  | .replay t => .request ⟨0x07, [listArg t]⟩
  | .powerUp => .request ⟨0x08, []⟩
  | .clearInts => .request ⟨0x09, []⟩
  | .setFreq p => .request ⟨0x0A, [listArg p]⟩
  | .setPower p => .request ⟨0x0B, [listArg p]⟩
  | .startTx ch cond len => .request ⟨0x0C, [numArg ch, numArg cond, numArg len]⟩
  | .startRx ch cond len t v x =>
    .request ⟨0x0D, [numArg ch, numArg cond, numArg len, numArg t, numArg v, numArg x]⟩
  | .resetFifo sub => .request (resetFifoRequest sub)
  | .standby => .request ⟨0x0F, []⟩
  | .enterRx => .request ⟨0x10, []⟩
  | .enterTx => .request ⟨0x11, []⟩
  | .tryReceive => .request ⟨0x12, []⟩
  | .sendFrame f => .request ⟨0x13, [listArg f]⟩
  | .readRssi => .request ⟨0x14, []⟩
  | .resetTxFifo => .request (resetFifoRequest Literal.fifoSubTx)
  | .resetRxFifo => .request (resetFifoRequest Literal.fifoSubRx)
  | .resetBothFifos => .request (resetFifoRequest Literal.fifoSubBoth)
  | .rearmRx => .request rearmRequest
  | .wirePropWrite g n o d => .transaction (encodeFrame c (.wirePropWrite g n o d))
  | .wireFifoReset sub => .transaction (encodeFrame c (.wireFifoReset sub))
  | .wireStartTx ch cond len => .transaction (encodeFrame c (.wireStartTx ch cond len))
  | .wireStartRx ch cond len t v x => .transaction (encodeFrame c (.wireStartRx ch cond len t v x))
  | .wireWriteTxFifo d => .transaction (encodeFrame c (.wireWriteTxFifo d))
  | .wireReadRxFifo n => .transaction (encodeFrame c (.wireReadRxFifo n))
  | .wireReadCmdBuff n => .transaction (encodeFrame c (.wireReadCmdBuff n))
  | .wireGetIntStatus args => .transaction (encodeFrame c (.wireGetIntStatus args))
  | .wireChangeState code => .transaction (encodeFrame c (.wireChangeState code))
  | .wirePowerUp args => .transaction (encodeFrame c (.wirePowerUp args))

/-- A program's encoding: the list of its requests, one a line (R134). -/
def encodeProgram (c : Config) (p : List Instr) : List Item := p.map (encode c)

/-! ### The word interface

A word numbers its bits as the opcode table does: bits 7..0 are the first byte. The spec lays no request out in bytes
(R130: a pair), so the layout of the operand bytes that follow is the model's own (DESIGN CHOICE, log entry 6): arguments
in tuple order, a byte in one byte, a u16 in two (high first), a count in one, a fixed list in its own length, and a
variable list as one byte. A first byte that is no host-operation code is read as a wire frame of that one kind. -/

/-- Byte `k` of a word. -/
def wordByte (w k : Nat) : Nat := w / 256 ^ k % 256

/-- Bytes `k … k+n-1` of a word. -/
def wordBytes (w k n : Nat) : List Nat := (List.range n).map (fun j => wordByte w (k + j))

/-- A big-endian u16 at byte `k` of a word. -/
def wordHalf (w k : Nat) : Nat := wordByte w k * 256 + wordByte w (k + 1)

/-- The argument tuple that a word carries for a host-operation code, or none if the code is no host operation's. -/
def wordArgs (hop w : Nat) : Option (List Arg) :=
  match hop with
  | 0x01 => some []
  | 0x02 => some [.list (wordBytes w 1 1)]
  | 0x03 => some [.num (wordByte w 1)]
  | 0x04 => some [.num (wordByte w 1)]
  | 0x05 => some [.list (wordBytes w 1 1)]
  | 0x06 => some [.num (wordByte w 1), .num (wordByte w 2), .list (wordBytes w 3 1)]
  | 0x07 => some [.list (wordBytes w 1 1)]
  | 0x08 => some []
  | 0x09 => some []
  | 0x0A => some [.list (wordBytes w 1 Literal.freqLen)]
  | 0x0B => some [.list (wordBytes w 1 Literal.powerLen)]
  | 0x0C => some [.num (wordByte w 1), .num (wordByte w 2), .num (wordHalf w 3)]
  | 0x0D => some [.num (wordByte w 1), .num (wordByte w 2), .num (wordHalf w 3), .num (wordByte w 5),
      .num (wordByte w 6), .num (wordByte w 7)]
  | 0x0E => some [.num (wordByte w 1)]
  | 0x0F => some []
  | 0x10 => some []
  | 0x11 => some []
  | 0x12 => some []
  | 0x13 => some [.list (wordBytes w 1 Literal.frameLen)]
  | 0x14 => some []
  | _ => none

/-- How many payload bytes a wire frame's word carries after its opcode. -/
def wordFrameLen (op : Byte) : Nat :=
  if op = Literal.opFifoReset then 1
  else if op = Literal.opStartTx then 4
  else if op = Literal.opStartRx then 7
  else if op = Config.reference.opChangeState then 1
  else if op = Config.reference.opReadCmdBuff then 1
  else 0

/-- The item that stands for a word of `nbits` bits; every bit above them is 0. -/
def itemOfWord (nbits w : Nat) : Item :=
  let w := w % 2 ^ nbits
  let op := wordByte w 0
  match wordArgs op w with
  | some args => .request ⟨BitVec.ofNat 8 op, args⟩
  | none => .transaction (BitVec.ofNat 8 op :: (wordBytes w 1 (wordFrameLen (BitVec.ofNat 8 op))).map (BitVec.ofNat 8))

/-- The instruction the decoder reads from a word, under the reference parameters. -/
def decodeTableWord (nbits w : Nat) : Option Instr :=
  match decode Config.reference (itemOfWord nbits w) with
  | .ok i => some i
  | .error _ => none

end Sys2Proof
end

