-- ==== Sys2Proof/Machine/State.lean ====
section
/-! DEFINITION. The state of the machine, as plain data: the engine's registers and lines (spec R31 to R48), the
observation (R11), the host's requests (R130), the configuration the model takes as its argument (R8, R50), and the chip
agent (R60 to R68, R210 to R223). -/

namespace Sys2Proof.Machine

/-! ### The bus and the results -/

/-- The bus-event vocabulary (R12). -/
inductive Event where
  | sel
  | desel
  /-- One full-duplex exchange: the engine sends `mosi` and receives `miso`. -/
  | x (mosi miso : Byte)
  | rst (level : Bool)
  | delayUs (n : Nat)
  | delayMs (n : Nat)
  /-- One level sample of the ready line; `true` is asserted, electrically low. -/
  | irq (level : Bool)
  deriving DecidableEq, Repr

/-- The 2-bit status code (R43). -/
inductive Status where
  | ok
  | timeout
  /-- Reserved, never produced (R263). -/
  | busFault
  | refused
  deriving DecidableEq, Repr

/-- The sequencer (R44): the engine has no program counter, and this stands in its place. -/
inductive Seq where
  | idle
  | run (op : Instr) (k : Nat)
  deriving DecidableEq, Repr

/-- The result of one host operation (R15, R131). -/
inductive Result where
  /-- Ok(). -/
  | ok
  /-- Ok(bytes). -/
  | okBytes (l : List Byte)
  /-- Ok(byte). -/
  | okByte (b : Byte)
  /-- Some(frame). -/
  | some (frame : List Byte)
  /-- None. -/
  | none
  /-- Timeout(polls). -/
  | timeout (polls : Nat)
  /-- The request was refused by this check (R133). -/
  | refused (c : Check)
  /-- The operation reached a point with no meaning (R278). -/
  | noMeaning
  deriving DecidableEq, Repr

/-- What the host issued: an operation, or an item that decodes to none. -/
inductive Issued where
  | op (i : Instr)
  | raw (it : Item)
  deriving DecidableEq, Repr

/-- One line of the observation's first list (R11): what was issued, its result, and the status beside it (R261). -/
structure Entry where
  issued : Issued
  result : Result
  status : Status
  deriving DecidableEq, Repr

/-- A buffer: each byte with its written bit (R36 to R38); `none` is unwritten. -/
abbrev Buffer := List (Option Byte)

/-- A memory: cells at strictly rising addresses. An unlisted address has no value (log entry 16). -/
abbrev Memory := List Host.Cell

/-! ### The chip agent -/

/-- The chip's mode (R62, R211). -/
inductive Mode where
  | unknown
  | off
  | boot
  | sleep
  | standbyReady
  | spiActive
  | rxArmed
  | txArmed
  deriving DecidableEq, Repr

/-- Where a command frame comes from (R128): the engine composed it, or the host did with SEND_CMD; or it is one of the
configured frames, a record of CONFIG_TABLE or a frame of BRINGUP_EXTRA, RX_IRQ_ENABLE or TX_IRQ_ENABLE, which leave the
chip's mode as it is (R221, R222; log entry 34). -/
inductive FrameSource where
  | command
  | configuration
  deriving DecidableEq, Repr

/-- A set of interrupt classes. R65 and R272 name these two and leave any other out of the source (N33); DESIGN CHOICE (log
entry 36): the chip has no other, so none but these asserts the ready line. -/
structure IntSet where
  packetReceived : Bool
  packetSent : Bool
  deriving DecidableEq, Repr

/-- A step the chip takes of its own accord under the abstract chip model (R97, R216, R217). -/
inductive ChipMove where
  /-- It acts on the command frame it has taken, before a poll shows that it has (R97, R212). -/
  | act
  | txComplete
  | rxValid (packet : List Byte)
  | rxInvalid
  | rxTimeout
  deriving DecidableEq, Repr

/-- The chip's state under the abstract chip model (R61, R210). In mode `unknown` the other fields carry nothing
(log entry 17). -/
structure Chip where
  mode : Mode
  /-- The readiness flag (R63): false while a command frame is being processed. -/
  cts : Bool
  txFifo : List Byte
  rxFifo : List Byte
  intPending : IntSet
  intEnabled : IntSet
  /-- The property store, at address 256 * group + offset (R66). -/
  props : Memory
  /-- The last START_RX's length and next-state codes (R217). -/
  rxLength : Nat
  onTimeout : Byte
  onValid : Byte
  onInvalid : Byte
  /-- A transmission is in progress, with the last START_TX's length and condition (R215). -/
  txActive : Bool
  txLength : Nat
  txCondition : Byte
  /-- The command frame that the chip has taken and not yet acted on, with where it came from (R97, R212). -/
  taken : Option (FrameSource × List Byte)
  /-- A GET_INT_STATUS frame waits for its response read (R220). -/
  intRead : Bool
  /-- The reset line as the chip sees it (R211). -/
  rstHeld : Bool
  /-- A REPLAY of CONFIG_TABLE has completed since the last reset pulse (R293). -/
  configured : Bool
  /-- ENTER_RX or ENTER_TX was issued in flight: Unknown through that operation, its own reset pulse included (R223). -/
  held : Bool
  deriving DecidableEq, Repr

/-- SimChip (R68). An entry `none` of `busy` never reads 0xFF. -/
structure SimChip where
  busy : List (Option Nat)
  /-- The polls of the handshake at hand that still read busy before one reads 0xFF; none if it never reads 0xFF, and none
  outside a handshake, where no poll does (R68). -/
  current : Option Nat
  rx : List Byte
  irq : List Bool
  /-- The "simulated FIFO loop" form. -/
  loop : Bool
  deriving DecidableEq, Repr

/-- Which law the chip obeys (R60, R225). -/
inductive ChipLaw where
  /-- Every answer is a free draw. -/
  | base
  /-- The abstract chip model, always a premise. -/
  | abstractModel
  /-- The reference simulated chip. -/
  | sim
  deriving DecidableEq, Repr

/-- The chip agent: its law, its free answers, its own moves, the window at hand, and the state each law keeps. -/
structure Agent where
  law : ChipLaw
  /-- Free draws given in advance, oldest first. When none is left, a draw is `Config.freeNat drawn` (log entry 2). -/
  draws : List Nat
  /-- How many draws were taken. -/
  drawn : Nat
  /-- The chip's own moves, if any, at each of its next turns (log entry 22). -/
  plan : List (List ChipMove)
  /-- MOSI bytes of the open select window. -/
  window : List Byte
  /-- Where the last command frame came from (log entry 34). -/
  source : FrameSource
  chip : Chip
  sim : SimChip
  deriving DecidableEq, Repr

/-! ### The machine -/

/-- The state of the machine. -/
structure State where
  /-- The parameters of R8. No operation writes them (R50). -/
  cfg : Config
  /-- Requests issued and not yet taken, oldest first (R130). -/
  pending : List Item
  sel : Bool
  rst : Bool
  /-- The ready line as last sampled (R33). -/
  irq : Bool
  cmdBuf : Buffer
  respBuf : Buffer
  rxStage : Buffer
  rxValid : Bool
  pollCount : Nat
  lastCts : Option Byte
  cursor : Nat
  status : Status
  seq : Seq
  /-- Sticky mark: a request was refused (R47). -/
  refused : Bool
  /-- Sticky mark: the model reached a point with no meaning (R48). -/
  fault : Bool
  /-- The bus trace, oldest event first (R11). -/
  trace : List Event
  /-- The requests with their results, oldest first (R11). -/
  log : List Entry
  agent : Agent
  deriving DecidableEq, Repr

/-- The reasons the machine stops. -/
inductive Fault where
  /-- Raised by every meaning and by the refusal of an item when `seq` is not IDLE: the host issued a request while an
  operation runs, an action with no move (R46, R305 (a)). Safe: the run is stuck there and nothing is claimed of it. -/
  | requestWhileRunning
  deriving DecidableEq, Repr

/-- The reasons the machine gives a step no meaning. -/
inductive Refusal where
  /-- Raised by exec's arm of an instruction that has no meaning yet. Safe. -/
  | notModelled (mnemonic : String)
  /-- Raised by step when the configuration fails its admission: the run does not start (R133). Safe. -/
  | configurationNotAdmitted
  deriving DecidableEq, Repr

/-- A chip in mode Unknown (R62). -/
def Chip.unknown : Chip where
  mode := .unknown
  cts := false
  txFifo := []
  rxFifo := []
  intPending := ⟨false, false⟩
  intEnabled := ⟨false, false⟩
  props := []
  rxLength := 0
  onTimeout := 0
  onValid := 0
  onInvalid := 0
  txActive := false
  txLength := 0
  txCondition := 0
  taken := none
  intRead := false
  rstHeld := false
  configured := false
  held := false

/-- SimChip with empty inputs: always ready, and no handshake has begun. -/
def SimChip.ready : SimChip where
  busy := []
  current := none
  rx := []
  irq := []
  loop := false

/-- The chip agent at engine reset: the base model, mode Unknown (R52, R60, R291). -/
def Agent.reset : Agent where
  law := .base
  draws := []
  drawn := 0
  plan := []
  window := []
  source := .command
  chip := Chip.unknown
  sim := SimChip.ready

/-- Engine reset, the start of a run, under a configuration (R52, R290). -/
def State.resetWith (c : Config) : State where
  cfg := c
  pending := []
  sel := false
  rst := false
  irq := false
  cmdBuf := List.replicate c.cmdBufCap none
  respBuf := List.replicate c.respBufCap none
  rxStage := List.replicate Literal.frameLen none
  rxValid := false
  pollCount := 0
  lastCts := none
  cursor := 0
  status := .ok
  seq := .idle
  refused := false
  fault := false
  trace := []
  log := []
  agent := Agent.reset

/-- Engine reset under the reference parameters (log entry 1). -/
def State.reset : State := State.resetWith Config.reference

end Sys2Proof.Machine
end

