-- ==== Sys2Proof/Machine/Memory.lean ====
section
/-! DEFINITION. The memory operations: the chip's property store (spec R66, R82) as one canonical list of cells, and the
engine's buffers (R36 to R38, R85) with their written bits. -/

namespace Sys2Proof.Machine

/-! ### Cells -/

/-- The canonical form: addresses strictly rising. (An unlisted address has no value, so no entry can equal it.) -/
def Memory.wf : Memory → Bool
  | [] => true
  | [_] => true
  | (a, _) :: (b, v) :: rest => decide (a < b) && Memory.wf ((b, v) :: rest)

/-- What an unlisted address reads as: no value (log entry 16). -/
def unlisted : Option Byte := none

/-- One byte of memory. -/
def Memory.read (a : Nat) : Memory → Option Byte
  | [] => unlisted
  | (b, v) :: rest => if a = b then some v else Memory.read a rest

/-- Write one byte, keeping the canonical form. -/
def Memory.write (a : Nat) (v : Byte) : Memory → Memory
  | [] => [(a, v)]
  | (b, w) :: rest =>
    if a < b then (a, v) :: (b, w) :: rest
    else if a = b then (a, v) :: rest
    else (b, w) :: Memory.write a v rest

/-- Write a run of bytes at consecutive addresses. -/
def Memory.writeRun : Nat → List Byte → Memory → Memory
  | _, [], m => m
  | a, v :: vs, m => Memory.writeRun (a + 1) vs (Memory.write a v m)

/-- The address of property (group, offset) (R66, R82). -/
def propAddress (group : Byte) (offset : Nat) : Nat := 256 * group.toNat + offset

/-! ### Buffers -/

/-- Write bytes 0..n-1 of a buffer; bytes n.. stay as they were (R37). -/
def overwrite (l : List Byte) (b : Buffer) : Buffer := l.map some ++ b.drop l.length

/-- Read bytes 0..n-1 of a buffer, or none if one of them is unwritten (R48). -/
def readBuffer : Nat → Buffer → Option (List Byte)
  | 0, _ => some []
  | _ + 1, [] => none
  | _ + 1, none :: _ => none
  | n + 1, some b :: rest => (readBuffer n rest).map (b :: ·)

/-- `MemRead(T, a, n)`: bytes a..a+n-1 of a configuration table, or none if one is outside it (R14, R181). -/
def memRead (t : List Byte) (a n : Nat) : Option (List Byte) :=
  if a + n ≤ t.length then some ((t.drop a).take n) else none

end Sys2Proof.Machine
end

