-- ==== Sys2Proof/Machine/Chip.lean ====
section
/-! DEFINITION. The abstract chip model (spec R61 to R66, R210 to R224): what each wire frame and each of the chip's own
moves does to the chip's mode, readiness, FIFOs, interrupts and property store. It is a premise about the chip, in force
only under the law `abstractModel` (R225). -/

namespace Sys2Proof.Machine

/-! ### Modes -/

/-- The chip enters Unknown: every answer from here on is a free draw, and nothing else is known (R62, R223). -/
def Chip.lost (h : Chip) : Chip := { Chip.unknown with rstHeld := h.rstHeld, held := h.held }

/-- The mode named by a next-state code (R218). -/
def nextMode (code : Byte) (current : Mode) : Mode :=
  if code = Literal.codeNoChange then current
  else if code = Literal.codeStandby then .standbyReady
  else .unknown

/-- Enter a mode; entering Unknown loses the rest. -/
def Chip.enter (m : Mode) (h : Chip) : Chip := if m = .unknown then h.lost else { h with mode := m }

/-- The chip is powered and known: it obeys command frames and FIFO accesses. No rule says what a chip in Sleep does with
them, nor what it keeps (R277); DESIGN CHOICE (log entry 35): the same as in the other powered modes. No rule leads the
chip into Sleep or SPI-Active. -/
def Mode.powered : Mode → Bool
  | .unknown => false
  | .off => false
  | .boot => false
  | .sleep => true
  | .standbyReady => true
  | .spiActive => true
  | .rxArmed => true
  | .txArmed => true

/-- A class joins the pending set if it is enabled (R216, R217). -/
def Chip.raiseReceived (h : Chip) : Chip :=
  { h with intPending := { h.intPending with packetReceived := h.intPending.packetReceived || h.intEnabled.packetReceived } }

/-- As `raiseReceived`, for packet-sent. -/
def Chip.raiseSent (h : Chip) : Chip :=
  { h with intPending := { h.intPending with packetSent := h.intPending.packetSent || h.intEnabled.packetSent } }

/-- The ready line is asserted exactly when a class is pending (R65). -/
def Chip.irqLevel (h : Chip) : Bool := h.intPending.packetReceived || h.intPending.packetSent

/-! ### Command frames -/

/-- A transmission in progress ends without completing (R214). It has taken nothing from the TX FIFO (R224: unchanged;
log entry 19). -/
def Chip.cutTx (h : Chip) : Chip := { h with txActive := false }

/-- The part of a property run that lies inside its group: an offset is one byte (R82, R112). -/
def inGroup (offset : Byte) (data : List Byte) : List Byte := data.take (256 - offset.toNat)

/-- A property-group write stores its run (R66, R221); a wrong count makes the chip Unknown (R66, R223). Bytes past offset 0xFF
name no property and are not stored (log entry 16). -/
def Chip.propWrite (group count offset : Byte) (data : List Byte) (h : Chip) : Chip :=
  if count.toNat = data.length then
    { h with props := Memory.writeRun (propAddress group offset.toNat) (inGroup offset data) h.props }
  else h.lost

/-- FIFO_RESET: bit 0 empties the TX FIFO, bit 1 the RX FIFO (R113, R219). -/
def Chip.fifoReset (sub : Byte) (h : Chip) : Chip :=
  { h with
    txFifo := if sub.getLsbD 0 then [] else h.txFifo
    rxFifo := if sub.getLsbD 1 then [] else h.rxFifo }

/-- GET_INT_STATUS: acting on the frame empties the pending set (R65), and its response read will do so again (R220). -/
def Chip.intStatus (h : Chip) : Chip := { h with intRead := true, intPending := ⟨false, false⟩ }

/-- START_TX (R215): Tx-Armed; with start field 0 a transmission is in progress. U10 leaves every condition but 0x30
open: that R215 holds of them all, and that a start field other than 0 starts no transmission, is DEDUCED (log entry
20). A length beyond the TX FIFO (U9), a length of 0 (U11), or no completed configuration replay (R293, log entry 25)
makes the chip Unknown. -/
def Chip.startTx (condition : Byte) (length : Half) (h : Chip) : Chip :=
  if ¬ h.configured ∨ length = 0 ∨ h.txFifo.length < length.toNat then h.lost
  else { h with
    mode := .txArmed
    txActive := decide (condition.extractLsb' 0 2 = 0#2)
    txLength := length.toNat
    txCondition := condition }

/-- START_RX (R217): Rx-Armed, with the three next-state codes recorded. Length 0 (U11) and no completed configuration
replay (R293, log entry 25) make the chip Unknown. -/
def Chip.startRx (length : Half) (onTimeout onValid onInvalid : Byte) (h : Chip) : Chip :=
  if ¬ h.configured ∨ length = 0 then h.lost
  else { h.cutTx with
    mode := .rxArmed
    rxLength := length.toNat
    onTimeout := onTimeout
    onValid := onValid
    onInvalid := onInvalid }

/-- What a decoded command frame does to a powered chip. A frame whose fields no rule describes makes it Unknown (R129).
FIFO and poll frames do not come here: they are no command frames (R212). -/
def Chip.obey (c : Config) (i : Instr) (h : Chip) : Chip :=
  match i with
  | .wirePropWrite g n o d => h.propWrite g n o d
  | .wireFifoReset sub => if i.wireFieldsOk c then h.fifoReset sub else h.lost
  | .wireStartTx _ cond len => h.startTx cond len
  | .wireStartRx _ _ len t v x => h.startRx len t v x
  | .wireGetIntStatus _ => if i.wireFieldsOk c then h.intStatus else h.lost
  | .wireChangeState _ => if i.wireFieldsOk c then { h.cutTx with mode := .standbyReady } else h.lost
  | .wirePowerUp _ => h.lost
  | _ => h.lost

/-- What a decoded configured frame does to a powered chip: it leaves the mode as it is (R222, D42), and it acts on what else
this model tracks as the rules of its kind say (R66, R219, R220). -/
def Chip.configure (c : Config) (i : Instr) (h : Chip) : Chip :=
  match i with
  | .wirePropWrite g n o d => h.propWrite g n o d
  | .wireFifoReset sub => if i.wireFieldsOk c then h.fifoReset sub else h
  | .wireGetIntStatus _ => if i.wireFieldsOk c then h.intStatus else h
  | _ => h

/-- The effect of a command frame on a powered chip, by where it comes from. One that does not decode makes the chip Unknown
(R129, R222), unless it is a configured frame that is no property-group write (R222, R223). -/
def Chip.effect (c : Config) (source : FrameSource) (frame : List Byte) (h : Chip) : Chip :=
  match decodeFrame c frame, source with
  | .ok i, .command => h.obey c i
  | .ok i, .configuration => h.configure c i
  | .error _, .command => h.lost
  | .error _, .configuration => if frame.head? = some Literal.opSetProperty then h.lost else h

/-- The interrupt-enable frames (R65, R221). DESIGN CHOICE (log entry 34): the bytes alone decide. R221 speaks of "an
RX_IRQ_ENABLE frame" and R272 of the frames of bring-up; here the same bytes enable the class whoever sends them, by
SEND_CMD, a wire row, SET_PROPERTY or a CONFIG_TABLE record too. -/
def Chip.enableInts (c : Config) (frame : List Byte) (h : Chip) : Chip :=
  { h with intEnabled :=
    { packetReceived := h.intEnabled.packetReceived || decide (frame ∈ c.rxIrqEnable)
      packetSent := h.intEnabled.packetSent || decide (frame ∈ c.txIrqEnable) } }

/-- A frame whose effect stands from its arrival on. A transmission is in flight "from the START_TX frame" until a "STANDBY
frame" (R207; 90_conflicts.md C11), and R224 gives the modes after START_TX and STANDBY, which wait for no poll. -/
def atOnce (c : Config) (source : FrameSource) (frame : List Byte) : Bool :=
  decide (source = .command) &&
    (decide (frame.head? = some Literal.opStartTx) || decide (frame.head? = some c.opChangeState))

/-- A command frame has arrived (R212). To a busy chip it makes it Unknown. In Off too: R211 leaves only the chip's answers
free there, and R300 speaks of POWER_UP_FRAME alone; for every other frame DESIGN CHOICE (log entry 30). In Boot only
POWER_UP_FRAME is accepted (R211, R213). A powered chip whose mode the frame leaves known takes it and is busy; unless the
frame acts at once, the chip has yet to act on it (R97). -/
def Chip.command (c : Config) (source : FrameSource) (frame : List Byte) (h : Chip) : Chip :=
  if h.mode = .unknown then h
  else if ¬ h.cts ∨ h.mode = .off then h.lost
  else if h.mode = .boot then
    if frame = c.powerUpFrame then { h with cts := false, taken := some (source, frame) } else h.lost
  else
    let k : Chip := { h with intRead := false }
    let g := k.effect c source frame
    if g.mode = .unknown then g
    else { (if atOnce c source frame then g else k) with cts := false, taken := some (source, frame) }

/-- The chip acts on the frame it has taken (R97): in Boot, POWER_UP leads to Standby/Ready (R213). -/
def Chip.act (c : Config) (h : Chip) : Chip :=
  match h.taken with
  | none => h
  | some (source, frame) =>
    let g : Chip := { h with taken := none }
    if h.mode = .boot then { g with mode := .standbyReady }
    else if ¬ h.mode.powered then g
    else (if atOnce c source frame then g else g.effect c source frame).enableInts c frame

/-- A busy chip's poll reads 0xFF: it has processed its command frame, acting on it by now at the latest (R97, R212). -/
def Chip.processed (c : Config) (h : Chip) : Chip := { h.act c with cts := true }

/-! ### The chip's own moves (R97, R216, R217) -/

/-- The mode after a transmission, from the mode it ends in: the one that the condition's bits [7:4] name, read as a
next-state code (R115, R216, D32). Bits [3:2] have no meaning in any rule, so a condition that sets one of them leaves the
chip Unknown (U10, log entry 20). -/
def afterTx (condition : Byte) (current : Mode) : Mode :=
  if condition.extractLsb' 2 2 = 0#2 then nextMode ((condition.extractLsb' 4 4).setWidth 8) current else .unknown

/-- A transmission completes (R216). The spec does not say when its bytes leave the TX FIFO; DESIGN CHOICE (log entry 19):
all of them do at this step, from what then stands at the head. A write before it counts them against FIFO_CAP, and after
a FIFO reset before it the bytes written since take their place. -/
def Chip.txComplete (h : Chip) : Chip :=
  if h.mode = .txArmed ∧ h.txActive then
    (({ h with txFifo := h.txFifo.drop h.txLength, txActive := false } : Chip).raiseSent).enter
      (afterTx h.txCondition h.mode)
  else h

/-- A valid packet of the armed length arrives (R217 (a), R218); it overflows the RX FIFO or joins it (R64). -/
def Chip.rxValid (c : Config) (packet : List Byte) (h : Chip) : Chip :=
  if h.mode = .rxArmed ∧ packet.length = h.rxLength then
    if c.fifoCap < h.rxFifo.length + packet.length then h.lost
    else (({ h with rxFifo := h.rxFifo ++ packet } : Chip).raiseReceived).enter (nextMode h.onValid h.mode)
  else h

/-- An invalid packet (R217 (b)). -/
def Chip.rxInvalid (h : Chip) : Chip := if h.mode = .rxArmed then h.enter (nextMode h.onInvalid h.mode) else h

/-- A preamble timeout (R217 (c)). -/
def Chip.rxTimeout (h : Chip) : Chip := if h.mode = .rxArmed then h.enter (nextMode h.onTimeout h.mode) else h

/-- One of the chip's own moves. A move that the chip's state does not allow changes nothing. -/
def Chip.move (c : Config) (m : ChipMove) (h : Chip) : Chip :=
  match m with
  | .act => h.act c
  | .txComplete => h.txComplete
  | .rxValid packet => h.rxValid c packet
  | .rxInvalid => h.rxInvalid
  | .rxTimeout => h.rxTimeout

/-- Any number of the chip's own moves, in order. -/
def Chip.moves (c : Config) : List ChipMove → Chip → Chip
  | [], h => h
  | m :: ms, h => Chip.moves c ms (h.move c m)

/-! ### FIFO transactions and response reads -/

/-- WRITE_TX_FIFO appends its data in wire order; an overflow has no meaning (R64). In Off it makes the chip Unknown: DESIGN
CHOICE (log entry 30), and in Boot as well, where only POWER_UP is accepted (R211). -/
def Chip.pushTx (c : Config) (data : List Byte) (h : Chip) : Chip :=
  if h.mode = .unknown then h
  else if ¬ h.mode.powered ∨ c.fifoCap < h.txFifo.length + data.length then h.lost
  else { h with txFifo := h.txFifo ++ data }

/-- A response read after GET_INT_STATUS empties the pending set (R220). `reads` counts the dummy bytes after the
poll's opcode: one for the CTS byte, the rest for the response. -/
def Chip.afterRead (reads : Nat) (h : Chip) : Chip :=
  if h.mode ≠ .unknown ∧ h.intRead ∧ h.cts ∧ 2 ≤ reads then
    { h with intPending := ⟨false, false⟩, intRead := false }
  else h

/-! ### The reset line, the settle time, and the host's obligations -/

/-- An edge of the reset line (R211). The Unknown of an operation issued in flight is not lifted by its own pulse (R223). -/
def Chip.reset (level : Bool) (h : Chip) : Chip :=
  if h.held then { h with rstHeld := level }
  else if level then { Chip.unknown with mode := .off, rstHeld := true }
  else { h with rstHeld := false }

/-- A delay of at least T_SETTLE_MS after the release leads to Boot (R211), with no frame at hand and ready for the POWER_UP
frame (log entry 14). -/
def Chip.settle (c : Config) (ms : Nat) (h : Chip) : Chip :=
  if h.mode = .off ∧ ¬ h.rstHeld ∧ c.tSettleMs ≤ ms then { h with mode := .boot, cts := true, taken := none } else h

/-- The operations that run a bring-up (R204). -/
def Instr.bringsUp : Instr → Bool
  | .enterRx => true
  | .enterTx => true
  | _ => false

/-- The operations that must not come before a completed configuration replay (R293). -/
def Instr.needsReplay : Instr → Bool
  | .startTx _ _ _ => true
  | .startRx _ _ _ _ _ _ => true
  | .sendFrame _ => true
  | .tryReceive => true
  | _ => false

/-- The host issues an operation: a bring-up in flight (R207, R223, R302), or a TX or RX operation before the
configuration replay (R293), makes the chip Unknown. -/
def Chip.request (i : Instr) (h : Chip) : Chip :=
  if Instr.bringsUp i then if h.mode = .txArmed then { h.lost with held := true } else h
  else if Instr.needsReplay i ∧ ¬ h.configured then h.lost
  else h

/-- A REPLAY of CONFIG_TABLE has completed (R293). -/
def Chip.replayed (h : Chip) : Chip := if h.mode = .unknown then h else { h with configured := true }

end Sys2Proof.Machine
end

