-- ==== Sys2Proof/Machine/Agent.lean ====
section
/-! DEFINITION. The chip agent at the bus (spec R60): how each bus event reaches it and what it answers, under each of its
three laws. The engine calls these functions and reads nothing of the agent but the answers. -/

namespace Sys2Proof.Machine

/-! ### Free draws and the chip's turns -/

/-- One free draw (R60): the next of those given in advance, or else the model's free value. -/
def Agent.draw (a : Agent) : Nat × Agent :=
  match a.draws with
  | d :: rest => (d, { a with draws := rest, drawn := a.drawn + 1 })
  | [] => (Config.freeNat a.drawn, { a with drawn := a.drawn + 1 })

/-- A free byte. -/
def Agent.drawByte (a : Agent) : Byte × Agent := (BitVec.ofNat 8 a.draw.1, a.draw.2)

/-- The chip's turn: under the abstract model it makes the next moves of its plan (R216, R217, log entry 22). -/
def Agent.turn (c : Config) (a : Agent) : Agent :=
  match a.law with
  | .abstractModel =>
    match a.plan with
    | [] => a
    | ms :: rest => { a with plan := rest, chip := Chip.moves c ms a.chip }
  | .base => a
  | .sim => a

/-! ### Answers under the abstract chip model -/

/-- The CTS byte of a poll (R63, R212): 0xFF from a ready chip; from a busy one a free draw, where 0xFF means that it has
processed its frame. -/
def Agent.modelCts (c : Config) (a : Agent) : Byte × Agent :=
  if a.chip.cts then (Literal.ctsReady, a)
  else
    let d := a.drawByte
    if d.1 = Literal.ctsReady then (d.1, { d.2 with chip := d.2.chip.processed c }) else d

/-- The next byte of the RX FIFO; an empty queue has no meaning (R64). -/
def Agent.modelRx (a : Agent) : Byte × Agent :=
  match a.chip.rxFifo with
  | b :: rest => (b, { a with chip := { a.chip with rxFifo := rest } })
  | [] => ({ a with chip := a.chip.lost } : Agent).drawByte

/-- The MISO byte under the abstract chip model, by what the window holds so far. A read of the RX FIFO in Boot, where
only POWER_UP is accepted (R211), makes the chip Unknown at its first byte (DEDUCED, log entry 30). -/
def Agent.modelAnswer (c : Config) (a : Agent) : Byte × Agent :=
  match a.window with
  | [] => a.drawByte
  | op :: args =>
    if a.chip.mode = .unknown ∨ a.chip.mode = .off then a.drawByte
    else if op = Literal.opReadRxFifo then
      if a.chip.mode.powered then a.modelRx else ({ a with chip := a.chip.lost } : Agent).drawByte
    else if op = c.opReadCmdBuff ∧ args = [] then a.modelCts c
    else a.drawByte

/-- A window closes under the abstract chip model: a poll or response read, a FIFO transaction, or a command frame. The
FIFO-read opcode alone (READ_RX_FIFO 0, SEND_CMD of that one byte) reads nothing and leaves the chip as it is. In Boot
too, where no rule gives it an effect (R157, R211): DESIGN CHOICE (log entry 30). -/
def Agent.modelClose (c : Config) (a : Agent) : Agent :=
  match a.window with
  | [] => a
  | op :: args =>
    if op = Literal.opWriteTxFifo then { a with chip := a.chip.pushTx c args }
    else if op = Literal.opReadRxFifo then a
    else if op = c.opReadCmdBuff then { a with chip := a.chip.afterRead args.length }
    else { a with chip := a.chip.command c a.source (op :: args) }

/-! ### Answers of SimChip (R68) -/

/-- SimChip's CTS byte: 0x00 while busy polls are left in this handshake, then 0xFF, which ends the handshake. Outside a
handshake a poll reads 0x00, as every other answer does (R68). -/
def SimChip.poll (h : SimChip) : Byte × SimChip :=
  match h.current with
  | none => (0x00, h)
  | some 0 => (Literal.ctsReady, { h with current := none })
  | some (k + 1) => (0x00, { h with current := some k })

/-- SimChip's next RX FIFO byte, which it takes from the queue; 0x00 from an empty queue (R68). In the loop form too a read
consumes what it answers; DESIGN CHOICE (log entry 26): R68 does not say what a second read without a new write answers. -/
def SimChip.read (h : SimChip) : Byte × SimChip :=
  match h.rx with
  | [] => (0x00, h)
  | b :: rest => (b, { h with rx := rest })

/-- SimChip's MISO byte. -/
def SimChip.answer (c : Config) (window : List Byte) (h : SimChip) : Byte × SimChip :=
  match window with
  | [] => (0x00, h)
  | op :: args =>
    if op = Literal.opReadRxFifo then h.read
    else if op = c.opReadCmdBuff ∧ args = [] then h.poll
    else (0x00, h)

/-- A window closes: the simulated FIFO loop puts the bytes of this WRITE_TX_FIFO in the place of what the queue held
(R68). -/
def SimChip.close (window : List Byte) (h : SimChip) : SimChip :=
  match window with
  | [] => h
  | op :: args => if h.loop ∧ op = Literal.opWriteTxFifo then { h with rx := args } else h

/-- A new handshake begins: the next entry of `busy`, or ready if there is none. -/
def SimChip.handshake (h : SimChip) : SimChip :=
  match h.busy with
  | [] => { h with current := some 0 }
  | b :: rest => { h with busy := rest, current := b }

/-- SimChip's next ready-line sample. -/
def SimChip.sample (h : SimChip) : Bool × SimChip :=
  match h.irq with
  | [] => (false, h)
  | v :: rest => (v, { h with irq := rest })

/-! ### The agent at each bus event -/

/-- `SEL`. -/
def Agent.onSel (c : Config) (a : Agent) : Agent := { a.turn c with window := [] }

/-- `X(m, s)`: the answer, and the window with `m` in it. -/
def Agent.onExchange (c : Config) (m : Byte) (a : Agent) : Byte × Agent :=
  let b := a.turn c
  match b.law with
  | .base => (b.drawByte.1, { b.drawByte.2 with window := b.window ++ [m] })
  | .abstractModel => ((b.modelAnswer c).1, { (b.modelAnswer c).2 with window := b.window ++ [m] })
  | .sim => ((b.sim.answer c b.window).1, { b with sim := (b.sim.answer c b.window).2, window := b.window ++ [m] })

/-- `DESEL`. -/
def Agent.onDesel (c : Config) (a : Agent) : Agent :=
  let b := a.turn c
  match b.law with
  | .base => { b with window := [] }
  | .abstractModel => { b.modelClose c with window := [] }
  | .sim => { b with sim := b.sim.close b.window, window := [] }

/-- `RST(level)`. -/
def Agent.onRst (c : Config) (level : Bool) (a : Agent) : Agent :=
  let b := a.turn c
  match b.law with
  | .base => b
  | .abstractModel => { b with chip := b.chip.reset level }
  | .sim => b

/-- `DELAY_US(n)`: nothing of the chip depends on it (R308). -/
def Agent.onDelayUs (c : Config) (a : Agent) : Agent := a.turn c

/-- `DELAY_MS(n)`. -/
def Agent.onDelayMs (c : Config) (ms : Nat) (a : Agent) : Agent :=
  let b := a.turn c
  match b.law with
  | .base => b
  | .abstractModel => { b with chip := b.chip.settle c ms }
  | .sim => b

/-- `IRQ?(v)`: the sample (R60, R65). -/
def Agent.onSample (c : Config) (a : Agent) : Bool × Agent :=
  let b := a.turn c
  match b.law with
  | .base => (decide (b.draw.1 % 2 = 1), b.draw.2)
  | .abstractModel =>
    if b.chip.mode = .unknown ∨ b.chip.mode = .off then (decide (b.draw.1 % 2 = 1), b.draw.2)
    else (b.chip.irqLevel, b)
  | .sim => (b.sim.sample.1, { b with sim := b.sim.sample.2 })

/-! ### What the agent is told beside the bus (log entries 25, 26) -/

/-- A handshake begins: SimChip counts handshakes (R68). -/
def Agent.onHandshake (a : Agent) : Agent :=
  match a.law with
  | .base => a
  | .abstractModel => a
  | .sim => { a with sim := a.sim.handshake }

/-- The host issues an operation (R207, R293). -/
def Agent.onRequest (i : Instr) (a : Agent) : Agent :=
  match a.law with
  | .base => a
  | .abstractModel => { a with chip := a.chip.request i }
  | .sim => a

/-- The operation has ended (R223: the Unknown of one issued in flight outlasts it and falls to a later pulse). -/
def Agent.onEnd (a : Agent) : Agent :=
  match a.law with
  | .base => a
  | .abstractModel => { a with chip := { a.chip with held := false } }
  | .sim => a

/-- A Timeout leaves the chip Unknown (R223, R265). SimChip's handshake has ended (R68). -/
def Agent.onTimeout (a : Agent) : Agent :=
  match a.law with
  | .base => a
  | .abstractModel => { a with chip := { a.chip.lost with held := false } }
  | .sim => { a with sim := { a.sim with current := none } }

/-- A REPLAY of CONFIG_TABLE has completed (R293). -/
def Agent.onReplayed (a : Agent) : Agent :=
  match a.law with
  | .base => a
  | .abstractModel => { a with chip := a.chip.replayed }
  | .sim => a

end Sys2Proof.Machine
end

