-- ==== Sys2Proof/Machine/Flags.lean ====
section
/-! DEFINITION. The engine's flag register and marks (spec R43, R47 to R49), the electrical levels of its lines (R31 to
R33), and the observation's log (R11). There are no condition codes (R49). -/

namespace Sys2Proof.Machine

/-- The 2-bit code of a status (R43, D48). -/
def Status.code : Status → BitVec 2
  | .ok => 0
  | .timeout => 1
  | .busFault => 2
  | .refused => 3

/-- `status <- v` (R261). -/
def setStatus (v : Status) (s : State) : State := { s with status := v }

/-- `refused <- 1`, sticky (R47). -/
def markRefused (s : State) : State := { s with refused := true }

/-- `fault <- 1`, sticky (R48). -/
def markFault (s : State) : State := { s with fault := true }

/-- `seq <- v` (R45). -/
def setSeq (v : Seq) (s : State) : State := { s with seq := v }

/-- One step of the running operation is done: `RUN(op, k)` becomes `RUN(op, k+1)` (R45). -/
def stepDone (s : State) : State :=
  match s.seq with
  | .idle => s
  | .run op k => { s with seq := .run op (k + 1) }

/-- The host receives the result together with `status` (R261). -/
def record (w : Issued) (r : Result) (s : State) : State := { s with log := s.log ++ [⟨w, r, s.status⟩] }

/-- The electrical level of the device-select line (R31, D3). -/
def selPin (s : State) : Bool := if s.sel then s.cfg.selActiveLevel else !s.cfg.selActiveLevel

/-- The electrical level of the reset line (R32, D4). -/
def rstPin (s : State) : Bool := if s.rst then s.cfg.rstActiveLevel else !s.cfg.rstActiveLevel

/-- The electrical level of the ready line as last sampled: asserted is low (R33, D5). -/
def irqPin (s : State) : Bool := !s.irq

end Sys2Proof.Machine
end

