-- ==== Sys2Proof/Machine/Operands.lean ====
section
/-! DEFINITION. The operand forms: the frames the engine composes from its arguments and parameters (spec R112 to R124,
R126, R127), and how a plan cuts its argument (R198, R199). -/

namespace Sys2Proof.Machine

/-- The property-group write frame; the count byte is computed from the data (R112, R127). -/
def propFrame (group offset : Byte) (data : List Byte) : List Byte :=
  Literal.opSetProperty :: group :: BitVec.ofNat 8 data.length :: offset :: data

/-- `[0x15, sub]` (R113). -/
def fifoResetFrame (sub : Byte) : List Byte := [Literal.opFifoReset, sub]

/-- The START_TX frame, length big-endian (R114, R126). -/
def startTxFrame (channel condition : Byte) (length : Half) : List Byte :=
  [Literal.opStartTx, channel, condition, hi8 length, lo8 length]

/-- The START_RX frame, length big-endian (R116, R126). -/
def startRxFrame (channel condition : Byte) (length : Half) (onTimeout onValid onInvalid : Byte) : List Byte :=
  [Literal.opStartRx, channel, condition, hi8 length, lo8 length, onTimeout, onValid, onInvalid]

/-- The start_rx frame with REARM_ARGS (R8), which RX_ARM_ARGS equals (D21). -/
def rearmFrame : List Byte :=
  startRxFrame Literal.rearmChannel Literal.rearmCondition Literal.frameLength
    Literal.rearmOnTimeout Literal.rearmOnValid Literal.rearmOnInvalid

/-- The start_tx frame of SEND_FRAME (R242). -/
def sendTxFrame : List Byte := startTxFrame Literal.sendChannel Literal.sendCondition Literal.frameLength

/-- `[OP_GET_INT_STATUS] ++ INT_CLR_ARGS` (R122). -/
def intStatusFrame (c : Config) : List Byte := c.opGetIntStatus :: c.intClrArgs

/-- `[OP_CHANGE_STATE, STANDBY_CODE]` (R124). -/
def standbyFrame (c : Config) : List Byte := [c.opChangeState, c.standbyCode]

/-- `p[i .. i+n-1]` for a plan entry (R198). -/
def planSlice (p : List Byte) (e : PlanEntry) : List Byte := (p.drop e.start).take e.count

end Sys2Proof.Machine
end

