-- ==== Sys2Proof/Machine/Ops.lean ====
section
/-! DEFINITION. The shared operations: the bus primitives (spec R14, R151), one poll (R120, R121), the end of an operation
by completion, by the abort path (R265) or by refusal (R133), and the frame every host operation runs in (R45, R46). -/

namespace Sys2Proof.Machine

/-! ### Control flow inside an operation -/

/-- How a part of an operation ends: with a value; by `raise Timeout(polls)` (R14); or at a point with no meaning (R278). -/
inductive Flow (α : Type) where
  | ok (a : α) (s : State)
  | timeout (polls : Nat) (s : State)
  | fault (s : State)

/-- Go on after a part that ended with a value; a Timeout passes unchanged and nothing more runs (R160, R266). -/
def Flow.bind {α β : Type} (x : Flow α) (f : α → State → Flow β) : Flow β :=
  match x with
  | .ok a s => f a s
  | .timeout n s => .timeout n s
  | .fault s => .fault s

/-- A step of an operation. -/
abbrev Step := State → Flow Unit

/-- A step that cannot fail. -/
def lift (f : State → State) : Step := fun s => .ok () (f s)

/-- A nested sequence: each step in turn (R45). -/
def chain : List Step → Step
  | [], s => .ok () s
  | f :: fs, s => (f s).bind fun _ t => chain fs t

/-- The steps of the outermost operation: after each, `seq` moves on (R45). -/
def counted (fs : List Step) : List Step := fs.map fun f s => (f s).bind fun _ t => .ok () (stepDone t)

/-! ### Bus primitives (R14, R151) -/

/-- `Sel()`. -/
def selOn (s : State) : State :=
  { s with sel := true, trace := s.trace ++ [.sel], agent := s.agent.onSel s.cfg }

/-- `Desel()`. -/
def selOff (s : State) : State :=
  { s with sel := false, trace := s.trace ++ [.desel], agent := s.agent.onDesel s.cfg }

/-- The chip's answer to `Xfer(m)` (R60, R150). -/
def xferByte (m : Byte) (s : State) : Byte := (s.agent.onExchange s.cfg m).1

/-- `Xfer(m)`, the state after it. -/
def xfer (m : Byte) (s : State) : State :=
  { s with trace := s.trace ++ [.x m (xferByte m s)], agent := (s.agent.onExchange s.cfg m).2 }

/-- `WriteByte` for each byte of a list, answers discarded. -/
def writeBytes : List Byte → State → State
  | [], s => s
  | m :: ms, s => writeBytes ms (xfer m s)

/-- `ReadByte` `n` times: the bytes. -/
def readBytes : Nat → State → List Byte
  | 0, _ => []
  | n + 1, s => xferByte Literal.dummyByte s :: readBytes n (xfer Literal.dummyByte s)

/-- `ReadByte` `n` times: the state after. -/
def afterReads : Nat → State → State
  | 0, s => s
  | n + 1, s => afterReads n (xfer Literal.dummyByte s)

/-- `Rst(b)` (R32). -/
def setRst (b : Bool) (s : State) : State :=
  { s with rst := b, trace := s.trace ++ [.rst b], agent := s.agent.onRst s.cfg b }

/-- `DelayUs(n)` (R308). -/
def delayUs (n : Nat) (s : State) : State :=
  { s with trace := s.trace ++ [.delayUs n], agent := s.agent.onDelayUs s.cfg }

/-- `DelayMs(n)` (R308). -/
def delayMs (n : Nat) (s : State) : State :=
  { s with trace := s.trace ++ [.delayMs n], agent := s.agent.onDelayMs s.cfg n }

/-- `ReadIrq()`: one level sample (R33). The sample stands in `irq`. -/
def sampleIrq (s : State) : State :=
  { s with
    irq := (s.agent.onSample s.cfg).1
    trace := s.trace ++ [.irq (s.agent.onSample s.cfg).1]
    agent := (s.agent.onSample s.cfg).2 }

/-! ### Transactions -/

/-- One write transaction `W[…]` (R12, R110). -/
def writeWindow (l : List Byte) (s : State) : State := selOff (writeBytes l (selOn s))

/-- Put a frame into `cmd_buf` (R36). The chip agent is told where the frame comes from (log entry 34). -/
def loadCmd (source : FrameSource) (frame : List Byte) (s : State) : State :=
  { s with cmdBuf := overwrite frame s.cmdBuf, agent := { s.agent with source := source } }

/-- `send_command(f)` (R155) for a frame from `source`: the frame goes to `cmd_buf` and from there to the bus. A frame beyond
the buffer's capacity has no meaning (R85, R278). -/
def sendFrom (source : FrameSource) (frame : List Byte) : Step := fun s =>
  if frame.length ≤ s.cfg.cmdBufCap then
    match readBuffer frame.length (loadCmd source frame s).cmdBuf with
    | some l => .ok () (writeWindow l (loadCmd source frame s))
    | none => .fault (loadCmd source frame s)
  else .fault s

/-- `send_command(f)` (R155) for a frame the engine composes or the host gives. -/
def sendCommand (frame : List Byte) : Step := sendFrom .command frame

/-- The window of one poll up to its CTS byte, which goes to `last_cts` (R120, R153). -/
def askCts (s : State) : State :=
  let t := xfer s.cfg.opReadCmdBuff (selOn s)
  { xfer Literal.dummyByte t with lastCts := some (xferByte Literal.dummyByte t) }

/-- Put response bytes into `resp_buf` and return them from there (R37, R156). -/
def storeResponse (l : List Byte) (s : State) : Flow (List Byte) :=
  if l.length ≤ s.cfg.respBufCap then
    let t := { s with respBuf := overwrite l s.respBuf }
    match readBuffer l.length t.respBuf with
    | some r => .ok r t
    | none => .fault t
  else .fault s

/-- The ready poll's window goes on with `n` response bytes and closes (R121, R156). -/
def respond (n : Nat) (s : State) : Flow (List Byte) := storeResponse (readBytes n s) (selOff (afterReads n s))

/-! ### How an operation ends -/

/-- Completion: `status <- OK`, the result goes to the host, `seq <- IDLE` (R45, R261). -/
def complete (i : Instr) (r : Result) (s : State) : State :=
  setSeq .idle (record (.op i) r (setStatus .ok { s with agent := s.agent.onEnd }))

/-- The result of an aborted operation: TRY_RECEIVE reports None (R240), every other operation Timeout (R15). -/
def abortResult (i : Instr) (polls : Nat) : Result :=
  match i with
  | .tryReceive => .none
  | _ => .timeout polls

/-- The abort path (R265): `rx_valid <- 0`, `status <- TIMEOUT`, `seq <- IDLE`; all other engine state as it stood at the
raise. There is no handler to enter and nothing to return from (R268). -/
def abort (i : Instr) (polls : Nat) (s : State) : State :=
  setSeq .idle (record (.op i) (abortResult i polls)
    (setStatus .timeout { s with rxValid := false, agent := s.agent.onTimeout }))

/-- Refusal (R133, R264): no bus event, `status <- REFUSED`, `refused <- 1`, and nothing else but the host's record. -/
def refuse (w : Issued) (c : Check) (s : State) : State :=
  record w (.refused c) (setStatus .refused (markRefused s))

/-- A point with no meaning (R278): the mark is set and the operation ends there (log entry 9). -/
def meaningless (i : Instr) (s : State) : State :=
  setSeq .idle (record (.op i) .noMeaning (markFault { s with agent := s.agent.onEnd }))

/-- The end of a host operation. -/
def finish (i : Instr) : Flow Result → State
  | .ok r s => complete i r s
  | .timeout n s => abort i n s
  | .fault s => meaningless i s

/-- The start of a host operation: `seq <- RUN(op, 0)` (R45). -/
def begin (i : Instr) (s : State) : State := { s with seq := .run i 0, agent := s.agent.onRequest i }

/-- Every host operation: taken only while `seq` is IDLE (R46, R305); refused if a check fails (R133); else run. -/
def hostOp (i : Instr) (body : State → Flow Result) (s : State) : Host.Outcome State Fault Refusal :=
  if s.seq = .idle then
    match i.failingCheck s.cfg with
    | some c => .next (refuse (.op i) c s)
    | none => .next (finish i (body (begin i s)))
  else .fault .requestWhileRunning

/-- A host operation whose result is Ok() and that is the given list of steps. -/
def stepsOp (i : Instr) (fs : List Step) (s : State) : Host.Outcome State Fault Refusal :=
  hostOp i (fun t => (chain (counted fs) t).bind fun _ u => .ok .ok u) s

/-- The end of a bare wire transaction: it is no host operation, so it writes no `status` and no result. -/
def settle : Flow Unit → State
  | .ok _ s => s
  | .timeout _ s => s
  | .fault s => markFault s

/-- A wire row run on its own (log entry 5): one transaction of its kind. -/
def wireOp (i : Instr) (body : Step) (s : State) : Host.Outcome State Fault Refusal :=
  if s.seq = .idle then
    match i.failingCheck s.cfg with
    | some c => .next (refuse (.op i) c s)
    | none => .next (settle (body s))
  else .fault .requestWhileRunning

/-! ### Taking requests -/

/-- The chip's turn between operations (log entry 22). -/
def chipTurn (s : State) : State := { s with agent := s.agent.turn s.cfg }

/-- The next item, and the state with it taken from the list (R130). -/
def fetch (s : State) : Option (Item × State) :=
  match s.pending with
  | [] => none
  | it :: rest => some (it, chipTurn { s with pending := rest })

/-- An item that decodes to no instruction (R133: REF_UNKNOWN_OP, REF_BYTE_RANGE, and log entry 10). -/
def rejectItem (it : Item) (c : Check) (s : State) : Host.Outcome State Fault Refusal :=
  if s.seq = .idle then .next (refuse (.raw it) c s) else .fault .requestWhileRunning

end Sys2Proof.Machine
end

