-- ==== Sys2Proof/Machine/Channel.lean ====
section
/-! DEFINITION. Family 40: the Ready-Handshake and the Command Channel (spec R150 to R161). -/

namespace Sys2Proof.Machine

/-! ### The handshake -/

/-- The handshake's polls, `fuel` of them at most. Each asks for the CTS byte and counts itself; 0xFF ends it, with `n`
response bytes in the same window; any other byte closes the window. When no poll is left, `poll_count` is CTS_RETRY_MAX
and Timeout is raised (R153, R154, R156). -/
def pollLoop (n : Nat) : Nat → State → Flow (List Byte)
  | 0, s => .timeout s.cfg.ctsRetryMax s
  | fuel + 1, s =>
    let t := { askCts s with pollCount := s.pollCount + 1 }
    if t.lastCts = some Literal.ctsReady then respond n t else pollLoop n fuel (selOff t)

/-- A handshake begins: `poll_count <- 0` (R40). -/
def beginHandshake (s : State) : State := { s with pollCount := 0, agent := s.agent.onHandshake }

/-- `get_response(n)` (R156). -/
def getResponse (n : Nat) (s : State) : Flow (List Byte) := pollLoop n s.cfg.ctsRetryMax (beginHandshake s)

/-- `wait_for_cts()` (R153). On the wire and in its effect it is a response read of no bytes (R156, D44). -/
def waitForCts : Step := fun s => (getResponse 0 s).bind fun _ t => .ok () t

/-- `cmd_wait(f)` (R160). -/
def cmdWait (frame : List Byte) : Step := chain [sendCommand frame, waitForCts]

/-- `cmd_wait(f)` (R160) for a configured frame (R204 to R206). -/
def configWait (frame : List Byte) : Step := chain [sendFrom .configuration frame, waitForCts]

/-! ### FIFO accesses (no handshake: R157, R158, R298) -/

/-- The window of READ_RX_FIFO up to its reads (R119). -/
def openRxRead (s : State) : State := xfer Literal.opReadRxFifo (selOn s)

/-- `read_rx_fifo(n)` (R157). -/
def readRxFifo (n : Nat) (s : State) : Flow (List Byte) :=
  .ok (readBytes n (openRxRead s)) (selOff (afterReads n (openRxRead s)))

/-- `write_tx_fifo(d)` (R158). -/
def writeTxFifo (data : List Byte) : Step := lift (writeWindow (Literal.opWriteTxFifo :: data))

/-! ### Property writes -/

/-- The steps of `set_property(g, o, d)` (R159): the frame, then one handshake. -/
def setPropertySteps (group offset : Byte) (data : List Byte) : List Step :=
  [sendCommand (propFrame group offset data), waitForCts]

/-- `set_property(g, o, d)` (R159). -/
def setProperty (group offset : Byte) (data : List Byte) : Step := chain (setPropertySteps group offset data)

/-! ### The meanings -/

/-- WAIT_CTS (R153). -/
def execWaitCts (s : State) : Host.Outcome State Fault Refusal := stepsOp .waitCts [waitForCts] s

/-- SEND_CMD (R155). -/
def execSendCmd (frame : List Byte) (s : State) : Host.Outcome State Fault Refusal :=
  stepsOp (.sendCmd frame) [sendCommand frame] s

/-- GET_RESP (R156). -/
def execGetResp (n : Nat) (s : State) : Host.Outcome State Fault Refusal :=
  hostOp (.getResp n) (fun t => (getResponse n t).bind fun l u => .ok (.okBytes l) (stepDone u)) s

/-- READ_RX_FIFO (R157). -/
def execReadRxFifo (n : Nat) (s : State) : Host.Outcome State Fault Refusal :=
  hostOp (.readRxFifo n) (fun t => (readRxFifo n t).bind fun l u => .ok (.okBytes l) (stepDone u)) s

/-- WRITE_TX_FIFO (R158). -/
def execWriteTxFifo (data : List Byte) (s : State) : Host.Outcome State Fault Refusal :=
  stepsOp (.writeTxFifo data) [writeTxFifo data] s

/-- SET_PROPERTY (R159). -/
def execSetProperty (group offset : Byte) (data : List Byte) (s : State) : Host.Outcome State Fault Refusal :=
  stepsOp (.setProperty group offset data) (setPropertySteps group offset data) s

end Sys2Proof.Machine
end

