-- ==== Sys2Proof/Machine/Replay.lean ====
section
/-! DEFINITION. Family 41: the Configuration Replayer (spec R180 to R189). -/

namespace Sys2Proof.Machine

/-- One record's frame is sent and its handshake has returned; the cursor then moves past the record (R182). -/
def replayRecord (source : FrameSource) (len : Nat) (frame : List Byte) : Step :=
  chain [sendFrom source frame, waitForCts, lift fun s => { s with cursor := s.cursor + len + 1 }]

/-- The record loop (R180). A read outside the table has no meaning (R181). `fuel` bounds the number of records, of which a
table of `n` bytes has fewer than `n + 1`. -/
def replayLoop (source : FrameSource) (table : List Byte) : Nat → Step
  | 0, s => .fault s
  | fuel + 1, s =>
    match memRead table s.cursor 1 with
    | some [l] =>
      if l = 0 then .ok () s
      else
        match memRead table (s.cursor + 1) l.toNat with
        | some frame => (replayRecord source l.toNat frame s).bind fun _ t => replayLoop source table fuel t
        | none => .fault s
    | _ => .fault s

/-- A REPLAY of CONFIG_TABLE has completed: the chip agent is told (R293). -/
def noteReplayed (table : List Byte) (s : State) : State :=
  if table = s.cfg.configTable then { s with agent := s.agent.onReplayed } else s

/-- Where the records of a table come from: they are configured frames if the table is CONFIG_TABLE (R222). -/
def tableSource (c : Config) (table : List Byte) : FrameSource :=
  if table = c.configTable then .configuration else .command

/-- `replay(T)` (R180): from offset 0, always (R188). -/
def replay (table : List Byte) : Step := fun s =>
  (replayLoop (tableSource s.cfg table) table (table.length + 1) { s with cursor := 0 }).bind fun _ t => .ok () (noteReplayed table t)

/-- REPLAY (R180). The spec gives the record loop no step list, so what R45's `k` counts here is open; DESIGN CHOICE (log
entry 8): the whole loop is one step. -/
def execReplay (table : List Byte) (s : State) : Host.Outcome State Fault Refusal :=
  stepsOp (.replay table) [replay table] s

end Sys2Proof.Machine
end

