-- ==== Sys2Proof/Machine/Radio.lean ====
section
/-! DEFINITION. Family 42: the Radio State Controller (spec R195 to R208, R226). -/

namespace Sys2Proof.Machine

/-! ### The operations as steps -/

/-- The steps of `clear_interrupts()` (R197): the frame, then the response read, whose bytes are discarded. -/
def clearIntsSteps (c : Config) : List Step :=
  [sendCommand (intStatusFrame c), fun s => (getResponse Literal.intStatusRespLen s).bind fun _ t => .ok () t]

/-- `clear_interrupts()` (R197). -/
def clearInterrupts : Step := fun s => chain (clearIntsSteps s.cfg) s

/-- The steps of `power_up()` (R196). -/
def powerUpSteps (c : Config) : List Step :=
  [lift (setRst true), lift (delayUs c.tRstAssertUs), lift (setRst false), lift (delayMs c.tSettleMs),
    sendCommand c.powerUpFrame, waitForCts, clearInterrupts]

/-- `power_up()` (R196). -/
def powerUp : Step := fun s => chain (powerUpSteps s.cfg) s

/-- One property write per plan entry, in list order (R198, R199). -/
def planSteps (plan : List PlanEntry) (p : List Byte) : List Step :=
  plan.map fun e => setProperty e.group e.offset (planSlice p e)

/-- `set_frequency(p)` (R198). -/
def setFrequency (p : List Byte) : Step := fun s => chain (planSteps s.cfg.freqPlan p) s

/-- `set_power(p)` (R199). -/
def setPower (p : List Byte) : Step := fun s => chain (planSteps s.cfg.powerPlan p) s

/-- `start_tx(…)`: no handshake (R200, C2). -/
def startTx (channel condition : Byte) (length : Half) : Step := sendCommand (startTxFrame channel condition length)

/-- The steps of `start_rx(…)` (R201). -/
def startRxSteps (channel condition : Byte) (length : Half) (onTimeout onValid onInvalid : Byte) : List Step :=
  [sendCommand (startRxFrame channel condition length onTimeout onValid onInvalid), waitForCts]

/-- `start_rx(…)` with REARM_ARGS (R201, R205, R240). -/
def rearm : Step := cmdWait rearmFrame

/-- The steps of `reset_fifo(sub)` (R202). -/
def resetFifoSteps (sub : Byte) : List Step := [sendCommand (fifoResetFrame sub), waitForCts]

/-- `reset_fifo(sub)` (R202). -/
def resetFifo (sub : Byte) : Step := chain (resetFifoSteps sub)

/-- `standby()`: no handshake (R203). -/
def standby : Step := fun s => sendCommand (standbyFrame s.cfg) s

/-- The steps of BRINGUP (R204). -/
def bringupSteps (c : Config) : List Step :=
  [powerUp, replay c.configTable, setFrequency c.freqParams, setPower c.powerParams] ++
  (bringupFrames c.bringupExtra).map configWait ++ [resetFifo Literal.fifoSubBoth, clearInterrupts]

/-- BRINGUP (R204). -/
def bringup : Step := fun s => chain (bringupSteps s.cfg) s

/-- The steps of ENTER_RX (R205). -/
def enterRxSteps (c : Config) : List Step := bringup :: (c.rxIrqEnable.map configWait ++ [rearm])

/-- The steps of ENTER_TX (R206). -/
def enterTxSteps (c : Config) : List Step := bringup :: (c.txIrqEnable.map configWait ++ [resetFifo Literal.fifoSubTx])

/-! ### The meanings -/

/-- POWER_UP (R196). -/
def execPowerUp (s : State) : Host.Outcome State Fault Refusal := stepsOp .powerUp (powerUpSteps s.cfg) s

/-- CLEAR_INTS (R197). -/
def execClearInts (s : State) : Host.Outcome State Fault Refusal := stepsOp .clearInts (clearIntsSteps s.cfg) s

/-- SET_FREQ (R198). -/
def execSetFreq (p : List Byte) (s : State) : Host.Outcome State Fault Refusal :=
  stepsOp (.setFreq p) (planSteps s.cfg.freqPlan p) s

/-- SET_POWER (R199). -/
def execSetPower (p : List Byte) (s : State) : Host.Outcome State Fault Refusal :=
  stepsOp (.setPower p) (planSteps s.cfg.powerPlan p) s

/-- START_TX (R200). -/
def execStartTx (channel condition : Byte) (length : Half) (s : State) : Host.Outcome State Fault Refusal :=
  stepsOp (.startTx channel condition length) [startTx channel condition length] s

/-- START_RX (R201). -/
def execStartRx (channel condition : Byte) (length : Half) (onTimeout onValid onInvalid : Byte) (s : State) :
    Host.Outcome State Fault Refusal :=
  stepsOp (.startRx channel condition length onTimeout onValid onInvalid)
    (startRxSteps channel condition length onTimeout onValid onInvalid) s

/-- RESET_FIFO (R202). -/
def execResetFifo (sub : Byte) (s : State) : Host.Outcome State Fault Refusal :=
  stepsOp (.resetFifo sub) (resetFifoSteps sub) s

/-- STANDBY (R203). -/
def execStandby (s : State) : Host.Outcome State Fault Refusal := stepsOp .standby [standby] s

/-- ENTER_RX (R205). -/
def execEnterRx (s : State) : Host.Outcome State Fault Refusal := stepsOp .enterRx (enterRxSteps s.cfg) s

/-- ENTER_TX (R206). -/
def execEnterTx (s : State) : Host.Outcome State Fault Refusal := stepsOp .enterTx (enterTxSteps s.cfg) s

/-- READ_RSSI (R226): the stubbed constant, and no bus event. -/
def execReadRssi (s : State) : Host.Outcome State Fault Refusal :=
  hostOp .readRssi (fun t => .ok (.okByte t.cfg.rssiPlaceholder) (stepDone t)) s

end Sys2Proof.Machine
end

