-- ==== Sys2Proof/Machine/Pseudo.lean ====
section
/-! DEFINITION. The pseudo-instructions (spec R135): each is the operation an assembler puts in its place. -/

namespace Sys2Proof.Machine

/-- RESET_TX_FIFO = RESET_FIFO 1. -/
def execResetTxFifo (s : State) : Host.Outcome State Fault Refusal :=
  stepsOp (.resetFifo Literal.fifoSubTx) (resetFifoSteps Literal.fifoSubTx) s

/-- RESET_RX_FIFO = RESET_FIFO 2. -/
def execResetRxFifo (s : State) : Host.Outcome State Fault Refusal :=
  stepsOp (.resetFifo Literal.fifoSubRx) (resetFifoSteps Literal.fifoSubRx) s

/-- RESET_BOTH_FIFOS = RESET_FIFO 3. -/
def execResetBothFifos (s : State) : Host.Outcome State Fault Refusal :=
  stepsOp (.resetFifo Literal.fifoSubBoth) (resetFifoSteps Literal.fifoSubBoth) s

/-- REARM_RX = START_RX 0, 0, 21, 0, 3, 3. -/
def execRearmRx (s : State) : Host.Outcome State Fault Refusal :=
  stepsOp
    (.startRx Literal.rearmChannel Literal.rearmCondition Literal.frameLength
      Literal.rearmOnTimeout Literal.rearmOnValid Literal.rearmOnInvalid)
    (startRxSteps Literal.rearmChannel Literal.rearmCondition Literal.frameLength
      Literal.rearmOnTimeout Literal.rearmOnValid Literal.rearmOnInvalid) s

end Sys2Proof.Machine
end

