-- ==== Sys2Proof/Machine/FrameIo.lean ====
section
/-! DEFINITION. Family 43: Frame I/O (spec R240 to R246). -/

namespace Sys2Proof.Machine

/-! ### Receiving -/

/-- The frame goes from the RX FIFO to `rx_stage`, which is then valid (R240, R241). -/
def stageFrame : Step := fun s =>
  (readRxFifo Literal.frameLen s).bind fun d t =>
    .ok () { t with rxStage := overwrite d t.rxStage, rxValid := true }

/-- The hand-off: `rx_valid <- 0` and a copy of `rx_stage` (R240, R241). -/
def handOff (s : State) : Flow Result :=
  match readBuffer Literal.frameLen s.rxStage with
  | some frame => .ok (.some frame) { s with rxValid := false }
  | none => .fault s

/-- The steps of TRY_RECEIVE after an asserted sample (R240). -/
def receiveSteps : List Step := [stageFrame, resetFifo Literal.fifoSubRx, clearInterrupts, rearm]

/-- `try_receive()` (R240): one sample; if it reads deasserted, None at once. -/
def tryReceive (s : State) : Flow Result :=
  let t := stepDone (sampleIrq s)
  if t.irq then (chain (counted receiveSteps) t).bind fun _ u => handOff u
  else .ok .none t

/-! ### Sending -/

/-- The RevB1A workaround (R243): interrupts are cleared if and only if the one sample read asserted. -/
def clearIfAsserted : Step := fun s => if s.irq then clearInterrupts s else .ok () s

/-- The steps of SEND_FRAME (R242). -/
def sendFrameSteps (frame : List Byte) : List Step :=
  [standby, writeTxFifo frame, waitForCts, lift sampleIrq, clearIfAsserted,
    startTx Literal.sendChannel Literal.sendCondition Literal.frameLength]

/-! ### The meanings -/

/-- TRY_RECEIVE (R240). -/
def execTryReceive (s : State) : Host.Outcome State Fault Refusal := hostOp .tryReceive tryReceive s

/-- SEND_FRAME (R242). -/
def execSendFrame (frame : List Byte) (s : State) : Host.Outcome State Fault Refusal :=
  stepsOp (.sendFrame frame) (sendFrameSteps frame) s

end Sys2Proof.Machine
end

