-- ==== Sys2Proof/Machine/Wire.lean ====
section
/-! DEFINITION. The wire rows of the opcode table (spec R112 to R124), each run as one transaction on the bus (log entry 5):
a command frame as send_command sends it (R155), a FIFO transaction (R118, R119), or one poll with its response bytes
(R120, R121). No handshake, no `status`, no result. -/

namespace Sys2Proof.Machine

/-- PROP_WRITE (R112). -/
def execWirePropWrite (group count offset : Byte) (data : List Byte) (s : State) : Host.Outcome State Fault Refusal :=
  wireOp (.wirePropWrite group count offset data)
    (sendCommand (encodeFrame s.cfg (.wirePropWrite group count offset data))) s

/-- FIFO_RESET (R113). -/
def execWireFifoReset (sub : Byte) (s : State) : Host.Outcome State Fault Refusal :=
  wireOp (.wireFifoReset sub) (sendCommand (encodeFrame s.cfg (.wireFifoReset sub))) s

/-- START_TX (R114). -/
def execWireStartTx (channel condition : Byte) (length : Half) (s : State) : Host.Outcome State Fault Refusal :=
  wireOp (.wireStartTx channel condition length)
    (sendCommand (encodeFrame s.cfg (.wireStartTx channel condition length))) s

/-- START_RX (R116). -/
def execWireStartRx (channel condition : Byte) (length : Half) (onTimeout onValid onInvalid : Byte) (s : State) :
    Host.Outcome State Fault Refusal :=
  wireOp (.wireStartRx channel condition length onTimeout onValid onInvalid)
    (sendCommand (encodeFrame s.cfg (.wireStartRx channel condition length onTimeout onValid onInvalid))) s

/-- WRITE_TX_FIFO (R118). -/
def execWireWriteTxFifo (data : List Byte) (s : State) : Host.Outcome State Fault Refusal :=
  wireOp (.wireWriteTxFifo data) (writeTxFifo data) s

/-- READ_RX_FIFO (R119). -/
def execWireReadRxFifo (n : Nat) (s : State) : Host.Outcome State Fault Refusal :=
  wireOp (.wireReadRxFifo n) (fun t => (readRxFifo n t).bind fun _ u => .ok () u) s

/-- READ_CMD_BUFF (R120, R121): one poll. The `n` response bytes follow only a ready CTS byte; a busy window closes at once
and carries none (R156). -/
def execWireReadCmdBuff (n : Nat) (s : State) : Host.Outcome State Fault Refusal :=
  wireOp (.wireReadCmdBuff n) (fun t =>
    if (askCts t).lastCts = some Literal.ctsReady then (respond n (askCts t)).bind fun _ u => .ok () u
    else .ok () (selOff (askCts t))) s

/-- GET_INT_STATUS (R122). -/
def execWireGetIntStatus (args : List Byte) (s : State) : Host.Outcome State Fault Refusal :=
  wireOp (.wireGetIntStatus args) (sendCommand (encodeFrame s.cfg (.wireGetIntStatus args))) s

/-- CHANGE_STATE (R124). -/
def execWireChangeState (code : Byte) (s : State) : Host.Outcome State Fault Refusal :=
  wireOp (.wireChangeState code) (sendCommand (encodeFrame s.cfg (.wireChangeState code))) s

/-- POWER_UP (R123). -/
def execWirePowerUp (args : List Byte) (s : State) : Host.Outcome State Fault Refusal :=
  wireOp (.wirePowerUp args) (sendCommand (encodeFrame s.cfg (.wirePowerUp args))) s

end Sys2Proof.Machine
end

