-- ==== Sys2Proof/Machine/Dispatch.lean ====
section
/-! DEFINITION. One arm per instruction of the opcode table: a direct call of its meaning. -/

namespace Sys2Proof.Machine

def exec (i : Instr) (s : State) : Host.Outcome State Fault Refusal :=
  match i with
  | .waitCts => Sys2Proof.Machine.execWaitCts s
  | .sendCmd frame => Sys2Proof.Machine.execSendCmd frame s
  | .getResp n => Sys2Proof.Machine.execGetResp n s
  | .readRxFifo n => Sys2Proof.Machine.execReadRxFifo n s
  | .writeTxFifo data => Sys2Proof.Machine.execWriteTxFifo data s
  | .setProperty group offset data => Sys2Proof.Machine.execSetProperty group offset data s
  | .replay table => Sys2Proof.Machine.execReplay table s
  | .powerUp => Sys2Proof.Machine.execPowerUp s
  | .clearInts => Sys2Proof.Machine.execClearInts s
  | .setFreq p => Sys2Proof.Machine.execSetFreq p s
  | .setPower p => Sys2Proof.Machine.execSetPower p s
  | .startTx channel condition length => Sys2Proof.Machine.execStartTx channel condition length s
  | .startRx channel condition length onTimeout onValid onInvalid => Sys2Proof.Machine.execStartRx channel condition length onTimeout onValid onInvalid s
  | .resetFifo sub => Sys2Proof.Machine.execResetFifo sub s
  | .standby => Sys2Proof.Machine.execStandby s
  | .enterRx => Sys2Proof.Machine.execEnterRx s
  | .enterTx => Sys2Proof.Machine.execEnterTx s
  | .tryReceive => Sys2Proof.Machine.execTryReceive s
  | .sendFrame frame => Sys2Proof.Machine.execSendFrame frame s
  | .readRssi => Sys2Proof.Machine.execReadRssi s
  | .wirePropWrite group count offset data => Sys2Proof.Machine.execWirePropWrite group count offset data s
  | .wireFifoReset sub => Sys2Proof.Machine.execWireFifoReset sub s
  | .wireStartTx channel condition length => Sys2Proof.Machine.execWireStartTx channel condition length s
  | .wireStartRx channel condition length onTimeout onValid onInvalid => Sys2Proof.Machine.execWireStartRx channel condition length onTimeout onValid onInvalid s
  | .wireWriteTxFifo data => Sys2Proof.Machine.execWireWriteTxFifo data s
  | .wireReadRxFifo n => Sys2Proof.Machine.execWireReadRxFifo n s
  | .wireReadCmdBuff n => Sys2Proof.Machine.execWireReadCmdBuff n s
  | .wireGetIntStatus args => Sys2Proof.Machine.execWireGetIntStatus args s
  | .wireChangeState code => Sys2Proof.Machine.execWireChangeState code s
  | .wirePowerUp args => Sys2Proof.Machine.execWirePowerUp args s
  | .resetTxFifo => Sys2Proof.Machine.execResetTxFifo s
  | .resetRxFifo => Sys2Proof.Machine.execResetRxFifo s
  | .resetBothFifos => Sys2Proof.Machine.execResetBothFifos s
  | .rearmRx => Sys2Proof.Machine.execRearmRx s

end Sys2Proof.Machine
end

