-- ==== Sys2Proof/Machine/Step.lean ====
section
/-! DEFINITION. One step of the machine: it takes the next item of the host's stream, decodes it and runs it (spec R10, R45,
R130). With no request the engine stays IDLE (R277) and only the chip may move. A configuration that fails its admission is
refused as a whole (R133). -/

namespace Sys2Proof.Machine

/-- One step. -/
def step (s : State) : Host.Outcome State Fault Refusal :=
  if s.cfg.admitted then
    match fetch s with
    | none => .next (chipTurn s)
    | some (it, t) =>
      match decode t.cfg it with
      | .ok i => exec i t
      | .error c => rejectItem it c t
  else .refused .configurationNotAdmitted

/-- The state with one more request at the head of the host's stream: the instruction that a word of the opcode table
stands for. -/
def State.withFetchWord (s : State) (nbits w : Nat) : State := { s with pending := itemOfWord nbits w :: s.pending }

end Sys2Proof.Machine
end

