-- ==== Sys2Proof/Machine/Assembler.lean ====
section
/-! DEFINITION. The program syntax (spec R134, R135): one request per line, `MNEMONIC arg, arg, …`; a byte list is
`[b0, b1, …]`; numbers are decimal or `0x` hexadecimal; `;` starts a comment; pseudo-instructions are expanded. A program's
encoding is the list of its `(hop, args)` pairs. Text is a list of characters. -/

namespace Sys2Proof.Machine

/-- A token of a line. -/
inductive Token where
  | word (l : List Char)
  | num (n : Nat)
  | comma
  | openList
  | closeList
  deriving DecidableEq, Repr

/-- The value of a decimal digit. -/
def decDigit (ch : Char) : Option Nat :=
  if '0' ≤ ch ∧ ch ≤ '9' then some (ch.toNat - '0'.toNat) else none

/-- The value of a hexadecimal digit. -/
def hexDigit (ch : Char) : Option Nat :=
  if '0' ≤ ch ∧ ch ≤ '9' then some (ch.toNat - '0'.toNat)
  else if 'A' ≤ ch ∧ ch ≤ 'F' then some (ch.toNat - 'A'.toNat + 10)
  else if 'a' ≤ ch ∧ ch ≤ 'f' then some (ch.toNat - 'a'.toNat + 10)
  else none

/-- The number of a digit string in a base. -/
def digits (base : Nat) (digit : Char → Option Nat) : List Char → Nat → Option Nat
  | [], acc => some acc
  | ch :: rest, acc => (digit ch).bind fun d => digits base digit rest (acc * base + d)

/-- The token of a maximal run of word characters. -/
def wordToken (l : List Char) : Option Token :=
  match l with
  | [] => none
  | '0' :: 'x' :: d :: rest => (digits 16 hexDigit (d :: rest) 0).map .num
  | ch :: rest =>
    match decDigit ch with
    | some _ => (digits 10 decDigit (ch :: rest) 0).map .num
    | none => some (.word (ch :: rest))

/-- The tokens of a run that has just ended. -/
def flush (run : List Char) : Option (List Token) :=
  if run = [] then some [] else (wordToken run).map ([·])

/-- The tokens of a line; `run` is the run of word characters being read. A `;` ends the line. -/
def lexLine : List Char → List Char → Option (List Token)
  | [], run => flush run
  | ch :: rest, run =>
    if ch = ';' then flush run
    else if ch = ',' then (flush run).bind fun t => (lexLine rest []).map (t ++ [.comma] ++ ·)
    else if ch = '[' then (flush run).bind fun t => (lexLine rest []).map (t ++ [.openList] ++ ·)
    else if ch = ']' then (flush run).bind fun t => (lexLine rest []).map (t ++ [.closeList] ++ ·)
    else if ch = ' ' ∨ ch = '\t' ∨ ch = '\r' then (flush run).bind fun t => (lexLine rest []).map (t ++ ·)
    else lexLine rest (run ++ [ch])

/-- The numbers of a non-empty list and what follows its closing bracket. -/
def parseNums : List Token → Option (List Nat × List Token)
  | .num n :: .closeList :: rest => some ([n], rest)
  | .num n :: .comma :: rest => (parseNums rest).map fun r => (n :: r.1, r.2)
  | _ => none

/-- One argument and what follows it. -/
def parseArg : List Token → Option (Arg × List Token)
  | .num n :: rest => some (.num n, rest)
  | .openList :: .closeList :: rest => some (.list [], rest)
  | .openList :: rest => (parseNums rest).map fun r => (.list r.1, r.2)
  | _ => none

/-- Arguments separated by commas, `fuel` of them at most. -/
def parseArgs : Nat → List Token → Option (List Arg)
  | 0, _ => none
  | fuel + 1, ts =>
    (parseArg ts).bind fun r =>
      match r.2 with
      | [] => some [r.1]
      | .comma :: rest => (parseArgs fuel rest).map (r.1 :: ·)
      | _ => none

/-- The mnemonics of R131 with their host-operation codes. -/
def hostMnemonics : List (String × Byte) :=
  [("WAIT_CTS", 0x01), ("SEND_CMD", 0x02), ("GET_RESP", 0x03), ("READ_RX_FIFO", 0x04), ("WRITE_TX_FIFO", 0x05),
    ("SET_PROPERTY", 0x06), ("REPLAY", 0x07), ("POWER_UP", 0x08), ("CLEAR_INTS", 0x09), ("SET_FREQ", 0x0A)] ++
  [("SET_POWER", 0x0B), ("START_TX", 0x0C), ("START_RX", 0x0D), ("RESET_FIFO", 0x0E), ("STANDBY", 0x0F),
    ("ENTER_RX", 0x10), ("ENTER_TX", 0x11), ("TRY_RECEIVE", 0x12), ("SEND_FRAME", 0x13), ("READ_RSSI", 0x14)]

/-- The pseudo-instructions and their expansions (R135). -/
def pseudoMnemonics : List (String × Request) :=
  [("RESET_TX_FIFO", resetFifoRequest Literal.fifoSubTx), ("RESET_RX_FIFO", resetFifoRequest Literal.fifoSubRx),
    ("RESET_BOTH_FIFOS", resetFifoRequest Literal.fifoSubBoth), ("REARM_RX", rearmRequest)]

/-- The request of a line's tokens. -/
def parseLine : List Token → Option Request
  | .word m :: args =>
    match hostMnemonics.find? (fun e => e.1.toList = m), args with
    | some e, [] => some ⟨e.2, []⟩
    | some e, ts => (parseArgs ts.length ts).map fun l => ⟨e.2, l⟩
    | none, [] => (pseudoMnemonics.find? (fun e => e.1.toList = m)).map (·.2)
    | none, _ => none
  | _ => none

/-- The requests of one line: none if it is blank or a comment. -/
def assembleLine (l : List Char) : Option (List Request) :=
  (lexLine l []).bind fun ts => if ts = [] then some [] else (parseLine ts).map ([·])

/-- The requests of a program, line by line; `line` is the line being read. -/
def assembleFrom : List Char → List Char → Option (List Request)
  | [], line => assembleLine line
  | ch :: rest, line =>
    if ch = '\n' then (assembleLine line).bind fun r => (assembleFrom rest []).map (r ++ ·)
    else assembleFrom rest (line ++ [ch])

/-- The encoding of a program text, or none if a line has not the syntax of R134. -/
def assemble (text : List Char) : Option (List Request) := assembleFrom text []

/-- The host issues the requests of a program. -/
def State.issue (p : List Request) (s : State) : State := { s with pending := s.pending ++ p.map .request }

end Sys2Proof.Machine
end

