-- ==== Sys2Proof/Safety.lean ====
section
/-! DEFINITION. The terms claims are stated in: what the engine puts on the bus, when a run is final (spec R310), the select
discipline (R151, R152), and the invariant of the machine. -/

namespace Sys2Proof.Machine

/-! ### What the engine puts on the bus -/

/-- An event without the chip's answer to an exchange: the `_` of R12. -/
def Event.out : Event → Event
  | .x m _ => .x m 0
  | .sel => .sel
  | .desel => .desel
  | .rst b => .rst b
  | .delayUs n => .delayUs n
  | .delayMs n => .delayMs n
  | .irq v => .irq v

/-- `W[b0 … bk]` of R12, answers left out. -/
def wOut (l : List Byte) : List Event := .sel :: (l.map fun m => .x m 0) ++ [.desel]

/-- One poll `P(_)` of R12, answers left out (R120). -/
def pOut (c : Config) : List Event := wOut [c.opReadCmdBuff, Literal.dummyByte]

/-- A response read of `n` bytes, answers left out (R121). -/
def rrOut (c : Config) (n : Nat) : List Event := wOut (c.opReadCmdBuff :: List.replicate (n + 1) Literal.dummyByte)

/-- CLEAR_INTS against a ready chip (R197). -/
def clearOut (c : Config) : List Event := wOut (intStatusFrame c) ++ rrOut c Literal.intStatusRespLen

/-- One command frame and one ready poll (R160). -/
def cmdOut (c : Config) (frame : List Byte) : List Event := wOut frame ++ pOut c

/-- The property writes of a plan against a ready chip (R198, R199). -/
def planOut (c : Config) (plan : List PlanEntry) (p : List Byte) : List Event :=
  plan.flatMap fun e => cmdOut c (propFrame e.group e.offset (planSlice p e))

/-- POWER_UP against a ready chip (R196). -/
def powerUpOut (c : Config) : List Event :=
  [.rst true, .delayUs c.tRstAssertUs, .rst false, .delayMs c.tSettleMs] ++ cmdOut c c.powerUpFrame ++ clearOut c

/-- REPLAY of a table against a ready chip (R186). -/
def replayOut (c : Config) (table : List Byte) : List Event := ((tableRecords table).getD []).flatMap (cmdOut c)

/-- BRINGUP against a ready chip (R204). -/
def bringupOut (c : Config) : List Event :=
  powerUpOut c ++ replayOut c c.configTable ++ planOut c c.freqPlan c.freqParams ++ planOut c c.powerPlan c.powerParams ++
    (bringupFrames c.bringupExtra).flatMap (cmdOut c) ++ cmdOut c (fifoResetFrame Literal.fifoSubBoth) ++ clearOut c

/-- What `t` has put on the bus beyond `s`: the trace of `t` is that of `s` and then these events, answers left out. -/
def Puts (s t : State) (es : List Event) : Prop :=
  ∃ new : List Event, t.trace = s.trace ++ new ∧ new.map Event.out = es

/-- `new` is one poll after another, and `vs` are the CTS bytes they read, oldest first (R120). -/
def PollSeq (c : Config) : List Byte → List Event → Prop
  | [], new => new = []
  | v :: vs, new =>
    ∃ m rest, new = [.sel, .x c.opReadCmdBuff m, .x Literal.dummyByte v, .desel] ++ rest ∧ PollSeq c vs rest

/-- `new` is a response-read transaction that carries the bytes `r` (R121). -/
def ResponseWindow (c : Config) (r : List Byte) (new : List Event) : Prop :=
  ∃ m, new = [.sel, .x c.opReadCmdBuff m, .x Literal.dummyByte Literal.ctsReady] ++
    r.map (Event.x Literal.dummyByte) ++ [.desel]

/-- `new` is one handshake that ends ready and reads `n` response bytes: polls that read no 0xFF, then one that does, with
the bytes in its window (R153, R156). -/
def Handshake (c : Config) (n : Nat) (new : List Event) : Prop :=
  ∃ vs polls r last, (∀ v ∈ vs, v ≠ 0xFF) ∧ vs.length < c.ctsRetryMax ∧ PollSeq c vs polls ∧ r.length = n ∧
    ResponseWindow c r last ∧ new = polls ++ last

/-- `new` is one command frame after another, each followed by a handshake that ends ready (R160, R182). -/
def FramesSent (c : Config) : List (List Byte) → List Event → Prop
  | [], new => new = []
  | f :: fs, new =>
    ∃ e h rest, new = e ++ h ++ rest ∧ e.map Event.out = wOut f ∧ Handshake c 0 h ∧ FramesSent c fs rest

/-! ### What an operation puts on the bus, piece by piece, for every chip -/

/-- One piece of what an operation puts on the bus. -/
inductive Piece where
  /-- `W[frame]` (R12). -/
  | send (frame : List Byte)
  /-- A handshake, with `n` response bytes in its ready window (R153, R156). -/
  | hand (n : Nat)
  /-- One event outside a window. -/
  | event (e : Event)
  deriving DecidableEq, Repr

/-- `es` is the piece, whole; a handshake ended ready. -/
def Piece.Whole (c : Config) : Piece → List Event → Prop
  | .send frame, es => es.map Event.out = wOut frame
  | .hand n, es => Handshake c n es
  | .event e, es => es = [e]

/-- `es` is all the pieces, in order. -/
def Finished (c : Config) : List Piece → List Event → Prop
  | [], es => es = []
  | p :: ps, es => ∃ first rest, es = first ++ rest ∧ p.Whole c first ∧ Finished c ps rest

/-- `es` is the pieces up to one handshake, and then exactly CTS_RETRY_MAX polls that read busy; no event follows (R154,
R265, R266, R269). -/
def Aborted (c : Config) (ps : List Piece) (es : List Event) : Prop :=
  ∃ pre n post first busy polls, ps = pre ++ .hand n :: post ∧ Finished c pre first ∧ PollSeq c busy polls ∧
    (∀ v ∈ busy, v ≠ 0xFF) ∧ busy.length = c.ctsRetryMax ∧ es = first ++ polls

/-- One command frame and its handshake (R160). -/
def waited (frame : List Byte) : List Piece := [.send frame, .hand 0]

/-- CLEAR_INTS (R197). -/
def clearPieces (c : Config) : List Piece := [.send (intStatusFrame c), .hand Literal.intStatusRespLen]

/-- POWER_UP (R196). -/
def powerUpPieces (c : Config) : List Piece :=
  [.event (.rst true), .event (.delayUs c.tRstAssertUs), .event (.rst false), .event (.delayMs c.tSettleMs)] ++
    waited c.powerUpFrame ++ clearPieces c

/-- REPLAY of a table (R180). -/
def tablePieces (table : List Byte) : List Piece := ((tableRecords table).getD []).flatMap waited

/-- The property writes of a plan (R198, R199). -/
def planPieces (plan : List PlanEntry) (p : List Byte) : List Piece :=
  plan.flatMap fun e => waited (propFrame e.group e.offset (planSlice p e))

/-- BRINGUP (R204). -/
def bringupPieces (c : Config) : List Piece :=
  powerUpPieces c ++ tablePieces c.configTable ++ planPieces c.freqPlan c.freqParams ++
    planPieces c.powerPlan c.powerParams ++ (bringupFrames c.bringupExtra).flatMap waited ++
    waited (fifoResetFrame Literal.fifoSubBoth) ++ clearPieces c

/-- The engine runs the operation, whatever the chip answers: it puts the pieces on the bus, all of them and Ok(), or up to
the handshake that fails and Timeout. -/
def RunsAs (i : Instr) (ps : List Piece) (s : State) : Prop :=
  ∃ t new, exec i s = .next t ∧ t.trace = s.trace ++ new ∧
    ((Finished s.cfg ps new ∧ t.status = .ok ∧ t.log = s.log ++ [⟨.op i.expand, .ok, .ok⟩]) ∨
      (Aborted s.cfg ps new ∧ t.status = .timeout ∧
        t.log = s.log ++ [⟨.op i.expand, .timeout s.cfg.ctsRetryMax, .timeout⟩]))

/-! ### Premises about the chip -/

/-- The chip is SimChip and "always returns ready" (R68). -/
def AlwaysReady (s : State) : Prop := s.agent.law = .sim ∧ s.agent.sim.busy = []

/-- SimChip's next ready-line sample reads `v` (R68). -/
def NextSample (v : Bool) (s : State) : Prop := s.agent.sim.irq.headD false = v

/-- The chip obeys the abstract chip model, makes no move of its own, and is in a powered mode. -/
def Powered (s : State) : Prop :=
  s.agent.law = .abstractModel ∧ s.agent.plan = [] ∧ s.agent.chip.mode.powered = true

/-- The chip obeys the abstract chip model, makes no move of its own, is in a powered mode and is not busy with a command. -/
def Attentive (s : State) : Prop :=
  s.agent.law = .abstractModel ∧ s.agent.plan = [] ∧ s.agent.chip.mode.powered = true ∧ s.agent.chip.cts = true

/-- The frame is a command frame to the chip: it begins with no FIFO opcode and not with that of a poll (R212). -/
def CommandFrame (c : Config) (f : List Byte) : Prop :=
  f.head? ≠ some Literal.opWriteTxFifo ∧ f.head? ≠ some Literal.opReadRxFifo ∧ f.head? ≠ some c.opReadCmdBuff

/-- A property-group write with the right count (R112, R187). -/
def PropertyFrame (f : List Byte) : Prop :=
  ∃ g n o d, f = Literal.opSetProperty :: g :: n :: o :: d ∧ n.toNat = d.length

/-- A configured frame that leaves a powered chip in its mode (R222): a command frame, and no property-group write with
a wrong count (R187, R223). POWER_UP_FRAME is one too: that R222 and not R300 holds of it as a configured frame is
DEDUCED (log entry 18). -/
def PlainFrame (c : Config) (f : List Byte) : Prop :=
  CommandFrame c f ∧ (f.head? = some Literal.opSetProperty → PropertyFrame f)

/-- Every configured frame is a plain one. -/
def PlainConfig (c : Config) : Prop :=
  ∀ f ∈ (tableRecords c.configTable).getD [] ++ bringupFrames c.bringupExtra ++ c.rxIrqEnable ++ c.txIrqEnable,
    PlainFrame c f

/-- The engine may take a request: the configuration is admitted and `seq` is IDLE (R46, R133). -/
def Accepts (s : State) : Prop := s.cfg.admitted = true ∧ s.seq = .idle

/-! ### Runs -/

/-- A final state (R310): IDLE, no further request, no mark. -/
def State.final (s : State) : Prop := s.seq = .idle ∧ s.pending = [] ∧ s.fault = false ∧ s.refused = false

/-- The select line after a trace that began with it at `b`, or none where the discipline of R151 is broken: SEL only when
deasserted, DESEL and exchanges only when asserted, everything else only when deasserted. -/
def selAfter (b : Bool) : List Event → Option Bool
  | [] => some b
  | .sel :: es => if b then none else selAfter true es
  | .desel :: es => if b then selAfter false es else none
  | .x _ _ :: es => if b then selAfter b es else none
  | .rst _ :: es => if b then none else selAfter b es
  | .delayUs _ :: es => if b then none else selAfter b es
  | .delayMs _ :: es => if b then none else selAfter b es
  | .irq _ :: es => if b then none else selAfter b es

/-! ### The invariant -/

/-- What holds of every state between operations: IDLE, both lines deasserted, no staged frame, the select discipline, the
poll ceiling, the buffers' capacities, the canonical property store, BusFault never produced, nothing held by the chip, and no
frame at a chip that is ready but one it has acted on (R97, R98). -/
structure Inv (s : State) : Prop where
  idle : s.seq = .idle
  deselected : s.sel = false
  released : s.rst = false
  handedOff : s.rxValid = false
  windows : selAfter false s.trace = some false
  polls : s.pollCount ≤ s.cfg.ctsRetryMax
  cmdLen : s.cmdBuf.length = s.cfg.cmdBufCap
  respLen : s.respBuf.length = s.cfg.respBufCap
  stageLen : s.rxStage.length = Literal.frameLen
  props : Memory.wf s.agent.chip.props = true
  noBusFault : s.status ≠ .busFault
  noFault : s.fault = false
  notHeld : s.agent.chip.held = false
  acted : s.agent.chip.cts = true → s.agent.chip.taken = none

/-! ### Frames -/

/-- The engine registers and lines a host operation may write, by name. -/
inductive Reg where
  | sel
  | rst
  | irq
  | cmdBuf
  | respBuf
  | rxStage
  | rxValid
  | pollCount
  | lastCts
  | cursor
  deriving DecidableEq, Repr

/-- From `s` to `t` no register outside `w` has changed, nor the configuration, the host's stream, or a mark. -/
structure Frame (w : List Reg) (s t : State) : Prop where
  cfg : t.cfg = s.cfg
  pending : t.pending = s.pending
  refused : t.refused = s.refused
  fault : t.fault = s.fault
  sel : Reg.sel ∉ w → t.sel = s.sel
  rst : Reg.rst ∉ w → t.rst = s.rst
  irq : Reg.irq ∉ w → t.irq = s.irq
  cmdBuf : Reg.cmdBuf ∉ w → t.cmdBuf = s.cmdBuf
  respBuf : Reg.respBuf ∉ w → t.respBuf = s.respBuf
  rxStage : Reg.rxStage ∉ w → t.rxStage = s.rxStage
  rxValid : Reg.rxValid ∉ w → t.rxValid = s.rxValid
  pollCount : Reg.pollCount ∉ w → t.pollCount = s.pollCount
  lastCts : Reg.lastCts ∉ w → t.lastCts = s.lastCts
  cursor : Reg.cursor ∉ w → t.cursor = s.cursor

/-- A completed host operation (R45, R261): what it put on the bus, its result, `status` OK, IDLE again, and no register
written beyond `w`. -/
structure Completed (i : Instr) (r : Result) (es : List Event) (w : List Reg) (s t : State) : Prop where
  puts : Puts s t es
  log : t.log = s.log ++ [⟨.op i, r, .ok⟩]
  status : t.status = .ok
  idle : t.seq = .idle
  frame : Frame w s t

/-- The command frame is a property-group write whose run covers the address, inside its group (R66, R82, R112). -/
def StoresTo (f : List Byte) (a : Nat) : Prop :=
  ∃ g n o d, f = Literal.opSetProperty :: g :: n :: o :: d ∧ propAddress g o.toNat ≤ a ∧
    a < propAddress g o.toNat + d.length ∧ a < propAddress g 256

/-- The frames that a bring-up sends between its power-up and its FIFO reset, in order: the records of CONFIG_TABLE, the
property writes of both plans, the frames of BRINGUP_EXTRA (R204). -/
def bringupWrites (c : Config) : List (List Byte) :=
  (tableRecords c.configTable).getD [] ++
    c.freqPlan.map (fun e => propFrame e.group e.offset (planSlice c.freqParams e)) ++
    c.powerPlan.map (fun e => propFrame e.group e.offset (planSlice c.powerParams e)) ++ bringupFrames c.bringupExtra

/-- A command frame that the chip has still to act on does not store to the address (R97). -/
def NotInHand (s : State) (a : Nat) : Prop := ∀ src f, s.agent.chip.taken = some (src, f) → ¬ StoresTo f a

/-- One byte of the chip's property store, as far as the abstract chip model knows it: in mode Unknown nothing is known. -/
def readProp (a : Nat) (s : State) : Option Byte :=
  if s.agent.chip.mode = .unknown then none else Memory.read a s.agent.chip.props

/-- From `s` to `t` a property run has been stored (R66): its bytes up to offset 0xFF stand in the store, and past the end of
its group no byte has changed but for a frame that the chip had in hand before. -/
structure RunStored (g o : Byte) (d : List Byte) (s t : State) : Prop where
  stored : ∀ k (h : k < d.length), o.toNat + k ≤ 0xFF → readProp (propAddress g o.toNat + k) t = some d[k]
  nextGroup : ∀ a, propAddress g 256 ≤ a → NotInHand s a → readProp a t = readProp a s

end Sys2Proof.Machine

namespace Sys2Proof

/-- The wire rows of the opcode table. The others are the host operations (R131) and the pseudo-instructions (R135). -/
def Instr.isWire : Instr → Bool
  | .wirePropWrite _ _ _ _ => true
  | .wireFifoReset _ => true
  | .wireStartTx _ _ _ => true
  | .wireStartRx _ _ _ _ _ _ => true
  | .wireWriteTxFifo _ => true
  | .wireReadRxFifo _ => true
  | .wireReadCmdBuff _ => true
  | .wireGetIntStatus _ => true
  | .wireChangeState _ => true
  | .wirePowerUp _ => true
  | _ => false

/-- The pieces that a host operation or pseudo-instruction puts on the bus, `v` being the ready-line sample of Frame I/O.
Wire rows, one transaction each, have none here. -/
def Instr.pieces (c : Config) (v : Bool) : Instr → List Machine.Piece
  | .waitCts => [.hand 0]
  | .sendCmd frame => [.send frame]
  | .getResp n => [.hand n]
  | .readRxFifo n => [.send (Literal.opReadRxFifo :: List.replicate n Literal.dummyByte)]
  | .writeTxFifo data => [.send (Literal.opWriteTxFifo :: data)]
  | .setProperty g o d => Machine.waited (Machine.propFrame g o d)
  | .replay table => Machine.tablePieces table
  | .powerUp => Machine.powerUpPieces c
  | .clearInts => Machine.clearPieces c
  | .setFreq p => Machine.planPieces c.freqPlan p
  | .setPower p => Machine.planPieces c.powerPlan p
  | .startTx ch cond len => [.send (Machine.startTxFrame ch cond len)]
  | .startRx ch cond len t v x => Machine.waited (Machine.startRxFrame ch cond len t v x)
  | .resetFifo sub => Machine.waited (Machine.fifoResetFrame sub)
  | .standby => [.send (Machine.standbyFrame c)]
  | .enterRx => Machine.bringupPieces c ++ c.rxIrqEnable.flatMap Machine.waited ++ Machine.waited Machine.rearmFrame
  | .enterTx => Machine.bringupPieces c ++ c.txIrqEnable.flatMap Machine.waited ++
      Machine.waited (Machine.fifoResetFrame Literal.fifoSubTx)
  | .tryReceive => .event (.irq v) :: (if v then
      .send (Literal.opReadRxFifo :: List.replicate Literal.frameLen Literal.dummyByte) ::
        (Machine.waited (Machine.fifoResetFrame Literal.fifoSubRx) ++ Machine.clearPieces c ++
          Machine.waited Machine.rearmFrame) else [])
  | .sendFrame frame => [.send (Machine.standbyFrame c), .send (Literal.opWriteTxFifo :: frame), .hand 0,
      .event (.irq v)] ++ (if v then Machine.clearPieces c else []) ++
      [.send (Machine.startTxFrame Literal.sendChannel Literal.sendCondition Literal.frameLength)]
  | .readRssi => []
  | .wirePropWrite _ _ _ _ => []
  | .wireFifoReset _ => []
  | .wireStartTx _ _ _ => []
  | .wireStartRx _ _ _ _ _ _ => []
  | .wireWriteTxFifo _ => []
  | .wireReadRxFifo _ => []
  | .wireReadCmdBuff _ => []
  | .wireGetIntStatus _ => []
  | .wireChangeState _ => []
  | .wirePowerUp _ => []
  | .resetTxFifo => Machine.waited (Machine.fifoResetFrame Literal.fifoSubTx)
  | .resetRxFifo => Machine.waited (Machine.fifoResetFrame Literal.fifoSubRx)
  | .resetBothFifos => Machine.waited (Machine.fifoResetFrame Literal.fifoSubBoth)
  | .rearmRx => Machine.waited Machine.rearmFrame

/-- The registers each instruction may write, however it ends: the select line and the command buffer of a command frame
(R31, R36), the poll registers and the abort path's `rx_valid` of a handshake (R40, R41, R265), the response buffer of a
response read (R37), the cursor of a replay (R42), the reset line of POWER_UP (R32), the ready-line sample and the staging
buffer of Frame I/O (R33, R38). -/
def Instr.writes : Instr → List Machine.Reg
  | .waitCts => [.sel, .pollCount, .lastCts, .rxValid]
  | .sendCmd _ => [.sel, .cmdBuf]
  | .getResp _ => [.sel, .pollCount, .lastCts, .rxValid, .respBuf]
  | .readRxFifo _ => [.sel]
  | .writeTxFifo _ => [.sel]
  | .setProperty _ _ _ => [.sel, .cmdBuf, .pollCount, .lastCts, .rxValid]
  | .replay _ => [.sel, .cmdBuf, .pollCount, .lastCts, .rxValid, .cursor]
  | .powerUp => [.sel, .rst, .cmdBuf, .pollCount, .lastCts, .rxValid, .respBuf]
  | .clearInts => [.sel, .cmdBuf, .pollCount, .lastCts, .rxValid, .respBuf]
  | .setFreq _ => [.sel, .cmdBuf, .pollCount, .lastCts, .rxValid]
  | .setPower _ => [.sel, .cmdBuf, .pollCount, .lastCts, .rxValid]
  | .startTx _ _ _ => [.sel, .cmdBuf]
  | .startRx _ _ _ _ _ _ => [.sel, .cmdBuf, .pollCount, .lastCts, .rxValid]
  | .resetFifo _ => [.sel, .cmdBuf, .pollCount, .lastCts, .rxValid]
  | .standby => [.sel, .cmdBuf]
  | .enterRx => [.sel, .rst, .cmdBuf, .pollCount, .lastCts, .rxValid, .respBuf, .cursor]
  | .enterTx => [.sel, .rst, .cmdBuf, .pollCount, .lastCts, .rxValid, .respBuf, .cursor]
  | .tryReceive => [.sel, .irq, .cmdBuf, .pollCount, .lastCts, .rxValid, .respBuf, .rxStage]
  | .sendFrame _ => [.sel, .irq, .cmdBuf, .pollCount, .lastCts, .rxValid, .respBuf]
  | .readRssi => []
  | .wirePropWrite _ _ _ _ => [.sel, .cmdBuf]
  | .wireFifoReset _ => [.sel, .cmdBuf]
  | .wireStartTx _ _ _ => [.sel, .cmdBuf]
  | .wireStartRx _ _ _ _ _ _ => [.sel, .cmdBuf]
  | .wireWriteTxFifo _ => [.sel]
  | .wireReadRxFifo _ => [.sel]
  | .wireReadCmdBuff _ => [.sel, .lastCts, .respBuf]
  | .wireGetIntStatus _ => [.sel, .cmdBuf]
  | .wireChangeState _ => [.sel, .cmdBuf]
  | .wirePowerUp _ => [.sel, .cmdBuf]
  | .resetTxFifo => [.sel, .cmdBuf, .pollCount, .lastCts, .rxValid]
  | .resetRxFifo => [.sel, .cmdBuf, .pollCount, .lastCts, .rxValid]
  | .resetBothFifos => [.sel, .cmdBuf, .pollCount, .lastCts, .rxValid]
  | .rearmRx => [.sel, .cmdBuf, .pollCount, .lastCts, .rxValid]

end Sys2Proof
end

