-- ==== Sys2Proof/Certificates/Slice0/Obligations.lean ====
section
/-! DEFINITION. The statements about the machine, from the numbered rules of the spec. Each docstring names the rules. A
statement that rests on a choice of the model names the log entry. -/

open Sys2Proof Sys2Proof.Machine

/-! ### Encoding (30_encoding.md) -/

/-- Decoding an instruction's own encoding gives it back, a pseudo-instruction as its expansion (R131, R132, R135; R112 to
R124), at every value of every operand. -/
def Obligations.DecodingAnEncoding : Prop :=
  ∀ (c : Config) (i : Instr), c.admitted = true → decode c (encode c i) = .ok i.expand

/-- Every item that decodes is the encoding of what it decodes to: no two items mean one instruction (R131, R136). -/
def Obligations.EncodingADecoding : Prop :=
  ∀ (c : Config) (it : Item) (i : Instr), decode c it = .ok i → encode c i = it

/-- Requests and frames written out from the spec decode to what they stand for, under the reference parameters of D43
(R112 to R124, R131, R135; 95_test_vectors.md W1, W2, W11). -/
def Obligations.WordsOfTheSpec : Prop :=
  decode Config.reference (.request ⟨0x01, []⟩) = .ok .waitCts ∧
  decode Config.reference (.request ⟨0x07, [.list [3, 0x11, 0xAA, 0xBB, 0]]⟩) = .ok (.replay [3, 0x11, 0xAA, 0xBB, 0]) ∧
  decode Config.reference (.request ⟨0x0D, [.num 0, .num 0, .num 21, .num 0, .num 3, .num 3]⟩) =
    .ok (.startRx 0 0 21 0 3 3) ∧
  decode Config.reference (.request ⟨0x12, []⟩) = .ok .tryReceive ∧
  decode Config.reference (.transaction [0x11, 0x40, 0x02, 0x00, 0x41, 0x0A]) =
    .ok (.wirePropWrite 0x40 0x02 0x00 [0x41, 0x0A]) ∧
  decode Config.reference (.transaction [0x32, 0x00, 0x00, 0x00, 0x15, 0x00, 0x03, 0x03]) =
    .ok (.wireStartRx 0 0 21 0 3 3) ∧
  decode Config.reference (.transaction [0x31, 0x01, 0x80, 0x12, 0x34]) = .ok (.wireStartTx 0x01 0x80 0x1234) ∧
  decode Config.reference (.transaction [0x44, 0x00]) = .ok (.wireReadCmdBuff 0)

/-- The frames the engine composes are those of R112, R113, R114, R116, R122 and R124, lengths big-endian (R86, R126) and
the property count computed from the data (R127). -/
def Obligations.ComposedFrames : Prop :=
  (∀ (g o : Byte) (d : List Byte), d.length ≤ 255 →
    ∃ n : Byte, n.toNat = d.length ∧ propFrame g o d = 0x11 :: g :: n :: o :: d) ∧
  (∀ sub : Byte, fifoResetFrame sub = [0x15, sub]) ∧
  (∀ (ch cond hi lo : Byte), startTxFrame ch cond (hi ++ lo) = [0x31, ch, cond, hi, lo]) ∧
  (∀ (ch cond hi lo t v x : Byte), startRxFrame ch cond (hi ++ lo) t v x = [0x32, ch, cond, hi, lo, t, v, x]) ∧
  (∀ c : Config, intStatusFrame c = c.opGetIntStatus :: c.intClrArgs) ∧
  (∀ c : Config, standbyFrame c = [c.opChangeState, c.standbyCode])

/-- The text of a program assembles to its list of requests, a pseudo-instruction as its expansion (R134, R135; program
P1 of 95_test_vectors.md in part). -/
def Obligations.AssembledText : Prop :=
  assemble "SET_PROPERTY 0x40, 0x00, [0x41, 0x0A]\nRESET_BOTH_FIFOS ; both\n\nSTART_RX 0, 0, 0x0123, 0, 3, 3".toList =
    some [⟨0x06, [.num 0x40, .num 0, .list [0x41, 0x0A]]⟩, ⟨0x0E, [.num 3]⟩,
      ⟨0x0D, [.num 0, .num 0, .num 0x0123, .num 0, .num 3, .num 3]⟩]

/-! ### Steps and requests (R10, R16, R44 to R46, R130, R133) -/

/-- A step of an admitted machine takes the next item of the host's stream and runs the instruction it decodes to; before
that the chip may take its own turn (log entry 22). -/
def Obligations.StepRunsTheDecodedInstruction : Prop :=
  ∀ (s : State) (it : Item) (rest : List Item) (i : Instr), s.cfg.admitted = true → s.pending = it :: rest →
    decode s.cfg it = .ok i → step s = exec i (chipTurn { s with pending := rest })

/-- With no request the engine stays as it is: only the chip, and only under the abstract chip model, may move (R277). -/
def Obligations.StepWithoutARequest : Prop :=
  ∀ s : State, s.cfg.admitted = true → s.pending = [] →
    ∃ a, step s = .next { s with agent := a } ∧ (s.agent.law ≠ .abstractModel → a = s.agent)

/-- Where the machine stops: a configuration that fails its admission is refused as a whole, and nothing runs (R133,
last paragraph; some conditions of the admission are read from other rules, log entry 11); and a request while an
operation runs has no move (R46, R305 (a)): that the run is then stuck under a fault's name, for wire rows too, is the
model's choice (log entry 28). -/
def Obligations.WhereTheMachineStops : Prop :=
  (∀ s : State, s.cfg.admitted = false → step s = .refused .configurationNotAdmitted) ∧
  (∀ (i : Instr) (s : State), s.seq ≠ .idle → exec i s = .fault .requestWhileRunning)

/-- A refused request makes no bus event, writes `status` REFUSED, sets the mark, and changes no other state; the host
receives the first check that failed (R264, R270). That a wire row is checked and refused like a host request is the
model's choice (log entry 5). -/
def Obligations.RefusedRequest : Prop :=
  ∀ (i : Instr) (s : State) (k : Check), s.seq = .idle → i.failingCheck s.cfg = some k →
    exec i s = .next { s with
      status := .refused, refused := true, log := s.log ++ [⟨.op i, .refused k, .refused⟩] }

/-- A request that decodes to no operation is refused: no bus event, `status` REFUSED, the mark, and the host's line
(R133: REF_UNKNOWN_OP, REF_BYTE_RANGE, R264; the model's own checks, log entry 10). The item is taken from the host's
stream, and the chip may take its turn at that fetch, the model's choice (log entry 22); nothing else changes. -/
def Obligations.RefusedItem : Prop :=
  ∀ (s : State) (it : Item) (rest : List Item) (k : Check), s.cfg.admitted = true → s.seq = .idle →
    s.pending = it :: rest → decode s.cfg it = .error k →
    step s = .next { chipTurn { s with pending := rest } with
      status := .refused, refused := true, log := s.log ++ [⟨.raw it, .refused k, .refused⟩] }

/-- What each check of R133 refuses. REF_BYTE_RANGE: a byte operand above 255, a half operand above 65535, and, read from
R131, an element above 255 of a byte list (log entry 12). -/
def Obligations.RefusalChecks : Prop :=
  (∀ (hop : Byte) (args : List Arg), decodeRequest ⟨hop, args⟩ = .error .unknownOp ↔ hop.toNat = 0 ∨ 20 < hop.toNat) ∧
  (∀ (ch cond len : Nat), decodeRequest ⟨0x0C, [.num ch, .num cond, .num len]⟩ = .error .byteRange ↔
    255 < ch ∨ 255 < cond ∨ 65535 < len) ∧
  (∀ (ch cond len x y z : Nat),
    decodeRequest ⟨0x0D, [.num ch, .num cond, .num len, .num x, .num y, .num z]⟩ = .error .byteRange ↔
      255 < ch ∨ 255 < cond ∨ 65535 < len ∨ 255 < x ∨ 255 < y ∨ 255 < z) ∧
  (∀ sub : Nat, decodeRequest ⟨0x0E, [.num sub]⟩ = .error .byteRange ↔ 255 < sub) ∧
  (∀ (g o : Nat) (d : List Nat), decodeRequest ⟨0x06, [.num g, .num o, .list d]⟩ = .error .byteRange ↔
    255 < g ∨ 255 < o ∨ ∃ n ∈ d, 255 < n) ∧
  (∀ (hop : Byte) (l : List Nat),
    hop = 0x02 ∨ hop = 0x05 ∨ hop = 0x07 ∨ hop = 0x0A ∨ hop = 0x0B ∨ hop = 0x13 →
      (decodeRequest ⟨hop, [.list l]⟩ = .error .byteRange ↔ ∃ n ∈ l, 255 < n)) ∧
  (∀ (c : Config) (f : List Byte), (Instr.sendCmd f).failingCheck c = some .emptyFrame ↔ f.length = 0) ∧
  (∀ (c : Config) (f : List Byte), (Instr.sendCmd f).failingCheck c = some .frameTooLong ↔
    f.length ≠ 0 ∧ c.cmdBufCap < f.length) ∧
  (∀ (c : Config) (n : Nat), (Instr.getResp n).failingCheck c = some .respTooLong ↔ c.respBufCap < n) ∧
  (∀ (c : Config) (n : Nat), (Instr.readRxFifo n).failingCheck c = some .fifoLen ↔ c.fifoCap < n) ∧
  (∀ (c : Config) (d : List Byte), (Instr.writeTxFifo d).failingCheck c = some .fifoLen ↔ c.fifoCap < d.length) ∧
  (∀ (c : Config) (g o : Byte) (d : List Byte), (Instr.setProperty g o d).failingCheck c = some .propCount ↔
    d.length = 0 ∨ c.propMax < d.length) ∧
  (∀ (c : Config) (p : List Byte), (Instr.setFreq p).failingCheck c = some .paramCount ↔ p.length ≠ 8) ∧
  (∀ (c : Config) (p : List Byte), (Instr.setPower p).failingCheck c = some .paramCount ↔ p.length ≠ 2) ∧
  (∀ (c : Config) (sub : Byte), (Instr.resetFifo sub).failingCheck c = some .fifoSub ↔ sub ≠ 1 ∧ sub ≠ 2 ∧ sub ≠ 3) ∧
  (∀ (c : Config) (f : List Byte), (Instr.sendFrame f).failingCheck c = some .frameSize ↔ f.length ≠ 21) ∧
  (∀ (c : Config) (t : List Byte), (Instr.replay t).failingCheck c = some .table ↔ tableWF c.cmdBufCap t = false)

/-- Every host operation and pseudo-instruction on an IDLE engine ends: refused, completed, or aborted by a Timeout, and
`status` and the result the host receives say which (R16, R261). TRY_RECEIVE reports its Timeout as None (R240). -/
def Obligations.ResultAndStatus : Prop :=
  ∀ (i : Instr) (s : State), i.isWire = false → Accepts s →
    ∃ t r, exec i s = .next t ∧ t.log = s.log ++ [⟨.op i.expand, r, t.status⟩] ∧ t.seq = .idle ∧
      ((∃ k, i.failingCheck s.cfg = some k ∧ r = .refused k ∧ t.status = .refused) ∨
        (i.failingCheck s.cfg = none ∧ t.status = .ok ∧ r ≠ .noMeaning ∧ (∀ n, r ≠ .timeout n) ∧ ∀ k, r ≠ .refused k) ∨
        (i.failingCheck s.cfg = none ∧ t.status = .timeout ∧
          r = if i = .tryReceive then .none else .timeout s.cfg.ctsRetryMax))

/-! ### Reset and invariants (10_state.md, 60_exceptions.md, 70_reset_and_hazards.md) -/

/-- Engine reset leaves every row of R52's table at its value, under every configuration. -/
def Obligations.ResetState : Prop :=
  ∀ c : Config, ∃ s, State.resetWith c = s ∧ s.sel = false ∧ s.rst = false ∧
    s.cmdBuf = List.replicate c.cmdBufCap none ∧ s.respBuf = List.replicate c.respBufCap none ∧
    s.rxStage = List.replicate 21 none ∧ s.rxValid = false ∧ s.pollCount = 0 ∧ s.lastCts = none ∧ s.cursor = 0 ∧
    s.status.code = 0 ∧ s.seq = .idle ∧ s.refused = false ∧ s.fault = false ∧ s.agent.chip.mode = .unknown

/-- The invariant holds after engine reset, under every configuration. -/
def Obligations.InvAtReset : Prop := ∀ c : Config, Inv (State.resetWith c)

/-- Every step keeps the invariant: IDLE with both lines deasserted, whole select windows (R151), no staged frame (R39), the
poll ceiling (R40), the capacities (R36 to R38), the canonical property store, no BusFault (R263), no model fault
(R278), and no frame left to act on at a chip that is ready (R97, R98). -/
def Obligations.EveryStepKeepsInv : Prop := ∀ s t : State, Inv s → step s = .next t → Inv t

/-- No operation writes the configuration (R50). -/
def Obligations.ConfigurationIsFixed : Prop := ∀ s t : State, step s = .next t → t.cfg = s.cfg

/-- The marks `refused` and `fault` are sticky (R47, R48). -/
def Obligations.MarksAreSticky : Prop :=
  ∀ s t : State, step s = .next t → (s.refused = true → t.refused = true) ∧ (s.fault = true → t.fault = true)

/-- The observation only grows: the bus trace, and the requests with their results, one line a step at most; and the
host's requests are taken one at a time, in order (R11, R96, R130). -/
def Obligations.ObservationGrows : Prop :=
  ∀ s t : State, step s = .next t →
    t.pending = s.pending.tail ∧ (∃ new, t.trace = s.trace ++ new) ∧ ∃ new, t.log = s.log ++ new ∧ new.length ≤ 1

/-- Every instruction returns with the select line deasserted, on success and on failure, and all its events keep the
select discipline: SEL only when deasserted, DESEL and exchanges only when asserted (R151, R152). -/
def Obligations.EveryInstructionDeselects : Prop :=
  ∀ (i : Instr) (s t : State), s.sel = false → exec i s = .next t →
    t.sel = false ∧ ∃ new, t.trace = s.trace ++ new ∧ selAfter false new = some false

/-- Only POWER_UP, alone or inside a bring-up, drives the reset line or waits (R32, R275), and it ends with the line
released. -/
def Obligations.OnlyPowerUpDrivesReset : Prop :=
  ∀ (i : Instr) (s t : State), exec i s = .next t →
    (s.rst = false → t.rst = false) ∧
    (i ≠ .powerUp → i ≠ .enterRx → i ≠ .enterTx →
      t.rst = s.rst ∧ ∃ new, t.trace = s.trace ++ new ∧
        ∀ e ∈ new, (∀ b, e ≠ .rst b) ∧ (∀ n, e ≠ .delayUs n) ∧ ∀ n, e ≠ .delayMs n)

/-- Only TRY_RECEIVE and SEND_FRAME sample the ready line (R271). -/
def Obligations.OnlyFrameIoSamplesTheReadyLine : Prop :=
  ∀ (i : Instr) (s t : State), exec i s = .next t → i ≠ .tryReceive → (∀ f, i ≠ .sendFrame f) →
    t.irq = s.irq ∧ ∃ new, t.trace = s.trace ++ new ∧ ∀ e ∈ new, ∀ v, e ≠ .irq v

/-- BusFault is never produced: neither as `status` nor in a result's line (R263). -/
def Obligations.BusFaultIsNeverProduced : Prop :=
  ∀ (i : Instr) (s t : State), exec i s = .next t → s.status ≠ .busFault →
    t.status ≠ .busFault ∧ ∃ new, t.log = s.log ++ new ∧ ∀ e ∈ new, e.status ≠ .busFault

/-- Under an admitted configuration no instruction reaches a point with no meaning (R278). -/
def Obligations.NoModelFault : Prop :=
  ∀ (i : Instr) (s t : State), s.cfg.admitted = true → exec i s = .next t → t.fault = s.fault

/-! ### Timeout (60_exceptions.md) -/

/-- The abort path (R265). When the body of an operation raises Timeout, the operation ends with `rx_valid` 0, `status`
TIMEOUT and `seq` IDLE, and all other engine state, the trace among it, stands as it stood at the raise; the chip is told,
and the host receives its line. The raise left the line deselected and its values recorded (R262), and under the abstract
chip model the chip is then in mode Unknown (R223). On the bus stand the operation's pieces up to one handshake, that
handshake's CTS_RETRY_MAX busy polls, and nothing after them: no later step of the operation or of one around it, no retry
(R265, R266, R267, R269), so no START_TX after the failed WAIT_CTS of SEND_FRAME (R242) and no later write of a plan (R198).
-/
def Obligations.AbortPath : Prop :=
  (∀ (i : Instr) (body : State → Flow Result) (s u : State) (n : Nat), s.seq = .idle → i.failingCheck s.cfg = none →
    body (begin i s) = .timeout n u →
    hostOp i body s = .next { u with
      rxValid := false, status := .timeout, seq := .idle, agent := u.agent.onTimeout
      log := u.log ++ [⟨.op i, if i = .tryReceive then .none else .timeout n, .timeout⟩] }) ∧
  (∀ (i : Instr) (s t : State), i.isWire = false → Accepts s → s.sel = false → exec i s = .next t →
    t.status = .timeout →
    t.sel = false ∧ t.rxValid = false ∧ t.seq = .idle ∧ t.pollCount = s.cfg.ctsRetryMax ∧
    (∃ b, b ≠ Literal.ctsReady ∧ t.lastCts = some b) ∧
    (s.agent.law = .abstractModel → t.agent.chip.mode = .unknown)) ∧
  (∀ (i : Instr) (s t : State), i.isWire = false → Accepts s → exec i s = .next t → t.status = .timeout →
    ∃ new, t.trace = s.trace ++ new ∧ Aborted s.cfg (i.pieces s.cfg t.irq) new)

/-- The operations that contain no handshake never raise Timeout (R262). -/
def Obligations.NoHandshakeNoTimeout : Prop :=
  ∀ (i : Instr) (s t : State), s.cfg.admitted = true →
    (∃ f, i = .sendCmd f) ∨ (∃ n, i = .readRxFifo n) ∨ (∃ d, i = .writeTxFifo d) ∨ (∃ ch cond len, i = .startTx ch cond len) ∨
      i = .standby ∨ i = .readRssi →
    exec i s = .next t → t.status ≠ .timeout

/-! ### The handshake and the Command Channel (40_channel.md), for every answer the chip may give -/

/-- Polls are counted exactly, for every answer of the chip (R153, R154, R156). WAIT_CTS polls until the first 0xFF, then
returns Ok(); or makes CTS_RETRY_MAX busy polls, then raises Timeout; and nothing else goes on the bus. GET_RESP counts in
the same way, and reads its `n` bytes in the window of the ready poll; they go to `resp_buf` and to the host unchanged; on
Timeout `resp_buf` is not written. -/
def Obligations.PollCountingIsExact : Prop :=
  (∀ c : Config, decode c (.request ⟨0x01, []⟩) = .ok .waitCts) ∧
  (∀ (c : Config) (n : Nat), decode c (.request ⟨0x03, [.num n]⟩) = .ok (.getResp n)) ∧
  (∀ s : State, Accepts s →
    ∃ t new vs, exec .waitCts s = .next t ∧ t.trace = s.trace ++ new ∧ t.pollCount = vs.length ∧
      t.lastCts = vs.getLast? ∧ PollSeq s.cfg vs new ∧
      ((∃ busy, vs = busy ++ [0xFF] ∧ (∀ v ∈ busy, v ≠ 0xFF) ∧ vs.length ≤ s.cfg.ctsRetryMax ∧
          t.log = s.log ++ [⟨.op .waitCts, .ok, .ok⟩] ∧ t.status = .ok) ∨
        ((∀ v ∈ vs, v ≠ 0xFF) ∧ vs.length = s.cfg.ctsRetryMax ∧
          t.log = s.log ++ [⟨.op .waitCts, .timeout s.cfg.ctsRetryMax, .timeout⟩] ∧ t.status = .timeout))) ∧
  (∀ (s : State) (n : Nat), Accepts s → n ≤ s.cfg.respBufCap →
    ∃ t busy polls, exec (.getResp n) s = .next t ∧ PollSeq s.cfg busy polls ∧ (∀ v ∈ busy, v ≠ 0xFF) ∧
      ((∃ r last, r.length = n ∧ ResponseWindow s.cfg r last ∧ t.trace = s.trace ++ polls ++ last ∧
          busy.length < s.cfg.ctsRetryMax ∧ t.pollCount = busy.length + 1 ∧ t.lastCts = some 0xFF ∧
          t.respBuf = overwrite r s.respBuf ∧ t.log = s.log ++ [⟨.op (.getResp n), .okBytes r, .ok⟩] ∧ t.status = .ok) ∨
        (t.trace = s.trace ++ polls ∧ busy.length = s.cfg.ctsRetryMax ∧ t.pollCount = s.cfg.ctsRetryMax ∧
          t.lastCts = busy.getLast? ∧ t.respBuf = s.respBuf ∧
          t.log = s.log ++ [⟨.op (.getResp n), .timeout s.cfg.ctsRetryMax, .timeout⟩] ∧ t.status = .timeout)))

/-- SEND_CMD, START_TX and STANDBY complete whatever the chip answers: one transaction that carries the frame, which
stands in `cmd_buf` (R36), and no handshake (R155, R200, R203). With them, how each is encoded and when it is refused
(R126, R131, R133). -/
def Obligations.UnwaitedCommands : Prop :=
  (∀ (s : State) (f : List Byte), Accepts s → 1 ≤ f.length → f.length ≤ s.cfg.cmdBufCap →
    ∃ t, exec (.sendCmd f) s = .next t ∧ Completed (.sendCmd f) .ok (wOut f) [.sel, .cmdBuf] s t ∧
      t.cmdBuf = overwrite f s.cmdBuf) ∧
  (∀ (s : State) (ch cond : Byte) (len : Half), Accepts s →
    ∃ t, exec (.startTx ch cond len) s = .next t ∧
      Completed (.startTx ch cond len) .ok (wOut [0x31, ch, cond, hi8 len, lo8 len]) [.sel, .cmdBuf] s t ∧
      t.cmdBuf = overwrite [0x31, ch, cond, hi8 len, lo8 len] s.cmdBuf) ∧
  (∀ s : State, Accepts s →
    ∃ t, exec .standby s = .next t ∧
      Completed .standby .ok (wOut [s.cfg.opChangeState, s.cfg.standbyCode]) [.sel, .cmdBuf] s t ∧
      t.cmdBuf = overwrite [s.cfg.opChangeState, s.cfg.standbyCode] s.cmdBuf) ∧
  (∀ (c : Config) (f : List Byte) (ch cond : Byte) (len : Half),
    decode c (.request ⟨0x02, [.list (f.map BitVec.toNat)]⟩) = .ok (.sendCmd f) ∧
    decode c (.request ⟨0x0C, [.num ch.toNat, .num cond.toNat, .num len.toNat]⟩) = .ok (.startTx ch cond len) ∧
    decode c (.request ⟨0x0F, []⟩) = .ok .standby ∧
    (f.length = 0 → (Instr.sendCmd f).failingCheck c = some .emptyFrame) ∧
    (f.length ≠ 0 → c.cmdBufCap < f.length → (Instr.sendCmd f).failingCheck c = some .frameTooLong)) ∧
  (∀ (c : Config) (ch cond : Byte) (len : Nat), 65535 < len →
    decode c (.request ⟨0x0C, [.num ch.toNat, .num cond.toNat, .num len]⟩) = .error .byteRange)

/-- READ_RX_FIFO and WRITE_TX_FIFO complete whatever the chip answers: one transaction, no handshake. What the host
receives is what the chip answered, in order (R157, R158, R87). -/
def Obligations.FifoAccesses : Prop :=
  (∀ (s : State) (n : Nat), Accepts s → n ≤ s.cfg.fifoCap →
    ∃ t d m, exec (.readRxFifo n) s = .next t ∧ d.length = n ∧
      t.trace = s.trace ++ ([.sel, .x 0x77 m] ++ d.map (Event.x 0x00) ++ [.desel]) ∧
      t.log = s.log ++ [⟨.op (.readRxFifo n), .okBytes d, .ok⟩] ∧ t.status = .ok ∧ Frame [.sel] s t) ∧
  (∀ (s : State) (d : List Byte), Accepts s → d.length ≤ s.cfg.fifoCap →
    ∃ t, exec (.writeTxFifo d) s = .next t ∧ Completed (.writeTxFifo d) .ok (wOut (0x66 :: d)) [.sel] s t) ∧
  (∀ (c : Config) (n : Nat), decode c (.request ⟨0x04, [.num n]⟩) = .ok (.readRxFifo n)) ∧
  (∀ (c : Config) (d : List Byte),
    decode c (.request ⟨0x05, [.list (d.map BitVec.toNat)]⟩) = .ok (.writeTxFifo d))

/-- READ_RSSI returns the placeholder, makes no bus event and writes nothing but its outcome (R226). -/
def Obligations.ReadRssi : Prop :=
  (∀ c : Config, decode c (.request ⟨0x14, []⟩) = .ok .readRssi) ∧
  ∀ s : State, Accepts s →
    ∃ t, exec .readRssi s = .next t ∧ Completed .readRssi (.okByte s.cfg.rssiPlaceholder) [] [] s t

/-- Each wire row that is a command frame completes as one transaction of its bytes (R112, R113, R114, R116, R122, R123,
R124). That such a row is run on its own, with no result and no `status`, is the model's choice (log entry 5). -/
def Obligations.WireCommands : Prop :=
  ∀ (i : Instr) (s : State) (f : List Byte), Accepts s → i.failingCheck s.cfg = none →
    ((∃ g n o d, i = .wirePropWrite g n o d ∧ f = 0x11 :: g :: n :: o :: d) ∨
      (∃ sub, i = .wireFifoReset sub ∧ f = [0x15, sub]) ∨
      (∃ ch cond len, i = .wireStartTx ch cond len ∧ f = [0x31, ch, cond, hi8 len, lo8 len]) ∨
      (∃ ch cond len t v x, i = .wireStartRx ch cond len t v x ∧ f = [0x32, ch, cond, hi8 len, lo8 len, t, v, x]) ∨
      (∃ a, i = .wireGetIntStatus a ∧ f = s.cfg.opGetIntStatus :: a) ∨
      (∃ code, i = .wireChangeState code ∧ f = [s.cfg.opChangeState, code]) ∨
      (∃ a, i = .wirePowerUp a ∧ f = s.cfg.powerUpFrame.headD 0 :: a)) →
    ∃ t, exec i s = .next t ∧ Puts s t (wOut f) ∧ t.cmdBuf = overwrite f s.cmdBuf ∧ t.status = s.status ∧ t.log = s.log ∧
      Frame [.sel, .cmdBuf] s t

/-- The three wire rows that are no command frames complete as one transaction: WRITE_TX_FIFO (R118), READ_RX_FIFO (R119),
and READ_CMD_BUFF, which is a poll (R120) and, if the poll is ready, a response read (R121). (Log entry 5.) -/
def Obligations.WireAccesses : Prop :=
  (∀ (s : State) (d : List Byte), Accepts s → d.length ≤ s.cfg.fifoCap →
    ∃ t, exec (.wireWriteTxFifo d) s = .next t ∧ Puts s t (wOut (0x66 :: d)) ∧ t.status = s.status ∧ t.log = s.log ∧
      Frame [.sel] s t) ∧
  (∀ (s : State) (n : Nat), Accepts s → n ≤ s.cfg.fifoCap →
    ∃ t, exec (.wireReadRxFifo n) s = .next t ∧ Puts s t (wOut (0x77 :: List.replicate n 0x00)) ∧ t.status = s.status ∧
      t.log = s.log ∧ Frame [.sel] s t) ∧
  (∀ (s : State) (n : Nat), Accepts s → n ≤ s.cfg.respBufCap →
    ∃ t new v, exec (.wireReadCmdBuff n) s = .next t ∧ t.trace = s.trace ++ new ∧ t.lastCts = some v ∧
      t.status = s.status ∧ t.log = s.log ∧ Frame [.sel, .lastCts, .respBuf] s t ∧
      ((v = 0xFF ∧ ∃ r, r.length = n ∧ ResponseWindow s.cfg r new ∧ t.respBuf = overwrite r s.respBuf) ∨
        (v ≠ 0xFF ∧ PollSeq s.cfg [v] new ∧ t.respBuf = s.respBuf)))

/-! ### Against SimChip (R68) -/

/-- WAIT_CTS against a SimChip whose next handshake has `k` busy polls makes `k + 1` polls and returns Ok() if `k` is
below the ceiling (vector W3); and exactly CTS_RETRY_MAX polls and Timeout if it is not, or if the chip never reads
ready (W4). -/
def Obligations.WaitCtsAgainstSimChip : Prop :=
  ∀ (s : State) (b : Option Nat) (rest : List (Option Nat)), Accepts s → s.agent.law = .sim →
    s.agent.sim.busy = b :: rest →
    ∃ t, exec .waitCts s = .next t ∧ t.agent.sim.busy = rest ∧
      ((∃ k, b = some k ∧ k < s.cfg.ctsRetryMax ∧ t.pollCount = k + 1 ∧ t.lastCts = some 0xFF ∧
          Completed .waitCts .ok (List.replicate (k + 1) (pOut s.cfg)).flatten [.sel, .pollCount, .lastCts] s t) ∨
        ((∀ k, b = some k → s.cfg.ctsRetryMax ≤ k) ∧ t.pollCount = s.cfg.ctsRetryMax ∧ t.lastCts = some 0x00 ∧
          Puts s t (List.replicate s.cfg.ctsRetryMax (pOut s.cfg)).flatten ∧ t.status = .timeout ∧
          t.log = s.log ++ [⟨.op .waitCts, .timeout s.cfg.ctsRetryMax, .timeout⟩]))

/-- Against a SimChip that always returns ready (R68), WAIT_CTS makes one poll, and GET_RESP reads its bytes in that
poll's window; CLEAR_INTS sends its frame and reads 8 bytes (R153, R156, R197; vectors V40-1, V40-12). For every chip (R11,
R60) CLEAR_INTS is that frame and one handshake with 8 response bytes. -/
def Obligations.ReadyHandshakes : Prop :=
  (∀ s : State, Accepts s → AlwaysReady s →
    ∃ t, exec .waitCts s = .next t ∧ Completed .waitCts .ok (pOut s.cfg) [.sel, .pollCount, .lastCts] s t ∧
      t.pollCount = 1 ∧ t.lastCts = some 0xFF) ∧
  (∀ (s : State) (n : Nat), Accepts s → AlwaysReady s → n ≤ s.cfg.respBufCap →
    ∃ t r, exec (.getResp n) s = .next t ∧ r.length = n ∧
      Completed (.getResp n) (.okBytes r) (rrOut s.cfg n) [.sel, .pollCount, .lastCts, .respBuf] s t ∧
      t.respBuf = overwrite r s.respBuf ∧ t.pollCount = 1) ∧
  (∀ s : State, Accepts s → AlwaysReady s →
    ∃ t r, exec .clearInts s = .next t ∧ r.length = 8 ∧
      Completed .clearInts .ok (wOut (s.cfg.opGetIntStatus :: s.cfg.intClrArgs) ++ rrOut s.cfg 8)
        [.sel, .cmdBuf, .pollCount, .lastCts, .respBuf] s t ∧ t.respBuf = overwrite r s.respBuf) ∧
  (∀ s : State, Accepts s → RunsAs .clearInts [.send (s.cfg.opGetIntStatus :: s.cfg.intClrArgs), .hand 8] s)

/-- Against a SimChip that always returns ready (R68), each of SET_PROPERTY (R159), START_RX (R201), RESET_FIFO (R202)
and the four pseudo-instructions (R135) sends its one frame and makes one poll. A pseudo-instruction is recorded as its
expansion. For every chip (R11, R60) each sends that frame and makes one handshake, which ends it with Ok() or Timeout. -/
def Obligations.WaitedCommands : Prop :=
  ∀ (i : Instr) (s : State) (f : List Byte), Accepts s → i.failingCheck s.cfg = none →
    ((∃ g o d, i = .setProperty g o d ∧ f = 0x11 :: g :: BitVec.ofNat 8 d.length :: o :: d) ∨
      (∃ ch cond len t v x, i = .startRx ch cond len t v x ∧ f = [0x32, ch, cond, hi8 len, lo8 len, t, v, x]) ∨
      (∃ sub, i = .resetFifo sub ∧ f = [0x15, sub]) ∨
      (i = .resetTxFifo ∧ f = [0x15, 0x01]) ∨ (i = .resetRxFifo ∧ f = [0x15, 0x02]) ∨
      (i = .resetBothFifos ∧ f = [0x15, 0x03]) ∨
      (i = .rearmRx ∧ f = [0x32, 0x00, 0x00, 0x00, 0x15, 0x00, 0x03, 0x03])) →
    RunsAs i [.send f, .hand 0] s ∧
    (AlwaysReady s → ∃ t, exec i s = .next t ∧
      Completed i.expand .ok (wOut f ++ pOut s.cfg) [.sel, .cmdBuf, .pollCount, .lastCts] s t ∧
      t.cmdBuf = overwrite f s.cmdBuf ∧ t.pollCount = 1)

/-- Against a SimChip that always returns ready (`AlwaysReady`, R68), SET_FREQ and SET_POWER make one property write, with
one poll, per entry of their plan, in list order (R198, R199). For every chip (R11, R60) they make those writes, each with its
handshake, in that order; after a handshake that fails, none. -/
def Obligations.PlannedWrites : Prop :=
  (∀ (s : State) (p : List Byte), Accepts s → AlwaysReady s → p.length = 8 →
    ∃ t, exec (.setFreq p) s = .next t ∧ Completed (.setFreq p) .ok
      (s.cfg.freqPlan.flatMap fun e =>
        wOut (0x11 :: e.group :: BitVec.ofNat 8 e.count :: e.offset :: (p.drop e.start).take e.count) ++ pOut s.cfg)
      [.sel, .cmdBuf, .pollCount, .lastCts] s t) ∧
  (∀ (s : State) (p : List Byte), Accepts s → AlwaysReady s → p.length = 2 →
    ∃ t, exec (.setPower p) s = .next t ∧ Completed (.setPower p) .ok
      (s.cfg.powerPlan.flatMap fun e =>
        wOut (0x11 :: e.group :: BitVec.ofNat 8 e.count :: e.offset :: (p.drop e.start).take e.count) ++ pOut s.cfg)
      [.sel, .cmdBuf, .pollCount, .lastCts] s t) ∧
  (∀ (s : State) (p : List Byte), Accepts s → p.length = 8 →
    RunsAs (.setFreq p) (s.cfg.freqPlan.flatMap fun e =>
      [.send (0x11 :: e.group :: BitVec.ofNat 8 e.count :: e.offset :: (p.drop e.start).take e.count), .hand 0]) s) ∧
  (∀ (s : State) (p : List Byte), Accepts s → p.length = 2 →
    RunsAs (.setPower p) (s.cfg.powerPlan.flatMap fun e =>
      [.send (0x11 :: e.group :: BitVec.ofNat 8 e.count :: e.offset :: (p.drop e.start).take e.count), .hand 0]) s)

/-! ### The Configuration Replayer (41_replay.md) -/

/-- The model's check of a table is `WF(T)` of R185, with its offsets `a k` and its conditions (a) to (d); and the
number of records is the `K` of that rule (R186). A table that fails it is refused, as the argument of REPLAY and as
CONFIG_TABLE. -/
def Obligations.TableWellFormed : Prop :=
  ∀ (cap : Nat) (T : List Byte),
    (tableWF cap T = true ↔
      ∃ (a : Nat → Nat) (K : Nat), a 0 = 0 ∧ (∀ k < K, a (k + 1) = a k + (T.getD (a k) 0).toNat + 1) ∧
        (∀ k ≤ K, a k < T.length) ∧
        ((∀ k < K, 1 ≤ (T.getD (a k) 0).toNat) ∧ T.getD (a K) 0 = 0) ∧
        (∀ k < K, a k + (T.getD (a k) 0).toNat < T.length) ∧
        (∀ k < K, (T.getD (a k) 0).toNat ≤ cap)) ∧
    (∀ (a : Nat → Nat) (K : Nat), tableWF cap T = true → a 0 = 0 →
      (∀ k < K, a (k + 1) = a k + (T.getD (a k) 0).toNat + 1) → (∀ k < K, 1 ≤ (T.getD (a k) 0).toNat) →
      T.getD (a K) 0 = 0 → (∀ k ≤ K, a k < T.length) → tableCount T = K) ∧
    (∀ c : Config, c.cmdBufCap = cap → tableWF cap T = false →
      (Instr.replay T).failingCheck c = some .table ∧ (c.configTable = T → c.admitted = false))

/-- REPLAY of an admitted table against a SimChip that always returns ready (R68): one command transaction per record, in
table order, each followed by one poll, and the cursor ends on the terminator (R180, R183, R186). -/
def Obligations.ReplayAgainstAReadyChip : Prop :=
  ∀ (s : State) (T : List Byte) (fs : List (List Byte)), Accepts s → AlwaysReady s → tableRecords T = some fs →
    (∀ f ∈ fs, f.length ≤ s.cfg.cmdBufCap) →
    ∃ t, exec (.replay T) s = .next t ∧
      Completed (.replay T) .ok (fs.flatMap fun f => wOut f ++ pOut s.cfg)
        [.sel, .cmdBuf, .pollCount, .lastCts, .cursor] s t ∧
      t.cursor = (fs.map fun f => f.length + 1).sum ∧ T[t.cursor]? = some 0

/-- REPLAY fails fast. For every chip: it sends the records in table order, each with its own handshake, and completes
when all have returned; or the handshake after some record `k` makes CTS_RETRY_MAX busy polls, and then that record's
frame is the last one sent, Timeout is raised, and the cursor keeps the record's offset (R180, R182, R184). Against a
SimChip (R68) whose handshake after record `k` is the first that never reads ready, and whose earlier ones are ready at
their first poll, that is what happens (vectors V41-4, V41-5). -/
def Obligations.ReplayFailsFast : Prop :=
  (∀ (s : State) (T : List Byte) (fs : List (List Byte)), Accepts s → tableRecords T = some fs →
    (∀ f ∈ fs, f.length ≤ s.cfg.cmdBufCap) →
    ∃ t, exec (.replay T) s = .next t ∧
      ((∃ done, FramesSent s.cfg fs done ∧ t.trace = s.trace ++ done ∧
          t.cursor = (fs.map fun f => f.length + 1).sum ∧ t.log = s.log ++ [⟨.op (.replay T), .ok, .ok⟩]) ∨
        ∃ k f done e busy polls, fs[k]? = some f ∧ FramesSent s.cfg (fs.take k) done ∧ e.map Event.out = wOut f ∧
          PollSeq s.cfg busy polls ∧ (∀ v ∈ busy, v ≠ 0xFF) ∧ busy.length = s.cfg.ctsRetryMax ∧
          t.trace = s.trace ++ (done ++ e ++ polls) ∧
          t.cursor = ((fs.take k).map fun f => f.length + 1).sum ∧
          t.log = s.log ++ [⟨.op (.replay T), .timeout s.cfg.ctsRetryMax, .timeout⟩])) ∧
  (∀ (s : State) (T : List Byte) (fs : List (List Byte)) (k : Nat) (f : List Byte) (rest : List (Option Nat)),
    Accepts s → s.agent.law = .sim → tableRecords T = some fs → (∀ f ∈ fs, f.length ≤ s.cfg.cmdBufCap) →
    fs[k]? = some f → s.agent.sim.busy = List.replicate k (some 0) ++ none :: rest →
    ∃ t, exec (.replay T) s = .next t ∧
      t.log = s.log ++ [⟨.op (.replay T), .timeout s.cfg.ctsRetryMax, .timeout⟩] ∧
      Puts s t (((fs.take k).flatMap fun f => wOut f ++ pOut s.cfg) ++ wOut f ++
        (List.replicate s.cfg.ctsRetryMax (pOut s.cfg)).flatten) ∧
      t.cursor = ((fs.take k).map fun f => f.length + 1).sum)

/-! ### The Radio State Controller (42_radio_state.md) -/

/-- POWER_UP against a SimChip that always returns ready (R68): the reset pulse, the settle time, the power-up frame
with one poll, and CLEAR_INTS (R196). For every chip (R11, R60) it does the same in that order with a handshake in the place
of each poll, up to the one that fails. -/
def Obligations.PowerUpSequence : Prop :=
  (∀ s : State, Accepts s → AlwaysReady s →
    ∃ t, exec .powerUp s = .next t ∧
      Completed .powerUp .ok
        ([.rst true, .delayUs s.cfg.tRstAssertUs, .rst false, .delayMs s.cfg.tSettleMs] ++ wOut s.cfg.powerUpFrame ++
          pOut s.cfg ++ wOut (s.cfg.opGetIntStatus :: s.cfg.intClrArgs) ++ rrOut s.cfg 8)
        [.sel, .rst, .cmdBuf, .pollCount, .lastCts, .respBuf] s t ∧
      t.rst = false ∧ 300 ≤ s.cfg.tRstAssertUs ∧ 5 ≤ s.cfg.tSettleMs) ∧
  (∀ s : State, Accepts s → RunsAs .powerUp
    [.event (.rst true), .event (.delayUs s.cfg.tRstAssertUs), .event (.rst false), .event (.delayMs s.cfg.tSettleMs),
      .send s.cfg.powerUpFrame, .hand 0, .send (s.cfg.opGetIntStatus :: s.cfg.intClrArgs), .hand 8] s)

/-- ENTER_RX and ENTER_TX against a SimChip that always returns ready (R68): the whole bring-up in the order of R204, the
interrupt-enable frames, and then START_RX with the re-arm arguments (R205) or the TX FIFO reset (R206). For every chip (R11,
R60) they do the same in that order with a handshake in the place of each poll, up to the one that fails. -/
def Obligations.BringUpSequences : Prop :=
  (∀ s : State, Accepts s → AlwaysReady s →
    ∃ t, exec .enterRx s = .next t ∧
      Completed .enterRx .ok
        (powerUpOut s.cfg ++ replayOut s.cfg s.cfg.configTable ++ planOut s.cfg s.cfg.freqPlan s.cfg.freqParams ++
          planOut s.cfg s.cfg.powerPlan s.cfg.powerParams ++
          ((s.cfg.bringupExtra.frr ++ s.cfg.bringupExtra.preamble ++ s.cfg.bringupExtra.syncWord ++
            s.cfg.bringupExtra.pktBitOrder ++ s.cfg.bringupExtra.gpioMap ++ s.cfg.bringupExtra.xtalTrim).flatMap
              (cmdOut s.cfg)) ++
          cmdOut s.cfg [0x15, 0x03] ++ clearOut s.cfg ++ s.cfg.rxIrqEnable.flatMap (cmdOut s.cfg) ++
          cmdOut s.cfg [0x32, 0x00, 0x00, 0x00, 0x15, 0x00, 0x03, 0x03])
        [.sel, .rst, .cmdBuf, .pollCount, .lastCts, .respBuf, .cursor] s t) ∧
  (∀ s : State, Accepts s → AlwaysReady s →
    ∃ t, exec .enterTx s = .next t ∧
      Completed .enterTx .ok
        (powerUpOut s.cfg ++ replayOut s.cfg s.cfg.configTable ++ planOut s.cfg s.cfg.freqPlan s.cfg.freqParams ++
          planOut s.cfg s.cfg.powerPlan s.cfg.powerParams ++
          ((s.cfg.bringupExtra.frr ++ s.cfg.bringupExtra.preamble ++ s.cfg.bringupExtra.syncWord ++
            s.cfg.bringupExtra.pktBitOrder ++ s.cfg.bringupExtra.gpioMap ++ s.cfg.bringupExtra.xtalTrim).flatMap
              (cmdOut s.cfg)) ++
          cmdOut s.cfg [0x15, 0x03] ++ clearOut s.cfg ++ s.cfg.txIrqEnable.flatMap (cmdOut s.cfg) ++
          cmdOut s.cfg [0x15, 0x01])
        [.sel, .rst, .cmdBuf, .pollCount, .lastCts, .respBuf, .cursor] s t) ∧
  (∀ s : State, Accepts s → RunsAs .enterRx
    (powerUpPieces s.cfg ++ tablePieces s.cfg.configTable ++ planPieces s.cfg.freqPlan s.cfg.freqParams ++
      planPieces s.cfg.powerPlan s.cfg.powerParams ++
      ((s.cfg.bringupExtra.frr ++ s.cfg.bringupExtra.preamble ++ s.cfg.bringupExtra.syncWord ++
        s.cfg.bringupExtra.pktBitOrder ++ s.cfg.bringupExtra.gpioMap ++ s.cfg.bringupExtra.xtalTrim).flatMap waited) ++
      waited [0x15, 0x03] ++ clearPieces s.cfg ++ s.cfg.rxIrqEnable.flatMap waited ++
      waited [0x32, 0x00, 0x00, 0x00, 0x15, 0x00, 0x03, 0x03]) s) ∧
  (∀ s : State, Accepts s → RunsAs .enterTx
    (powerUpPieces s.cfg ++ tablePieces s.cfg.configTable ++ planPieces s.cfg.freqPlan s.cfg.freqParams ++
      planPieces s.cfg.powerPlan s.cfg.powerParams ++
      ((s.cfg.bringupExtra.frr ++ s.cfg.bringupExtra.preamble ++ s.cfg.bringupExtra.syncWord ++
        s.cfg.bringupExtra.pktBitOrder ++ s.cfg.bringupExtra.gpioMap ++ s.cfg.bringupExtra.xtalTrim).flatMap waited) ++
      waited [0x15, 0x03] ++ clearPieces s.cfg ++ s.cfg.txIrqEnable.flatMap waited ++
      waited [0x15, 0x01]) s)

/-! ### Frame I/O (43_frame_io.md) -/

/-- TRY_RECEIVE with the line deasserted returns None at once, with `status` OK and that one sample as its only event,
whatever chip it is (R240). -/
def Obligations.TryReceiveDeasserted : Prop :=
  ∀ s : State, Accepts s → (sampleIrq (begin .tryReceive s)).irq = false →
    ∃ t, exec .tryReceive s = .next t ∧ Completed .tryReceive .none [.irq false] [.irq] s t ∧ t.irq = false

/-- TRY_RECEIVE with the line asserted, against a SimChip that always returns ready (R68): it reads exactly 21 bytes,
resets the RX FIFO, clears interrupts, re-arms, and hands over a copy of what it staged (R240, R241). -/
def Obligations.TryReceiveAsserted : Prop :=
  ∀ s : State, Accepts s → AlwaysReady s → NextSample true s → s.rxStage.length = 21 →
    ∃ t d, exec .tryReceive s = .next t ∧ d = (List.range 21).map (fun k => s.agent.sim.rx.getD k 0x00) ∧
      Completed .tryReceive (.some d)
        ([.irq true] ++ wOut (0x77 :: List.replicate 21 0x00) ++ cmdOut s.cfg [0x15, 0x02] ++ clearOut s.cfg ++
          cmdOut s.cfg [0x32, 0x00, 0x00, 0x00, 0x15, 0x00, 0x03, 0x03])
        [.sel, .irq, .cmdBuf, .pollCount, .lastCts, .rxValid, .respBuf, .rxStage] s t ∧
      t.rxStage = d.map some ∧ t.rxValid = false

/-- SEND_FRAME against a SimChip that always returns ready (R68): one STANDBY frame, one FIFO write of the whole frame,
one WAIT_CTS, one sample, CLEAR_INTS if and only if that sample reads asserted, and one START_TX with length 21 (R242,
R243, R244). -/
def Obligations.SendFrameSequence : Prop :=
  ∀ (s : State) (f : List Byte) (v : Bool), Accepts s → AlwaysReady s → f.length = 21 → NextSample v s →
    ∃ t, exec (.sendFrame f) s = .next t ∧
      Completed (.sendFrame f) .ok
        (wOut [s.cfg.opChangeState, s.cfg.standbyCode] ++ wOut (0x66 :: f) ++ pOut s.cfg ++ [.irq v] ++
          (if v then clearOut s.cfg else []) ++ wOut [0x31, 0x00, 0x30, 0x00, 0x15])
        [.sel, .irq, .cmdBuf, .pollCount, .lastCts, .respBuf] s t ∧ t.irq = v

/-- A completed SEND_FRAME, for every answer of the chip and every frame: one STANDBY frame, one FIFO write of all 21
bytes, one WAIT_CTS, one sample; one CLEAR_INTS if and only if that sample reads asserted; and one START_TX with length
21, and nothing else (R243, R244). -/
def Obligations.SendFrameForEveryChip : Prop :=
  ∀ (s t : State) (f : List Byte), Accepts s → f.length = 21 → exec (.sendFrame f) s = .next t → t.status = .ok →
    ∃ e1 e2 h v clr e3,
      t.trace = s.trace ++ (e1 ++ e2 ++ h ++ [.irq v] ++ clr ++ e3) ∧
      e1.map Event.out = wOut [s.cfg.opChangeState, s.cfg.standbyCode] ∧ e2.map Event.out = wOut (0x66 :: f) ∧
      Handshake s.cfg 0 h ∧
      (v = false → clr = []) ∧
      (v = true → ∃ w r, clr = w ++ r ∧ w.map Event.out = wOut (s.cfg.opGetIntStatus :: s.cfg.intClrArgs) ∧
        Handshake s.cfg 8 r) ∧
      e3.map Event.out = wOut [0x31, 0x00, 0x30, 0x00, 0x15] ∧ t.irq = v ∧
      t.log = s.log ++ [⟨.op (.sendFrame f), .ok, .ok⟩]

/-- A TRY_RECEIVE whose one sample reads asserted and that does not time out, for every answer of the chip: it reads
exactly 21 bytes, resets the RX FIFO, clears interrupts and re-arms, in that order and each with its own handshake; it
hands over the bytes it read, which stay in `rx_stage` (R240, R241). -/
def Obligations.TryReceiveForEveryChip : Prop :=
  ∀ s t : State, Accepts s → s.rxStage.length = 21 → (sampleIrq (begin .tryReceive s)).irq = true →
    exec .tryReceive s = .next t → t.status = .ok →
    ∃ (d : List Byte) (m : Byte) (e1 h1 e2 h2 e3 h3 : List Event), d.length = 21 ∧
      t.trace = s.trace ++ ([.irq true, .sel, .x 0x77 m] ++ d.map (Event.x 0x00) ++ [.desel] ++ e1 ++ h1 ++ e2 ++ h2 ++
        e3 ++ h3) ∧
      e1.map Event.out = wOut [0x15, 0x02] ∧ Handshake s.cfg 0 h1 ∧
      e2.map Event.out = wOut (s.cfg.opGetIntStatus :: s.cfg.intClrArgs) ∧ Handshake s.cfg 8 h2 ∧
      e3.map Event.out = wOut [0x32, 0x00, 0x00, 0x00, 0x15, 0x00, 0x03, 0x03] ∧ Handshake s.cfg 0 h3 ∧
      t.log = s.log ++ [⟨.op .tryReceive, .some d, .ok⟩] ∧ t.rxStage = d.map some ∧ t.rxValid = false

/-- Byte identity through the simulated FIFO loop of a SimChip that always returns ready (R68, log entry 26): the frame
a SEND_FRAME writes is what the next TRY_RECEIVE that reads a frame returns, unmodified (R245, vector W7). -/
def Obligations.RoundTripThroughTheFifo : Prop :=
  ∀ (s : State) (f : List Byte) (v : Bool) (rest : List Bool), Accepts s → AlwaysReady s → s.agent.sim.loop = true →
    s.agent.sim.irq = v :: true :: rest → f.length = 21 →
    ∃ t u, exec (.sendFrame f) s = .next t ∧ exec .tryReceive t = .next u ∧
      u.log = s.log ++ [⟨.op (.sendFrame f), .ok, .ok⟩, ⟨.op .tryReceive, .some f, .ok⟩]

/-- TRY_RECEIVE twice against a SimChip that always returns ready (`AlwaysReady`, R68), the line asserted at the first
sample and deasserted at the second: a frame once, then None with no bus transaction; the re-arm stands at the end of the
first call (R246, C3, vector W5). -/
def Obligations.TryReceiveTwice : Prop :=
  ∀ s : State, Accepts s → AlwaysReady s → NextSample true s → s.agent.sim.irq.getD 1 false = false →
    ∃ t u d es, exec .tryReceive s = .next t ∧ exec .tryReceive t = .next u ∧ d.length = 21 ∧
      u.log = s.log ++ [⟨.op .tryReceive, .some d, .ok⟩, ⟨.op .tryReceive, .none, .ok⟩] ∧
      Puts s t (es ++ cmdOut s.cfg [0x32, 0x00, 0x00, 0x00, 0x15, 0x00, 0x03, 0x03]) ∧ Puts t u [.irq false]

/-! ### Frames: what an instruction leaves unchanged -/

/-- The registers that an instruction with no handshake may write, and no other: the select line; `cmd_buf` for a command
frame; nothing for READ_RSSI; a wire row's poll its CTS byte and response. Host operations write `status` and the host's
log, wire rows neither (log entry 5). -/
def Obligations.FrameWithoutAHandshake : Prop :=
  ∀ (i : Instr) (s t : State), s.cfg.admitted = true → i.failingCheck s.cfg = none → exec i s = .next t →
    ((∃ f, i = .sendCmd f) ∨ (∃ ch cond len, i = .startTx ch cond len) ∨ i = .standby → Frame [.sel, .cmdBuf] s t) ∧
    ((∃ n, i = .readRxFifo n) ∨ (∃ d, i = .writeTxFifo d) → Frame [.sel] s t) ∧
    (i = .readRssi → Frame [] s t) ∧
    (i.isWire = true → Frame [.sel, .cmdBuf, .lastCts, .respBuf] s t ∧ t.status = s.status ∧ t.log = s.log) ∧
    ((∃ d, i = .wireWriteTxFifo d) ∨ (∃ n, i = .wireReadRxFifo n) → Frame [.sel] s t) ∧
    ((∃ n, i = .wireReadCmdBuff n) → Frame [.sel, .lastCts, .respBuf] s t)

/-- The registers that an instruction with a handshake may write, and no other: the select line, the poll registers, and
on Timeout `rx_valid`; `cmd_buf` where it sends a frame; `resp_buf` where it reads a response (R36, R37, R40, R41,
R265). -/
def Obligations.FrameOfHandshakes : Prop :=
  ∀ (i : Instr) (s t : State), s.cfg.admitted = true → i.failingCheck s.cfg = none → exec i s = .next t →
    (i = .waitCts → Frame [.sel, .pollCount, .lastCts, .rxValid] s t) ∧
    ((∃ n, i = .getResp n) → Frame [.sel, .pollCount, .lastCts, .rxValid, .respBuf] s t) ∧
    ((∃ g o d, i = .setProperty g o d) ∨ (∃ p, i = .setFreq p) ∨ (∃ p, i = .setPower p) ∨
        (∃ ch cond len x y z, i = .startRx ch cond len x y z) ∨ (∃ sub, i = .resetFifo sub) ∨ i = .resetTxFifo ∨
        i = .resetRxFifo ∨ i = .resetBothFifos ∨ i = .rearmRx →
      Frame [.sel, .cmdBuf, .pollCount, .lastCts, .rxValid] s t) ∧
    (i = .clearInts → Frame [.sel, .cmdBuf, .pollCount, .lastCts, .rxValid, .respBuf] s t)

/-- The registers that a replay, a power-up, a bring-up or a Frame I/O operation may write, and no other: beyond those
of its handshakes, the cursor for a replay (R42), the reset line for a power-up (R32), the ready-line sample for Frame
I/O (R33), and the staging buffer for TRY_RECEIVE alone (R38). -/
def Obligations.FrameOfSequences : Prop :=
  ∀ (i : Instr) (s t : State), s.cfg.admitted = true → i.failingCheck s.cfg = none → exec i s = .next t →
    ((∃ T, i = .replay T) → Frame [.sel, .cmdBuf, .pollCount, .lastCts, .rxValid, .cursor] s t) ∧
    (i = .powerUp → Frame [.sel, .rst, .cmdBuf, .pollCount, .lastCts, .rxValid, .respBuf] s t) ∧
    (i = .enterRx ∨ i = .enterTx →
      Frame [.sel, .rst, .cmdBuf, .pollCount, .lastCts, .rxValid, .respBuf, .cursor] s t) ∧
    (i = .tryReceive → Frame [.sel, .irq, .cmdBuf, .pollCount, .lastCts, .rxValid, .respBuf, .rxStage] s t) ∧
    ((∃ f, i = .sendFrame f) → Frame [.sel, .irq, .cmdBuf, .pollCount, .lastCts, .rxValid, .respBuf] s t)

/-- The property store under the abstract chip model, for every byte that no frame the chip still has in hand stores to
(R97): an instruction that writes no property and drives no reset leaves the byte as it was, and so do a property write,
SEND_CMD and REPLAY outside the bytes of the runs they store (R66, R82, R221), unless the chip ends in mode Unknown,
where nothing is known of it. POWER_UP, ENTER_RX and ENTER_TX lose the store (R211), and a bring-up writes no byte but
those of the runs of its records, plans and configured frames. That a run stores nothing past offset 0xFF of its group,
so that each clause with `propAddress g 256 ≤ a` leaves the byte alone, is the model's choice (log entry 16). That a
chip in Sleep keeps its store and obeys is another (log entry 35). -/
def Obligations.PropertyStoreFrame : Prop :=
  ∀ (i : Instr) (s t : State), s.cfg.admitted = true → exec i s = .next t → s.agent.law = .abstractModel →
    t.agent.chip.mode ≠ .unknown →
    (i = .waitCts ∨ (∃ n, i = .getResp n) ∨ (∃ n, i = .readRxFifo n) ∨ (∃ d, i = .writeTxFifo d) ∨ i = .clearInts ∨
        (∃ ch cond len, i = .startTx ch cond len) ∨ (∃ ch cond len x y z, i = .startRx ch cond len x y z) ∨
        (∃ sub, i = .resetFifo sub) ∨ i = .standby ∨ i = .tryReceive ∨ (∃ f, i = .sendFrame f) ∨ i = .readRssi ∨
        i = .resetTxFifo ∨ i = .resetRxFifo ∨ i = .resetBothFifos ∨ i = .rearmRx ∨
        (i.isWire = true ∧ ∀ g n o d, i ≠ .wirePropWrite g n o d) →
      ∀ a, NotInHand s a → readProp a t = readProp a s) ∧
    (∀ g o d, i = .setProperty g o d → ∀ a, NotInHand s a → a < propAddress g o.toNat ∨
      propAddress g o.toNat + d.length ≤ a ∨ propAddress g 256 ≤ a → readProp a t = readProp a s) ∧
    (∀ g n o d, (i = .wirePropWrite g n o d ∨ i = .sendCmd (0x11 :: g :: n :: o :: d)) → ∀ a, NotInHand s a →
      a < propAddress g o.toNat ∨ propAddress g o.toNat + d.length ≤ a ∨ propAddress g 256 ≤ a →
        readProp a t = readProp a s) ∧
    (∀ f, i = .sendCmd f → f.head? ≠ some 0x11 → ∀ a, NotInHand s a → readProp a t = readProp a s) ∧
    (∀ p, i = .setFreq p → ∀ a, NotInHand s a → (∀ e ∈ s.cfg.freqPlan, a < propAddress e.group e.offset.toNat ∨
      propAddress e.group e.offset.toNat + e.count ≤ a ∨ propAddress e.group 256 ≤ a) → readProp a t = readProp a s) ∧
    (∀ p, i = .setPower p → ∀ a, NotInHand s a → (∀ e ∈ s.cfg.powerPlan, a < propAddress e.group e.offset.toNat ∨
      propAddress e.group e.offset.toNat + e.count ≤ a ∨ propAddress e.group 256 ≤ a) → readProp a t = readProp a s) ∧
    (∀ T, i = .replay T → ∀ a, NotInHand s a → (∀ f ∈ (tableRecords T).getD [], ¬ StoresTo f a) →
      readProp a t = readProp a s) ∧
    (i = .powerUp → s.agent.chip.held = false → ∀ a, readProp a t = none) ∧
    (∀ irqEnable, (i = .enterRx ∧ irqEnable = s.cfg.rxIrqEnable) ∨ (i = .enterTx ∧ irqEnable = s.cfg.txIrqEnable) →
      s.agent.chip.held = false → ∀ a,
      (∀ f ∈ (tableRecords s.cfg.configTable).getD [] ++ bringupFrames s.cfg.bringupExtra ++ irqEnable,
        ¬ StoresTo f a) →
      (∀ e ∈ s.cfg.freqPlan ++ s.cfg.powerPlan, a < propAddress e.group e.offset.toNat ∨
        propAddress e.group e.offset.toNat + e.count ≤ a ∨ propAddress e.group 256 ≤ a) → readProp a t = none)

/-! ### The abstract chip model (10_state.md R60 to R67, 42_radio_state.md R210 to R223), always a premise -/

/-- A property-group write stores its bytes up to offset 0xFF (R66, R82, R221), unless the chip ends in mode Unknown,
and they stand once a poll has read 0xFF after it (R97): after SET_PROPERTY; after a WAIT_CTS that follows a property
frame of SEND_CMD or of the wire row PROP_WRITE; and, for a byte that no later frame of the same operation stores to,
after SET_FREQ and SET_POWER the bytes of each plan entry, after REPLAY those of each property record, and after
ENTER_RX and ENTER_TX those of each property frame of the bring-up: the records, plans and configured frames of R204 and
the interrupt-enable frames of R205 or R206. That a configured property frame stores, although R222 says that this model
does not track what a configured frame changes, is DEDUCED from R66 and R221 (log entry 18). Bytes past offset 0xFF,
which no rule places, are stored nowhere, the model's choice (log entry 16): the first two clauses say that no byte of
the next group or beyond it changes, but by a frame that the chip had in hand before; for plans, records and the
bring-up PropertyStoreFrame says it. That a chip in Sleep obeys is another choice (log entry 35). -/
def Obligations.PropertyWriteStores : Prop :=
  (∀ (s t : State) (g o : Byte) (d : List Byte), Accepts s → s.agent.law = .abstractModel →
    1 ≤ d.length → d.length ≤ s.cfg.propMax → exec (.setProperty g o d) s = .next t → t.agent.chip.mode ≠ .unknown →
    RunStored g o d s t) ∧
  (∀ (i : Instr) (s u t : State) (g n o : Byte) (d : List Byte), Accepts s → s.agent.law = .abstractModel →
    i = .wirePropWrite g n o d ∨ i = .sendCmd (0x11 :: g :: n :: o :: d) → i.failingCheck s.cfg = none →
    exec i s = .next u → exec .waitCts u = .next t → t.agent.chip.mode ≠ .unknown → RunStored g o d s t) ∧
  (∀ (i : Instr) (s t : State) (p : List Byte) (pre post : List PlanEntry) (e : PlanEntry), Accepts s →
    s.agent.law = .abstractModel →
    (i = .setFreq p ∧ p.length = 8 ∧ s.cfg.freqPlan = pre ++ e :: post) ∨
      (i = .setPower p ∧ p.length = 2 ∧ s.cfg.powerPlan = pre ++ e :: post) →
    exec i s = .next t → t.agent.chip.mode ≠ .unknown →
    ∀ k, k < e.count → e.offset.toNat + k ≤ 0xFF →
      (∀ l ∈ post, propAddress e.group e.offset.toNat + k < propAddress l.group l.offset.toNat ∨
        propAddress l.group l.offset.toNat + l.count ≤ propAddress e.group e.offset.toNat + k ∨
        propAddress l.group 256 ≤ propAddress e.group e.offset.toNat + k) →
      readProp (propAddress e.group e.offset.toNat + k) t = p[e.start + k]?) ∧
  (∀ (s t : State) (T : List Byte) (pre post : List (List Byte)) (g n o : Byte) (d : List Byte), Accepts s →
    s.agent.law = .abstractModel → (Instr.replay T).failingCheck s.cfg = none →
    tableRecords T = some (pre ++ (0x11 :: g :: n :: o :: d) :: post) →
    exec (.replay T) s = .next t → t.agent.chip.mode ≠ .unknown →
    ∀ k (h : k < d.length), o.toNat + k ≤ 0xFF → (∀ f ∈ post, ¬ StoresTo f (propAddress g o.toNat + k)) →
      readProp (propAddress g o.toNat + k) t = some d[k]) ∧
  (∀ (i : Instr) (s t : State) (irqEnable pre post : List (List Byte)) (g n o : Byte) (d : List Byte), Accepts s →
    s.agent.law = .abstractModel →
    (i = .enterRx ∧ irqEnable = s.cfg.rxIrqEnable) ∨ (i = .enterTx ∧ irqEnable = s.cfg.txIrqEnable) →
    bringupWrites s.cfg ++ irqEnable = pre ++ (0x11 :: g :: n :: o :: d) :: post →
    exec i s = .next t → t.agent.chip.mode ≠ .unknown →
    ∀ k (h : k < d.length), o.toNat + k ≤ 0xFF → (∀ f ∈ post, ¬ StoresTo f (propAddress g o.toNat + k)) →
      readProp (propAddress g o.toNat + k) t = some d[k])

/-- A completed POWER_UP brings the chip to Standby/Ready with both FIFOs empty, no interrupt pending and the property
store lost, whatever it was before (R211, R213, R220; vector M2). -/
def Obligations.PowerUpRevivesTheChip : Prop :=
  ∀ s t : State, Accepts s → s.agent.law = .abstractModel → s.agent.chip.held = false → exec .powerUp s = .next t →
    t.status = .ok →
    t.agent.chip.mode = .standbyReady ∧ t.agent.chip.cts = true ∧ t.agent.chip.txFifo = [] ∧ t.agent.chip.rxFifo = [] ∧
      t.agent.chip.intPending = ⟨false, false⟩ ∧ t.agent.chip.props = []

/-- ENTER_RX and ENTER_TX issued while a transmission is in flight leave the chip in mode Unknown, their own reset pulse
notwithstanding (R207, R223, R302; vector M5). -/
def Obligations.BringUpInFlight : Prop :=
  ∀ s t : State, Accepts s → s.agent.law = .abstractModel → s.agent.chip.mode = .txArmed →
    exec .enterRx s = .next t ∨ exec .enterTx s = .next t → t.agent.chip.mode = .unknown

/-- A chip in mode Unknown stays there under every instruction that drives no reset pulse (R223). -/
def Obligations.UnknownLasts : Prop :=
  ∀ (i : Instr) (s t : State), s.cfg.admitted = true → s.agent.law = .abstractModel → s.agent.chip.mode = .unknown →
    i ≠ .powerUp → i ≠ .enterRx → i ≠ .enterTx → exec i s = .next t → t.agent.chip.mode = .unknown

/-- A command frame sent to a busy chip leaves it in mode Unknown (R212, R296), and so does a command frame other than
POWER_UP_FRAME sent to a chip in Boot (R213), whichever operation sends it: SEND_CMD of a command frame, STANDBY (vector
M9), START_TX, SET_PROPERTY, START_RX, RESET_FIFO, CLEAR_INTS, SET_FREQ, SET_POWER, SEND_FRAME, TRY_RECEIVE with the
line asserted, REPLAY of a table whose first record is a command frame, the four pseudo-instructions, and the wire rows
that are command frames (log entry 5). POWER_UP, ENTER_RX and ENTER_TX reset the chip first. A chip in Off is not ready
either, so this clause speaks of it too: that a command frame leads from Off to Unknown is the model's choice (log entry
30), but for POWER_UP_FRAME, of which R300 says it. POWER_UP_FRAME sent by SEND_CMD to a chip in any mode but Boot
leaves it in mode Unknown (R300); that Off counts among these modes is read from R300's "outside Boot" (DEDUCED, log
entry 30). -/
def Obligations.CommandToABusyChip : Prop :=
  (∀ (i : Instr) (s t : State), Accepts s → i.failingCheck s.cfg = none → s.agent.law = .abstractModel →
    s.agent.chip.cts = false ∨
      (s.agent.chip.mode = .boot ∧ s.agent.chip.taken = none ∧ i ≠ .sendCmd s.cfg.powerUpFrame ∧
        (∀ a, i = .wirePowerUp a → encodeFrame s.cfg i ≠ s.cfg.powerUpFrame) ∧
        ∀ T fs, i = .replay T → tableRecords T ≠ some (s.cfg.powerUpFrame :: fs)) →
    (∃ f, i = .sendCmd f ∧ CommandFrame s.cfg f) ∨ i = .standby ∨ (∃ ch cond len, i = .startTx ch cond len) ∨
      (∃ g o d, i = .setProperty g o d) ∨ (∃ ch cond len x y z, i = .startRx ch cond len x y z) ∨
      (∃ sub, i = .resetFifo sub) ∨ i = .clearInts ∨ (∃ p, i = .setFreq p) ∨
      (∃ p, i = .setPower p) ∨ (∃ f, i = .sendFrame f) ∨
      (i = .tryReceive ∧ (sampleIrq (begin .tryReceive s)).irq = true) ∨
      (∃ T f fs, i = .replay T ∧ tableRecords T = some (f :: fs) ∧ CommandFrame s.cfg f) ∨
      i = .resetTxFifo ∨ i = .resetRxFifo ∨ i = .resetBothFifos ∨ i = .rearmRx ∨
      (i.isWire = true ∧ (∀ d, i ≠ .wireWriteTxFifo d) ∧ (∀ n, i ≠ .wireReadRxFifo n) ∧ ∀ n, i ≠ .wireReadCmdBuff n) →
    exec i s = .next t → t.agent.chip.mode = .unknown) ∧
  (∀ s t : State, Accepts s → s.agent.law = .abstractModel → s.agent.chip.mode ≠ .boot →
    exec (.sendCmd s.cfg.powerUpFrame) s = .next t → t.agent.chip.mode = .unknown)

/-- What the chip's own moves do to its mode (R216, R217, R218): after a transmission it is in the mode that the condition's
bits [7:4] name as a next-state code (D32), Standby/Ready for 0x30, and Unknown if one of bits [3:2] is set (U10, log
entry 20); unless it is Unknown, its bytes have left the TX FIFO (at this step: the model's choice, log entry 19), and
packet-sent joins the pending classes if it is enabled; after a valid packet, an invalid packet or a preamble timeout it
is in the mode that the armed next-state code names: 0 the current one, 3 Standby/Ready, any other Unknown. A valid
packet's bytes join the RX FIFO, and packet-received the pending classes if it is enabled. Whether the chip acts on a
frame in hand before or at the poll that reads 0xFF, it is the same from that poll on (R97, R212). -/
def Obligations.ModesAfterTheChipsMoves : Prop :=
  (∀ (c : Config) (h : Chip), h.mode = .txArmed → h.txActive = true → h.txCondition = 0x30 →
    (h.move c .txComplete).mode = .standbyReady) ∧
  (∀ (c : Config) (h : Chip), h.mode = .txArmed → h.txActive = true →
    (h.move c .txComplete).mode = if h.txCondition.extractLsb' 2 2 = 0#2 then
      nextMode ((h.txCondition.extractLsb' 4 4).setWidth 8) .txArmed else .unknown) ∧
  (∀ (c : Config) (h : Chip), h.mode = .txArmed → h.txActive = true → (h.move c .txComplete).mode ≠ .unknown →
    (h.move c .txComplete).txFifo = h.txFifo.drop h.txLength ∧
    ((h.move c .txComplete).intPending.packetSent = true ↔
      h.intPending.packetSent = true ∨ h.intEnabled.packetSent = true) ∧
    (h.move c .txComplete).intPending.packetReceived = h.intPending.packetReceived) ∧
  (∀ (c : Config) (h : Chip) (p : List Byte), h.mode = .rxArmed → p.length = h.rxLength →
    h.rxFifo.length + p.length ≤ c.fifoCap →
    (h.move c (.rxValid p)).mode = nextMode h.onValid .rxArmed ∧
      (nextMode h.onValid .rxArmed ≠ .unknown → (h.move c (.rxValid p)).rxFifo = h.rxFifo ++ p ∧
        ((h.move c (.rxValid p)).intPending.packetReceived = true ↔
          h.intPending.packetReceived = true ∨ h.intEnabled.packetReceived = true) ∧
        (h.move c (.rxValid p)).intPending.packetSent = h.intPending.packetSent)) ∧
  (∀ (c : Config) (h : Chip), h.mode = .rxArmed → (h.move c .rxInvalid).mode = nextMode h.onInvalid .rxArmed) ∧
  (∀ (c : Config) (h : Chip), h.mode = .rxArmed → (h.move c .rxTimeout).mode = nextMode h.onTimeout .rxArmed) ∧
  (∀ (code : Byte) (m : Mode), nextMode code m = if code = 0 then m else if code = 3 then .standbyReady else .unknown) ∧
  (∀ (c : Config) (h : Chip), (h.move c .act).processed c = h.processed c)

/-- FIFO accesses of a powered chip under the abstract chip model, busy or not (R64, R83, R212, R298): WRITE_TX_FIFO appends
its data to the TX FIFO, or makes the chip Unknown if it overflows; READ_RX_FIFO answers and removes bytes from the head
of the RX FIFO, or makes the chip Unknown if it asks for more than it holds (R223). That a write takes effect at the end
of its window is read from these rules (log entry 13). The model's choices: that the bytes of a transmission still count
while it runs (log entry 19); that a chip in Sleep answers (log entry 35). -/
def Obligations.FifosOfTheChip : Prop :=
  (∀ (s t : State) (d : List Byte), Accepts s → Powered s → exec (.writeTxFifo d) s = .next t →
    d.length ≤ s.cfg.fifoCap →
    (s.agent.chip.txFifo.length + d.length ≤ s.cfg.fifoCap →
      t.agent.chip = { s.agent.chip with txFifo := s.agent.chip.txFifo ++ d, held := false }) ∧
    (s.cfg.fifoCap < s.agent.chip.txFifo.length + d.length → t.agent.chip.mode = .unknown)) ∧
  (∀ (s : State) (n : Nat), Accepts s → Powered s → n ≤ s.cfg.fifoCap → n ≤ s.agent.chip.rxFifo.length →
    ∃ t, exec (.readRxFifo n) s = .next t ∧
      t.log = s.log ++ [⟨.op (.readRxFifo n), .okBytes (s.agent.chip.rxFifo.take n), .ok⟩] ∧
      t.agent.chip = { s.agent.chip with rxFifo := s.agent.chip.rxFifo.drop n, held := false }) ∧
  (∀ (s t : State) (n : Nat), Accepts s → Powered s → n ≤ s.cfg.fifoCap → s.agent.chip.rxFifo.length < n →
    exec (.readRxFifo n) s = .next t → t.agent.chip.mode = .unknown)

/-- What the unwaited commands do to an attentive chip. As R224's table says, STANDBY ends a transmission without
raising packet-sent, leads to Standby/Ready and leaves both FIFOs (R214); START_TX, after a completed configuration
replay and with enough bytes in the TX FIFO, leads to Tx-Armed, a transmission being in progress if the start field is 0
(R215, R293; that this holds of conditions other than 0x30, which U10 leaves open, and that with any other start field
no transmission is in progress, is the model's reading, log entry 20), and otherwise, as with length 0 (U11; log entry
23), to Unknown (R215, U9, R293; log entry 25). These stand from the frame on (R207, C11; log entry 13). The model's
choices: that the bytes stay in the TX FIFO while the transmission runs, and that START_TX replaces a transmission in
progress (log entry 19); that a chip in Sleep obeys (log entry 35). The effect of any other frame of SEND_CMD stands
from the next poll that reads 0xFF on (R97): after the WAIT_CTS, GET_INT_STATUS has left no interrupt pending (R65), and
so the ready line deasserted, the model's choice where a chip has a third class (log entry 36); a property write with
the right count that is a frame of RX_IRQ_ENABLE has enabled packet-received, of TX_IRQ_ENABLE packet-sent, and of
neither no class (R65, R221; log entry 36; that those bytes enable the class although SEND_CMD sends them and no
bring-up is the model's choice, log entry 34); the mode is as it was. With a wrong count it leaves the chip Unknown
(R66, R223), and so does an opcode that is none of the engine's composed ones and not the first byte of POWER_UP_FRAME:
R222 and vector M3 say it of an opcode that R128 does not name; where R128 names the opcode for a record of
CONFIG_TABLE, a frame of BRINGUP_EXTRA or an interrupt-enable frame only, it is the model's choice (log entries 18, 34).
After a completed handshake a powered chip is ready and has acted on every frame (R98). -/
def Obligations.UnwaitedCommandsAtTheChip : Prop :=
  (∀ s t : State, Accepts s → Attentive s → exec .standby s = .next t →
    t.agent.chip.mode = .standbyReady ∧ t.agent.chip.txActive = false ∧ t.agent.chip.txFifo = s.agent.chip.txFifo ∧
      t.agent.chip.rxFifo = s.agent.chip.rxFifo ∧ t.agent.chip.intPending = s.agent.chip.intPending ∧
      t.agent.chip.cts = false) ∧
  (∀ (s t : State) (ch cond : Byte) (len : Half), Accepts s → Attentive s → exec (.startTx ch cond len) s = .next t →
    (s.agent.chip.configured = true ∧ len ≠ 0 ∧ len.toNat ≤ s.agent.chip.txFifo.length →
      t.agent.chip.mode = .txArmed ∧ t.agent.chip.txLength = len.toNat ∧ t.agent.chip.txCondition = cond ∧
        (t.agent.chip.txActive = true ↔ cond.extractLsb' 0 2 = 0#2) ∧ t.agent.chip.txFifo = s.agent.chip.txFifo) ∧
    (s.agent.chip.configured = false ∨ len = 0 ∨ s.agent.chip.txFifo.length < len.toNat →
      t.agent.chip.mode = .unknown)) ∧
  (∀ s u t : State, Accepts s → Attentive s →
    exec (.sendCmd (s.cfg.opGetIntStatus :: s.cfg.intClrArgs)) s = .next u →
    u.agent.chip.mode = s.agent.chip.mode ∧ u.agent.chip.cts = false ∧
    (exec .waitCts u = .next t → t.status = .ok →
      t.agent.chip.mode = s.agent.chip.mode ∧ t.agent.chip.intPending = ⟨false, false⟩ ∧
        (t.agent.onSample t.cfg).1 = false)) ∧
  (∀ (s u : State) (g n o : Byte) (d : List Byte), Accepts s → Attentive s → 4 + d.length ≤ s.cfg.cmdBufCap →
    exec (.sendCmd (0x11 :: g :: n :: o :: d)) s = .next u →
    (n.toNat ≠ d.length → u.agent.chip.mode = .unknown) ∧
    (n.toNat = d.length → u.agent.chip.mode = s.agent.chip.mode ∧ u.agent.chip.cts = false ∧
      ∀ t, exec .waitCts u = .next t → t.status = .ok →
        t.agent.chip.mode = s.agent.chip.mode ∧ t.agent.chip.intPending = s.agent.chip.intPending ∧
        (t.agent.chip.intEnabled.packetReceived = true ↔
          s.agent.chip.intEnabled.packetReceived = true ∨ 0x11 :: g :: n :: o :: d ∈ s.cfg.rxIrqEnable) ∧
        (t.agent.chip.intEnabled.packetSent = true ↔
          s.agent.chip.intEnabled.packetSent = true ∨ 0x11 :: g :: n :: o :: d ∈ s.cfg.txIrqEnable))) ∧
  (∀ (s t : State) (op : Byte) (args : List Byte), Accepts s → Attentive s → 1 + args.length ≤ s.cfg.cmdBufCap →
    op ∉ [0x11, 0x15, 0x31, 0x32, 0x66, 0x77, s.cfg.opReadCmdBuff, s.cfg.opGetIntStatus, s.cfg.opChangeState] →
    s.cfg.powerUpFrame.head? ≠ some op →
    exec (.sendCmd (op :: args)) s = .next t → t.agent.chip.mode = .unknown) ∧
  (∀ s t : State, Accepts s → s.agent.law = .abstractModel →
    (s.agent.chip.cts = true → s.agent.chip.taken = none) → exec .waitCts s = .next t → t.status = .ok →
    t.agent.chip.mode.powered = true → t.agent.chip.cts = true ∧ t.agent.chip.taken = none)

/-- What completed operations with a handshake do to the chip, as R224's table says. CLEAR_INTS leaves no interrupt
pending, so that the ready line reads deasserted (the model's choice where a chip has a third class, log entry 36);
RESET_FIFO leaves the named FIFOs empty; neither changes the mode (R65, R219, R220). START_RX leads to Rx-Armed with its
length and three codes (R217), and leaves the FIFOs. SEND_FRAME leaves the chip Tx-Armed with the frame's 21 bytes
appended to the TX FIFO, TRY_RECEIVE with a frame Rx-Armed with the RX FIFO empty. These take an attentive chip that is
configured where R293 asks for it; before a completed replay START_RX, SEND_FRAME and TRY_RECEIVE leave any chip Unknown
(R293; log entry 25), and so does START_RX with length 0 (U11; log entry 23). ENTER_RX leads to Rx-Armed with both FIFOs
empty and ENTER_TX to Standby/Ready with both empty, from any chip that is not Tx-Armed and makes no move of its own, if
every configured frame is plain (R222; log entry 34; that a configured frame equal to POWER_UP_FRAME, which R300 makes
Unknown when sent any other way, is plain too is the model's choice, log entry 18); if ENTER_RX has an interrupt-enable
frame, packet-received is then enabled, and if ENTER_TX has one, packet-sent (R65, R221). The model's choices: that the
bytes of SEND_FRAME stay in the TX FIFO while the transmission runs (log entry 19); that a chip in Sleep obeys (log
entry 35). -/
def Obligations.WaitedCommandsAtTheChip : Prop :=
  (∀ s t : State, Accepts s → Attentive s → exec .clearInts s = .next t → t.status = .ok →
    t.agent.chip.mode = s.agent.chip.mode ∧ t.agent.chip.intPending = ⟨false, false⟩ ∧
      (t.agent.onSample t.cfg).1 = false) ∧
  (∀ (s t : State) (sub : Byte), Accepts s → Attentive s → sub = 1 ∨ sub = 2 ∨ sub = 3 →
    exec (.resetFifo sub) s = .next t → t.status = .ok →
    t.agent.chip.mode = s.agent.chip.mode ∧
      t.agent.chip.txFifo = (if sub = 2 then s.agent.chip.txFifo else []) ∧
      t.agent.chip.rxFifo = (if sub = 1 then s.agent.chip.rxFifo else [])) ∧
  (∀ (s t : State) (ch cond : Byte) (len : Half) (x y z : Byte), Accepts s → Attentive s →
    s.agent.chip.configured = true → len ≠ 0 → exec (.startRx ch cond len x y z) s = .next t → t.status = .ok →
    t.agent.chip.mode = .rxArmed ∧ t.agent.chip.rxLength = len.toNat ∧ t.agent.chip.onTimeout = x ∧
      t.agent.chip.onValid = y ∧ t.agent.chip.onInvalid = z ∧ t.agent.chip.txFifo = s.agent.chip.txFifo ∧
      t.agent.chip.rxFifo = s.agent.chip.rxFifo) ∧
  (∀ (s t : State) (f : List Byte), Accepts s → Attentive s → s.agent.chip.configured = true → f.length = 21 →
    s.agent.chip.txFifo.length + 21 ≤ s.cfg.fifoCap → exec (.sendFrame f) s = .next t → t.status = .ok →
    t.agent.chip.mode = .txArmed ∧ t.agent.chip.txFifo = s.agent.chip.txFifo ++ f ∧ t.agent.chip.txActive = true ∧
      t.agent.chip.txLength = 21 ∧ t.agent.chip.txCondition = 0x30 ∧ t.agent.chip.rxFifo = s.agent.chip.rxFifo) ∧
  (∀ (s t : State) (d : List Byte), Accepts s → Attentive s → s.agent.chip.configured = true →
    21 ≤ s.agent.chip.rxFifo.length → exec .tryReceive s = .next t →
    t.log = s.log ++ [⟨.op .tryReceive, .some d, .ok⟩] →
    t.agent.chip.mode = .rxArmed ∧ t.agent.chip.rxFifo = [] ∧ t.agent.chip.rxLength = 21 ∧ t.agent.chip.onTimeout = 0 ∧
      t.agent.chip.onValid = 3 ∧ t.agent.chip.onInvalid = 3 ∧ t.agent.chip.txFifo = s.agent.chip.txFifo) ∧
  (∀ s t : State, Accepts s → s.agent.law = .abstractModel → s.agent.plan = [] → s.agent.chip.held = false →
    s.agent.chip.mode ≠ .txArmed → PlainConfig s.cfg → exec .enterRx s = .next t → t.status = .ok →
    t.agent.chip.mode = .rxArmed ∧ t.agent.chip.txFifo = [] ∧ t.agent.chip.rxFifo = [] ∧ t.agent.chip.rxLength = 21 ∧
      t.agent.chip.onTimeout = 0 ∧ t.agent.chip.onValid = 3 ∧ t.agent.chip.onInvalid = 3 ∧
      (s.cfg.rxIrqEnable ≠ [] → t.agent.chip.intEnabled.packetReceived = true)) ∧
  (∀ s t : State, Accepts s → s.agent.law = .abstractModel → s.agent.plan = [] → s.agent.chip.held = false →
    s.agent.chip.mode ≠ .txArmed → PlainConfig s.cfg → exec .enterTx s = .next t → t.status = .ok →
    t.agent.chip.mode = .standbyReady ∧ t.agent.chip.txFifo = [] ∧ t.agent.chip.rxFifo = [] ∧
      (s.cfg.txIrqEnable ≠ [] → t.agent.chip.intEnabled.packetSent = true)) ∧
  (∀ (i : Instr) (s t : State), Accepts s → i.failingCheck s.cfg = none → s.agent.law = .abstractModel →
    s.agent.chip.configured = false →
    (∃ ch cond len x y z, i = .startRx ch cond len x y z) ∨ (∃ f, i = .sendFrame f) ∨ i = .tryReceive →
    exec i s = .next t → t.agent.chip.mode = .unknown) ∧
  (∀ (s t : State) (ch cond x y z : Byte), Accepts s → s.agent.law = .abstractModel →
    exec (.startRx ch cond 0 x y z) s = .next t → t.agent.chip.mode = .unknown)
end

