-- ==== Sys2Proof/Laws/State.lean ====
section
/-! SUPPORT. One lemma per field of State and per update of it: what the update writes, and that it leaves every other field
as it was. Proofs cite these and unfold no record update. -/

namespace Sys2Proof.Machine

variable (s : State)

/-! ### selOn -/

@[simp] theorem selOn_cfg : (selOn s).cfg = s.cfg := rfl
@[simp] theorem selOn_pending : (selOn s).pending = s.pending := rfl
@[simp] theorem selOn_sel : (selOn s).sel = true := rfl
@[simp] theorem selOn_rst : (selOn s).rst = s.rst := rfl
@[simp] theorem selOn_irq : (selOn s).irq = s.irq := rfl
@[simp] theorem selOn_cmdBuf : (selOn s).cmdBuf = s.cmdBuf := rfl
@[simp] theorem selOn_respBuf : (selOn s).respBuf = s.respBuf := rfl
@[simp] theorem selOn_rxStage : (selOn s).rxStage = s.rxStage := rfl
@[simp] theorem selOn_rxValid : (selOn s).rxValid = s.rxValid := rfl
@[simp] theorem selOn_pollCount : (selOn s).pollCount = s.pollCount := rfl
@[simp] theorem selOn_lastCts : (selOn s).lastCts = s.lastCts := rfl
@[simp] theorem selOn_cursor : (selOn s).cursor = s.cursor := rfl
@[simp] theorem selOn_status : (selOn s).status = s.status := rfl
@[simp] theorem selOn_seq : (selOn s).seq = s.seq := rfl
@[simp] theorem selOn_refused : (selOn s).refused = s.refused := rfl
@[simp] theorem selOn_fault : (selOn s).fault = s.fault := rfl
@[simp] theorem selOn_trace : (selOn s).trace = s.trace ++ [.sel] := rfl
@[simp] theorem selOn_log : (selOn s).log = s.log := rfl
@[simp] theorem selOn_agent : (selOn s).agent = s.agent.onSel s.cfg := rfl

/-! ### selOff -/

@[simp] theorem selOff_cfg : (selOff s).cfg = s.cfg := rfl
@[simp] theorem selOff_pending : (selOff s).pending = s.pending := rfl
@[simp] theorem selOff_sel : (selOff s).sel = false := rfl
@[simp] theorem selOff_rst : (selOff s).rst = s.rst := rfl
@[simp] theorem selOff_irq : (selOff s).irq = s.irq := rfl
@[simp] theorem selOff_cmdBuf : (selOff s).cmdBuf = s.cmdBuf := rfl
@[simp] theorem selOff_respBuf : (selOff s).respBuf = s.respBuf := rfl
@[simp] theorem selOff_rxStage : (selOff s).rxStage = s.rxStage := rfl
@[simp] theorem selOff_rxValid : (selOff s).rxValid = s.rxValid := rfl
@[simp] theorem selOff_pollCount : (selOff s).pollCount = s.pollCount := rfl
@[simp] theorem selOff_lastCts : (selOff s).lastCts = s.lastCts := rfl
@[simp] theorem selOff_cursor : (selOff s).cursor = s.cursor := rfl
@[simp] theorem selOff_status : (selOff s).status = s.status := rfl
@[simp] theorem selOff_seq : (selOff s).seq = s.seq := rfl
@[simp] theorem selOff_refused : (selOff s).refused = s.refused := rfl
@[simp] theorem selOff_fault : (selOff s).fault = s.fault := rfl
@[simp] theorem selOff_trace : (selOff s).trace = s.trace ++ [.desel] := rfl
@[simp] theorem selOff_log : (selOff s).log = s.log := rfl
@[simp] theorem selOff_agent : (selOff s).agent = s.agent.onDesel s.cfg := rfl

/-! ### xfer -/

@[simp] theorem xfer_cfg (m : Byte) : (xfer m s).cfg = s.cfg := rfl
@[simp] theorem xfer_pending (m : Byte) : (xfer m s).pending = s.pending := rfl
@[simp] theorem xfer_sel (m : Byte) : (xfer m s).sel = s.sel := rfl
@[simp] theorem xfer_rst (m : Byte) : (xfer m s).rst = s.rst := rfl
@[simp] theorem xfer_irq (m : Byte) : (xfer m s).irq = s.irq := rfl
@[simp] theorem xfer_cmdBuf (m : Byte) : (xfer m s).cmdBuf = s.cmdBuf := rfl
@[simp] theorem xfer_respBuf (m : Byte) : (xfer m s).respBuf = s.respBuf := rfl
@[simp] theorem xfer_rxStage (m : Byte) : (xfer m s).rxStage = s.rxStage := rfl
@[simp] theorem xfer_rxValid (m : Byte) : (xfer m s).rxValid = s.rxValid := rfl
@[simp] theorem xfer_pollCount (m : Byte) : (xfer m s).pollCount = s.pollCount := rfl
@[simp] theorem xfer_lastCts (m : Byte) : (xfer m s).lastCts = s.lastCts := rfl
@[simp] theorem xfer_cursor (m : Byte) : (xfer m s).cursor = s.cursor := rfl
@[simp] theorem xfer_status (m : Byte) : (xfer m s).status = s.status := rfl
@[simp] theorem xfer_seq (m : Byte) : (xfer m s).seq = s.seq := rfl
@[simp] theorem xfer_refused (m : Byte) : (xfer m s).refused = s.refused := rfl
@[simp] theorem xfer_fault (m : Byte) : (xfer m s).fault = s.fault := rfl
@[simp] theorem xfer_trace (m : Byte) : (xfer m s).trace = s.trace ++ [.x m (xferByte m s)] := rfl
@[simp] theorem xfer_log (m : Byte) : (xfer m s).log = s.log := rfl
@[simp] theorem xfer_agent (m : Byte) : (xfer m s).agent = (s.agent.onExchange s.cfg m).2 := rfl

/-! ### setRst -/

@[simp] theorem setRst_cfg (b : Bool) : (setRst b s).cfg = s.cfg := rfl
@[simp] theorem setRst_pending (b : Bool) : (setRst b s).pending = s.pending := rfl
@[simp] theorem setRst_sel (b : Bool) : (setRst b s).sel = s.sel := rfl
@[simp] theorem setRst_rst (b : Bool) : (setRst b s).rst = b := rfl
@[simp] theorem setRst_irq (b : Bool) : (setRst b s).irq = s.irq := rfl
@[simp] theorem setRst_cmdBuf (b : Bool) : (setRst b s).cmdBuf = s.cmdBuf := rfl
@[simp] theorem setRst_respBuf (b : Bool) : (setRst b s).respBuf = s.respBuf := rfl
@[simp] theorem setRst_rxStage (b : Bool) : (setRst b s).rxStage = s.rxStage := rfl
@[simp] theorem setRst_rxValid (b : Bool) : (setRst b s).rxValid = s.rxValid := rfl
@[simp] theorem setRst_pollCount (b : Bool) : (setRst b s).pollCount = s.pollCount := rfl
@[simp] theorem setRst_lastCts (b : Bool) : (setRst b s).lastCts = s.lastCts := rfl
@[simp] theorem setRst_cursor (b : Bool) : (setRst b s).cursor = s.cursor := rfl
@[simp] theorem setRst_status (b : Bool) : (setRst b s).status = s.status := rfl
@[simp] theorem setRst_seq (b : Bool) : (setRst b s).seq = s.seq := rfl
@[simp] theorem setRst_refused (b : Bool) : (setRst b s).refused = s.refused := rfl
@[simp] theorem setRst_fault (b : Bool) : (setRst b s).fault = s.fault := rfl
@[simp] theorem setRst_trace (b : Bool) : (setRst b s).trace = s.trace ++ [.rst b] := rfl
@[simp] theorem setRst_log (b : Bool) : (setRst b s).log = s.log := rfl
@[simp] theorem setRst_agent (b : Bool) : (setRst b s).agent = s.agent.onRst s.cfg b := rfl

/-! ### delayUs -/

@[simp] theorem delayUs_cfg (n : Nat) : (delayUs n s).cfg = s.cfg := rfl
@[simp] theorem delayUs_pending (n : Nat) : (delayUs n s).pending = s.pending := rfl
@[simp] theorem delayUs_sel (n : Nat) : (delayUs n s).sel = s.sel := rfl
@[simp] theorem delayUs_rst (n : Nat) : (delayUs n s).rst = s.rst := rfl
@[simp] theorem delayUs_irq (n : Nat) : (delayUs n s).irq = s.irq := rfl
@[simp] theorem delayUs_cmdBuf (n : Nat) : (delayUs n s).cmdBuf = s.cmdBuf := rfl
@[simp] theorem delayUs_respBuf (n : Nat) : (delayUs n s).respBuf = s.respBuf := rfl
@[simp] theorem delayUs_rxStage (n : Nat) : (delayUs n s).rxStage = s.rxStage := rfl
@[simp] theorem delayUs_rxValid (n : Nat) : (delayUs n s).rxValid = s.rxValid := rfl
@[simp] theorem delayUs_pollCount (n : Nat) : (delayUs n s).pollCount = s.pollCount := rfl
@[simp] theorem delayUs_lastCts (n : Nat) : (delayUs n s).lastCts = s.lastCts := rfl
@[simp] theorem delayUs_cursor (n : Nat) : (delayUs n s).cursor = s.cursor := rfl
@[simp] theorem delayUs_status (n : Nat) : (delayUs n s).status = s.status := rfl
@[simp] theorem delayUs_seq (n : Nat) : (delayUs n s).seq = s.seq := rfl
@[simp] theorem delayUs_refused (n : Nat) : (delayUs n s).refused = s.refused := rfl
@[simp] theorem delayUs_fault (n : Nat) : (delayUs n s).fault = s.fault := rfl
@[simp] theorem delayUs_trace (n : Nat) : (delayUs n s).trace = s.trace ++ [.delayUs n] := rfl
@[simp] theorem delayUs_log (n : Nat) : (delayUs n s).log = s.log := rfl
@[simp] theorem delayUs_agent (n : Nat) : (delayUs n s).agent = s.agent.onDelayUs s.cfg := rfl

/-! ### delayMs -/

@[simp] theorem delayMs_cfg (n : Nat) : (delayMs n s).cfg = s.cfg := rfl
@[simp] theorem delayMs_pending (n : Nat) : (delayMs n s).pending = s.pending := rfl
@[simp] theorem delayMs_sel (n : Nat) : (delayMs n s).sel = s.sel := rfl
@[simp] theorem delayMs_rst (n : Nat) : (delayMs n s).rst = s.rst := rfl
@[simp] theorem delayMs_irq (n : Nat) : (delayMs n s).irq = s.irq := rfl
@[simp] theorem delayMs_cmdBuf (n : Nat) : (delayMs n s).cmdBuf = s.cmdBuf := rfl
@[simp] theorem delayMs_respBuf (n : Nat) : (delayMs n s).respBuf = s.respBuf := rfl
@[simp] theorem delayMs_rxStage (n : Nat) : (delayMs n s).rxStage = s.rxStage := rfl
@[simp] theorem delayMs_rxValid (n : Nat) : (delayMs n s).rxValid = s.rxValid := rfl
@[simp] theorem delayMs_pollCount (n : Nat) : (delayMs n s).pollCount = s.pollCount := rfl
@[simp] theorem delayMs_lastCts (n : Nat) : (delayMs n s).lastCts = s.lastCts := rfl
@[simp] theorem delayMs_cursor (n : Nat) : (delayMs n s).cursor = s.cursor := rfl
@[simp] theorem delayMs_status (n : Nat) : (delayMs n s).status = s.status := rfl
@[simp] theorem delayMs_seq (n : Nat) : (delayMs n s).seq = s.seq := rfl
@[simp] theorem delayMs_refused (n : Nat) : (delayMs n s).refused = s.refused := rfl
@[simp] theorem delayMs_fault (n : Nat) : (delayMs n s).fault = s.fault := rfl
@[simp] theorem delayMs_trace (n : Nat) : (delayMs n s).trace = s.trace ++ [.delayMs n] := rfl
@[simp] theorem delayMs_log (n : Nat) : (delayMs n s).log = s.log := rfl
@[simp] theorem delayMs_agent (n : Nat) : (delayMs n s).agent = s.agent.onDelayMs s.cfg n := rfl

/-! ### sampleIrq -/

@[simp] theorem sampleIrq_cfg : (sampleIrq s).cfg = s.cfg := rfl
@[simp] theorem sampleIrq_pending : (sampleIrq s).pending = s.pending := rfl
@[simp] theorem sampleIrq_sel : (sampleIrq s).sel = s.sel := rfl
@[simp] theorem sampleIrq_rst : (sampleIrq s).rst = s.rst := rfl
@[simp] theorem sampleIrq_irq : (sampleIrq s).irq = (s.agent.onSample s.cfg).1 := rfl
@[simp] theorem sampleIrq_cmdBuf : (sampleIrq s).cmdBuf = s.cmdBuf := rfl
@[simp] theorem sampleIrq_respBuf : (sampleIrq s).respBuf = s.respBuf := rfl
@[simp] theorem sampleIrq_rxStage : (sampleIrq s).rxStage = s.rxStage := rfl
@[simp] theorem sampleIrq_rxValid : (sampleIrq s).rxValid = s.rxValid := rfl
@[simp] theorem sampleIrq_pollCount : (sampleIrq s).pollCount = s.pollCount := rfl
@[simp] theorem sampleIrq_lastCts : (sampleIrq s).lastCts = s.lastCts := rfl
@[simp] theorem sampleIrq_cursor : (sampleIrq s).cursor = s.cursor := rfl
@[simp] theorem sampleIrq_status : (sampleIrq s).status = s.status := rfl
@[simp] theorem sampleIrq_seq : (sampleIrq s).seq = s.seq := rfl
@[simp] theorem sampleIrq_refused : (sampleIrq s).refused = s.refused := rfl
@[simp] theorem sampleIrq_fault : (sampleIrq s).fault = s.fault := rfl
@[simp] theorem sampleIrq_trace : (sampleIrq s).trace = s.trace ++ [.irq (s.agent.onSample s.cfg).1] := rfl
@[simp] theorem sampleIrq_log : (sampleIrq s).log = s.log := rfl
@[simp] theorem sampleIrq_agent : (sampleIrq s).agent = (s.agent.onSample s.cfg).2 := rfl

/-! ### loadCmd -/

@[simp] theorem loadCmd_cfg (f : FrameSource) (l : List Byte) : (loadCmd f l s).cfg = s.cfg := rfl
@[simp] theorem loadCmd_pending (f : FrameSource) (l : List Byte) : (loadCmd f l s).pending = s.pending := rfl
@[simp] theorem loadCmd_sel (f : FrameSource) (l : List Byte) : (loadCmd f l s).sel = s.sel := rfl
@[simp] theorem loadCmd_rst (f : FrameSource) (l : List Byte) : (loadCmd f l s).rst = s.rst := rfl
@[simp] theorem loadCmd_irq (f : FrameSource) (l : List Byte) : (loadCmd f l s).irq = s.irq := rfl
@[simp] theorem loadCmd_cmdBuf (f : FrameSource) (l : List Byte) : (loadCmd f l s).cmdBuf = overwrite l s.cmdBuf := rfl
@[simp] theorem loadCmd_respBuf (f : FrameSource) (l : List Byte) : (loadCmd f l s).respBuf = s.respBuf := rfl
@[simp] theorem loadCmd_rxStage (f : FrameSource) (l : List Byte) : (loadCmd f l s).rxStage = s.rxStage := rfl
@[simp] theorem loadCmd_rxValid (f : FrameSource) (l : List Byte) : (loadCmd f l s).rxValid = s.rxValid := rfl
@[simp] theorem loadCmd_pollCount (f : FrameSource) (l : List Byte) : (loadCmd f l s).pollCount = s.pollCount := rfl
@[simp] theorem loadCmd_lastCts (f : FrameSource) (l : List Byte) : (loadCmd f l s).lastCts = s.lastCts := rfl
@[simp] theorem loadCmd_cursor (f : FrameSource) (l : List Byte) : (loadCmd f l s).cursor = s.cursor := rfl
@[simp] theorem loadCmd_status (f : FrameSource) (l : List Byte) : (loadCmd f l s).status = s.status := rfl
@[simp] theorem loadCmd_seq (f : FrameSource) (l : List Byte) : (loadCmd f l s).seq = s.seq := rfl
@[simp] theorem loadCmd_refused (f : FrameSource) (l : List Byte) : (loadCmd f l s).refused = s.refused := rfl
@[simp] theorem loadCmd_fault (f : FrameSource) (l : List Byte) : (loadCmd f l s).fault = s.fault := rfl
@[simp] theorem loadCmd_trace (f : FrameSource) (l : List Byte) : (loadCmd f l s).trace = s.trace := rfl
@[simp] theorem loadCmd_log (f : FrameSource) (l : List Byte) : (loadCmd f l s).log = s.log := rfl
@[simp] theorem loadCmd_agent (f : FrameSource) (l : List Byte) : (loadCmd f l s).agent = { s.agent with source := f } := rfl

/-! ### beginHandshake -/

@[simp] theorem beginHandshake_cfg : (beginHandshake s).cfg = s.cfg := rfl
@[simp] theorem beginHandshake_pending : (beginHandshake s).pending = s.pending := rfl
@[simp] theorem beginHandshake_sel : (beginHandshake s).sel = s.sel := rfl
@[simp] theorem beginHandshake_rst : (beginHandshake s).rst = s.rst := rfl
@[simp] theorem beginHandshake_irq : (beginHandshake s).irq = s.irq := rfl
@[simp] theorem beginHandshake_cmdBuf : (beginHandshake s).cmdBuf = s.cmdBuf := rfl
@[simp] theorem beginHandshake_respBuf : (beginHandshake s).respBuf = s.respBuf := rfl
@[simp] theorem beginHandshake_rxStage : (beginHandshake s).rxStage = s.rxStage := rfl
@[simp] theorem beginHandshake_rxValid : (beginHandshake s).rxValid = s.rxValid := rfl
@[simp] theorem beginHandshake_pollCount : (beginHandshake s).pollCount = 0 := rfl
@[simp] theorem beginHandshake_lastCts : (beginHandshake s).lastCts = s.lastCts := rfl
@[simp] theorem beginHandshake_cursor : (beginHandshake s).cursor = s.cursor := rfl
@[simp] theorem beginHandshake_status : (beginHandshake s).status = s.status := rfl
@[simp] theorem beginHandshake_seq : (beginHandshake s).seq = s.seq := rfl
@[simp] theorem beginHandshake_refused : (beginHandshake s).refused = s.refused := rfl
@[simp] theorem beginHandshake_fault : (beginHandshake s).fault = s.fault := rfl
@[simp] theorem beginHandshake_trace : (beginHandshake s).trace = s.trace := rfl
@[simp] theorem beginHandshake_log : (beginHandshake s).log = s.log := rfl
@[simp] theorem beginHandshake_agent : (beginHandshake s).agent = s.agent.onHandshake := rfl

/-! ### setStatus -/

@[simp] theorem setStatus_cfg (v : Status) : (setStatus v s).cfg = s.cfg := rfl
@[simp] theorem setStatus_pending (v : Status) : (setStatus v s).pending = s.pending := rfl
@[simp] theorem setStatus_sel (v : Status) : (setStatus v s).sel = s.sel := rfl
@[simp] theorem setStatus_rst (v : Status) : (setStatus v s).rst = s.rst := rfl
@[simp] theorem setStatus_irq (v : Status) : (setStatus v s).irq = s.irq := rfl
@[simp] theorem setStatus_cmdBuf (v : Status) : (setStatus v s).cmdBuf = s.cmdBuf := rfl
@[simp] theorem setStatus_respBuf (v : Status) : (setStatus v s).respBuf = s.respBuf := rfl
@[simp] theorem setStatus_rxStage (v : Status) : (setStatus v s).rxStage = s.rxStage := rfl
@[simp] theorem setStatus_rxValid (v : Status) : (setStatus v s).rxValid = s.rxValid := rfl
@[simp] theorem setStatus_pollCount (v : Status) : (setStatus v s).pollCount = s.pollCount := rfl
@[simp] theorem setStatus_lastCts (v : Status) : (setStatus v s).lastCts = s.lastCts := rfl
@[simp] theorem setStatus_cursor (v : Status) : (setStatus v s).cursor = s.cursor := rfl
@[simp] theorem setStatus_status (v : Status) : (setStatus v s).status = v := rfl
@[simp] theorem setStatus_seq (v : Status) : (setStatus v s).seq = s.seq := rfl
@[simp] theorem setStatus_refused (v : Status) : (setStatus v s).refused = s.refused := rfl
@[simp] theorem setStatus_fault (v : Status) : (setStatus v s).fault = s.fault := rfl
@[simp] theorem setStatus_trace (v : Status) : (setStatus v s).trace = s.trace := rfl
@[simp] theorem setStatus_log (v : Status) : (setStatus v s).log = s.log := rfl
@[simp] theorem setStatus_agent (v : Status) : (setStatus v s).agent = s.agent := rfl

/-! ### markRefused -/

@[simp] theorem markRefused_cfg : (markRefused s).cfg = s.cfg := rfl
@[simp] theorem markRefused_pending : (markRefused s).pending = s.pending := rfl
@[simp] theorem markRefused_sel : (markRefused s).sel = s.sel := rfl
@[simp] theorem markRefused_rst : (markRefused s).rst = s.rst := rfl
@[simp] theorem markRefused_irq : (markRefused s).irq = s.irq := rfl
@[simp] theorem markRefused_cmdBuf : (markRefused s).cmdBuf = s.cmdBuf := rfl
@[simp] theorem markRefused_respBuf : (markRefused s).respBuf = s.respBuf := rfl
@[simp] theorem markRefused_rxStage : (markRefused s).rxStage = s.rxStage := rfl
@[simp] theorem markRefused_rxValid : (markRefused s).rxValid = s.rxValid := rfl
@[simp] theorem markRefused_pollCount : (markRefused s).pollCount = s.pollCount := rfl
@[simp] theorem markRefused_lastCts : (markRefused s).lastCts = s.lastCts := rfl
@[simp] theorem markRefused_cursor : (markRefused s).cursor = s.cursor := rfl
@[simp] theorem markRefused_status : (markRefused s).status = s.status := rfl
@[simp] theorem markRefused_seq : (markRefused s).seq = s.seq := rfl
@[simp] theorem markRefused_refused : (markRefused s).refused = true := rfl
@[simp] theorem markRefused_fault : (markRefused s).fault = s.fault := rfl
@[simp] theorem markRefused_trace : (markRefused s).trace = s.trace := rfl
@[simp] theorem markRefused_log : (markRefused s).log = s.log := rfl
@[simp] theorem markRefused_agent : (markRefused s).agent = s.agent := rfl

/-! ### markFault -/

@[simp] theorem markFault_cfg : (markFault s).cfg = s.cfg := rfl
@[simp] theorem markFault_pending : (markFault s).pending = s.pending := rfl
@[simp] theorem markFault_sel : (markFault s).sel = s.sel := rfl
@[simp] theorem markFault_rst : (markFault s).rst = s.rst := rfl
@[simp] theorem markFault_irq : (markFault s).irq = s.irq := rfl
@[simp] theorem markFault_cmdBuf : (markFault s).cmdBuf = s.cmdBuf := rfl
@[simp] theorem markFault_respBuf : (markFault s).respBuf = s.respBuf := rfl
@[simp] theorem markFault_rxStage : (markFault s).rxStage = s.rxStage := rfl
@[simp] theorem markFault_rxValid : (markFault s).rxValid = s.rxValid := rfl
@[simp] theorem markFault_pollCount : (markFault s).pollCount = s.pollCount := rfl
@[simp] theorem markFault_lastCts : (markFault s).lastCts = s.lastCts := rfl
@[simp] theorem markFault_cursor : (markFault s).cursor = s.cursor := rfl
@[simp] theorem markFault_status : (markFault s).status = s.status := rfl
@[simp] theorem markFault_seq : (markFault s).seq = s.seq := rfl
@[simp] theorem markFault_refused : (markFault s).refused = s.refused := rfl
@[simp] theorem markFault_fault : (markFault s).fault = true := rfl
@[simp] theorem markFault_trace : (markFault s).trace = s.trace := rfl
@[simp] theorem markFault_log : (markFault s).log = s.log := rfl
@[simp] theorem markFault_agent : (markFault s).agent = s.agent := rfl

/-! ### setSeq -/

@[simp] theorem setSeq_cfg (q : Seq) : (setSeq q s).cfg = s.cfg := rfl
@[simp] theorem setSeq_pending (q : Seq) : (setSeq q s).pending = s.pending := rfl
@[simp] theorem setSeq_sel (q : Seq) : (setSeq q s).sel = s.sel := rfl
@[simp] theorem setSeq_rst (q : Seq) : (setSeq q s).rst = s.rst := rfl
@[simp] theorem setSeq_irq (q : Seq) : (setSeq q s).irq = s.irq := rfl
@[simp] theorem setSeq_cmdBuf (q : Seq) : (setSeq q s).cmdBuf = s.cmdBuf := rfl
@[simp] theorem setSeq_respBuf (q : Seq) : (setSeq q s).respBuf = s.respBuf := rfl
@[simp] theorem setSeq_rxStage (q : Seq) : (setSeq q s).rxStage = s.rxStage := rfl
@[simp] theorem setSeq_rxValid (q : Seq) : (setSeq q s).rxValid = s.rxValid := rfl
@[simp] theorem setSeq_pollCount (q : Seq) : (setSeq q s).pollCount = s.pollCount := rfl
@[simp] theorem setSeq_lastCts (q : Seq) : (setSeq q s).lastCts = s.lastCts := rfl
@[simp] theorem setSeq_cursor (q : Seq) : (setSeq q s).cursor = s.cursor := rfl
@[simp] theorem setSeq_status (q : Seq) : (setSeq q s).status = s.status := rfl
@[simp] theorem setSeq_seq (q : Seq) : (setSeq q s).seq = q := rfl
@[simp] theorem setSeq_refused (q : Seq) : (setSeq q s).refused = s.refused := rfl
@[simp] theorem setSeq_fault (q : Seq) : (setSeq q s).fault = s.fault := rfl
@[simp] theorem setSeq_trace (q : Seq) : (setSeq q s).trace = s.trace := rfl
@[simp] theorem setSeq_log (q : Seq) : (setSeq q s).log = s.log := rfl
@[simp] theorem setSeq_agent (q : Seq) : (setSeq q s).agent = s.agent := rfl

/-! ### record -/

@[simp] theorem record_cfg (w : Issued) (r : Result) : (record w r s).cfg = s.cfg := rfl
@[simp] theorem record_pending (w : Issued) (r : Result) : (record w r s).pending = s.pending := rfl
@[simp] theorem record_sel (w : Issued) (r : Result) : (record w r s).sel = s.sel := rfl
@[simp] theorem record_rst (w : Issued) (r : Result) : (record w r s).rst = s.rst := rfl
@[simp] theorem record_irq (w : Issued) (r : Result) : (record w r s).irq = s.irq := rfl
@[simp] theorem record_cmdBuf (w : Issued) (r : Result) : (record w r s).cmdBuf = s.cmdBuf := rfl
@[simp] theorem record_respBuf (w : Issued) (r : Result) : (record w r s).respBuf = s.respBuf := rfl
@[simp] theorem record_rxStage (w : Issued) (r : Result) : (record w r s).rxStage = s.rxStage := rfl
@[simp] theorem record_rxValid (w : Issued) (r : Result) : (record w r s).rxValid = s.rxValid := rfl
@[simp] theorem record_pollCount (w : Issued) (r : Result) : (record w r s).pollCount = s.pollCount := rfl
@[simp] theorem record_lastCts (w : Issued) (r : Result) : (record w r s).lastCts = s.lastCts := rfl
@[simp] theorem record_cursor (w : Issued) (r : Result) : (record w r s).cursor = s.cursor := rfl
@[simp] theorem record_status (w : Issued) (r : Result) : (record w r s).status = s.status := rfl
@[simp] theorem record_seq (w : Issued) (r : Result) : (record w r s).seq = s.seq := rfl
@[simp] theorem record_refused (w : Issued) (r : Result) : (record w r s).refused = s.refused := rfl
@[simp] theorem record_fault (w : Issued) (r : Result) : (record w r s).fault = s.fault := rfl
@[simp] theorem record_trace (w : Issued) (r : Result) : (record w r s).trace = s.trace := rfl
@[simp] theorem record_log (w : Issued) (r : Result) : (record w r s).log = s.log ++ [⟨w, r, s.status⟩] := rfl
@[simp] theorem record_agent (w : Issued) (r : Result) : (record w r s).agent = s.agent := rfl

/-! ### begin -/

@[simp] theorem begin_cfg (i : Instr) : (begin i s).cfg = s.cfg := rfl
@[simp] theorem begin_pending (i : Instr) : (begin i s).pending = s.pending := rfl
@[simp] theorem begin_sel (i : Instr) : (begin i s).sel = s.sel := rfl
@[simp] theorem begin_rst (i : Instr) : (begin i s).rst = s.rst := rfl
@[simp] theorem begin_irq (i : Instr) : (begin i s).irq = s.irq := rfl
@[simp] theorem begin_cmdBuf (i : Instr) : (begin i s).cmdBuf = s.cmdBuf := rfl
@[simp] theorem begin_respBuf (i : Instr) : (begin i s).respBuf = s.respBuf := rfl
@[simp] theorem begin_rxStage (i : Instr) : (begin i s).rxStage = s.rxStage := rfl
@[simp] theorem begin_rxValid (i : Instr) : (begin i s).rxValid = s.rxValid := rfl
@[simp] theorem begin_pollCount (i : Instr) : (begin i s).pollCount = s.pollCount := rfl
@[simp] theorem begin_lastCts (i : Instr) : (begin i s).lastCts = s.lastCts := rfl
@[simp] theorem begin_cursor (i : Instr) : (begin i s).cursor = s.cursor := rfl
@[simp] theorem begin_status (i : Instr) : (begin i s).status = s.status := rfl
@[simp] theorem begin_seq (i : Instr) : (begin i s).seq = .run i 0 := rfl
@[simp] theorem begin_refused (i : Instr) : (begin i s).refused = s.refused := rfl
@[simp] theorem begin_fault (i : Instr) : (begin i s).fault = s.fault := rfl
@[simp] theorem begin_trace (i : Instr) : (begin i s).trace = s.trace := rfl
@[simp] theorem begin_log (i : Instr) : (begin i s).log = s.log := rfl
@[simp] theorem begin_agent (i : Instr) : (begin i s).agent = s.agent.onRequest i := rfl

/-! ### chipTurn -/

@[simp] theorem chipTurn_cfg : (chipTurn s).cfg = s.cfg := rfl
@[simp] theorem chipTurn_pending : (chipTurn s).pending = s.pending := rfl
@[simp] theorem chipTurn_sel : (chipTurn s).sel = s.sel := rfl
@[simp] theorem chipTurn_rst : (chipTurn s).rst = s.rst := rfl
@[simp] theorem chipTurn_irq : (chipTurn s).irq = s.irq := rfl
@[simp] theorem chipTurn_cmdBuf : (chipTurn s).cmdBuf = s.cmdBuf := rfl
@[simp] theorem chipTurn_respBuf : (chipTurn s).respBuf = s.respBuf := rfl
@[simp] theorem chipTurn_rxStage : (chipTurn s).rxStage = s.rxStage := rfl
@[simp] theorem chipTurn_rxValid : (chipTurn s).rxValid = s.rxValid := rfl
@[simp] theorem chipTurn_pollCount : (chipTurn s).pollCount = s.pollCount := rfl
@[simp] theorem chipTurn_lastCts : (chipTurn s).lastCts = s.lastCts := rfl
@[simp] theorem chipTurn_cursor : (chipTurn s).cursor = s.cursor := rfl
@[simp] theorem chipTurn_status : (chipTurn s).status = s.status := rfl
@[simp] theorem chipTurn_seq : (chipTurn s).seq = s.seq := rfl
@[simp] theorem chipTurn_refused : (chipTurn s).refused = s.refused := rfl
@[simp] theorem chipTurn_fault : (chipTurn s).fault = s.fault := rfl
@[simp] theorem chipTurn_trace : (chipTurn s).trace = s.trace := rfl
@[simp] theorem chipTurn_log : (chipTurn s).log = s.log := rfl
@[simp] theorem chipTurn_agent : (chipTurn s).agent = s.agent.turn s.cfg := rfl

/-! ### complete -/

@[simp] theorem complete_cfg (i : Instr) (r : Result) : (complete i r s).cfg = s.cfg := rfl
@[simp] theorem complete_pending (i : Instr) (r : Result) : (complete i r s).pending = s.pending := rfl
@[simp] theorem complete_sel (i : Instr) (r : Result) : (complete i r s).sel = s.sel := rfl
@[simp] theorem complete_rst (i : Instr) (r : Result) : (complete i r s).rst = s.rst := rfl
@[simp] theorem complete_irq (i : Instr) (r : Result) : (complete i r s).irq = s.irq := rfl
@[simp] theorem complete_cmdBuf (i : Instr) (r : Result) : (complete i r s).cmdBuf = s.cmdBuf := rfl
@[simp] theorem complete_respBuf (i : Instr) (r : Result) : (complete i r s).respBuf = s.respBuf := rfl
@[simp] theorem complete_rxStage (i : Instr) (r : Result) : (complete i r s).rxStage = s.rxStage := rfl
@[simp] theorem complete_rxValid (i : Instr) (r : Result) : (complete i r s).rxValid = s.rxValid := rfl
@[simp] theorem complete_pollCount (i : Instr) (r : Result) : (complete i r s).pollCount = s.pollCount := rfl
@[simp] theorem complete_lastCts (i : Instr) (r : Result) : (complete i r s).lastCts = s.lastCts := rfl
@[simp] theorem complete_cursor (i : Instr) (r : Result) : (complete i r s).cursor = s.cursor := rfl
@[simp] theorem complete_status (i : Instr) (r : Result) : (complete i r s).status = .ok := rfl
@[simp] theorem complete_seq (i : Instr) (r : Result) : (complete i r s).seq = .idle := rfl
@[simp] theorem complete_refused (i : Instr) (r : Result) : (complete i r s).refused = s.refused := rfl
@[simp] theorem complete_fault (i : Instr) (r : Result) : (complete i r s).fault = s.fault := rfl
@[simp] theorem complete_trace (i : Instr) (r : Result) : (complete i r s).trace = s.trace := rfl
@[simp] theorem complete_log (i : Instr) (r : Result) : (complete i r s).log = s.log ++ [⟨.op i, r, .ok⟩] := rfl
@[simp] theorem complete_agent (i : Instr) (r : Result) : (complete i r s).agent = s.agent.onEnd := rfl

/-! ### abort -/

@[simp] theorem abort_cfg (i : Instr) (n : Nat) : (abort i n s).cfg = s.cfg := rfl
@[simp] theorem abort_pending (i : Instr) (n : Nat) : (abort i n s).pending = s.pending := rfl
@[simp] theorem abort_sel (i : Instr) (n : Nat) : (abort i n s).sel = s.sel := rfl
@[simp] theorem abort_rst (i : Instr) (n : Nat) : (abort i n s).rst = s.rst := rfl
@[simp] theorem abort_irq (i : Instr) (n : Nat) : (abort i n s).irq = s.irq := rfl
@[simp] theorem abort_cmdBuf (i : Instr) (n : Nat) : (abort i n s).cmdBuf = s.cmdBuf := rfl
@[simp] theorem abort_respBuf (i : Instr) (n : Nat) : (abort i n s).respBuf = s.respBuf := rfl
@[simp] theorem abort_rxStage (i : Instr) (n : Nat) : (abort i n s).rxStage = s.rxStage := rfl
@[simp] theorem abort_rxValid (i : Instr) (n : Nat) : (abort i n s).rxValid = false := rfl
@[simp] theorem abort_pollCount (i : Instr) (n : Nat) : (abort i n s).pollCount = s.pollCount := rfl
@[simp] theorem abort_lastCts (i : Instr) (n : Nat) : (abort i n s).lastCts = s.lastCts := rfl
@[simp] theorem abort_cursor (i : Instr) (n : Nat) : (abort i n s).cursor = s.cursor := rfl
@[simp] theorem abort_status (i : Instr) (n : Nat) : (abort i n s).status = .timeout := rfl
@[simp] theorem abort_seq (i : Instr) (n : Nat) : (abort i n s).seq = .idle := rfl
@[simp] theorem abort_refused (i : Instr) (n : Nat) : (abort i n s).refused = s.refused := rfl
@[simp] theorem abort_fault (i : Instr) (n : Nat) : (abort i n s).fault = s.fault := rfl
@[simp] theorem abort_trace (i : Instr) (n : Nat) : (abort i n s).trace = s.trace := rfl
@[simp] theorem abort_log (i : Instr) (n : Nat) : (abort i n s).log = s.log ++ [⟨.op i, abortResult i n, .timeout⟩] := rfl
@[simp] theorem abort_agent (i : Instr) (n : Nat) : (abort i n s).agent = s.agent.onTimeout := rfl

/-! ### refuse -/

@[simp] theorem refuse_cfg (w : Issued) (c : Check) : (refuse w c s).cfg = s.cfg := rfl
@[simp] theorem refuse_pending (w : Issued) (c : Check) : (refuse w c s).pending = s.pending := rfl
@[simp] theorem refuse_sel (w : Issued) (c : Check) : (refuse w c s).sel = s.sel := rfl
@[simp] theorem refuse_rst (w : Issued) (c : Check) : (refuse w c s).rst = s.rst := rfl
@[simp] theorem refuse_irq (w : Issued) (c : Check) : (refuse w c s).irq = s.irq := rfl
@[simp] theorem refuse_cmdBuf (w : Issued) (c : Check) : (refuse w c s).cmdBuf = s.cmdBuf := rfl
@[simp] theorem refuse_respBuf (w : Issued) (c : Check) : (refuse w c s).respBuf = s.respBuf := rfl
@[simp] theorem refuse_rxStage (w : Issued) (c : Check) : (refuse w c s).rxStage = s.rxStage := rfl
@[simp] theorem refuse_rxValid (w : Issued) (c : Check) : (refuse w c s).rxValid = s.rxValid := rfl
@[simp] theorem refuse_pollCount (w : Issued) (c : Check) : (refuse w c s).pollCount = s.pollCount := rfl
@[simp] theorem refuse_lastCts (w : Issued) (c : Check) : (refuse w c s).lastCts = s.lastCts := rfl
@[simp] theorem refuse_cursor (w : Issued) (c : Check) : (refuse w c s).cursor = s.cursor := rfl
@[simp] theorem refuse_status (w : Issued) (c : Check) : (refuse w c s).status = .refused := rfl
@[simp] theorem refuse_seq (w : Issued) (c : Check) : (refuse w c s).seq = s.seq := rfl
@[simp] theorem refuse_refused (w : Issued) (c : Check) : (refuse w c s).refused = true := rfl
@[simp] theorem refuse_fault (w : Issued) (c : Check) : (refuse w c s).fault = s.fault := rfl
@[simp] theorem refuse_trace (w : Issued) (c : Check) : (refuse w c s).trace = s.trace := rfl
@[simp] theorem refuse_log (w : Issued) (c : Check) : (refuse w c s).log = s.log ++ [⟨w, .refused c, .refused⟩] := rfl
@[simp] theorem refuse_agent (w : Issued) (c : Check) : (refuse w c s).agent = s.agent := rfl

/-! ### meaningless -/

@[simp] theorem meaningless_cfg (i : Instr) : (meaningless i s).cfg = s.cfg := rfl
@[simp] theorem meaningless_pending (i : Instr) : (meaningless i s).pending = s.pending := rfl
@[simp] theorem meaningless_sel (i : Instr) : (meaningless i s).sel = s.sel := rfl
@[simp] theorem meaningless_rst (i : Instr) : (meaningless i s).rst = s.rst := rfl
@[simp] theorem meaningless_irq (i : Instr) : (meaningless i s).irq = s.irq := rfl
@[simp] theorem meaningless_cmdBuf (i : Instr) : (meaningless i s).cmdBuf = s.cmdBuf := rfl
@[simp] theorem meaningless_respBuf (i : Instr) : (meaningless i s).respBuf = s.respBuf := rfl
@[simp] theorem meaningless_rxStage (i : Instr) : (meaningless i s).rxStage = s.rxStage := rfl
@[simp] theorem meaningless_rxValid (i : Instr) : (meaningless i s).rxValid = s.rxValid := rfl
@[simp] theorem meaningless_pollCount (i : Instr) : (meaningless i s).pollCount = s.pollCount := rfl
@[simp] theorem meaningless_lastCts (i : Instr) : (meaningless i s).lastCts = s.lastCts := rfl
@[simp] theorem meaningless_cursor (i : Instr) : (meaningless i s).cursor = s.cursor := rfl
@[simp] theorem meaningless_status (i : Instr) : (meaningless i s).status = s.status := rfl
@[simp] theorem meaningless_seq (i : Instr) : (meaningless i s).seq = .idle := rfl
@[simp] theorem meaningless_refused (i : Instr) : (meaningless i s).refused = s.refused := rfl
@[simp] theorem meaningless_fault (i : Instr) : (meaningless i s).fault = true := rfl
@[simp] theorem meaningless_trace (i : Instr) : (meaningless i s).trace = s.trace := rfl
@[simp] theorem meaningless_log (i : Instr) : (meaningless i s).log = s.log ++ [⟨.op i, .noMeaning, s.status⟩] := rfl
@[simp] theorem meaningless_agent (i : Instr) : (meaningless i s).agent = s.agent.onEnd := rfl

/-! ### stepDone and noteReplayed -/

@[simp] theorem stepDone_cfg : (stepDone s).cfg = s.cfg := by unfold stepDone; split <;> rfl
@[simp] theorem stepDone_pending : (stepDone s).pending = s.pending := by unfold stepDone; split <;> rfl
@[simp] theorem stepDone_sel : (stepDone s).sel = s.sel := by unfold stepDone; split <;> rfl
@[simp] theorem stepDone_rst : (stepDone s).rst = s.rst := by unfold stepDone; split <;> rfl
@[simp] theorem stepDone_irq : (stepDone s).irq = s.irq := by unfold stepDone; split <;> rfl
@[simp] theorem stepDone_cmdBuf : (stepDone s).cmdBuf = s.cmdBuf := by unfold stepDone; split <;> rfl
@[simp] theorem stepDone_respBuf : (stepDone s).respBuf = s.respBuf := by unfold stepDone; split <;> rfl
@[simp] theorem stepDone_rxStage : (stepDone s).rxStage = s.rxStage := by unfold stepDone; split <;> rfl
@[simp] theorem stepDone_rxValid : (stepDone s).rxValid = s.rxValid := by unfold stepDone; split <;> rfl
@[simp] theorem stepDone_pollCount : (stepDone s).pollCount = s.pollCount := by unfold stepDone; split <;> rfl
@[simp] theorem stepDone_lastCts : (stepDone s).lastCts = s.lastCts := by unfold stepDone; split <;> rfl
@[simp] theorem stepDone_cursor : (stepDone s).cursor = s.cursor := by unfold stepDone; split <;> rfl
@[simp] theorem stepDone_status : (stepDone s).status = s.status := by unfold stepDone; split <;> rfl
@[simp] theorem stepDone_refused : (stepDone s).refused = s.refused := by unfold stepDone; split <;> rfl
@[simp] theorem stepDone_fault : (stepDone s).fault = s.fault := by unfold stepDone; split <;> rfl
@[simp] theorem stepDone_trace : (stepDone s).trace = s.trace := by unfold stepDone; split <;> rfl
@[simp] theorem stepDone_log : (stepDone s).log = s.log := by unfold stepDone; split <;> rfl
@[simp] theorem stepDone_agent : (stepDone s).agent = s.agent := by unfold stepDone; split <;> rfl
theorem stepDone_seq_ne_idle (h : s.seq ≠ .idle) : (stepDone s).seq ≠ .idle := by
  unfold stepDone; split
  · exact h
  · simp
@[simp] theorem noteReplayed_cfg (t : List Byte) : (noteReplayed t s).cfg = s.cfg := by unfold noteReplayed; split <;> rfl
@[simp] theorem noteReplayed_pending (t : List Byte) : (noteReplayed t s).pending = s.pending := by unfold noteReplayed; split <;> rfl
@[simp] theorem noteReplayed_sel (t : List Byte) : (noteReplayed t s).sel = s.sel := by unfold noteReplayed; split <;> rfl
@[simp] theorem noteReplayed_rst (t : List Byte) : (noteReplayed t s).rst = s.rst := by unfold noteReplayed; split <;> rfl
@[simp] theorem noteReplayed_irq (t : List Byte) : (noteReplayed t s).irq = s.irq := by unfold noteReplayed; split <;> rfl
@[simp] theorem noteReplayed_cmdBuf (t : List Byte) : (noteReplayed t s).cmdBuf = s.cmdBuf := by unfold noteReplayed; split <;> rfl
@[simp] theorem noteReplayed_respBuf (t : List Byte) : (noteReplayed t s).respBuf = s.respBuf := by unfold noteReplayed; split <;> rfl
@[simp] theorem noteReplayed_rxStage (t : List Byte) : (noteReplayed t s).rxStage = s.rxStage := by unfold noteReplayed; split <;> rfl
@[simp] theorem noteReplayed_rxValid (t : List Byte) : (noteReplayed t s).rxValid = s.rxValid := by unfold noteReplayed; split <;> rfl
@[simp] theorem noteReplayed_pollCount (t : List Byte) : (noteReplayed t s).pollCount = s.pollCount := by unfold noteReplayed; split <;> rfl
@[simp] theorem noteReplayed_lastCts (t : List Byte) : (noteReplayed t s).lastCts = s.lastCts := by unfold noteReplayed; split <;> rfl
@[simp] theorem noteReplayed_cursor (t : List Byte) : (noteReplayed t s).cursor = s.cursor := by unfold noteReplayed; split <;> rfl
@[simp] theorem noteReplayed_status (t : List Byte) : (noteReplayed t s).status = s.status := by unfold noteReplayed; split <;> rfl
@[simp] theorem noteReplayed_seq (t : List Byte) : (noteReplayed t s).seq = s.seq := by unfold noteReplayed; split <;> rfl
@[simp] theorem noteReplayed_refused (t : List Byte) : (noteReplayed t s).refused = s.refused := by unfold noteReplayed; split <;> rfl
@[simp] theorem noteReplayed_fault (t : List Byte) : (noteReplayed t s).fault = s.fault := by unfold noteReplayed; split <;> rfl
@[simp] theorem noteReplayed_trace (t : List Byte) : (noteReplayed t s).trace = s.trace := by unfold noteReplayed; split <;> rfl
@[simp] theorem noteReplayed_log (t : List Byte) : (noteReplayed t s).log = s.log := by unfold noteReplayed; split <;> rfl

/-! ### Runs of exchanges, and the window up to a CTS byte -/

@[simp] theorem writeBytes_cfg (l : List Byte) : (writeBytes l s).cfg = s.cfg := by
  induction l generalizing s with
  | nil => rfl
  | cons m l ih => exact ih (xfer m s)
@[simp] theorem afterReads_cfg (n : Nat) : (afterReads n s).cfg = s.cfg := by
  induction n generalizing s with
  | zero => rfl
  | succ n ih => exact ih (xfer Literal.dummyByte s)
@[simp] theorem writeBytes_pending (l : List Byte) : (writeBytes l s).pending = s.pending := by
  induction l generalizing s with
  | nil => rfl
  | cons m l ih => exact ih (xfer m s)
@[simp] theorem afterReads_pending (n : Nat) : (afterReads n s).pending = s.pending := by
  induction n generalizing s with
  | zero => rfl
  | succ n ih => exact ih (xfer Literal.dummyByte s)
@[simp] theorem writeBytes_sel (l : List Byte) : (writeBytes l s).sel = s.sel := by
  induction l generalizing s with
  | nil => rfl
  | cons m l ih => exact ih (xfer m s)
@[simp] theorem afterReads_sel (n : Nat) : (afterReads n s).sel = s.sel := by
  induction n generalizing s with
  | zero => rfl
  | succ n ih => exact ih (xfer Literal.dummyByte s)
@[simp] theorem writeBytes_rst (l : List Byte) : (writeBytes l s).rst = s.rst := by
  induction l generalizing s with
  | nil => rfl
  | cons m l ih => exact ih (xfer m s)
@[simp] theorem afterReads_rst (n : Nat) : (afterReads n s).rst = s.rst := by
  induction n generalizing s with
  | zero => rfl
  | succ n ih => exact ih (xfer Literal.dummyByte s)
@[simp] theorem writeBytes_irq (l : List Byte) : (writeBytes l s).irq = s.irq := by
  induction l generalizing s with
  | nil => rfl
  | cons m l ih => exact ih (xfer m s)
@[simp] theorem afterReads_irq (n : Nat) : (afterReads n s).irq = s.irq := by
  induction n generalizing s with
  | zero => rfl
  | succ n ih => exact ih (xfer Literal.dummyByte s)
@[simp] theorem writeBytes_cmdBuf (l : List Byte) : (writeBytes l s).cmdBuf = s.cmdBuf := by
  induction l generalizing s with
  | nil => rfl
  | cons m l ih => exact ih (xfer m s)
@[simp] theorem afterReads_cmdBuf (n : Nat) : (afterReads n s).cmdBuf = s.cmdBuf := by
  induction n generalizing s with
  | zero => rfl
  | succ n ih => exact ih (xfer Literal.dummyByte s)
@[simp] theorem writeBytes_respBuf (l : List Byte) : (writeBytes l s).respBuf = s.respBuf := by
  induction l generalizing s with
  | nil => rfl
  | cons m l ih => exact ih (xfer m s)
@[simp] theorem afterReads_respBuf (n : Nat) : (afterReads n s).respBuf = s.respBuf := by
  induction n generalizing s with
  | zero => rfl
  | succ n ih => exact ih (xfer Literal.dummyByte s)
@[simp] theorem writeBytes_rxStage (l : List Byte) : (writeBytes l s).rxStage = s.rxStage := by
  induction l generalizing s with
  | nil => rfl
  | cons m l ih => exact ih (xfer m s)
@[simp] theorem afterReads_rxStage (n : Nat) : (afterReads n s).rxStage = s.rxStage := by
  induction n generalizing s with
  | zero => rfl
  | succ n ih => exact ih (xfer Literal.dummyByte s)
@[simp] theorem writeBytes_rxValid (l : List Byte) : (writeBytes l s).rxValid = s.rxValid := by
  induction l generalizing s with
  | nil => rfl
  | cons m l ih => exact ih (xfer m s)
@[simp] theorem afterReads_rxValid (n : Nat) : (afterReads n s).rxValid = s.rxValid := by
  induction n generalizing s with
  | zero => rfl
  | succ n ih => exact ih (xfer Literal.dummyByte s)
@[simp] theorem writeBytes_pollCount (l : List Byte) : (writeBytes l s).pollCount = s.pollCount := by
  induction l generalizing s with
  | nil => rfl
  | cons m l ih => exact ih (xfer m s)
@[simp] theorem afterReads_pollCount (n : Nat) : (afterReads n s).pollCount = s.pollCount := by
  induction n generalizing s with
  | zero => rfl
  | succ n ih => exact ih (xfer Literal.dummyByte s)
@[simp] theorem writeBytes_lastCts (l : List Byte) : (writeBytes l s).lastCts = s.lastCts := by
  induction l generalizing s with
  | nil => rfl
  | cons m l ih => exact ih (xfer m s)
@[simp] theorem afterReads_lastCts (n : Nat) : (afterReads n s).lastCts = s.lastCts := by
  induction n generalizing s with
  | zero => rfl
  | succ n ih => exact ih (xfer Literal.dummyByte s)
@[simp] theorem writeBytes_cursor (l : List Byte) : (writeBytes l s).cursor = s.cursor := by
  induction l generalizing s with
  | nil => rfl
  | cons m l ih => exact ih (xfer m s)
@[simp] theorem afterReads_cursor (n : Nat) : (afterReads n s).cursor = s.cursor := by
  induction n generalizing s with
  | zero => rfl
  | succ n ih => exact ih (xfer Literal.dummyByte s)
@[simp] theorem writeBytes_status (l : List Byte) : (writeBytes l s).status = s.status := by
  induction l generalizing s with
  | nil => rfl
  | cons m l ih => exact ih (xfer m s)
@[simp] theorem afterReads_status (n : Nat) : (afterReads n s).status = s.status := by
  induction n generalizing s with
  | zero => rfl
  | succ n ih => exact ih (xfer Literal.dummyByte s)
@[simp] theorem writeBytes_seq (l : List Byte) : (writeBytes l s).seq = s.seq := by
  induction l generalizing s with
  | nil => rfl
  | cons m l ih => exact ih (xfer m s)
@[simp] theorem afterReads_seq (n : Nat) : (afterReads n s).seq = s.seq := by
  induction n generalizing s with
  | zero => rfl
  | succ n ih => exact ih (xfer Literal.dummyByte s)
@[simp] theorem writeBytes_refused (l : List Byte) : (writeBytes l s).refused = s.refused := by
  induction l generalizing s with
  | nil => rfl
  | cons m l ih => exact ih (xfer m s)
@[simp] theorem afterReads_refused (n : Nat) : (afterReads n s).refused = s.refused := by
  induction n generalizing s with
  | zero => rfl
  | succ n ih => exact ih (xfer Literal.dummyByte s)
@[simp] theorem writeBytes_fault (l : List Byte) : (writeBytes l s).fault = s.fault := by
  induction l generalizing s with
  | nil => rfl
  | cons m l ih => exact ih (xfer m s)
@[simp] theorem afterReads_fault (n : Nat) : (afterReads n s).fault = s.fault := by
  induction n generalizing s with
  | zero => rfl
  | succ n ih => exact ih (xfer Literal.dummyByte s)
@[simp] theorem writeBytes_log (l : List Byte) : (writeBytes l s).log = s.log := by
  induction l generalizing s with
  | nil => rfl
  | cons m l ih => exact ih (xfer m s)
@[simp] theorem afterReads_log (n : Nat) : (afterReads n s).log = s.log := by
  induction n generalizing s with
  | zero => rfl
  | succ n ih => exact ih (xfer Literal.dummyByte s)
@[simp] theorem askCts_cfg : (askCts s).cfg = s.cfg := rfl
@[simp] theorem askCts_pending : (askCts s).pending = s.pending := rfl
@[simp] theorem askCts_sel : (askCts s).sel = true := rfl
@[simp] theorem askCts_rst : (askCts s).rst = s.rst := rfl
@[simp] theorem askCts_irq : (askCts s).irq = s.irq := rfl
@[simp] theorem askCts_cmdBuf : (askCts s).cmdBuf = s.cmdBuf := rfl
@[simp] theorem askCts_respBuf : (askCts s).respBuf = s.respBuf := rfl
@[simp] theorem askCts_rxStage : (askCts s).rxStage = s.rxStage := rfl
@[simp] theorem askCts_rxValid : (askCts s).rxValid = s.rxValid := rfl
@[simp] theorem askCts_pollCount : (askCts s).pollCount = s.pollCount := rfl
@[simp] theorem askCts_lastCts : (askCts s).lastCts = some (xferByte Literal.dummyByte (xfer s.cfg.opReadCmdBuff (selOn s))) := rfl
@[simp] theorem askCts_cursor : (askCts s).cursor = s.cursor := rfl
@[simp] theorem askCts_status : (askCts s).status = s.status := rfl
@[simp] theorem askCts_seq : (askCts s).seq = s.seq := rfl
@[simp] theorem askCts_refused : (askCts s).refused = s.refused := rfl
@[simp] theorem askCts_fault : (askCts s).fault = s.fault := rfl
@[simp] theorem askCts_log : (askCts s).log = s.log := rfl
@[simp] theorem writeWindow_cfg (l : List Byte) : (writeWindow l s).cfg = s.cfg := by simp [writeWindow]
@[simp] theorem writeWindow_pending (l : List Byte) : (writeWindow l s).pending = s.pending := by simp [writeWindow]
@[simp] theorem writeWindow_sel (l : List Byte) : (writeWindow l s).sel = false := by simp [writeWindow]
@[simp] theorem writeWindow_rst (l : List Byte) : (writeWindow l s).rst = s.rst := by simp [writeWindow]
@[simp] theorem writeWindow_irq (l : List Byte) : (writeWindow l s).irq = s.irq := by simp [writeWindow]
@[simp] theorem writeWindow_cmdBuf (l : List Byte) : (writeWindow l s).cmdBuf = s.cmdBuf := by simp [writeWindow]
@[simp] theorem writeWindow_respBuf (l : List Byte) : (writeWindow l s).respBuf = s.respBuf := by simp [writeWindow]
@[simp] theorem writeWindow_rxStage (l : List Byte) : (writeWindow l s).rxStage = s.rxStage := by simp [writeWindow]
@[simp] theorem writeWindow_rxValid (l : List Byte) : (writeWindow l s).rxValid = s.rxValid := by simp [writeWindow]
@[simp] theorem writeWindow_pollCount (l : List Byte) : (writeWindow l s).pollCount = s.pollCount := by simp [writeWindow]
@[simp] theorem writeWindow_lastCts (l : List Byte) : (writeWindow l s).lastCts = s.lastCts := by simp [writeWindow]
@[simp] theorem writeWindow_cursor (l : List Byte) : (writeWindow l s).cursor = s.cursor := by simp [writeWindow]
@[simp] theorem writeWindow_status (l : List Byte) : (writeWindow l s).status = s.status := by simp [writeWindow]
@[simp] theorem writeWindow_seq (l : List Byte) : (writeWindow l s).seq = s.seq := by simp [writeWindow]
@[simp] theorem writeWindow_refused (l : List Byte) : (writeWindow l s).refused = s.refused := by simp [writeWindow]
@[simp] theorem writeWindow_fault (l : List Byte) : (writeWindow l s).fault = s.fault := by simp [writeWindow]
@[simp] theorem writeWindow_log (l : List Byte) : (writeWindow l s).log = s.log := by simp [writeWindow]

end Sys2Proof.Machine
end

