-- ==== Sys2Proof/Laws/Memory.lean ====
section
/-! SUPPORT. What the memory and buffer operations do: read after write, the canonical form kept, and buffers read back. -/

namespace Sys2Proof.Machine

/-! ### Cells -/

theorem Memory.read_write_same (a : Nat) (v : Byte) (m : Memory) : Memory.read a (Memory.write a v m) = some v := by
  induction m with
  | nil => simp [Memory.write, Memory.read]
  | cons e rest ih =>
    obtain ⟨b, w⟩ := e
    unfold Memory.write
    split
    · simp [Memory.read]
    · split
      · simp [Memory.read]
      · rename_i _ h
        simp [Memory.read, h, ih]

theorem Memory.read_write_other {a b : Nat} (v : Byte) (m : Memory) (h : b ≠ a) :
    Memory.read b (Memory.write a v m) = Memory.read b m := by
  induction m with
  | nil => simp [Memory.write, Memory.read, h]
  | cons e rest ih =>
    obtain ⟨c, w⟩ := e
    unfold Memory.write
    split
    · simp [Memory.read, h]
    · split
      · rename_i _ hc
        subst hc
        simp [Memory.read, h]
      · simp [Memory.read, ih]

/-- The canonical form from its head: every listed address beyond the first is higher. -/
theorem Memory.wf_cons {a : Nat} {v : Byte} {m : Memory} :
    Memory.wf ((a, v) :: m) = true ↔ Memory.wf m = true ∧ ∀ e ∈ m, a < e.1 := by
  induction m generalizing a v with
  | nil => simp [Memory.wf]
  | cons e rest ih =>
    obtain ⟨b, w⟩ := e
    rw [Memory.wf, Bool.and_eq_true, ih]
    simp only [decide_eq_true_eq, List.mem_cons, forall_eq_or_imp]
    constructor
    · rintro ⟨hab, hwf, hall⟩
      exact ⟨⟨hwf, hall⟩, hab, fun e he => lt_trans hab (hall e he)⟩
    · rintro ⟨⟨hwf, hall⟩, hab, -⟩
      exact ⟨hab, hwf, hall⟩

/-- A write adds no address but its own. -/
theorem Memory.mem_write {a : Nat} {v : Byte} {m : Memory} {e : Host.Cell} (h : e ∈ Memory.write a v m) :
    e.1 = a ∨ e ∈ m := by
  induction m with
  | nil => simp [Memory.write] at h; exact .inl (by simp [h])
  | cons x rest ih =>
    obtain ⟨b, w⟩ := x
    unfold Memory.write at h
    split at h
    · rcases List.mem_cons.1 h with rfl | h
      · exact .inl rfl
      · exact .inr h
    · split at h
      · rcases List.mem_cons.1 h with rfl | h
        · exact .inl rfl
        · exact .inr (List.mem_cons_of_mem _ h)
      · rcases List.mem_cons.1 h with rfl | h
        · exact .inr (by simp)
        · exact (ih h).imp_right (List.mem_cons_of_mem _)

/-- A write keeps the canonical form. -/
theorem Memory.wf_write {a : Nat} (v : Byte) {m : Memory} (h : Memory.wf m = true) :
    Memory.wf (Memory.write a v m) = true := by
  induction m with
  | nil => rfl
  | cons x rest ih =>
    obtain ⟨b, w⟩ := x
    obtain ⟨hr, hall⟩ := Memory.wf_cons.1 h
    unfold Memory.write
    split
    · rename_i hab
      refine Memory.wf_cons.2 ⟨h, ?_⟩
      rintro e he
      rcases List.mem_cons.1 he with rfl | he
      · exact hab
      · exact lt_trans hab (hall e he)
    · split
      · rename_i _ hab
        subst hab
        exact Memory.wf_cons.2 ⟨hr, hall⟩
      · rename_i hlt hne
        refine Memory.wf_cons.2 ⟨ih hr, fun e he => ?_⟩
        rcases Memory.mem_write he with h1 | h1
        · omega
        · exact hall e h1

/-- A run of writes keeps the canonical form. -/
theorem Memory.wf_writeRun {a : Nat} (l : List Byte) {m : Memory} (h : Memory.wf m = true) :
    Memory.wf (Memory.writeRun a l m) = true := by
  induction l generalizing a m with
  | nil => exact h
  | cons v vs ih => exact ih (Memory.wf_write v h)

/-- A run of writes leaves every address outside the run alone. -/
theorem Memory.read_writeRun_other {a b : Nat} (l : List Byte) (m : Memory) (h : b < a ∨ a + l.length ≤ b) :
    Memory.read b (Memory.writeRun a l m) = Memory.read b m := by
  induction l generalizing a m with
  | nil => rfl
  | cons v vs ih =>
    simp only [List.length_cons] at h
    rw [Memory.writeRun, ih _ (by omega), Memory.read_write_other v m (by omega)]

/-- A run of writes stores its bytes in order (R66). -/
theorem Memory.read_writeRun_mem {a i : Nat} (l : List Byte) (m : Memory) (h : i < l.length) :
    Memory.read (a + i) (Memory.writeRun a l m) = some l[i] := by
  induction l generalizing a i m with
  | nil => simp at h
  | cons v vs ih =>
    cases i with
    | zero =>
      rw [Memory.writeRun, Memory.read_writeRun_other _ _ (by omega)]
      exact Memory.read_write_same a v m
    | succ i =>
      rw [Memory.writeRun, show a + (i + 1) = a + 1 + i by omega, ih _ (by simpa using h)]
      rfl

/-! ### Buffers -/

/-- What was written is read back. -/
theorem readBuffer_overwrite (l : List Byte) (b : Buffer) : readBuffer l.length (overwrite l b) = some l := by
  unfold overwrite
  generalize b.drop l.length = r
  induction l with
  | nil => rfl
  | cons x xs ih => simp [readBuffer, ih]

/-- A buffer keeps its length under a write that fits. -/
theorem length_overwrite {l : List Byte} {b : Buffer} (h : l.length ≤ b.length) :
    (overwrite l b).length = b.length := by
  simp [overwrite]; omega

/-- Bytes 0..n-1 of a written buffer are what was written. -/
theorem take_overwrite (l : List Byte) (b : Buffer) : (overwrite l b).take l.length = l.map some := by
  simp [overwrite]

/-- Bytes n.. of a written buffer stay as they were (R37). -/
theorem drop_overwrite (l : List Byte) (b : Buffer) : (overwrite l b).drop l.length = b.drop l.length := by
  simp [overwrite]

@[simp] theorem overwrite_nil (b : Buffer) : overwrite [] b = b := by simp [overwrite]

end Sys2Proof.Machine
end

