-- ==== Sys2Proof/Laws/Flow.lean ====
section
/-! SUPPORT. Reasoning about parts of operations without unfolding them: what holds of every end of a part (`Flow.All`), the
closure of that under sequencing, and the ends of a host operation. -/

namespace Sys2Proof.Machine

/-- The state in which a part ended, however it ended. -/
def Flow.state {α : Type} : Flow α → State
  | .ok _ s => s
  | .timeout _ s => s
  | .fault s => s

@[simp] theorem Flow.state_ok {α : Type} (a : α) (s : State) : (Flow.ok a s).state = s := rfl
@[simp] theorem Flow.state_timeout {α : Type} (n : Nat) (s : State) : (Flow.timeout (α := α) n s).state = s := rfl
@[simp] theorem Flow.state_fault {α : Type} (s : State) : (Flow.fault (α := α) s).state = s := rfl

@[simp] theorem Flow.bind_ok {α β : Type} (a : α) (s : State) (f : α → State → Flow β) : (Flow.ok a s).bind f = f a s := rfl
@[simp] theorem Flow.bind_timeout {α β : Type} (n : Nat) (s : State) (f : α → State → Flow β) :
    (Flow.timeout n s).bind f = .timeout n s := rfl
@[simp] theorem Flow.bind_fault {α β : Type} (s : State) (f : α → State → Flow β) :
    (Flow.fault s).bind f = .fault s := rfl

/-- A part relates its start to its end by `R`, however it ends. -/
def Keeps {α : Type} (R : State → State → Prop) (f : State → Flow α) : Prop := ∀ s, R s (f s).state

/-- A relation that composes. -/
structure Composes (R : State → State → Prop) : Prop where
  refl : ∀ s, R s s
  trans : ∀ {s t u}, R s t → R t u → R s u

theorem Keeps.bind {α β : Type} {R : State → State → Prop} (hR : Composes R) {f : State → Flow α}
    {g : α → State → Flow β} (hf : Keeps R f) (hg : ∀ a, Keeps R (g a)) :
    Keeps R (fun s => (f s).bind g) := by
  intro s
  have h := hf s
  cases hfs : f s with
  | ok a t => rw [hfs] at h; simpa [hfs] using hR.trans h (hg a t)
  | timeout n t => rw [hfs] at h; simpa [hfs] using h
  | fault t => rw [hfs] at h; simpa [hfs] using h

theorem Keeps.lift {R : State → State → Prop} {f : State → State} (h : ∀ s, R s (f s)) : Keeps R (lift f) := h

theorem Keeps.chain {R : State → State → Prop} (hR : Composes R) {fs : List Step} (h : ∀ f ∈ fs, Keeps R f) :
    Keeps R (chain fs) := by
  induction fs with
  | nil => exact hR.refl
  | cons f fs ih =>
    exact Keeps.bind hR (h f (by simp)) fun _ => ih fun g hg => h g (by simp [hg])

theorem Keeps.counted {R : State → State → Prop} (hR : Composes R) (hd : ∀ s, R s (stepDone s)) {fs : List Step}
    (h : ∀ f ∈ fs, Keeps R f) : Keeps R (Machine.chain (counted fs)) := by
  refine Keeps.chain hR fun g hg => ?_
  obtain ⟨f, hf, rfl⟩ := List.mem_map.1 hg
  exact Keeps.bind hR (h f hf) fun _ => hd

/-! ### Sequences that go through -/

theorem chain_ok {f : Step} {fs : List Step} {s t : State} (h : f s = .ok () t) : chain (f :: fs) s = chain fs t := by
  simp [chain, h]

theorem chain_timeout {f : Step} {fs : List Step} {s t : State} {n : Nat} (h : f s = .timeout n t) :
    chain (f :: fs) s = .timeout n t := by simp [chain, h]

theorem chain_append {fs gs : List Step} {s : State} :
    chain (fs ++ gs) s = (chain fs s).bind fun _ t => chain gs t := by
  induction fs generalizing s with
  | nil => rfl
  | cons f fs ih =>
    simp only [List.cons_append, chain]
    cases f s <;> simp [ih]

/-! ### A host operation -/

/-- Every host operation on an IDLE engine ends in a next state: refused, or finished (R133, R261). -/
theorem hostOp_idle {i : Instr} {body : State → Flow Result} {s : State} (h : s.seq = .idle) :
    hostOp i body s =
      .next (match i.failingCheck s.cfg with
        | some c => refuse (.op i) c s
        | none => finish i (body (begin i s))) := by
  unfold hostOp
  rw [if_pos h]
  cases i.failingCheck s.cfg <;> rfl

theorem hostOp_admitted {i : Instr} {body : State → Flow Result} {s : State} (h : s.seq = .idle)
    (hc : i.failingCheck s.cfg = none) : hostOp i body s = .next (finish i (body (begin i s))) := by
  rw [hostOp_idle h, hc]

theorem hostOp_refused {i : Instr} {body : State → Flow Result} {s : State} {c : Check} (h : s.seq = .idle)
    (hc : i.failingCheck s.cfg = some c) : hostOp i body s = .next (refuse (.op i) c s) := by
  rw [hostOp_idle h, hc]

theorem wireOp_idle {i : Instr} {body : Step} {s : State} (h : s.seq = .idle) :
    wireOp i body s =
      .next (match i.failingCheck s.cfg with
        | some c => refuse (.op i) c s
        | none => settle (body s)) := by
  unfold wireOp
  rw [if_pos h]
  cases i.failingCheck s.cfg <;> rfl

/-- Everything a host operation can answer. -/
theorem hostOp_next {i : Instr} {body : State → Flow Result} {s t : State} (h : hostOp i body s = .next t) :
    s.seq = .idle ∧
      ((∃ c, i.failingCheck s.cfg = some c ∧ t = refuse (.op i) c s) ∨
        (i.failingCheck s.cfg = none ∧ t = finish i (body (begin i s)))) := by
  by_cases hs : s.seq = .idle
  · rw [hostOp_idle hs] at h
    injection h with h
    cases hc : i.failingCheck s.cfg with
    | some c => rw [hc] at h; exact ⟨hs, .inl ⟨c, rfl, h.symm⟩⟩
    | none => rw [hc] at h; exact ⟨hs, .inr ⟨rfl, h.symm⟩⟩
  · unfold hostOp at h
    rw [if_neg hs] at h
    cases h

/-- Everything a wire row can answer. -/
theorem wireOp_next {i : Instr} {body : Step} {s t : State} (h : wireOp i body s = .next t) :
    s.seq = .idle ∧
      ((∃ c, i.failingCheck s.cfg = some c ∧ t = refuse (.op i) c s) ∨
        (i.failingCheck s.cfg = none ∧ t = settle (body s))) := by
  by_cases hs : s.seq = .idle
  · rw [wireOp_idle hs] at h
    injection h with h
    cases hc : i.failingCheck s.cfg with
    | some c => rw [hc] at h; exact ⟨hs, .inl ⟨c, rfl, h.symm⟩⟩
    | none => rw [hc] at h; exact ⟨hs, .inr ⟨rfl, h.symm⟩⟩
  · unfold wireOp at h
    rw [if_neg hs] at h
    cases h

/-- A host operation keeps `R` if its body, its start and its ends do. -/
theorem hostOp_keeps {R : State → State → Prop} (hR : Composes R) {i : Instr} {body : State → Flow Result} {s t : State}
    (hb : ∀ u, R u (begin i u)) (hc : ∀ u r, R u (complete i r u)) (ha : ∀ u n, R u (abort i n u))
    (hm : ∀ u, R u (meaningless i u)) (hr : ∀ u c, R u (refuse (.op i) c u))
    (hbody : Keeps R body) (h : hostOp i body s = .next t) : R s t := by
  obtain ⟨-, ⟨c, -, rfl⟩ | ⟨-, rfl⟩⟩ := hostOp_next h
  · exact hr s c
  · have hk := hR.trans (hb s) (hbody (begin i s))
    cases hf : body (begin i s) with
    | ok r u => rw [hf] at hk; exact hR.trans hk (hc u r)
    | timeout n u => rw [hf] at hk; exact hR.trans hk (ha u n)
    | fault u => rw [hf] at hk; exact hR.trans hk (hm u)

end Sys2Proof.Machine
end

