-- ==== Sys2Proof/Laws/Bus.lean ====
section
/-! SUPPORT. What the transactions put on the bus, and what one command, one handshake and one FIFO access can do: one lemma
for each, from which every later statement about an operation follows. -/

namespace Sys2Proof.Machine

/-! ### Events put on the bus -/

theorem Puts.refl (s : State) : Puts s s [] := ⟨[], by simp, rfl⟩

theorem Puts.trans {s t u : State} {a b : List Event} (h : Puts s t a) (k : Puts t u b) : Puts s u (a ++ b) := by
  obtain ⟨x, hx, rfl⟩ := h
  obtain ⟨y, hy, rfl⟩ := k
  exact ⟨x ++ y, by simp [hy, hx], by simp⟩

/-- A change that leaves the trace alone puts nothing on the bus. -/
theorem Puts.of_eq {s t : State} (h : t.trace = s.trace) : Puts s t [] := ⟨[], by simp [h], rfl⟩

theorem Puts.congr {s s' t t' : State} {es : List Event} (h : Puts s t es) (hs : s'.trace = s.trace)
    (ht : t'.trace = t.trace) : Puts s' t' es := by
  obtain ⟨x, hx, rfl⟩ := h
  exact ⟨x, by rw [ht, hx, hs], rfl⟩

theorem puts_one {s t : State} (e : Event) (h : t.trace = s.trace ++ [e]) : Puts s t [e.out] := ⟨[e], h, rfl⟩

theorem puts_writeBytes (l : List Byte) (s : State) : Puts s (writeBytes l s) (l.map fun m => .x m 0) := by
  induction l generalizing s with
  | nil => exact Puts.refl s
  | cons m ms ih => exact (puts_one (s := s) (t := xfer m s) (.x m (xferByte m s)) rfl).trans (ih (xfer m s))

theorem puts_afterReads (n : Nat) (s : State) :
    Puts s (afterReads n s) ((List.replicate n Literal.dummyByte).map fun m => .x m 0) := by
  induction n generalizing s with
  | zero => exact Puts.refl s
  | succ n ih =>
    exact (puts_one (s := s) (t := xfer Literal.dummyByte s) (.x Literal.dummyByte (xferByte Literal.dummyByte s)) rfl).trans
      (ih (xfer Literal.dummyByte s))

/-- A write transaction puts `W[l]` on the bus (R12). -/
theorem puts_writeWindow (l : List Byte) (s : State) : Puts s (writeWindow l s) (wOut l) := by
  have h1 : Puts s (selOn s) [.sel] := puts_one .sel rfl
  have h2 := h1.trans (puts_writeBytes l (selOn s))
  have h3 : Puts (writeBytes l (selOn s)) (writeWindow l s) [.desel] := puts_one .desel rfl
  simpa [wOut] using h2.trans h3

/-- The bytes read are the chip's answers, in order (R87, R119). -/
theorem trace_afterReads (n : Nat) (s : State) :
    (afterReads n s).trace = s.trace ++ (readBytes n s).map (Event.x Literal.dummyByte) := by
  induction n generalizing s with
  | zero => simp [afterReads, readBytes]
  | succ n ih => simp [afterReads, readBytes, ih]

@[simp] theorem length_readBytes (n : Nat) (s : State) : (readBytes n s).length = n := by
  induction n generalizing s with
  | zero => rfl
  | succ n ih => simp [readBytes, ih]

/-! ### One command frame -/

/-- `send_command` of a frame that fits: the frame stands in `cmd_buf` and goes out as one transaction (R155). -/
theorem sendFrom_ok {source : FrameSource} {frame : List Byte} {s : State} (h : frame.length ≤ s.cfg.cmdBufCap) :
    sendFrom source frame s = .ok () (writeWindow frame (loadCmd source frame s)) := by
  unfold sendFrom
  rw [if_pos h]
  simp [readBuffer_overwrite]

theorem sendFrom_fault {source : FrameSource} {frame : List Byte} {s : State} (h : s.cfg.cmdBufCap < frame.length) :
    sendFrom source frame s = .fault s := by
  unfold sendFrom
  rw [if_neg (by omega)]

/-- Everything `send_command` can do. -/
theorem sendFrom_cases (source : FrameSource) (frame : List Byte) (s : State) :
    (frame.length ≤ s.cfg.cmdBufCap ∧ sendFrom source frame s = .ok () (writeWindow frame (loadCmd source frame s))) ∨
      (s.cfg.cmdBufCap < frame.length ∧ sendFrom source frame s = .fault s) := by
  by_cases h : frame.length ≤ s.cfg.cmdBufCap
  · exact .inl ⟨h, sendFrom_ok h⟩
  · exact .inr ⟨by omega, sendFrom_fault (by omega)⟩

theorem sendCommand_ok {frame : List Byte} {s : State} (h : frame.length ≤ s.cfg.cmdBufCap) :
    sendCommand frame s = .ok () (writeWindow frame (loadCmd .command frame s)) := sendFrom_ok h

theorem sendCommand_cases (frame : List Byte) (s : State) :
    (frame.length ≤ s.cfg.cmdBufCap ∧ sendCommand frame s = .ok () (writeWindow frame (loadCmd .command frame s))) ∨
      (s.cfg.cmdBufCap < frame.length ∧ sendCommand frame s = .fault s) := sendFrom_cases .command frame s

/-! ### One handshake -/

/-- The window of one poll up to its CTS byte, the poll counted. -/
def counted1 (s : State) : State := { askCts s with pollCount := s.pollCount + 1 }

/-- One busy poll. -/
def busyPoll (s : State) : State := selOff (counted1 s)

/-- `k` busy polls. -/
def polled : Nat → State → State
  | 0, s => s
  | k + 1, s => polled k (busyPoll s)

/-- The next poll from `s` reads ready. -/
def readyAt (s : State) : Prop := (counted1 s).lastCts = some Literal.ctsReady

/-- Everything the poll loop can do (R153, R154, R156): `k` busy polls, and then either none is left and Timeout is raised,
or the next one is ready and its window carries the response. -/
theorem pollLoop_cases (n fuel : Nat) (s : State) :
    ∃ k ≤ fuel, (∀ j < k, ¬ readyAt (polled j s)) ∧
      ((k = fuel ∧ pollLoop n fuel s = .timeout s.cfg.ctsRetryMax (polled k s)) ∨
        (k < fuel ∧ readyAt (polled k s) ∧ pollLoop n fuel s = respond n (counted1 (polled k s)))) := by
  induction fuel generalizing s with
  | zero => exact ⟨0, le_rfl, by simp, .inl ⟨rfl, rfl⟩⟩
  | succ fuel ih =>
    by_cases hr : readyAt s
    · refine ⟨0, by omega, by simp, .inr ⟨by omega, hr, ?_⟩⟩
      unfold pollLoop
      exact if_pos hr
    · obtain ⟨k, hk, hb, h⟩ := ih (busyPoll s)
      have hp : pollLoop n (fuel + 1) s = pollLoop n fuel (busyPoll s) := by
        conv_lhs => unfold pollLoop
        exact if_neg hr
      refine ⟨k + 1, by omega, ?_, ?_⟩
      · intro j hj
        cases j with
        | zero => exact hr
        | succ j => exact hb j (by omega)
      · rw [hp]
        rcases h with ⟨rfl, h⟩ | ⟨hlt, hrd, h⟩
        · exact .inl ⟨rfl, by rw [h]; rfl⟩
        · exact .inr ⟨by omega, hrd, h⟩

theorem polled_add (j k : Nat) (s : State) : polled (j + k) s = polled k (polled j s) := by
  induction j generalizing s with
  | zero => simp [polled]
  | succ j ih => rw [Nat.succ_add]; exact ih (busyPoll s)

theorem polled_succ (k : Nat) (s : State) : polled (k + 1) s = busyPoll (polled k s) := polled_add k 1 s

@[simp] theorem polled_cfg (k : Nat) (s : State) : (polled k s).cfg = s.cfg := by
  induction k generalizing s with
  | zero => rfl
  | succ k ih => exact ih (busyPoll s)
@[simp] theorem polled_pending (k : Nat) (s : State) : (polled k s).pending = s.pending := by
  induction k generalizing s with
  | zero => rfl
  | succ k ih => exact ih (busyPoll s)
theorem polled_sel (k : Nat) (s : State) (h : s.sel = false) : (polled k s).sel = false := by
  induction k generalizing s with
  | zero => exact h
  | succ k ih => exact ih _ rfl
@[simp] theorem polled_rst (k : Nat) (s : State) : (polled k s).rst = s.rst := by
  induction k generalizing s with
  | zero => rfl
  | succ k ih => exact ih (busyPoll s)
@[simp] theorem polled_irq (k : Nat) (s : State) : (polled k s).irq = s.irq := by
  induction k generalizing s with
  | zero => rfl
  | succ k ih => exact ih (busyPoll s)
@[simp] theorem polled_cmdBuf (k : Nat) (s : State) : (polled k s).cmdBuf = s.cmdBuf := by
  induction k generalizing s with
  | zero => rfl
  | succ k ih => exact ih (busyPoll s)
@[simp] theorem polled_respBuf (k : Nat) (s : State) : (polled k s).respBuf = s.respBuf := by
  induction k generalizing s with
  | zero => rfl
  | succ k ih => exact ih (busyPoll s)
@[simp] theorem polled_rxStage (k : Nat) (s : State) : (polled k s).rxStage = s.rxStage := by
  induction k generalizing s with
  | zero => rfl
  | succ k ih => exact ih (busyPoll s)
@[simp] theorem polled_rxValid (k : Nat) (s : State) : (polled k s).rxValid = s.rxValid := by
  induction k generalizing s with
  | zero => rfl
  | succ k ih => exact ih (busyPoll s)
@[simp] theorem polled_pollCount (k : Nat) (s : State) : (polled k s).pollCount = s.pollCount + k := by
  induction k generalizing s with
  | zero => rfl
  | succ k ih => rw [polled, ih]; show s.pollCount + 1 + k = _; omega
@[simp] theorem polled_cursor (k : Nat) (s : State) : (polled k s).cursor = s.cursor := by
  induction k generalizing s with
  | zero => rfl
  | succ k ih => exact ih (busyPoll s)
@[simp] theorem polled_status (k : Nat) (s : State) : (polled k s).status = s.status := by
  induction k generalizing s with
  | zero => rfl
  | succ k ih => exact ih (busyPoll s)
@[simp] theorem polled_seq (k : Nat) (s : State) : (polled k s).seq = s.seq := by
  induction k generalizing s with
  | zero => rfl
  | succ k ih => exact ih (busyPoll s)
@[simp] theorem polled_refused (k : Nat) (s : State) : (polled k s).refused = s.refused := by
  induction k generalizing s with
  | zero => rfl
  | succ k ih => exact ih (busyPoll s)
@[simp] theorem polled_fault (k : Nat) (s : State) : (polled k s).fault = s.fault := by
  induction k generalizing s with
  | zero => rfl
  | succ k ih => exact ih (busyPoll s)
@[simp] theorem polled_log (k : Nat) (s : State) : (polled k s).log = s.log := by
  induction k generalizing s with
  | zero => rfl
  | succ k ih => exact ih (busyPoll s)

/-- A poll puts `P(_)` on the bus (R120). -/
theorem puts_askCts (s : State) : Puts s (askCts s) [.sel, .x s.cfg.opReadCmdBuff 0, .x Literal.dummyByte 0] := by
  refine ⟨[.sel, .x s.cfg.opReadCmdBuff (xferByte s.cfg.opReadCmdBuff (selOn s)),
    .x Literal.dummyByte (xferByte Literal.dummyByte (xfer s.cfg.opReadCmdBuff (selOn s)))], ?_, rfl⟩
  simp [askCts]

theorem puts_busyPoll (s : State) : Puts s (busyPoll s) (pOut s.cfg) :=
  (puts_askCts s).trans (puts_one (s := askCts s) (t := busyPoll s) .desel rfl)

/-- `k` busy polls put `k` polls on the bus. -/
theorem puts_polled (k : Nat) (s : State) : Puts s (polled k s) (List.replicate k (pOut s.cfg)).flatten := by
  induction k generalizing s with
  | zero => exact Puts.refl s
  | succ k ih => exact (puts_busyPoll s).trans (ih (busyPoll s))

/-! ### The response -/

theorem storeResponse_ok {l : List Byte} {s : State} (h : l.length ≤ s.cfg.respBufCap) :
    storeResponse l s = .ok l { s with respBuf := overwrite l s.respBuf } := by
  unfold storeResponse
  rw [if_pos h]
  simp [readBuffer_overwrite]

theorem storeResponse_fault {l : List Byte} {s : State} (h : s.cfg.respBufCap < l.length) :
    storeResponse l s = .fault s := by
  unfold storeResponse
  rw [if_neg (by omega)]

/-- Everything the ready window can do (R156): the response goes to `resp_buf` and back, or does not fit it. -/
theorem respond_cases (n : Nat) (s : State) :
    (n ≤ s.cfg.respBufCap ∧ respond n s = .ok (readBytes n s)
      { selOff (afterReads n s) with respBuf := overwrite (readBytes n s) s.respBuf }) ∨
      (s.cfg.respBufCap < n ∧ respond n s = .fault (selOff (afterReads n s))) := by
  unfold respond
  by_cases h : n ≤ s.cfg.respBufCap
  · exact .inl ⟨h, by rw [storeResponse_ok (by simpa using h)]; simp⟩
  · exact .inr ⟨by omega, storeResponse_fault (by simp; omega)⟩

/-- The ready poll of a response read puts the rest of its window on the bus (R121). -/
theorem puts_respond (n : Nat) (s : State) :
    Puts s (respond n s).state ((List.replicate n Literal.dummyByte).map (fun m => .x m 0) ++ [.desel]) := by
  have h := (puts_afterReads n s).trans (puts_one (s := afterReads n s) (t := selOff (afterReads n s)) .desel rfl)
  rcases respond_cases n s with ⟨-, hr⟩ | ⟨-, hr⟩ <;> rw [hr]
  · exact h.congr rfl rfl
  · exact h

end Sys2Proof.Machine
end

