-- ==== Sys2Proof/Laws/Frames.lean ====
section
/-! SUPPORT. The frame of every part of every operation: which registers it may write, however it ends. -/

namespace Sys2Proof.Machine

theorem Frame.refl (w : List Reg) (s : State) : Frame w s s := by constructor <;> intros <;> rfl

theorem Frame.trans {w : List Reg} {s t u : State} (h : Frame w s t) (k : Frame w t u) : Frame w s u where
  cfg := k.cfg.trans h.cfg
  pending := k.pending.trans h.pending
  refused := k.refused.trans h.refused
  fault := k.fault.trans h.fault
  sel hw := (k.sel hw).trans (h.sel hw)
  rst hw := (k.rst hw).trans (h.rst hw)
  irq hw := (k.irq hw).trans (h.irq hw)
  cmdBuf hw := (k.cmdBuf hw).trans (h.cmdBuf hw)
  respBuf hw := (k.respBuf hw).trans (h.respBuf hw)
  rxStage hw := (k.rxStage hw).trans (h.rxStage hw)
  rxValid hw := (k.rxValid hw).trans (h.rxValid hw)
  pollCount hw := (k.pollCount hw).trans (h.pollCount hw)
  lastCts hw := (k.lastCts hw).trans (h.lastCts hw)
  cursor hw := (k.cursor hw).trans (h.cursor hw)

theorem Frame.composes (w : List Reg) : Composes (Frame w) := ⟨Frame.refl w, Frame.trans⟩

theorem Frame.mono {v w : List Reg} {s t : State} (h : Frame v s t) (hvw : v ⊆ w) : Frame w s t where
  cfg := h.cfg
  pending := h.pending
  refused := h.refused
  fault := h.fault
  sel hw := h.sel fun hv => hw (hvw hv)
  rst hw := h.rst fun hv => hw (hvw hv)
  irq hw := h.irq fun hv => hw (hvw hv)
  cmdBuf hw := h.cmdBuf fun hv => hw (hvw hv)
  respBuf hw := h.respBuf fun hv => hw (hvw hv)
  rxStage hw := h.rxStage fun hv => hw (hvw hv)
  rxValid hw := h.rxValid fun hv => hw (hvw hv)
  pollCount hw := h.pollCount fun hv => hw (hvw hv)
  lastCts hw := h.lastCts fun hv => hw (hvw hv)
  cursor hw := h.cursor fun hv => hw (hvw hv)

theorem Keeps.mono {α : Type} {v w : List Reg} {f : State → Flow α} (h : Keeps (Frame v) f) (hvw : v ⊆ w) :
    Keeps (Frame w) f := fun s => (h s).mono hvw

theorem frame_stepDone (w : List Reg) (s : State) : Frame w s (stepDone s) := by constructor <;> intros <;> simp

theorem frame_noteReplayed (w : List Reg) (t : List Byte) (s : State) : Frame w s (noteReplayed t s) := by
  constructor <;> intros <;> simp

theorem frame_writeWindow (l : List Byte) (s : State) : Frame [.sel] s (writeWindow l s) := by
  constructor <;> intros <;> simp_all

theorem frame_sendFrom (src : FrameSource) (f : List Byte) : Keeps (Frame [.sel, .cmdBuf]) (sendFrom src f) := by
  intro s
  rcases sendFrom_cases src f s with ⟨-, h⟩ | ⟨-, h⟩ <;> rw [h]
  · constructor <;> intros <;> simp_all
  · exact Frame.refl _ _

theorem frame_sendCommand (f : List Byte) : Keeps (Frame [.sel, .cmdBuf]) (sendCommand f) := frame_sendFrom .command f

theorem frame_beginHandshake (s : State) : Frame [.pollCount] s (beginHandshake s) := by
  constructor <;> intros <;> simp_all

theorem frame_counted1 (s : State) : Frame [.sel, .pollCount, .lastCts] s (counted1 s) := by
  constructor <;> intros <;> simp_all [counted1]

theorem frame_polled (k : Nat) (s : State) : Frame [.sel, .pollCount, .lastCts] s (polled k s) := by
  induction k generalizing s with
  | zero => exact Frame.refl _ _
  | succ k ih =>
    refine Frame.trans ?_ (ih (busyPoll s))
    constructor <;> intros <;> simp_all [busyPoll, counted1]

theorem frame_respond (n : Nat) : Keeps (Frame [.sel, .respBuf]) (respond n) := by
  intro s
  rcases respond_cases n s with ⟨-, h⟩ | ⟨-, h⟩ <;> rw [h] <;> constructor <;> intros <;> simp_all

theorem frame_respond_zero : Keeps (Frame [.sel]) (respond 0) := by
  intro s
  rcases respond_cases 0 s with ⟨-, h⟩ | ⟨-, h⟩ <;> rw [h] <;>
    constructor <;> intros <;> simp_all [readBytes, afterReads]

theorem frame_pollLoop (n fuel : Nat) : Keeps (Frame [.sel, .pollCount, .lastCts, .respBuf]) (pollLoop n fuel) := by
  intro s
  obtain ⟨k, -, -, ⟨-, h⟩ | ⟨-, -, h⟩⟩ := pollLoop_cases n fuel s <;> rw [h]
  · exact (frame_polled k s).mono (by decide)
  · exact (((frame_polled k s).mono (by decide)).trans ((frame_counted1 _).mono (by decide))).trans
      ((frame_respond n _).mono (by decide))

theorem frame_pollLoop_zero (fuel : Nat) : Keeps (Frame [.sel, .pollCount, .lastCts]) (pollLoop 0 fuel) := by
  intro s
  obtain ⟨k, -, -, ⟨-, h⟩ | ⟨-, -, h⟩⟩ := pollLoop_cases 0 fuel s <;> rw [h]
  · exact frame_polled k s
  · exact ((frame_polled k s).trans (frame_counted1 _)).trans ((frame_respond_zero _).mono (by decide))

theorem frame_getResponse (n : Nat) : Keeps (Frame [.sel, .pollCount, .lastCts, .respBuf]) (getResponse n) := fun s =>
  ((frame_beginHandshake s).mono (by decide)).trans (frame_pollLoop n _ _)

/-- Keeping a frame does not depend on the value a part ends with. -/
theorem Keeps.discard {α : Type} {w : List Reg} {f : State → Flow α} (h : Keeps (Frame w) f) :
    Keeps (Frame w) (fun s => (f s).bind fun _ t => .ok () t) :=
  Keeps.bind (Frame.composes w) h fun _ s => Frame.refl w s

theorem frame_waitForCts : Keeps (Frame [.sel, .pollCount, .lastCts]) waitForCts :=
  Keeps.discard fun s => ((frame_beginHandshake s).mono (by decide)).trans (frame_pollLoop_zero _ _)

/-- The registers of one command frame with its handshake. -/
abbrev cmdRegs : List Reg := [.sel, .cmdBuf, .pollCount, .lastCts]

theorem frame_pair {w : List Reg} {f g : Step} (hf : Keeps (Frame w) f) (hg : Keeps (Frame w) g) :
    Keeps (Frame w) (chain [f, g]) :=
  Keeps.chain (Frame.composes w) (by simp [hf, hg])

theorem frame_cmdWait (f : List Byte) : Keeps (Frame cmdRegs) (cmdWait f) :=
  frame_pair ((frame_sendCommand f).mono (by decide)) (frame_waitForCts.mono (by decide))

theorem frame_configWait (f : List Byte) : Keeps (Frame cmdRegs) (configWait f) :=
  frame_pair ((frame_sendFrom _ f).mono (by decide)) (frame_waitForCts.mono (by decide))

theorem frame_setProperty (g o : Byte) (d : List Byte) : Keeps (Frame cmdRegs) (setProperty g o d) :=
  frame_cmdWait (propFrame g o d)

theorem frame_readRxFifo (n : Nat) : Keeps (Frame [.sel]) (readRxFifo n) := by
  intro s
  constructor <;> intros <;> simp_all [readRxFifo, openRxRead]

theorem frame_writeTxFifo (d : List Byte) : Keeps (Frame [.sel]) (writeTxFifo d) := frame_writeWindow _

/-- The registers of a replay. -/
abbrev replayRegs : List Reg := [.sel, .cmdBuf, .pollCount, .lastCts, .cursor]

theorem frame_cursor {w : List Reg} (h : Reg.cursor ∈ w) (n : Nat) (s : State) : Frame w s { s with cursor := n } := by
  constructor <;> intros <;> first | rfl | exact absurd h ‹_›

theorem frame_replayRecord (src : FrameSource) (n : Nat) (f : List Byte) :
    Keeps (Frame replayRegs) (replayRecord src n f) := by
  refine Keeps.chain (Frame.composes _) ?_
  simp only [List.mem_cons, List.not_mem_nil, or_false, forall_eq_or_imp, forall_eq]
  exact ⟨(frame_sendFrom src f).mono (by decide), frame_waitForCts.mono (by decide),
    fun s => frame_cursor (by decide) _ s⟩

theorem frame_replayLoop (src : FrameSource) (t : List Byte) (fuel : Nat) :
    Keeps (Frame replayRegs) (replayLoop src t fuel) := by
  induction fuel with
  | zero => exact Frame.refl _
  | succ fuel ih =>
    intro s
    unfold replayLoop
    split
    · split
      · exact Frame.refl _ s
      · split
        · exact Keeps.bind (Frame.composes _) (frame_replayRecord _ _ _) (fun _ => ih) s
        · exact Frame.refl _ s
    · exact Frame.refl _ s

theorem frame_replay (t : List Byte) : Keeps (Frame replayRegs) (replay t) := by
  refine Keeps.bind (Frame.composes _)
    (f := fun s => replayLoop (tableSource s.cfg t) t (t.length + 1) { s with cursor := 0 }) ?_
    fun _ s => frame_noteReplayed _ t s
  exact fun s => (frame_cursor (by decide) 0 s).trans (frame_replayLoop _ t _ _)

/-- The registers of an operation that reads a response. -/
abbrev respRegs : List Reg := [.sel, .cmdBuf, .pollCount, .lastCts, .respBuf]

theorem frame_clearIntsSteps (c : Config) : ∀ f ∈ clearIntsSteps c, Keeps (Frame respRegs) f := by
  simp only [clearIntsSteps, List.mem_cons, List.not_mem_nil, or_false, forall_eq_or_imp, forall_eq]
  exact ⟨(frame_sendCommand _).mono (by decide), (frame_getResponse _).discard.mono (by decide)⟩

theorem frame_clearInterrupts : Keeps (Frame respRegs) clearInterrupts := fun s =>
  Keeps.chain (Frame.composes _) (frame_clearIntsSteps s.cfg) s

/-- The registers of POWER_UP. -/
abbrev powerRegs : List Reg := [.sel, .rst, .cmdBuf, .pollCount, .lastCts, .respBuf]

theorem frame_setRst (b : Bool) (s : State) : Frame [.rst] s (setRst b s) := by constructor <;> intros <;> simp_all

theorem frame_delayUs (w : List Reg) (n : Nat) (s : State) : Frame w s (delayUs n s) := by
  constructor <;> intros <;> simp

theorem frame_delayMs (w : List Reg) (n : Nat) (s : State) : Frame w s (delayMs n s) := by
  constructor <;> intros <;> simp

theorem frame_powerUpSteps (c : Config) : ∀ f ∈ powerUpSteps c, Keeps (Frame powerRegs) f := by
  simp only [powerUpSteps, List.mem_cons, List.not_mem_nil, or_false, forall_eq_or_imp, forall_eq]
  exact ⟨fun s => (frame_setRst true s).mono (by decide), fun s => frame_delayUs _ _ s,
    fun s => (frame_setRst false s).mono (by decide), fun s => frame_delayMs _ _ s,
    (frame_sendCommand _).mono (by decide), frame_waitForCts.mono (by decide), frame_clearInterrupts.mono (by decide)⟩

theorem frame_powerUp : Keeps (Frame powerRegs) powerUp := fun s =>
  Keeps.chain (Frame.composes _) (frame_powerUpSteps s.cfg) s

theorem frame_planSteps (plan : List PlanEntry) (p : List Byte) : ∀ f ∈ planSteps plan p, Keeps (Frame cmdRegs) f := by
  intro f hf
  obtain ⟨e, -, rfl⟩ := List.mem_map.1 hf
  exact frame_setProperty _ _ _

theorem frame_setFrequency (p : List Byte) : Keeps (Frame cmdRegs) (setFrequency p) := fun s =>
  Keeps.chain (Frame.composes _) (frame_planSteps s.cfg.freqPlan p) s

theorem frame_setPower (p : List Byte) : Keeps (Frame cmdRegs) (setPower p) := fun s =>
  Keeps.chain (Frame.composes _) (frame_planSteps s.cfg.powerPlan p) s

theorem frame_standby : Keeps (Frame [.sel, .cmdBuf]) standby := fun s => frame_sendCommand _ s

/-- The registers of a bring-up. -/
abbrev bringupRegs : List Reg := [.sel, .rst, .cmdBuf, .pollCount, .lastCts, .respBuf, .cursor]

theorem frame_configWaits (fs : List (List Byte)) : ∀ f ∈ fs.map configWait, Keeps (Frame cmdRegs) f := by
  intro f hf
  obtain ⟨l, -, rfl⟩ := List.mem_map.1 hf
  exact frame_configWait l

theorem frame_bringup : Keeps (Frame bringupRegs) bringup := by
  intro s
  refine Keeps.chain (Frame.composes _) (fs := bringupSteps s.cfg) ?_ s
  intro f hf
  simp only [bringupSteps, List.mem_append, List.mem_cons, List.not_mem_nil, or_false] at hf
  rcases hf with ((rfl | rfl | rfl | rfl) | hf) | rfl | rfl
  · exact frame_powerUp.mono (by decide)
  · exact (frame_replay _).mono (by decide)
  · exact (frame_setFrequency _).mono (by decide)
  · exact (frame_setPower _).mono (by decide)
  · exact (frame_configWaits _ f hf).mono (by decide)
  · exact (frame_cmdWait _).mono (by decide)
  · exact frame_clearInterrupts.mono (by decide)

theorem frame_enterSteps (fs : List (List Byte)) (last : List Byte) :
    ∀ f ∈ bringup :: (fs.map configWait ++ [cmdWait last]), Keeps (Frame bringupRegs) f := by
  intro f hf
  simp only [List.mem_cons, List.mem_append, List.not_mem_nil, or_false] at hf
  rcases hf with rfl | hf | rfl
  · exact frame_bringup
  · exact (frame_configWaits _ f hf).mono (by decide)
  · exact (frame_cmdWait _).mono (by decide)

/-- The registers of TRY_RECEIVE. -/
abbrev receiveRegs : List Reg := [.sel, .irq, .cmdBuf, .pollCount, .lastCts, .rxValid, .respBuf, .rxStage]

theorem frame_sampleIrq (s : State) : Frame [.irq] s (sampleIrq s) := by constructor <;> intros <;> simp_all

theorem frame_stage {w : List Reg} (h1 : Reg.rxStage ∈ w) (h2 : Reg.rxValid ∈ w) (b : Buffer) (s : State) :
    Frame w s { s with rxStage := b, rxValid := true } := by
  constructor <;> intros <;> first | rfl | exact absurd h1 ‹_› | exact absurd h2 ‹_›

theorem frame_stageFrame : Keeps (Frame [.sel, .rxStage, .rxValid]) stageFrame :=
  Keeps.bind (Frame.composes _) ((frame_readRxFifo Literal.frameLen).mono (by decide)) fun _ s =>
    frame_stage (by decide) (by decide) _ s

theorem frame_handOff : Keeps (Frame [.rxValid]) handOff := by
  intro s
  unfold handOff
  split <;> constructor <;> intros <;> simp_all

theorem frame_receiveSteps : ∀ f ∈ receiveSteps, Keeps (Frame receiveRegs) f := by
  simp only [receiveSteps, List.mem_cons, List.not_mem_nil, or_false, forall_eq_or_imp, forall_eq]
  exact ⟨frame_stageFrame.mono (by decide), (frame_cmdWait _).mono (by decide), frame_clearInterrupts.mono (by decide),
    (frame_cmdWait _).mono (by decide)⟩

theorem frame_tryReceive : Keeps (Frame receiveRegs) tryReceive := by
  intro s
  have h1 : Frame receiveRegs s (stepDone (sampleIrq s)) :=
    ((frame_sampleIrq s).mono (by decide)).trans (frame_stepDone _ _)
  unfold tryReceive
  dsimp only
  split
  · refine h1.trans (Keeps.bind (Frame.composes _) ?_ (fun _ => frame_handOff.mono (by decide)) _)
    exact Keeps.counted (Frame.composes _) (frame_stepDone _) frame_receiveSteps
  · exact h1

/-- The registers of SEND_FRAME. -/
abbrev sendRegs : List Reg := [.sel, .irq, .cmdBuf, .pollCount, .lastCts, .respBuf]

theorem frame_clearIfAsserted : Keeps (Frame respRegs) clearIfAsserted := by
  intro s
  unfold clearIfAsserted
  split
  · exact frame_clearInterrupts s
  · exact Frame.refl _ s

theorem frame_sendFrameSteps (f : List Byte) : ∀ g ∈ sendFrameSteps f, Keeps (Frame sendRegs) g := by
  simp only [sendFrameSteps, List.mem_cons, List.not_mem_nil, or_false, forall_eq_or_imp, forall_eq]
  exact ⟨frame_standby.mono (by decide), (frame_writeTxFifo f).mono (by decide), frame_waitForCts.mono (by decide),
    fun s => (frame_sampleIrq s).mono (by decide), frame_clearIfAsserted.mono (by decide),
    (frame_sendCommand _).mono (by decide)⟩

/-! ### The body of a host operation -/

theorem frame_body {w : List Reg} {fs : List Step} (h : ∀ f ∈ fs, Keeps (Frame w) f) :
    Keeps (Frame w) (fun t => (chain (counted fs) t).bind fun _ u => .ok Result.ok u) :=
  Keeps.bind (Frame.composes w) (Keeps.counted (Frame.composes w) (frame_stepDone w) h) fun _ s => Frame.refl w s

end Sys2Proof.Machine
end

