-- ==== Sys2Proof/Laws/Decode.lean ====
section
/-! SUPPORT. What the decoders and encoders do: 16-bit fields, argument lists, and the opcodes' distinctness. -/

namespace Sys2Proof

/-! ### 16-bit fields -/

theorem half_hi8_lo8 (v : Half) : half (hi8 v) (lo8 v) = v := by
  apply BitVec.eq_of_toNat_eq
  simp only [half, hi8, lo8, BitVec.toNat_append, BitVec.extractLsb'_toNat, Nat.shiftRight_zero]
  have hv := v.isLt
  rw [← Nat.shiftLeft_add_eq_or_of_lt (Nat.mod_lt _ (by decide)), Nat.shiftLeft_eq, Nat.shiftRight_eq_div_pow]
  omega

theorem hi8_half (hi lo : Byte) : hi8 (half hi lo) = hi := by
  apply BitVec.eq_of_toNat_eq
  simp only [half, hi8, BitVec.toNat_append, BitVec.extractLsb'_toNat]
  have h1 := hi.isLt
  have h2 := lo.isLt
  rw [← Nat.shiftLeft_add_eq_or_of_lt (by omega), Nat.shiftLeft_eq, Nat.shiftRight_eq_div_pow]
  omega

theorem lo8_half (hi lo : Byte) : lo8 (half hi lo) = lo := by
  apply BitVec.eq_of_toNat_eq
  simp only [half, lo8, BitVec.toNat_append, BitVec.extractLsb'_toNat, Nat.shiftRight_zero]
  have h1 := hi.isLt
  have h2 := lo.isLt
  rw [← Nat.shiftLeft_add_eq_or_of_lt (by omega), Nat.shiftLeft_eq]
  omega

/-! ### Arguments -/

theorem byteArg_toNat (b : Byte) : byteArg b.toNat = .ok b := by simp [byteArg, b.isLt]

theorem halfArg_toNat (v : Half) : halfArg v.toNat = .ok v := by simp [halfArg, v.isLt]

theorem bytesArg_toNat (l : List Byte) : bytesArg (l.map BitVec.toNat) = .ok l := by
  unfold bytesArg
  rw [if_pos]
  · congr 1
    induction l with
    | nil => rfl
    | cons b l ih => simp [ih]
  · simp only [List.all_map, List.all_eq_true, Function.comp_apply, decide_eq_true_eq]
    exact fun b _ => b.isLt

theorem byteArg_ok {n : Nat} {b : Byte} (h : byteArg n = .ok b) : b.toNat = n := by
  unfold byteArg at h
  split at h
  · injection h with h
    subst h
    simp; omega
  · cases h

theorem halfArg_ok {n : Nat} {v : Half} (h : halfArg n = .ok v) : v.toNat = n := by
  unfold halfArg at h
  split at h
  · injection h with h
    subst h
    simp; omega
  · cases h

theorem bytesArg_ok {l : List Nat} {bs : List Byte} (h : bytesArg l = .ok bs) : bs.map BitVec.toNat = l := by
  unfold bytesArg at h
  split at h
  · rename_i hl
    injection h with h
    subst h
    simp only [List.all_eq_true, decide_eq_true_eq] at hl
    rw [List.map_map]
    conv_rhs => rw [← List.map_id l]
    refine List.map_congr_left fun n hn => ?_
    simpa using Nat.mod_eq_of_lt (hl n hn)
  · cases h

/-! ### Opcodes -/

theorem Config.admitted_parts {c : Config} (h : c.admitted = true) :
    c.boundsOk = true ∧ c.opcodesDistinct = true ∧ c.dataOk = true := by
  simpa [Config.admitted, and_assoc] using h

/-- The parameter opcodes differ from the fixed ones and from each other (R128). -/
structure Config.Distinct (c : Config) : Prop where
  poll : c.opReadCmdBuff ∉ [Literal.opSetProperty, Literal.opFifoReset, Literal.opStartTx, Literal.opStartRx,
    Literal.opWriteTxFifo, Literal.opReadRxFifo]
  status : c.opGetIntStatus ∉ [Literal.opSetProperty, Literal.opFifoReset, Literal.opStartTx, Literal.opStartRx,
    Literal.opWriteTxFifo, Literal.opReadRxFifo, c.opReadCmdBuff]
  state : c.opChangeState ∉ [Literal.opSetProperty, Literal.opFifoReset, Literal.opStartTx, Literal.opStartRx,
    Literal.opWriteTxFifo, Literal.opReadRxFifo, c.opReadCmdBuff, c.opGetIntStatus]
  power : c.powerUpFrame.headD 0 ∉ [Literal.opSetProperty, Literal.opFifoReset, Literal.opStartTx, Literal.opStartRx,
    Literal.opWriteTxFifo, Literal.opReadRxFifo, c.opReadCmdBuff, c.opGetIntStatus, c.opChangeState]

theorem Config.distinct {c : Config} (h : c.admitted = true) : c.Distinct := by
  have h : c.opcodes.Nodup := of_decide_eq_true (Config.admitted_parts h).2.1
  unfold Config.opcodes at h
  have hp := List.nodup_reverse.2 h
  simp only [List.reverse_cons, List.reverse_nil, List.nil_append, List.cons_append, List.nodup_cons] at hp
  constructor <;> simp only [List.mem_cons, List.not_mem_nil, or_false, not_or] at hp ⊢ <;> tauto

/-! ### Wire frames -/

theorem allDummy_replicate (n : Nat) : allDummy (List.replicate n Literal.dummyByte) = true := by
  simp [allDummy]

theorem allDummy_eq {l : List Byte} (h : allDummy l = true) : l = List.replicate l.length Literal.dummyByte := by
  simp only [allDummy, List.all_eq_true, decide_eq_true_eq] at h
  exact List.eq_replicate_of_mem h

theorem decodeFrame_propWrite (c : Config) (l : List Byte) :
    decodeFrame c (Literal.opSetProperty :: l) = decodePropWrite l := rfl
theorem decodeFrame_fifoReset (c : Config) (l : List Byte) :
    decodeFrame c (Literal.opFifoReset :: l) = decodeOneByte .wireFifoReset l := rfl
theorem decodeFrame_startTx (c : Config) (l : List Byte) :
    decodeFrame c (Literal.opStartTx :: l) = decodeWireStartTx l := rfl
theorem decodeFrame_startRx (c : Config) (l : List Byte) :
    decodeFrame c (Literal.opStartRx :: l) = decodeWireStartRx l := rfl
theorem decodeFrame_readRx (c : Config) (l : List Byte) :
    decodeFrame c (Literal.opReadRxFifo :: l) = decodeWireReadRx l := rfl

theorem decodeFrame_poll {c : Config} (h : c.Distinct) (l : List Byte) :
    decodeFrame c (c.opReadCmdBuff :: l) = decodeWirePoll l := by
  have := h.poll
  simp only [List.mem_cons, List.not_mem_nil, or_false, not_or] at this
  simp only [decodeFrame, this, if_false, if_true]

theorem decodeFrame_status {c : Config} (h : c.Distinct) (l : List Byte) :
    decodeFrame c (c.opGetIntStatus :: l) = .ok (.wireGetIntStatus l) := by
  have := h.status
  simp only [List.mem_cons, List.not_mem_nil, or_false, not_or] at this
  simp only [decodeFrame, this, if_false, if_true]

theorem decodeFrame_state {c : Config} (h : c.Distinct) (l : List Byte) :
    decodeFrame c (c.opChangeState :: l) = decodeOneByte .wireChangeState l := by
  have := h.state
  simp only [List.mem_cons, List.not_mem_nil, or_false, not_or] at this
  simp only [decodeFrame, this, if_false, if_true]

theorem decodeFrame_power {c : Config} (h : c.Distinct) (l : List Byte) :
    decodeFrame c (c.powerUpFrame.headD 0 :: l) = .ok (.wirePowerUp l) := by
  have := h.power
  simp only [List.mem_cons, List.not_mem_nil, or_false, not_or] at this
  simp only [decodeFrame, this, if_false, if_true]

end Sys2Proof
end

