-- ==== Sys2Proof/Laws/PerInstr.lean ====
section
/-! SUPPORT. One lemma per instruction: decoding the item it is encoded as gives the instruction back, expanded if it is a
pseudo-instruction. -/

namespace Sys2Proof.Laws.RoundTrip

/-- What an admitted configuration's decoder makes of the instruction's own encoding. -/
def Statement (i : Instr) : Prop := ∀ c : Config, c.Distinct → decode c (encode c i) = .ok i.expand

theorem waitCts : Statement .waitCts := fun _ _ => rfl
theorem sendCmd (f : List Byte) : Statement (.sendCmd f) := fun c _ => by
  simp [encode, decode, decodeRequest, decodeList, listArg, bytesArg_toNat, Except.map, Instr.expand]
theorem getResp (n : Nat) : Statement (.getResp n) := fun _ _ => rfl
theorem readRxFifo (n : Nat) : Statement (.readRxFifo n) := fun _ _ => rfl
theorem writeTxFifo (d : List Byte) : Statement (.writeTxFifo d) := fun c _ => by
  simp [encode, decode, decodeRequest, decodeList, listArg, bytesArg_toNat, Except.map, Instr.expand]
theorem setProperty (g o : Byte) (d : List Byte) : Statement (.setProperty g o d) := fun c _ => by
  simp [encode, decode, decodeRequest, decodeSetProperty, listArg, numArg, byteArg_toNat, bytesArg_toNat, Except.map,
    Except.bind, Instr.expand]
theorem replay (t : List Byte) : Statement (.replay t) := fun c _ => by
  simp [encode, decode, decodeRequest, decodeList, listArg, bytesArg_toNat, Except.map, Instr.expand]
theorem powerUp : Statement .powerUp := fun _ _ => rfl
theorem clearInts : Statement .clearInts := fun _ _ => rfl
theorem setFreq (p : List Byte) : Statement (.setFreq p) := fun c _ => by
  simp [encode, decode, decodeRequest, decodeList, listArg, bytesArg_toNat, Except.map, Instr.expand]
theorem setPower (p : List Byte) : Statement (.setPower p) := fun c _ => by
  simp [encode, decode, decodeRequest, decodeList, listArg, bytesArg_toNat, Except.map, Instr.expand]
theorem startTx (ch cond : Byte) (len : Half) : Statement (.startTx ch cond len) := fun c _ => by
  simp [encode, decode, decodeRequest, decodeStartTx, numArg, byteArg_toNat, halfArg_toNat, Except.map, Except.bind,
    Instr.expand]
theorem startRx (ch cond : Byte) (len : Half) (t v x : Byte) : Statement (.startRx ch cond len t v x) := fun c _ => by
  simp [encode, decode, decodeRequest, decodeStartRx, numArg, byteArg_toNat, halfArg_toNat, Except.map, Except.bind,
    Instr.expand]
theorem resetFifo (sub : Byte) : Statement (.resetFifo sub) := fun c _ => by
  simp [encode, resetFifoRequest, decode, decodeRequest, decodeByte, numArg, byteArg_toNat, Except.map, Instr.expand]
theorem standby : Statement .standby := fun _ _ => rfl
theorem enterRx : Statement .enterRx := fun _ _ => rfl
theorem enterTx : Statement .enterTx := fun _ _ => rfl
theorem tryReceive : Statement .tryReceive := fun _ _ => rfl
theorem sendFrame (f : List Byte) : Statement (.sendFrame f) := fun c _ => by
  simp [encode, decode, decodeRequest, decodeList, listArg, bytesArg_toNat, Except.map, Instr.expand]
theorem readRssi : Statement .readRssi := fun _ _ => rfl
theorem wirePropWrite (g n o : Byte) (d : List Byte) : Statement (.wirePropWrite g n o d) := fun _ _ => rfl
theorem wireFifoReset (sub : Byte) : Statement (.wireFifoReset sub) := fun _ _ => rfl
theorem wireStartTx (ch cond : Byte) (len : Half) : Statement (.wireStartTx ch cond len) := fun c _ => by
  simp [encode, encodeFrame, decode, decodeFrame_startTx, decodeWireStartTx, half_hi8_lo8, Instr.expand]
theorem wireStartRx (ch cond : Byte) (len : Half) (t v x : Byte) : Statement (.wireStartRx ch cond len t v x) :=
  fun c _ => by simp [encode, encodeFrame, decode, decodeFrame_startRx, decodeWireStartRx, half_hi8_lo8, Instr.expand]
theorem wireWriteTxFifo (d : List Byte) : Statement (.wireWriteTxFifo d) := fun _ _ => rfl
theorem wireReadRxFifo (n : Nat) : Statement (.wireReadRxFifo n) := fun c _ => by
  simp [encode, encodeFrame, decode, decodeFrame_readRx, decodeWireReadRx, allDummy_replicate, Instr.expand]
theorem wireReadCmdBuff (n : Nat) : Statement (.wireReadCmdBuff n) := fun c h => by
  have := allDummy_replicate (n + 1)
  simp only [encode, encodeFrame, decode, decodeFrame_poll h, Instr.expand]
  rw [List.replicate_succ] at this ⊢
  simp [decodeWirePoll, this]
theorem wireGetIntStatus (a : List Byte) : Statement (.wireGetIntStatus a) := fun c h => by
  simp only [encode, encodeFrame, decode, decodeFrame_status h, Instr.expand]
theorem wireChangeState (code : Byte) : Statement (.wireChangeState code) := fun c h => by
  simp only [encode, encodeFrame, decode, decodeFrame_state h, Instr.expand, decodeOneByte]
theorem wirePowerUp (a : List Byte) : Statement (.wirePowerUp a) := fun c h => by
  simp only [encode, encodeFrame, decode, decodeFrame_power h, Instr.expand]
theorem resetTxFifo : Statement .resetTxFifo := fun _ _ => rfl
theorem resetRxFifo : Statement .resetRxFifo := fun _ _ => rfl
theorem resetBothFifos : Statement .resetBothFifos := fun _ _ => rfl
theorem rearmRx : Statement .rearmRx := fun _ _ => rfl

end Sys2Proof.Laws.RoundTrip
end

