-- ==== Sys2Proof/Laws/Table.lean ====
section
/-! SUPPORT. Configuration tables: the framing of an admitted table, and the replayer as the plain sequence of its records
(spec R185, R186). -/

namespace Sys2Proof.Machine

/-- A framed table is longer than its number of records. -/
theorem tableRecordsFuel_length {k : Nat} {t : List Byte} {fs : List (List Byte)}
    (h : tableRecordsFuel k t = some fs) : fs.length < t.length := by
  induction k generalizing t fs with
  | zero => simp [tableRecordsFuel] at h
  | succ k ih =>
    cases t with
    | nil => simp [tableRecordsFuel] at h
    | cons l rest =>
      unfold tableRecordsFuel at h
      split at h
      · injection h with h
        subst h
        simp
      · split at h
        · obtain ⟨gs, hg, rfl⟩ := Option.map_eq_some_iff.1 h
          have := ih hg
          simp at this ⊢
          omega
        · cases h

theorem memRead_of_drop {t rest : List Byte} {a n : Nat} {l : Byte} (h : t.drop a = l :: rest) (hn : n ≤ rest.length) :
    memRead t a 1 = some [l] ∧ memRead t (a + 1) n = some (rest.take n) := by
  have hlen := congrArg List.length h
  simp at hlen
  have hd : t.drop (a + 1) = rest := by rw [← List.drop_drop, h]; rfl
  constructor
  · unfold memRead
    rw [if_pos (by omega), h]
    rfl
  · unfold memRead
    rw [if_pos (by omega), hd]

/-- A completed record moves the cursor past itself (R182). -/
theorem replayRecord_cursor {src : FrameSource} {n : Nat} {f : List Byte} {s t : State}
    (h : replayRecord src n f s = .ok () t) :
    t.cursor = s.cursor + n + 1 := by
  unfold replayRecord at h
  rcases sendFrom_cases src f s with ⟨-, hs⟩ | ⟨-, hs⟩
  · rw [chain_ok hs] at h
    have hf := frame_waitForCts (writeWindow f (loadCmd src f s))
    cases hw : waitForCts (writeWindow f (loadCmd src f s)) with
    | ok u v =>
      rw [chain_ok hw] at h
      rw [hw] at hf
      have hc : v.cursor = s.cursor := by simpa using hf.cursor (by decide)
      simp only [chain, lift, Flow.bind_ok, Flow.ok.injEq, true_and] at h
      rw [← h, ← hc]
    | timeout m v => rw [chain_timeout hw] at h; cases h
    | fault v => simp [chain, hw] at h
  · simp [chain, hs] at h

/-- The steps of a table's records. -/
def recordSteps (src : FrameSource) (fs : List (List Byte)) : List Step := fs.map fun f => replayRecord src f.length f

/-- On a framed table the record loop is the sequence of the table's records (R186). -/
theorem replayLoop_eq {src : FrameSource} {t : List Byte} {fuel k : Nat} {fs : List (List Byte)} {s : State}
    (h : tableRecordsFuel k (t.drop s.cursor) = some fs) (hf : fs.length < fuel) :
    replayLoop src t fuel s = chain (recordSteps src fs) s := by
  induction fuel generalizing k fs s with
  | zero => omega
  | succ fuel ih =>
    cases k with
    | zero => simp [tableRecordsFuel] at h
    | succ k =>
      cases hd : t.drop s.cursor with
      | nil => rw [hd] at h; simp [tableRecordsFuel] at h
      | cons l rest =>
        rw [hd] at h
        unfold tableRecordsFuel at h
        unfold replayLoop
        split at h
        · rename_i hl
          injection h with h
          subst h
          rw [(memRead_of_drop hd (Nat.zero_le _)).1]
          simp [hl, recordSteps, chain]
        · rename_i hl
          split at h
          · rename_i hlen
            obtain ⟨gs, hg, rfl⟩ := Option.map_eq_some_iff.1 h
            obtain ⟨h1, h2⟩ := memRead_of_drop hd hlen
            rw [h1]
            simp only [hl, if_false, h2]
            have hl' : (rest.take l.toNat).length = l.toNat := by simp [hlen]
            simp only [recordSteps, List.map_cons, chain, hl']
            cases hr : replayRecord src l.toNat (rest.take l.toNat) s with
            | ok u v =>
              have hc := replayRecord_cursor hr
              have hdrop : t.drop v.cursor = rest.drop l.toNat := by
                rw [hc, Nat.add_assoc, ← List.drop_drop, hd, List.drop_succ_cons]
              exact ih (hdrop ▸ hg) (by simpa using hf)
            | timeout m v => rfl
            | fault v => rfl
          · cases h

/-- The offset of the terminator behind the records `fs`: each takes its length byte and its frame (R185). -/
def terminatorAt (fs : List (List Byte)) : Nat := (fs.map fun f => f.length + 1).sum

/-- Behind its records a framed table has its terminator (R185 (b)). -/
theorem terminatorAt_zero {k : Nat} {t : List Byte} {fs : List (List Byte)} (h : tableRecordsFuel k t = some fs) :
    t[terminatorAt fs]? = some 0 := by
  induction k generalizing t fs with
  | zero => simp [tableRecordsFuel] at h
  | succ k ih =>
    cases t with
    | nil => simp [tableRecordsFuel] at h
    | cons l rest =>
      unfold tableRecordsFuel at h
      split at h
      · rename_i hl
        injection h with h
        subst h
        simp [terminatorAt, hl]
      · split at h
        · rename_i hlen
          obtain ⟨gs, hg, rfl⟩ := Option.map_eq_some_iff.1 h
          have := ih hg
          simp only [terminatorAt, List.map_cons, List.sum_cons, List.length_take, Nat.min_eq_left hlen]
          rw [List.getElem?_drop] at this
          rw [show l.toNat + 1 + (List.map (fun f => f.length + 1) gs).sum = l.toNat + terminatorAt gs + 1 from by
            unfold terminatorAt; omega, List.getElem?_cons_succ]
          exact this
        · cases h

/-- An admitted table is framed, and its frames fit the command buffer (R185). -/
theorem tableWF_records {cap : Nat} {t : List Byte} (h : tableWF cap t = true) :
    ∃ fs, tableRecords t = some fs ∧ ∀ f ∈ fs, f.length ≤ cap := by
  unfold tableWF at h
  split at h
  · rename_i fs hfs
    exact ⟨fs, hfs, by simpa using h⟩
  · cases h

/-- `replay(T)` of a framed table (R180, R186). -/
theorem replay_eq {t : List Byte} {fs : List (List Byte)} (h : tableRecords t = some fs) (s : State) :
    replay t s = (chain (recordSteps (tableSource s.cfg t) fs) { s with cursor := 0 }).bind fun _ u => .ok () (noteReplayed t u) := by
  unfold replay
  rw [replayLoop_eq (s := { s with cursor := 0 }) (k := t.length + 1) h]
  exact Nat.lt_succ_of_lt (tableRecordsFuel_length h)

end Sys2Proof.Machine
end

