-- ==== Sys2Proof/Laws/Sim.lean ====
section
/-! SUPPORT. SimChip (spec R68): what one handshake does against it, and that a SimChip which always returns ready stays so
through everything the engine does. -/

namespace Sys2Proof.Machine

/-! ### The agent's functions under the law `sim` -/

variable {a : Agent} (c : Config)

theorem turn_sim (h : a.law = .sim) : a.turn c = a := by simp [Agent.turn, h]

theorem onSel_sim (h : a.law = .sim) : a.onSel c = { a with window := [] } := by rw [Agent.onSel, turn_sim c h]

theorem onExchange_sim (h : a.law = .sim) (m : Byte) :
    a.onExchange c m = ((a.sim.answer c a.window).1, { a with sim := (a.sim.answer c a.window).2, window := a.window ++ [m] }) := by
  simp [Agent.onExchange, turn_sim c h, h]

theorem onDesel_sim (h : a.law = .sim) : a.onDesel c = { a with sim := a.sim.close a.window, window := [] } := by
  simp [Agent.onDesel, turn_sim c h, h]

theorem onRst_sim (h : a.law = .sim) (b : Bool) : a.onRst c b = a := by simp [Agent.onRst, turn_sim c h, h]
theorem onDelayUs_sim (h : a.law = .sim) : a.onDelayUs c = a := turn_sim c h
theorem onDelayMs_sim (h : a.law = .sim) (n : Nat) : a.onDelayMs c n = a := by simp [Agent.onDelayMs, turn_sim c h, h]
theorem onSample_sim (h : a.law = .sim) : a.onSample c = (a.sim.sample.1, { a with sim := a.sim.sample.2 }) := by
  simp [Agent.onSample, turn_sim c h, h]
theorem onHandshake_sim (h : a.law = .sim) : a.onHandshake = { a with sim := a.sim.handshake } := by
  simp [Agent.onHandshake, h]
theorem onRequest_sim (h : a.law = .sim) (i : Instr) : a.onRequest i = a := by simp [Agent.onRequest, h]
theorem onEnd_sim (h : a.law = .sim) : a.onEnd = a := by simp [Agent.onEnd, h]
theorem onTimeout_sim (h : a.law = .sim) : a.onTimeout = { a with sim := { a.sim with current := none } } := by
  simp [Agent.onTimeout, h]
theorem onReplayed_sim (h : a.law = .sim) : a.onReplayed = a := by simp [Agent.onReplayed, h]

/-! ### The entries of `busy` still to come -/

theorem answer_busy (w : List Byte) (h : SimChip) : (h.answer c w).2.busy = h.busy := by
  unfold SimChip.answer SimChip.read SimChip.poll
  split
  · rfl
  · split
    · split <;> rfl
    · split
      · split <;> rfl
      · rfl

theorem close_busy (w : List Byte) (h : SimChip) : (h.close w).busy = h.busy := by
  unfold SimChip.close
  split
  · rfl
  · split <;> rfl

theorem sample_busy (h : SimChip) : h.sample.2.busy = h.busy := by
  unfold SimChip.sample
  split <;> rfl

/-- The chip is SimChip, and `l` is what is left of `busy`. -/
def Left (l : List (Option Nat)) (s : State) : Prop := s.agent.law = .sim ∧ s.agent.sim.busy = l

variable {l : List (Option Nat)} {s : State}

theorem alwaysReady_iff : AlwaysReady s ↔ Left [] s := Iff.rfl

theorem Left.selOn (h : Left l s) : Left l (selOn s) := by
  unfold Left; rw [selOn_agent, onSel_sim _ h.1]; exact h

theorem Left.xfer (h : Left l s) (m : Byte) : Left l (xfer m s) := by
  unfold Left; rw [xfer_agent, onExchange_sim _ h.1]; exact ⟨h.1, (answer_busy _ _ _).trans h.2⟩

theorem Left.selOff (h : Left l s) : Left l (selOff s) := by
  unfold Left; rw [selOff_agent, onDesel_sim _ h.1]; exact ⟨h.1, (close_busy _ _).trans h.2⟩

theorem Left.setRst (h : Left l s) (b : Bool) : Left l (setRst b s) := by
  unfold Left; rw [setRst_agent, onRst_sim _ h.1]; exact h

theorem Left.delayUs (h : Left l s) (n : Nat) : Left l (delayUs n s) := by
  unfold Left; rw [delayUs_agent, onDelayUs_sim _ h.1]; exact h

theorem Left.delayMs (h : Left l s) (n : Nat) : Left l (delayMs n s) := by
  unfold Left; rw [delayMs_agent, onDelayMs_sim _ h.1]; exact h

theorem Left.sampleIrq (h : Left l s) : Left l (sampleIrq s) := by
  unfold Left; rw [sampleIrq_agent, onSample_sim _ h.1]; exact ⟨h.1, (sample_busy _).trans h.2⟩

theorem Left.writeBytes (h : Left l s) (bs : List Byte) : Left l (writeBytes bs s) := by
  induction bs generalizing s with
  | nil => exact h
  | cons m ms ih => exact ih (h.xfer m)

theorem Left.afterReads (h : Left l s) (n : Nat) : Left l (afterReads n s) := by
  induction n generalizing s with
  | zero => exact h
  | succ n ih => exact ih (h.xfer _)

theorem Left.writeWindow (h : Left l s) (bs : List Byte) : Left l (writeWindow bs s) := (h.selOn.writeBytes bs).selOff

theorem Left.askCts (h : Left l s) : Left l (askCts s) := (h.selOn.xfer _).xfer _

/-! ### One handshake -/

/-- The chip is SimChip, with `k` busy polls left in the handshake at hand. -/
def BusyLeft (k : Option Nat) (s : State) : Prop := s.agent.law = .sim ∧ s.agent.sim.current = k

/-- A poll asks SimChip once, and its byte is SimChip's answer to a poll. -/
theorem askCts_sim (h : s.agent.law = .sim) (hd : s.cfg.opReadCmdBuff ≠ Literal.opReadRxFifo) :
    (askCts s).lastCts = some s.agent.sim.poll.1 ∧
      (askCts s).agent = { s.agent with sim := s.agent.sim.poll.2
                                        window := [s.cfg.opReadCmdBuff, Literal.dummyByte] } := by
  have h1 : (Machine.selOn s).agent = { s.agent with window := [] } := onSel_sim _ h
  have h2 : (Machine.xfer s.cfg.opReadCmdBuff (Machine.selOn s)).agent = { s.agent with window := [s.cfg.opReadCmdBuff] } := by
    rw [xfer_agent, onExchange_sim _ (by rw [h1]; exact h), h1]
    rfl
  have h3 : (Machine.xfer s.cfg.opReadCmdBuff (Machine.selOn s)).agent.onExchange s.cfg Literal.dummyByte =
      (s.agent.sim.poll.1, { s.agent with sim := s.agent.sim.poll.2
                                          window := [s.cfg.opReadCmdBuff, Literal.dummyByte] }) := by
    rw [onExchange_sim _ (by rw [h2]; exact h), h2]
    simp [SimChip.answer, hd]
  constructor
  · show some (((Machine.xfer s.cfg.opReadCmdBuff (Machine.selOn s)).agent.onExchange s.cfg Literal.dummyByte).1) = _
    rw [h3]
  · show ((Machine.xfer s.cfg.opReadCmdBuff (Machine.selOn s)).agent.onExchange s.cfg Literal.dummyByte).2 = _
    rw [h3]

theorem ready_of_zero (h : BusyLeft (some 0) s) (hd : s.cfg.opReadCmdBuff ≠ Literal.opReadRxFifo) : readyAt s := by
  show (askCts s).lastCts = _
  rw [(askCts_sim h.1 hd).1]
  simp [SimChip.poll, h.2]

theorem busy_of_ne {k : Option Nat} (h : BusyLeft k s) (hk : k ≠ some 0)
    (hd : s.cfg.opReadCmdBuff ≠ Literal.opReadRxFifo) : (counted1 s).lastCts = some 0 := by
  show (askCts s).lastCts = _
  rw [(askCts_sim h.1 hd).1, SimChip.poll, h.2]
  rcases k with _ | _ | k
  · rfl
  · exact absurd rfl hk
  · rfl

theorem BusyLeft.busyPoll {k : Option Nat} (h : BusyLeft k s) (hk : k ≠ some 0)
    (hd : s.cfg.opReadCmdBuff ≠ Literal.opReadRxFifo) :
    BusyLeft (k.map (· - 1)) (busyPoll s) := by
  have ha : (counted1 s).agent = _ := (askCts_sim h.1 hd).2
  have hc : (counted1 s).agent.law = .sim := by rw [ha]; exact h.1
  have hp : s.agent.sim.poll.2.current = k.map (· - 1) := by
    rw [SimChip.poll, h.2]
    rcases k with _ | _ | k
    · simp [h.2]
    · exact absurd rfl hk
    · simp
  unfold BusyLeft Machine.busyPoll
  rw [selOff_agent, onDesel_sim _ hc, ha]
  refine ⟨h.1, ?_⟩
  show (SimChip.close [s.cfg.opReadCmdBuff, Literal.dummyByte] s.agent.sim.poll.2).current = _
  rw [← hp]
  unfold SimChip.close
  dsimp only
  split <;> rfl

theorem BusyLeft.polled {k : Option Nat} (h : BusyLeft k s) (hd : s.cfg.opReadCmdBuff ≠ Literal.opReadRxFifo) (j : Nat)
    (hj : ∀ n, k = some n → j ≤ n) : BusyLeft (k.map (· - j)) (polled j s) := by
  induction j generalizing s k with
  | zero => cases k <;> exact h
  | succ j ih =>
    cases k with
    | none => exact ih (k := none) (h.busyPoll (by simp) hd) hd (by simp)
    | some n =>
      have hn := hj n rfl
      have := ih (h.busyPoll (by simp; omega) hd) hd (by simp; omega)
      simpa [Machine.polled, Nat.sub_sub, Nat.add_comm] using this

/-- The polls of one handshake against SimChip: ready exactly at the first poll after the busy ones (R68). -/
theorem readyAt_iff {k : Option Nat} (h : BusyLeft k s) (hd : s.cfg.opReadCmdBuff ≠ Literal.opReadRxFifo) (j : Nat)
    (hj : ∀ n, k = some n → j ≤ n) : readyAt (polled j s) ↔ k = some j := by
  have hb := h.polled hd j hj
  have hd' : (polled j s).cfg.opReadCmdBuff ≠ Literal.opReadRxFifo := by simpa using hd
  constructor
  · intro hr
    by_contra hne
    have h0 : k.map (· - j) ≠ some 0 := by
      rcases k with _ | n
      · simp
      · have := hj n rfl
        simp only [Option.map_some, ne_eq, Option.some.injEq] at hne ⊢
        omega
    have := busy_of_ne hb h0 hd'
    rw [readyAt, this] at hr
    exact absurd hr (by decide)
  · rintro rfl
    exact ready_of_zero (by simpa using hb) hd'

/-- A handshake against SimChip takes the next entry of `busy` (R68). -/
theorem beginHandshake_sim (h : s.agent.law = .sim) :
    BusyLeft (s.agent.sim.busy.headD (some 0)) (beginHandshake s) ∧ Left s.agent.sim.busy.tail (beginHandshake s) := by
  have ha : (beginHandshake s).agent = { s.agent with sim := s.agent.sim.handshake } := onHandshake_sim h
  unfold BusyLeft Left
  rw [ha]
  cases hb : s.agent.sim.busy <;> simp [h, hb, SimChip.handshake]

/-- Everything a handshake can do against SimChip: with `k` busy polls and `k` below the ceiling it makes `k` busy polls and
a ready one, whose window carries the response; else it makes busy polls up to the ceiling and raises Timeout (R154). -/
theorem getResponse_sim (n : Nat) (h : s.agent.law = .sim) (hd : s.cfg.opReadCmdBuff ≠ Literal.opReadRxFifo) :
    (∃ k, s.agent.sim.busy.headD (some 0) = some k ∧ k < s.cfg.ctsRetryMax ∧
        readyAt (polled k (beginHandshake s)) ∧
        getResponse n s = respond n (counted1 (polled k (beginHandshake s)))) ∨
      ((∀ k, s.agent.sim.busy.headD (some 0) = some k → s.cfg.ctsRetryMax ≤ k) ∧
        getResponse n s = .timeout s.cfg.ctsRetryMax (polled s.cfg.ctsRetryMax (beginHandshake s))) := by
  have hb := (beginHandshake_sim h).1
  obtain ⟨k, hk, hbusy, hr⟩ := pollLoop_cases n s.cfg.ctsRetryMax (beginHandshake s)
  generalize s.agent.sim.busy.headD (some 0) = b at hb ⊢
  have hle : ∀ m, b = some m → k ≤ m := by
    intro m hm
    by_contra hlt
    exact hbusy m (by omega) ((readyAt_iff hb hd m (by simp_all)).2 hm)
  rcases hr with ⟨rfl, hr⟩ | ⟨hlt, hrd, hr⟩
  · exact .inr ⟨hle, hr⟩
  · exact .inl ⟨k, (readyAt_iff hb hd k hle).1 hrd, hlt, hrd, hr⟩

end Sys2Proof.Machine
end

