-- ==== Sys2Proof/Laws/Ready.lean ====
section
/-! SUPPORT. Parts of operations that go through against SimChip: what each puts on the bus and how many handshakes it
takes, composed along the step lists up to a completed host operation. -/

namespace Sys2Proof.Machine

/-- From `s` to `t` the engine has gone on normally and put `es` on the bus. -/
structure Went (s t : State) (es : List Event) : Prop where
  cfg : t.cfg = s.cfg
  puts : Puts s t es
  log : t.log = s.log
  status : t.status = s.status

theorem Went.refl (s : State) : Went s s [] := ⟨rfl, Puts.refl s, rfl, rfl⟩

theorem Went.trans {s t u : State} {a b : List Event} (h : Went s t a) (k : Went t u b) : Went s u (a ++ b) :=
  ⟨k.cfg.trans h.cfg, h.puts.trans k.puts, k.log.trans h.log, k.status.trans h.status⟩

/-- A change that leaves these fields alone. -/
theorem Went.of_eq {s t : State} (h1 : t.cfg = s.cfg) (h2 : t.trace = s.trace) (h3 : t.log = s.log)
    (h4 : t.status = s.status) : Went s t [] := ⟨h1, Puts.of_eq h2, h3, h4⟩

/-- Under the configuration `c`, and against a SimChip whose next `n` handshakes are ready at once, the part `f` goes
through, puts `es` on the bus and takes those `n` handshakes. -/
def Goes (c : Config) (n : Nat) (f : Step) (es : List Event) : Prop :=
  ∀ (s : State) (l : List (Option Nat)), s.cfg = c → Left l s → (∀ k < n, l.getD k (some 0) = some 0) →
    ∃ t, f s = .ok () t ∧ Went s t es ∧ Left (l.drop n) t

variable {c : Config}

/-- Each step of a list goes through; together they take `n` handshakes and put `es` on the bus. -/
inductive GoesAll (c : Config) : List Step → Nat → List Event → Prop where
  | nil : GoesAll c [] 0 []
  | cons {f : Step} {fs : List Step} {m n : Nat} {a b : List Event} (hf : Goes c m f a) (hfs : GoesAll c fs n b) :
      GoesAll c (f :: fs) (m + n) (a ++ b)

theorem goes_stepDone (s : State) : Went s (stepDone s) [] := Went.of_eq (by simp) (by simp) (by simp) (by simp)

theorem Goes.bind {f g : Step} {m n : Nat} {a b : List Event} (hf : Goes c m f a) (hg : Goes c n g b) :
    Goes c (m + n) (fun s => (f s).bind fun _ t => g t) (a ++ b) := by
  intro s l hc hl hz
  obtain ⟨t, ht, hw, hl'⟩ := hf s l hc hl fun k hk => hz k (by omega)
  obtain ⟨u, hu, hw', hl''⟩ := hg t (l.drop m) (hw.cfg.trans hc) hl' fun k hk => by
    rw [List.getD_eq_getElem?_getD, List.getElem?_drop, ← List.getD_eq_getElem?_getD]
    exact hz (m + k) (by omega)
  exact ⟨u, by dsimp only; rw [ht]; exact hu, hw.trans hw', by simpa [List.drop_drop] using hl''⟩

/-- A part that takes no handshake and does not touch SimChip's list. -/
theorem goes_lift {f : State → State} {es : List Event} (hw : ∀ s, s.cfg = c → Went s (f s) es)
    (hl : ∀ s l, Left l s → Left l (f s)) : Goes c 0 (lift f) es :=
  fun s l hc h _ => ⟨f s, rfl, hw s hc, by simpa using hl s l h⟩

theorem GoesAll.chain {fs : List Step} {n : Nat} {es : List Event} (h : GoesAll c fs n es) : Goes c n (chain fs) es := by
  induction h with
  | nil => exact fun s l _ h _ => ⟨s, rfl, Went.refl s, by simpa using h⟩
  | cons hf _ ih => exact hf.bind ih

theorem GoesAll.counted {fs : List Step} {n : Nat} {es : List Event} (h : GoesAll c fs n es) :
    GoesAll c (counted fs) n es := by
  induction h with
  | nil => exact .nil
  | cons hf _ ih =>
    refine .cons ?_ ih
    simpa [lift] using hf.bind (goes_lift (f := stepDone) (es := []) (fun s _ => goes_stepDone s)
      (fun s l h => by unfold Left; rw [stepDone_agent]; exact h))

theorem GoesAll.append {fs gs : List Step} {m n : Nat} {a b : List Event} (h : GoesAll c fs m a) (k : GoesAll c gs n b) :
    GoesAll c (fs ++ gs) (m + n) (a ++ b) := by
  induction h with
  | nil => simpa using k
  | cons hf _ ih => simpa [Nat.add_assoc] using GoesAll.cons hf ih

theorem GoesAll.one {f : Step} {n : Nat} {a : List Event} (hf : Goes c n f a) : GoesAll c [f] n a := by
  simpa using GoesAll.cons hf .nil

/-- A list of parts of one shape. -/
theorem GoesAll.map {α : Type} {xs : List α} {f : α → Step} {g : α → List Event} (h : ∀ x ∈ xs, Goes c 1 (f x) (g x)) :
    GoesAll c (xs.map f) xs.length (xs.flatMap g) := by
  induction xs with
  | nil => exact .nil
  | cons x xs ih =>
    have := GoesAll.cons (h x (by simp)) (ih fun y hy => h y (by simp [hy]))
    simpa [Nat.add_comm] using this

/-! ### The parts -/

theorem goes_sendFrom {src : FrameSource} {frame : List Byte} (h : frame.length ≤ c.cmdBufCap) :
    Goes c 0 (sendFrom src frame) (wOut frame) := by
  rintro s l rfl hl -
  refine ⟨_, sendFrom_ok h, ⟨by simp, ?_, by simp, by simp⟩, ?_⟩
  · exact (puts_writeWindow frame (loadCmd src frame s)).congr rfl rfl
  · exact Left.writeWindow (s := loadCmd src frame s) hl frame

theorem goes_sendCommand {frame : List Byte} (h : frame.length ≤ c.cmdBufCap) :
    Goes c 0 (sendCommand frame) (wOut frame) := goes_sendFrom h

/-- What a configuration must meet for a handshake to go through. -/
structure Polls (c : Config) : Prop where
  opcode : c.opReadCmdBuff ≠ Literal.opReadRxFifo
  ceiling : 1 ≤ c.ctsRetryMax

theorem polls_of_admitted (h : c.admitted = true) : Polls c := by
  refine ⟨fun he => (Config.distinct h).poll (by simp [he]), ?_⟩
  have := (Config.admitted_parts h).1
  simp only [Config.boundsOk, Bool.and_eq_true, decide_eq_true_eq] at this
  omega

/-- A handshake whose first poll is ready: one poll, whose window carries the response (R154, R156). -/
theorem getResponse_ready (hp : Polls c) {n : Nat} (hn : n ≤ c.respBufCap) {s : State} {l : List (Option Nat)}
    (hc : s.cfg = c) (hl : Left l s) (h0 : l.getD 0 (some 0) = some 0) :
    ∃ r t, getResponse n s = .ok r t ∧ Went s t (rrOut c n) ∧ Left (l.drop 1) t ∧ r.length = n ∧
      t.respBuf = overwrite r s.respBuf ∧ t.pollCount = 1 ∧ t.lastCts = some Literal.ctsReady := by
  subst hc
  have h0' : s.agent.sim.busy.headD (some 0) = some 0 := by rw [hl.2]; cases l <;> simp_all
  rcases getResponse_sim n hl.1 hp.opcode with ⟨k, hk, -, hr, hg⟩ | ⟨hmax, -⟩
  · have hk0 : k = 0 := by rw [h0'] at hk; injection hk with hk; exact hk.symm
    subst hk0
    set b := beginHandshake s with hb
    rcases respond_cases n (counted1 b) with ⟨-, hr'⟩ | ⟨hlt, -⟩
    · have hL : Left (l.drop 1) b := by
        have := (beginHandshake_sim hl.1).2
        rw [hl.2] at this
        simpa using this
      have hL' : Left (l.drop 1) (counted1 b) := hL.askCts
      refine ⟨_, _, hg.trans hr', ?_, (hL'.afterReads n).selOff, by simp, ?_, ?_, ?_⟩
      · refine ⟨by simp [hb, counted1], ?_, by simp [hb, counted1], by simp [hb, counted1]⟩
        have hp1 := ((puts_askCts b).congr (s' := s) (t' := counted1 b) rfl rfl).trans (puts_respond n (counted1 b))
        rw [hr'] at hp1
        have he : rrOut s.cfg n = [.sel, .x b.cfg.opReadCmdBuff 0, .x Literal.dummyByte 0] ++
            ((List.replicate n Literal.dummyByte).map (fun m => Event.x m 0) ++ [.desel]) := by
          simp [rrOut, wOut, List.replicate_succ, hb]
        rw [he]
        exact hp1
      · simp [hb, counted1]
      · simp [hb, counted1]
      · simpa using (show (counted1 b).lastCts = some Literal.ctsReady from hr)
    · simp [hb, counted1] at hlt
      omega
  · have := hmax 0 h0'
    have := hp.ceiling
    omega

theorem goes_getResponse (hp : Polls c) {n : Nat} (hn : n ≤ c.respBufCap) :
    Goes c 1 (fun s => (getResponse n s).bind fun _ t => .ok () t) (rrOut c n) := by
  intro s l hc hl hz
  obtain ⟨r, t, ht, hw, hl', -⟩ := getResponse_ready hp hn hc hl (hz 0 (by omega))
  exact ⟨t, by dsimp only; rw [ht]; rfl, hw, hl'⟩

theorem goes_waitForCts (hp : Polls c) : Goes c 1 waitForCts (pOut c) := by
  have := goes_getResponse hp (n := 0) (Nat.zero_le _)
  exact this

theorem goes_cmdWait (hp : Polls c) {frame : List Byte} (h : frame.length ≤ c.cmdBufCap) :
    Goes c 1 (cmdWait frame) (cmdOut c frame) :=
  (GoesAll.cons (goes_sendCommand h) (.one (goes_waitForCts hp))).chain

theorem goes_configWait (hp : Polls c) {frame : List Byte} (h : frame.length ≤ c.cmdBufCap) :
    Goes c 1 (configWait frame) (cmdOut c frame) :=
  (GoesAll.cons (goes_sendFrom h) (.one (goes_waitForCts hp))).chain

theorem goes_setRst (b : Bool) : Goes c 0 (lift (setRst b)) [.rst b] :=
  goes_lift (fun _ _ => ⟨rfl, puts_one (.rst b) rfl, rfl, rfl⟩) fun _ _ h => h.setRst b

theorem goes_delayUs (n : Nat) : Goes c 0 (lift (delayUs n)) [.delayUs n] :=
  goes_lift (fun _ _ => ⟨rfl, puts_one (.delayUs n) rfl, rfl, rfl⟩) fun _ _ h => h.delayUs n

theorem goes_delayMs (n : Nat) : Goes c 0 (lift (delayMs n)) [.delayMs n] :=
  goes_lift (fun _ _ => ⟨rfl, puts_one (.delayMs n) rfl, rfl, rfl⟩) fun _ _ h => h.delayMs n

/-! ### An admitted configuration -/

/-- What admission says of the parameters, one fact each (R8, R36, R37, R133, R185, R198, R199). -/
structure Facts (c : Config) : Prop where
  polls : Polls c
  cmdCap : 8 ≤ c.cmdBufCap
  propCap : 4 + c.propMax ≤ c.cmdBufCap
  propMax : c.propMax ≤ 255
  intCap : 1 + c.intClrArgs.length ≤ c.cmdBufCap
  respCap : Literal.intStatusRespLen ≤ c.respBufCap
  fifoCap : Literal.frameLen ≤ c.fifoCap
  powerFits : c.powerUpFrame.length ≤ c.cmdBufCap
  extraFits : ∀ f ∈ bringupFrames c.bringupExtra, f.length ≤ c.cmdBufCap
  rxFits : ∀ f ∈ c.rxIrqEnable, f.length ≤ c.cmdBufCap
  txFits : ∀ f ∈ c.txIrqEnable, f.length ≤ c.cmdBufCap
  table : tableWF c.cmdBufCap c.configTable = true
  freqPlan : ∀ e ∈ c.freqPlan, e.count ≤ c.propMax ∧ 1 ≤ e.count ∧ e.start + e.count ≤ Literal.freqLen
  powerPlan : ∀ e ∈ c.powerPlan, e.count ≤ c.propMax ∧ 1 ≤ e.count ∧ e.start + e.count ≤ Literal.powerLen

theorem facts_of_admitted (h : c.admitted = true) : Facts c := by
  obtain ⟨hb, -, hd⟩ := Config.admitted_parts h
  simp only [Config.boundsOk, Bool.and_eq_true, decide_eq_true_eq] at hb
  simp only [Config.dataOk, Config.frameParams, planOk, frameFits, Bool.and_eq_true, decide_eq_true_eq, List.all_eq_true,
    List.mem_cons, List.mem_append, or_imp, forall_and] at hd
  obtain ⟨⟨⟨⟨⟨⟨h1, h2⟩, h3⟩, h4⟩, h5⟩, h6⟩, h7⟩ := hd
  constructor <;> first | exact polls_of_admitted h | omega | skip
  all_goals simp_all

/-! ### The composed parts -/

variable (hf : Facts c)
include hf

theorem goes_setProperty (g o : Byte) {d : List Byte} (h : d.length ≤ c.propMax) :
    Goes c 1 (setProperty g o d) (cmdOut c (propFrame g o d)) :=
  goes_cmdWait hf.polls (by have := hf.propCap; simp [propFrame]; omega)

theorem all_clearIntsSteps : GoesAll c (clearIntsSteps c) 1 (clearOut c) := by
  refine .cons (goes_sendCommand ?_) (.one (goes_getResponse hf.polls hf.respCap))
  have := hf.intCap
  simp [intStatusFrame]; omega

theorem goes_clearInterrupts : Goes c 1 clearInterrupts (clearOut c) := by
  rintro s l rfl hl hz
  exact (all_clearIntsSteps hf).chain s l rfl hl hz

theorem all_powerUpSteps : GoesAll c (powerUpSteps c) 2 (powerUpOut c) := by
  have := GoesAll.cons (goes_setRst (c := c) true) <| .cons (goes_delayUs c.tRstAssertUs) <| .cons (goes_setRst false) <|
    .cons (goes_delayMs c.tSettleMs) <| .cons (goes_sendCommand hf.powerFits) <|
    .cons (goes_waitForCts hf.polls) <| .one (goes_clearInterrupts hf)
  simpa [powerUpOut, cmdOut, powerUpSteps] using this

theorem goes_powerUp : Goes c 2 powerUp (powerUpOut c) := by
  rintro s l rfl hl hz
  exact (all_powerUpSteps hf).chain s l rfl hl hz

omit hf in
theorem length_planSlice (p : List Byte) (e : PlanEntry) : (planSlice p e).length ≤ e.count := by simp [planSlice]

theorem all_planSteps {plan : List PlanEntry} (h : ∀ e ∈ plan, e.count ≤ c.propMax) (p : List Byte) :
    GoesAll c (planSteps plan p) plan.length (planOut c plan p) :=
  GoesAll.map fun e he => goes_setProperty hf e.group e.offset ((length_planSlice p e).trans (h e he))

theorem goes_setFrequency (p : List Byte) : Goes c c.freqPlan.length (setFrequency p) (planOut c c.freqPlan p) := by
  rintro s l rfl hl hz
  exact (all_planSteps hf (fun e he => (hf.freqPlan e he).1) p).chain s l rfl hl hz

theorem goes_setPower (p : List Byte) : Goes c c.powerPlan.length (setPower p) (planOut c c.powerPlan p) := by
  rintro s l rfl hl hz
  exact (all_planSteps hf (fun e he => (hf.powerPlan e he).1) p).chain s l rfl hl hz

theorem goes_replayRecord {src : FrameSource} {f : List Byte} (h : f.length ≤ c.cmdBufCap) :
    Goes c 1 (replayRecord src f.length f) (cmdOut c f) := by
  have := (GoesAll.cons (goes_sendFrom (src := src) h) <| .cons (goes_waitForCts hf.polls) <| .one
    (goes_lift (f := fun s => { s with cursor := s.cursor + f.length + 1 }) (es := [])
      (fun _ _ => Went.of_eq rfl rfl rfl rfl) (fun _ _ h => h))).chain
  simpa [cmdOut, replayRecord] using this

theorem goes_replay {t : List Byte} (h : tableWF c.cmdBufCap t = true) : Goes c (tableCount t) (replay t) (replayOut c t) := by
  obtain ⟨fs, hfs, hcap⟩ := tableWF_records h
  rintro s l rfl hl hz
  simp only [tableCount, replayOut, hfs, Option.getD_some] at hz ⊢
  have hg := (GoesAll.map (f := fun f : List Byte => replayRecord (tableSource s.cfg t) f.length f) fun f hm =>
    goes_replayRecord hf (hcap f hm)).chain
  obtain ⟨u, hu, hw, hl'⟩ := hg { s with cursor := 0 } l rfl hl hz
  refine ⟨noteReplayed t u, ?_, ?_, ?_⟩
  · rw [replay_eq hfs, recordSteps, hu]
    rfl
  · refine ⟨by simpa using hw.cfg, hw.puts.congr rfl (by simp), by simpa using hw.log, by simpa using hw.status⟩
  · unfold noteReplayed
    split
    · unfold Left; dsimp only; rw [onReplayed_sim hl'.1]; exact hl'
    · exact hl'

theorem all_configWaits {fs : List (List Byte)} (h : ∀ f ∈ fs, f.length ≤ c.cmdBufCap) :
    GoesAll c (fs.map configWait) fs.length (fs.flatMap (cmdOut c)) :=
  GoesAll.map fun f hm => goes_configWait hf.polls (h f hm)

/-- How many handshakes BRINGUP takes (R204). -/
def bringupHandshakes (c : Config) : Nat :=
  2 + tableCount c.configTable + c.freqPlan.length + c.powerPlan.length + (bringupFrames c.bringupExtra).length + 2

theorem goes_bringup : Goes c (bringupHandshakes c) bringup (bringupOut c) := by
  have h1 : GoesAll c (bringupSteps c) _ _ :=
    .append (.append (.cons (goes_powerUp hf) <| .cons (goes_replay hf hf.table) <|
      .cons (goes_setFrequency hf c.freqParams) <| .one (goes_setPower hf c.powerParams)) (all_configWaits hf hf.extraFits))
      (.cons (goes_cmdWait (frame := fifoResetFrame Literal.fifoSubBoth) hf.polls (by simp [fifoResetFrame]; have := hf.cmdCap; omega))
        (.one (goes_clearInterrupts hf)))
  rintro s l rfl hl hz
  have := h1.chain s l rfl hl fun k hk => hz k (by simp only [bringupHandshakes]; omega)
  unfold bringup
  simpa [bringupOut, bringupHandshakes, Nat.add_assoc] using this

end Sys2Proof.Machine
end

