-- ==== Sys2Proof/Laws/Chip.lean ====
section
/-! SUPPORT. What the chip agent's functions keep: its law, the chip itself under the laws that have none, the canonical
property store, that nothing but a bring-up issued in flight holds it in Unknown, and that a ready chip has acted on its
frames. -/

namespace Sys2Proof.Machine

/-- What every function of the chip keeps. -/
structure ChipKeeps (g h : Chip) : Prop where
  held : g.held = false → h.held = false
  props : Memory.wf g.props = true → Memory.wf h.props = true
  acted : (g.cts = true → g.taken = none) → h.cts = true → h.taken = none

theorem ChipKeeps.refl (h : Chip) : ChipKeeps h h := ⟨id, id, id⟩
theorem ChipKeeps.trans {f g h : Chip} (a : ChipKeeps f g) (b : ChipKeeps g h) : ChipKeeps f h :=
  ⟨b.held ∘ a.held, b.props ∘ a.props, b.acted ∘ a.acted⟩
theorem ChipKeeps.of_eq {g h : Chip} (h1 : h.held = g.held) (h2 : h.props = g.props) (h3 : h.cts = g.cts := by rfl)
    (h4 : h.taken = g.taken := by rfl) : ChipKeeps g h :=
  ⟨fun k => h1.trans k, fun k => by rw [h2]; exact k, fun k hc => h4.trans (k (h3.symm.trans hc))⟩

theorem keeps_lost (h : Chip) : ChipKeeps h h.lost := ⟨fun k => k, fun _ => rfl, fun _ _ => rfl⟩

theorem keeps_enter (m : Mode) (h : Chip) : ChipKeeps h (h.enter m) := by
  unfold Chip.enter
  split
  · exact keeps_lost h
  · exact .of_eq rfl rfl

theorem keeps_propWrite (g n o : Byte) (d : List Byte) (h : Chip) : ChipKeeps h (h.propWrite g n o d) := by
  unfold Chip.propWrite
  split
  · exact ⟨id, Memory.wf_writeRun _, id⟩
  · exact keeps_lost h

theorem keeps_startTx (cond : Byte) (len : Half) (h : Chip) : ChipKeeps h (h.startTx cond len) := by
  unfold Chip.startTx
  split
  · exact keeps_lost h
  · exact .of_eq rfl rfl

theorem keeps_startRx (len : Half) (t v x : Byte) (h : Chip) : ChipKeeps h (h.startRx len t v x) := by
  unfold Chip.startRx
  split
  · exact keeps_lost h
  · exact .of_eq rfl rfl

theorem keeps_obey (c : Config) (i : Instr) (h : Chip) : ChipKeeps h (h.obey c i) := by
  unfold Chip.obey
  split
  · exact keeps_propWrite _ _ _ _ h
  · split
    · exact .of_eq rfl rfl
    · exact keeps_lost h
  · exact keeps_startTx _ _ h
  · exact keeps_startRx _ _ _ _ h
  · split
    · exact .of_eq rfl rfl
    · exact keeps_lost h
  · split
    · exact .of_eq rfl rfl
    · exact keeps_lost h
  · exact keeps_lost h
  · exact keeps_lost h

theorem keeps_configure (c : Config) (i : Instr) (h : Chip) : ChipKeeps h (h.configure c i) := by
  unfold Chip.configure
  split
  · exact keeps_propWrite _ _ _ _ h
  · split
    · exact .of_eq rfl rfl
    · exact .refl h
  · split
    · exact .of_eq rfl rfl
    · exact .refl h
  · exact .refl h

theorem keeps_effect (c : Config) (src : FrameSource) (f : List Byte) (h : Chip) : ChipKeeps h (h.effect c src f) := by
  unfold Chip.effect
  split
  · exact keeps_obey c _ h
  · exact keeps_configure c _ h
  · exact keeps_lost h
  · split
    · exact keeps_lost h
    · exact .refl h

/-- An effect leaves a chip with no frame in hand, if it had none. -/
theorem effect_taken (c : Config) (src : FrameSource) (f : List Byte) (h : Chip) (ht : h.taken = none) :
    (h.effect c src f).taken = none := by
  unfold Chip.effect Chip.obey Chip.configure Chip.propWrite Chip.startTx Chip.startRx
  repeat' split
  all_goals first | exact ht | rfl

theorem keeps_enableInts (c : Config) (f : List Byte) (h : Chip) : ChipKeeps h (h.enableInts c f) := .of_eq rfl rfl

/-- After the chip has acted it has no frame to act on. -/
theorem act_taken (c : Config) (h : Chip) : (h.act c).taken = none := by
  unfold Chip.act
  split
  · assumption
  · rename_i src f _
    dsimp only
    split
    · rfl
    · split
      · rfl
      · show ((if _ then _ else _) : Chip).taken = none
        split
        · rfl
        · exact effect_taken c src f _ rfl

theorem keeps_act (c : Config) (h : Chip) : ChipKeeps h (h.act c) := by
  refine ⟨?_, ?_, fun _ _ => act_taken c h⟩ <;> unfold Chip.act <;> split
  · exact id
  · rename_i src f _
    dsimp only
    split
    · exact id
    · split
      · exact id
      · split
        · exact id
        · exact (keeps_effect c src f { h with taken := none }).held
  · exact id
  · rename_i src f _
    dsimp only
    split
    · exact id
    · split
      · exact id
      · split
        · exact id
        · exact (keeps_effect c src f { h with taken := none }).props

/-- Processing a frame that is already acted on, and acting twice, add nothing (R97). -/
theorem act_act (c : Config) (h : Chip) : (h.act c).act c = h.act c := by
  generalize hg : h.act c = g
  have : g.taken = none := hg ▸ act_taken c h
  unfold Chip.act
  rw [this]

theorem act_of_none {c : Config} {h : Chip} (ht : h.taken = none) : h.act c = h := by unfold Chip.act; rw [ht]

theorem processed_act (c : Config) (h : Chip) : (h.act c).processed c = h.processed c := by
  unfold Chip.processed
  rw [act_act]

theorem keeps_move (c : Config) (m : ChipMove) (h : Chip) : ChipKeeps h (h.move c m) := by
  cases m <;> simp only [Chip.move, Chip.txComplete, Chip.rxValid, Chip.rxInvalid, Chip.rxTimeout]
  · exact keeps_act c h
  all_goals split
  · refine .trans ?_ (keeps_enter _ _)
    exact .of_eq rfl rfl
  · exact .refl h
  · split
    · exact keeps_lost h
    · refine .trans ?_ (keeps_enter _ _)
      exact .of_eq rfl rfl
  · exact .refl h
  · exact keeps_enter _ h
  · exact .refl h
  · exact keeps_enter _ h
  · exact .refl h

theorem keeps_moves (c : Config) : ∀ (ms : List ChipMove) (h : Chip), ChipKeeps h (Chip.moves c ms h)
  | [], h => .refl h
  | m :: ms, h => (keeps_move c m h).trans (keeps_moves c ms _)

theorem keeps_command (c : Config) (src : FrameSource) (f : List Byte) (h : Chip) : ChipKeeps h (h.command c src f) := by
  have busy : ∀ {g : Chip} (t), ChipKeeps h g → ChipKeeps h { g with cts := false, taken := t } := fun _ k =>
    ⟨k.held, k.props, fun _ e => nomatch e⟩
  unfold Chip.command
  dsimp only
  split
  · exact .refl h
  · split
    · exact keeps_lost h
    · split
      · split
        · exact busy _ (.refl h)
        · exact keeps_lost h
      · have h1 : ChipKeeps h (({ h with intRead := false } : Chip).effect c src f) := by
          refine .trans ?_ (keeps_effect c src f _)
          exact .of_eq rfl rfl
        split
        · exact h1
        · refine busy _ ?_
          split
          · exact h1
          · exact .of_eq rfl rfl

theorem keeps_processed (c : Config) (h : Chip) : ChipKeeps h (h.processed c) :=
  ⟨(keeps_act c h).held, (keeps_act c h).props, fun _ _ => act_taken c h⟩

theorem keeps_pushTx (c : Config) (d : List Byte) (h : Chip) : ChipKeeps h (h.pushTx c d) := by
  unfold Chip.pushTx
  split
  · exact .refl h
  · split
    · exact keeps_lost h
    · exact .of_eq rfl rfl

theorem keeps_afterRead (n : Nat) (h : Chip) : ChipKeeps h (h.afterRead n) := by
  unfold Chip.afterRead
  split
  · exact .of_eq rfl rfl
  · exact .refl h

theorem keeps_reset (b : Bool) (h : Chip) : ChipKeeps h (h.reset b) := by
  unfold Chip.reset
  split
  · exact .of_eq rfl rfl
  · split
    · exact ⟨fun _ => rfl, fun _ => rfl, fun _ _ => rfl⟩
    · exact .of_eq rfl rfl

theorem keeps_settle (c : Config) (n : Nat) (h : Chip) : ChipKeeps h (h.settle c n) := by
  unfold Chip.settle
  split
  · exact ⟨id, id, fun _ _ => rfl⟩
  · exact .refl h

theorem keeps_replayed (h : Chip) : ChipKeeps h h.replayed := by
  unfold Chip.replayed
  split
  · exact .refl h
  · exact .of_eq rfl rfl

/-- What every function of the agent keeps at the bus. -/
structure AgentKeeps (a b : Agent) : Prop where
  law : b.law = a.law
  chip : a.law ≠ .abstractModel → b.chip = a.chip
  keeps : ChipKeeps a.chip b.chip

theorem AgentKeeps.refl (a : Agent) : AgentKeeps a a := ⟨rfl, fun _ => rfl, .refl _⟩
theorem AgentKeeps.trans {a b d : Agent} (h : AgentKeeps a b) (k : AgentKeeps b d) : AgentKeeps a d :=
  ⟨k.law.trans h.law, fun hn => (k.chip (by rw [h.law]; exact hn)).trans (h.chip hn), h.keeps.trans k.keeps⟩

/-- A change that leaves the law and the chip alone. -/
theorem AgentKeeps.of_eq {a b : Agent} (h1 : b.law = a.law) (h2 : b.chip = a.chip) : AgentKeeps a b :=
  ⟨h1, fun _ => h2, by rw [h2]; exact .refl _⟩

/-- A change of the chip under the abstract chip model. -/
theorem AgentKeeps.of_model {a b : Agent} (h1 : b.law = a.law) (h2 : a.law = .abstractModel)
    (h3 : ChipKeeps a.chip b.chip) : AgentKeeps a b := ⟨h1, fun hn => absurd h2 hn, h3⟩

variable (c : Config) (a : Agent)

theorem keeps_turn : AgentKeeps a (a.turn c) := by
  unfold Agent.turn
  split
  · rename_i hl
    split
    · exact .refl a
    · exact .of_model rfl hl (keeps_moves c _ _)
  · exact .refl a
  · exact .refl a

theorem keeps_draw : AgentKeeps a a.draw.2 := by
  unfold Agent.draw
  split <;> exact .of_eq rfl rfl

theorem keeps_modelAnswer (h : a.law = .abstractModel) : AgentKeeps a (a.modelAnswer c).2 := by
  unfold Agent.modelAnswer
  split
  · exact keeps_draw a
  · split
    · exact keeps_draw a
    · split
      · split
        · unfold Agent.modelRx
          split
          · exact .of_model rfl h (.of_eq rfl rfl)
          · exact .trans (b := { a with chip := a.chip.lost }) (.of_model rfl h (keeps_lost _)) (keeps_draw _)
        · exact .trans (b := { a with chip := a.chip.lost }) (.of_model rfl h (keeps_lost _)) (keeps_draw _)
      · split
        · unfold Agent.modelCts
          split
          · exact .refl a
          · dsimp only
            split
            · exact (keeps_draw a).trans (.of_model rfl ((keeps_draw a).law.trans h) (keeps_processed c _))
            · exact keeps_draw a
        · exact keeps_draw a

theorem keeps_modelClose (h : a.law = .abstractModel) : AgentKeeps a (a.modelClose c) := by
  unfold Agent.modelClose
  split
  · exact .refl a
  · split
    · exact .of_model rfl h (keeps_pushTx _ _ _)
    · split
      · exact .refl a
      · split
        · exact .of_model rfl h (keeps_afterRead _ _)
        · exact .of_model rfl h (keeps_command _ _ _ _)

theorem keeps_onSel : AgentKeeps a (a.onSel c) := (keeps_turn c a).trans (.of_eq rfl rfl)

theorem keeps_onExchange (m : Byte) : AgentKeeps a (a.onExchange c m).2 := by
  refine (keeps_turn c a).trans ?_
  unfold Agent.onExchange
  dsimp only
  split
  · exact (keeps_draw _).trans (.of_eq rfl rfl)
  · rename_i h
    exact (keeps_modelAnswer c _ h).trans (.of_eq rfl rfl)
  · exact .of_eq rfl rfl

theorem keeps_onDesel : AgentKeeps a (a.onDesel c) := by
  refine (keeps_turn c a).trans ?_
  unfold Agent.onDesel
  dsimp only
  split
  · exact .of_eq rfl rfl
  · rename_i h
    exact (keeps_modelClose c _ h).trans (.of_eq rfl rfl)
  · exact .of_eq rfl rfl

theorem keeps_onRst (b : Bool) : AgentKeeps a (a.onRst c b) := by
  refine (keeps_turn c a).trans ?_
  unfold Agent.onRst
  dsimp only
  split
  · exact .refl _
  · rename_i h
    exact .of_model rfl h (keeps_reset _ _)
  · exact .refl _

theorem keeps_onDelayUs : AgentKeeps a (a.onDelayUs c) := keeps_turn c a

theorem keeps_onDelayMs (n : Nat) : AgentKeeps a (a.onDelayMs c n) := by
  refine (keeps_turn c a).trans ?_
  unfold Agent.onDelayMs
  dsimp only
  split
  · exact .refl _
  · rename_i h
    exact .of_model rfl h (keeps_settle _ _ _)
  · exact .refl _

theorem keeps_onSample : AgentKeeps a (a.onSample c).2 := by
  refine (keeps_turn c a).trans ?_
  unfold Agent.onSample
  dsimp only
  split
  · exact keeps_draw _
  · split
    · exact keeps_draw _
    · exact .refl _
  · exact .of_eq rfl rfl

theorem keeps_onHandshake : AgentKeeps a a.onHandshake := by
  unfold Agent.onHandshake
  split <;> exact .of_eq rfl rfl

theorem keeps_onReplayed : AgentKeeps a a.onReplayed := by
  unfold Agent.onReplayed
  split
  · exact .refl a
  · rename_i h
    exact .of_model rfl h (keeps_replayed _)
  · exact .refl a

/-! ### The ends of an operation -/

/-- All that issuing an operation can do to the chip (R207, R293). -/
theorem request_cases (i : Instr) (h : Chip) :
    h.request i = h ∨ h.request i = h.lost ∨ h.request i = { h.lost with held := true } := by
  unfold Chip.request
  repeat' split
  all_goals simp

/-- Issuing an operation that neither brings up nor needs a completed replay changes nothing (R207, R293). -/
theorem request_plain {i : Instr} (h1 : Instr.bringsUp i = false) (h2 : Instr.needsReplay i = false) (h : Chip) :
    h.request i = h := by
  simp [Chip.request, h1, h2]

/-- Nor does an operation that needs one, once it has completed. -/
theorem request_configured {i : Instr} {h : Chip} (h1 : Instr.bringsUp i = false) (h2 : h.configured = true) :
    h.request i = h := by
  simp [Chip.request, h1, h2]

/-- When an operation is issued the chip keeps its property store, if only because it has lost it. -/
theorem request_props (i : Instr) (h : Memory.wf a.chip.props = true) : Memory.wf (a.onRequest i).chip.props = true := by
  unfold Agent.onRequest
  split
  · exact h
  · rcases request_cases i a.chip with hr | hr | hr <;> dsimp only <;> rw [hr]
    · exact h
    · rfl
    · rfl
  · exact h

theorem onRequest_law (i : Instr) : (a.onRequest i).law = a.law := by unfold Agent.onRequest; split <;> rfl

theorem onRequest_chip (i : Instr) (h : a.law ≠ .abstractModel) : (a.onRequest i).chip = a.chip := by
  unfold Agent.onRequest
  split
  · rfl
  · exact absurd ‹_› h
  · rfl

/-- After the end of an operation nothing is held: under the abstract chip model by that end, else by the state before. -/
theorem onEnd_held (h : a.law ≠ .abstractModel → a.chip.held = false) : a.onEnd.chip.held = false := by
  unfold Agent.onEnd
  split
  · exact h (by simp [*])
  · rfl
  · exact h (by simp [*])

theorem onTimeout_held (h : a.law ≠ .abstractModel → a.chip.held = false) : a.onTimeout.chip.held = false := by
  unfold Agent.onTimeout
  split
  · exact h (by simp [*])
  · rfl
  · exact h (by simp [*])

theorem onEnd_props : a.onEnd.chip.props = a.chip.props := by unfold Agent.onEnd; split <;> rfl

theorem onTimeout_props (h : Memory.wf a.chip.props = true) : Memory.wf a.onTimeout.chip.props = true := by
  unfold Agent.onTimeout
  split
  · exact h
  · rfl
  · exact h

/-- Of a ready chip, having acted on its frames: kept when an operation is issued, when it ends, and when it times out. -/
theorem request_acted (i : Instr) (h : a.chip.cts = true → a.chip.taken = none) :
    (a.onRequest i).chip.cts = true → (a.onRequest i).chip.taken = none := by
  unfold Agent.onRequest
  split
  · exact h
  · rcases request_cases i a.chip with hr | hr | hr <;> dsimp only <;> rw [hr]
    · exact h
    · exact fun _ => rfl
    · exact fun _ => rfl
  · exact h

theorem onEnd_acted (h : a.chip.cts = true → a.chip.taken = none) :
    a.onEnd.chip.cts = true → a.onEnd.chip.taken = none := by
  unfold Agent.onEnd; split <;> exact h

theorem onTimeout_acted (h : a.chip.cts = true → a.chip.taken = none) :
    a.onTimeout.chip.cts = true → a.onTimeout.chip.taken = none := by
  unfold Agent.onTimeout
  split
  · exact h
  · exact fun _ => rfl
  · exact h

end Sys2Proof.Machine
end

