-- ==== Sys2Proof/Laws/Clean.lean ====
section
/-! SUPPORT. What every part of every operation keeps, however it ends and whatever the chip answers: no result and no
status is written, the trace only grows, by whole select windows and by events of one kind, and the bounds of the invariant
hold on. -/

namespace Sys2Proof.Machine

/-- From `s` to `t` a part has run whose events all meet `P`. -/
structure Clean (P : Event → Prop) (s t : State) : Prop where
  cfg : t.cfg = s.cfg
  log : t.log = s.log
  status : t.status = s.status
  trace : ∃ new, t.trace = s.trace ++ new ∧ (∀ e ∈ new, P e) ∧
    (s.sel = false → t.sel = false ∧ selAfter false new = some false)
  polls : s.pollCount ≤ s.cfg.ctsRetryMax → t.pollCount ≤ s.cfg.ctsRetryMax
  cmdLen : s.cmdBuf.length = s.cfg.cmdBufCap → t.cmdBuf.length = s.cfg.cmdBufCap
  respLen : s.respBuf.length = s.cfg.respBufCap → t.respBuf.length = s.cfg.respBufCap
  stageLen : s.rxStage.length = Literal.frameLen → t.rxStage.length = Literal.frameLen
  agent : AgentKeeps s.agent t.agent

/-- The select line after two traces in turn. -/
theorem selAfter_append (b : Bool) (x y : List Event) :
    selAfter b (x ++ y) = (selAfter b x).bind fun b' => selAfter b' y := by
  induction x generalizing b with
  | nil => rfl
  | cons e es ih => cases e <;> cases b <;> simp [selAfter, ih]

theorem Clean.refl (P : Event → Prop) (s : State) : Clean P s s :=
  ⟨rfl, rfl, rfl, ⟨[], by simp, by simp, fun h => ⟨h, rfl⟩⟩, id, id, id, id, .refl _⟩

variable {P : Event → Prop}

theorem Clean.trans {s t u : State} (h : Clean P s t) (k : Clean P t u) : Clean P s u where
  cfg := k.cfg.trans h.cfg
  log := k.log.trans h.log
  status := k.status.trans h.status
  trace := by
    obtain ⟨x, hx, hxP, hxs⟩ := h.trace
    obtain ⟨y, hy, hyP, hys⟩ := k.trace
    refine ⟨x ++ y, by rw [hy, hx, List.append_assoc], ?_, fun hs => ?_⟩
    · intro e he
      rcases List.mem_append.1 he with he | he
      · exact hxP e he
      · exact hyP e he
    · obtain ⟨ht, hsel⟩ := hxs hs
      obtain ⟨hu, hsel'⟩ := hys ht
      exact ⟨hu, by rw [selAfter_append, hsel]; exact hsel'⟩
  polls hs := h.cfg ▸ k.polls (h.cfg ▸ h.polls hs)
  cmdLen hs := h.cfg ▸ k.cmdLen (h.cfg ▸ h.cmdLen hs)
  respLen hs := h.cfg ▸ k.respLen (h.cfg ▸ h.respLen hs)
  stageLen hs := k.stageLen (h.stageLen hs)
  agent := h.agent.trans k.agent

theorem Clean.composes (P : Event → Prop) : Composes (Clean P) := ⟨Clean.refl P, Clean.trans⟩

theorem Clean.mono {Q : Event → Prop} (h : ∀ e, P e → Q e) {s t : State} (k : Clean P s t) : Clean Q s t :=
  { k with
    trace := k.trace.imp fun _ hx => ⟨hx.1, fun e he => h e (hx.2.1 e he), hx.2.2⟩ }

theorem Keeps.cleanMono {α : Type} {Q : Event → Prop} {f : State → Flow α} (hf : Keeps (Clean P) f) (h : ∀ e, P e → Q e) :
    Keeps (Clean Q) f := fun s => (hf s).mono h

/-- A change of registers only, within the bounds. -/
theorem Clean.of_eq {s t : State} (hcfg : t.cfg = s.cfg) (hlog : t.log = s.log) (hstatus : t.status = s.status)
    (htrace : t.trace = s.trace) (hsel : t.sel = s.sel)
    (hpolls : s.pollCount ≤ s.cfg.ctsRetryMax → t.pollCount ≤ s.cfg.ctsRetryMax)
    (hcmd : t.cmdBuf.length = s.cmdBuf.length) (hresp : t.respBuf.length = s.respBuf.length)
    (hstage : t.rxStage.length = s.rxStage.length) (hagent : AgentKeeps s.agent t.agent) : Clean P s t :=
  ⟨hcfg, hlog, hstatus, ⟨[], by simp [htrace], by simp, fun h => ⟨hsel.trans h, rfl⟩⟩, hpolls, fun h => hcmd.trans h,
    fun h => hresp.trans h, fun h => hstage.trans h, hagent⟩

/-! ### The kinds of event -/

/-- An event of a transaction (R90, R151). -/
def Event.onBus : Event → Prop
  | .sel => True
  | .desel => True
  | .x _ _ => True
  | .rst _ => False
  | .delayUs _ => False
  | .delayMs _ => False
  | .irq _ => False

/-- An event of an operation that may drive the reset line (R32). -/
def Event.onBusOrReset : Event → Prop
  | .irq _ => False
  | .sel => True
  | .desel => True
  | .x _ _ => True
  | .rst _ => True
  | .delayUs _ => True
  | .delayMs _ => True

/-- An event of an operation that may sample the ready line (R271). -/
def Event.onBusOrSample : Event → Prop
  | .irq _ => True
  | .sel => True
  | .desel => True
  | .x _ _ => True
  | .rst _ => False
  | .delayUs _ => False
  | .delayMs _ => False

/-- `P` admits the events of transactions. -/
abbrev Bus (P : Event → Prop) : Prop := ∀ e : Event, e.onBus → P e

theorem bus_onBus : Bus Event.onBus := fun _ h => h
theorem bus_reset : Bus Event.onBusOrReset := fun e h => by cases e <;> trivial
theorem bus_sample : Bus Event.onBusOrSample := fun e h => by cases e <;> trivial

/-! ### Windows -/

/-- Exchanges inside an open window. -/
theorem selAfter_exchanges {l : List Event} (h : ∀ e ∈ l, ∃ m s, e = .x m s) (rest : List Event) :
    selAfter true (l ++ rest) = selAfter true rest := by
  induction l with
  | nil => rfl
  | cons e es ih =>
    obtain ⟨m, s, rfl⟩ := h e (by simp)
    simpa [selAfter] using ih fun e he => h e (by simp [he])

/-- Exchanges, and nothing else, from `s` to `t`: what happens inside an open window. -/
structure Exchanges (s t : State) : Prop where
  cfg : t.cfg = s.cfg
  log : t.log = s.log
  status : t.status = s.status
  sel : t.sel = s.sel
  trace : ∃ new, t.trace = s.trace ++ new ∧ ∀ e ∈ new, ∃ m v, e = Event.x m v
  polls : t.pollCount = s.pollCount
  cmdBuf : t.cmdBuf = s.cmdBuf
  respBuf : t.respBuf = s.respBuf
  rxStage : t.rxStage = s.rxStage
  agent : AgentKeeps s.agent t.agent

theorem Exchanges.refl (s : State) : Exchanges s s :=
  ⟨rfl, rfl, rfl, rfl, ⟨[], by simp, by simp⟩, rfl, rfl, rfl, rfl, .refl _⟩

theorem Exchanges.trans {s t u : State} (h : Exchanges s t) (k : Exchanges t u) : Exchanges s u where
  cfg := k.cfg.trans h.cfg
  log := k.log.trans h.log
  status := k.status.trans h.status
  sel := k.sel.trans h.sel
  trace := by
    obtain ⟨x, hx, hxP⟩ := h.trace
    obtain ⟨y, hy, hyP⟩ := k.trace
    refine ⟨x ++ y, by rw [hy, hx, List.append_assoc], fun e he => ?_⟩
    rcases List.mem_append.1 he with he | he
    · exact hxP e he
    · exact hyP e he
  polls := k.polls.trans h.polls
  cmdBuf := k.cmdBuf.trans h.cmdBuf
  respBuf := k.respBuf.trans h.respBuf
  rxStage := k.rxStage.trans h.rxStage
  agent := h.agent.trans k.agent

theorem exchanges_xfer (m : Byte) (s : State) : Exchanges s (xfer m s) :=
  ⟨rfl, rfl, rfl, rfl, ⟨[.x m (xferByte m s)], rfl, fun _ he => ⟨_, _, List.mem_singleton.1 he⟩⟩, rfl, rfl, rfl, rfl,
    keeps_onExchange _ _ _⟩

theorem exchanges_writeBytes (l : List Byte) (s : State) : Exchanges s (writeBytes l s) := by
  induction l generalizing s with
  | nil => exact .refl s
  | cons m ms ih => exact (exchanges_xfer m s).trans (ih _)

theorem exchanges_afterReads (n : Nat) (s : State) : Exchanges s (afterReads n s) := by
  induction n generalizing s with
  | zero => exact .refl s
  | succ n ih => exact (exchanges_xfer _ s).trans (ih _)

/-- A whole select window. -/
theorem clean_window (hP : Bus P) {s t : State} (h : Exchanges (selOn s) t) : Clean P s (selOff t) where
  cfg := h.cfg
  log := h.log
  status := h.status
  trace := by
    obtain ⟨x, hx, hxe⟩ := h.trace
    refine ⟨[.sel] ++ (x ++ [.desel]), ?_, ?_, fun _ => ⟨rfl, ?_⟩⟩
    · rw [selOff_trace, hx, selOn_trace]
      simp
    · intro e he
      apply hP
      simp only [List.mem_append, List.mem_singleton] at he
      rcases he with rfl | he | rfl
      · trivial
      · obtain ⟨m, v, rfl⟩ := hxe e he
        trivial
      · trivial
    · show selAfter true (x ++ [.desel]) = some false
      rw [selAfter_exchanges hxe]
      rfl
  polls hs := by rw [selOff_pollCount, h.polls]; exact hs
  cmdLen hs := by rw [selOff_cmdBuf, h.cmdBuf]; exact hs
  respLen hs := by rw [selOff_respBuf, h.respBuf]; exact hs
  stageLen hs := by rw [selOff_rxStage, h.rxStage]; exact hs
  agent := ((keeps_onSel _ _).trans h.agent).trans (keeps_onDesel _ _)

theorem clean_writeWindow (hP : Bus P) (l : List Byte) (s : State) : Clean P s (writeWindow l s) :=
  clean_window hP (exchanges_writeBytes l _)

/-- A change of registers after a part, within the bounds. -/
theorem Clean.then_eq {s t u : State} (h : Clean P s t) (k : Clean P t u) : Clean P s u := h.trans k

theorem clean_stepDone (s : State) : Clean P s (stepDone s) :=
  .of_eq (by simp) (by simp) (by simp) (by simp) (by simp) (by simp) (by simp) (by simp) (by simp)
    (by rw [stepDone_agent]; exact .refl _)

theorem clean_sendFrom (hP : Bus P) (src : FrameSource) (f : List Byte) : Keeps (Clean P) (sendFrom src f) := by
  intro s
  rcases sendFrom_cases src f s with ⟨hlen, h⟩ | ⟨-, h⟩ <;> rw [h]
  · have hw := clean_writeWindow hP f (loadCmd src f s)
    exact { hw with
      cmdLen := fun hs => hw.cmdLen ((length_overwrite (by rw [hs]; exact hlen)).trans hs)
      agent := AgentKeeps.trans (b := (loadCmd src f s).agent) (.of_eq rfl rfl) hw.agent }
  · exact Clean.refl P s

theorem clean_sendCommand (hP : Bus P) (f : List Byte) : Keeps (Clean P) (sendCommand f) := clean_sendFrom hP .command f

/-! ### Handshakes -/

theorem exchanges_counted1 (s : State) : Exchanges (selOn s) { counted1 s with pollCount := s.pollCount } :=
  ((exchanges_xfer _ _).trans (exchanges_xfer _ _)).trans
    ⟨rfl, rfl, rfl, rfl, ⟨[], by simp [counted1, askCts], by simp⟩, rfl, rfl, rfl, rfl, .of_eq rfl rfl⟩

/-- A busy poll is a whole window; only the poll count can leave its bound. -/
theorem clean_busyPoll (hP : Bus P) {s : State} (hlt : s.pollCount < s.cfg.ctsRetryMax) : Clean P s (busyPoll s) :=
  { clean_window hP (exchanges_counted1 s) with
    polls := fun _ => by simp [busyPoll, counted1]; omega }

theorem clean_polled (hP : Bus P) {k : Nat} {s : State} (h : s.pollCount + k ≤ s.cfg.ctsRetryMax) :
    Clean P s (polled k s) := by
  induction k generalizing s with
  | zero => exact .refl P s
  | succ k ih =>
    exact (clean_busyPoll hP (by omega)).trans (ih (by simp [busyPoll, counted1]; omega))

theorem clean_ready (hP : Bus P) (n : Nat) {s : State} (hlt : s.pollCount < s.cfg.ctsRetryMax) :
    Clean P s (respond n (counted1 s)).state := by
  have hw := clean_window hP ((exchanges_counted1 s).trans (exchanges_afterReads n { counted1 s with pollCount := s.pollCount }))
  have hpc : (afterReads n (counted1 s)).pollCount = s.pollCount + 1 := by simp [counted1]
  have key : Clean P s (selOff (afterReads n (counted1 s))) := by
    have heq : ∀ (n : Nat) (u : State) (p : Nat), afterReads n { u with pollCount := p } = { afterReads n u with pollCount := p } := by
      intro n
      induction n with
      | zero => intros; rfl
      | succ n ih => intro u p; exact ih (xfer _ u) p
    rw [heq] at hw
    exact { hw with polls := fun _ => by rw [selOff_pollCount, hpc]; omega }
  rcases respond_cases n (counted1 s) with ⟨hn, h⟩ | ⟨-, h⟩ <;> rw [h]
  · refine { key with respLen := fun hs => ?_ }
    have : (counted1 s).respBuf = s.respBuf := by simp [counted1]
    show (overwrite (readBytes n (counted1 s)) (counted1 s).respBuf).length = _
    rw [this, length_overwrite, hs]
    rw [length_readBytes, hs]
    simpa [counted1] using hn
  · exact key

theorem clean_getResponse (hP : Bus P) (n : Nat) : Keeps (Clean P) (getResponse n) := by
  intro s
  have hb : Clean P s (beginHandshake s) :=
    .of_eq (by simp) (by simp) (by simp) (by simp) (by simp) (by simp) (by simp) (by simp) (by simp)
      (by rw [beginHandshake_agent]; exact keeps_onHandshake _)
  refine hb.trans ?_
  unfold getResponse
  obtain ⟨k, hk, -, h⟩ := pollLoop_cases n s.cfg.ctsRetryMax (beginHandshake s)
  have h0 : (beginHandshake s).pollCount + k ≤ (beginHandshake s).cfg.ctsRetryMax := by simpa using hk
  rcases h with ⟨-, h⟩ | ⟨hlt, -, h⟩ <;> rw [h]
  · exact clean_polled hP h0
  · exact (clean_polled hP h0).trans (clean_ready hP n (by simpa using hlt))

theorem Keeps.cleanDiscard {α : Type} {f : State → Flow α} (h : Keeps (Clean P) f) :
    Keeps (Clean P) (fun s => (f s).bind fun _ t => .ok () t) :=
  Keeps.bind (Clean.composes P) h fun _ s => Clean.refl P s

theorem clean_waitForCts (hP : Bus P) : Keeps (Clean P) waitForCts := (clean_getResponse hP 0).cleanDiscard

theorem clean_pair {f g : Step} (hf : Keeps (Clean P) f) (hg : Keeps (Clean P) g) : Keeps (Clean P) (chain [f, g]) :=
  Keeps.chain (Clean.composes P) (by simp [hf, hg])

theorem clean_cmdWait (hP : Bus P) (f : List Byte) : Keeps (Clean P) (cmdWait f) :=
  clean_pair (clean_sendCommand hP f) (clean_waitForCts hP)

theorem clean_configWait (hP : Bus P) (f : List Byte) : Keeps (Clean P) (configWait f) :=
  clean_pair (clean_sendFrom hP _ f) (clean_waitForCts hP)

theorem clean_setProperty (hP : Bus P) (g o : Byte) (d : List Byte) : Keeps (Clean P) (setProperty g o d) :=
  clean_cmdWait hP (propFrame g o d)

theorem clean_readRxFifo (hP : Bus P) (n : Nat) : Keeps (Clean P) (readRxFifo n) := fun _ =>
  clean_window hP ((exchanges_xfer _ _).trans (exchanges_afterReads n _))

theorem clean_writeTxFifo (hP : Bus P) (d : List Byte) : Keeps (Clean P) (writeTxFifo d) := clean_writeWindow hP _

/-! ### The composed parts -/

theorem clean_cursor (n : Nat) (s : State) : Clean P s { s with cursor := n } :=
  .of_eq rfl rfl rfl rfl rfl id rfl rfl rfl (.refl _)

theorem clean_replayRecord (hP : Bus P) (src : FrameSource) (n : Nat) (f : List Byte) :
    Keeps (Clean P) (replayRecord src n f) := by
  refine Keeps.chain (Clean.composes P) ?_
  simp only [List.mem_cons, List.not_mem_nil, or_false, forall_eq_or_imp, forall_eq]
  exact ⟨clean_sendFrom hP src f, clean_waitForCts hP, fun s => clean_cursor _ s⟩

theorem clean_replayLoop (hP : Bus P) (src : FrameSource) (t : List Byte) (fuel : Nat) :
    Keeps (Clean P) (replayLoop src t fuel) := by
  induction fuel with
  | zero => exact Clean.refl P
  | succ fuel ih =>
    intro s
    unfold replayLoop
    split
    · split
      · exact Clean.refl P s
      · split
        · exact Keeps.bind (Clean.composes P) (clean_replayRecord hP _ _ _) (fun _ => ih) s
        · exact Clean.refl P s
    · exact Clean.refl P s

theorem clean_noteReplayed (t : List Byte) (s : State) : Clean P s (noteReplayed t s) := by
  unfold noteReplayed
  split
  · exact .of_eq rfl rfl rfl rfl rfl id rfl rfl rfl (keeps_onReplayed _)
  · exact .refl P s

theorem clean_replay (hP : Bus P) (t : List Byte) : Keeps (Clean P) (replay t) :=
  Keeps.bind (Clean.composes P) (f := fun s => replayLoop (tableSource s.cfg t) t (t.length + 1) { s with cursor := 0 })
    (fun s => (clean_cursor 0 s).trans (clean_replayLoop hP _ t _ _)) fun _ s => clean_noteReplayed t s

theorem clean_clearIntsSteps (hP : Bus P) (c : Config) : ∀ f ∈ clearIntsSteps c, Keeps (Clean P) f := by
  simp only [clearIntsSteps, List.mem_cons, List.not_mem_nil, or_false, forall_eq_or_imp, forall_eq]
  exact ⟨clean_sendCommand hP _, (clean_getResponse hP _).cleanDiscard⟩

theorem clean_clearInterrupts (hP : Bus P) : Keeps (Clean P) clearInterrupts := fun s =>
  Keeps.chain (Clean.composes P) (clean_clearIntsSteps hP s.cfg) s

/-- A single event outside any window. -/
theorem clean_event {s t : State} {e : Event} (he : P e) (hw : selAfter false [e] = some false) (hcfg : t.cfg = s.cfg)
    (hlog : t.log = s.log) (hstatus : t.status = s.status) (htrace : t.trace = s.trace ++ [e]) (hsel : t.sel = s.sel)
    (hpolls : t.pollCount = s.pollCount) (hcmd : t.cmdBuf = s.cmdBuf) (hresp : t.respBuf = s.respBuf)
    (hstage : t.rxStage = s.rxStage) (hagent : AgentKeeps s.agent t.agent) : Clean P s t :=
  ⟨hcfg, hlog, hstatus, ⟨[e], htrace, by simp [he], fun h => ⟨hsel.trans h, hw⟩⟩, fun h => by rw [hpolls]; exact h,
    fun h => by rw [hcmd]; exact h, fun h => by rw [hresp]; exact h, fun h => by rw [hstage]; exact h, hagent⟩

theorem clean_setRst (b : Bool) (h : P (.rst b)) (s : State) : Clean P s (setRst b s) :=
  clean_event h rfl rfl rfl rfl rfl rfl rfl rfl rfl rfl (keeps_onRst _ _ _)

theorem clean_delayUs (n : Nat) (h : P (.delayUs n)) (s : State) : Clean P s (delayUs n s) :=
  clean_event h rfl rfl rfl rfl rfl rfl rfl rfl rfl rfl (keeps_onDelayUs _ _)

theorem clean_delayMs (n : Nat) (h : P (.delayMs n)) (s : State) : Clean P s (delayMs n s) :=
  clean_event h rfl rfl rfl rfl rfl rfl rfl rfl rfl rfl (keeps_onDelayMs _ _ _)

theorem clean_sampleIrq (h : ∀ b, P (.irq b)) (s : State) : Clean P s (sampleIrq s) :=
  clean_event (h _) rfl rfl rfl rfl rfl rfl rfl rfl rfl rfl (keeps_onSample _ _)

theorem clean_powerUpSteps (c : Config) : ∀ f ∈ powerUpSteps c, Keeps (Clean Event.onBusOrReset) f := by
  simp only [powerUpSteps, List.mem_cons, List.not_mem_nil, or_false, forall_eq_or_imp, forall_eq]
  exact ⟨fun s => clean_setRst true trivial s, fun s => clean_delayUs _ trivial s, fun s => clean_setRst false trivial s,
    fun s => clean_delayMs _ trivial s, clean_sendCommand bus_reset _, clean_waitForCts bus_reset,
    clean_clearInterrupts bus_reset⟩

theorem clean_powerUp : Keeps (Clean Event.onBusOrReset) powerUp := fun s =>
  Keeps.chain (Clean.composes _) (clean_powerUpSteps s.cfg) s

theorem clean_planSteps (hP : Bus P) (plan : List PlanEntry) (p : List Byte) :
    ∀ f ∈ planSteps plan p, Keeps (Clean P) f := by
  intro f hf
  obtain ⟨e, -, rfl⟩ := List.mem_map.1 hf
  exact clean_setProperty hP _ _ _

theorem clean_configWaits (hP : Bus P) (fs : List (List Byte)) : ∀ f ∈ fs.map configWait, Keeps (Clean P) f := by
  intro f hf
  obtain ⟨l, -, rfl⟩ := List.mem_map.1 hf
  exact clean_configWait hP l

theorem clean_bringup : Keeps (Clean Event.onBusOrReset) bringup := by
  intro s
  refine Keeps.chain (Clean.composes _) (fs := bringupSteps s.cfg) ?_ s
  intro f hf
  simp only [bringupSteps, List.mem_append, List.mem_cons, List.not_mem_nil, or_false] at hf
  rcases hf with ((rfl | rfl | rfl | rfl) | hf) | rfl | rfl
  · exact clean_powerUp
  · exact clean_replay bus_reset _
  · exact fun s => Keeps.chain (Clean.composes _) (clean_planSteps bus_reset s.cfg.freqPlan _) s
  · exact fun s => Keeps.chain (Clean.composes _) (clean_planSteps bus_reset s.cfg.powerPlan _) s
  · exact clean_configWaits bus_reset _ f hf
  · exact clean_cmdWait bus_reset _
  · exact clean_clearInterrupts bus_reset

theorem clean_enterSteps (fs : List (List Byte)) (last : List Byte) :
    ∀ f ∈ bringup :: (fs.map configWait ++ [cmdWait last]), Keeps (Clean Event.onBusOrReset) f := by
  intro f hf
  simp only [List.mem_cons, List.mem_append, List.not_mem_nil, or_false] at hf
  rcases hf with rfl | hf | rfl
  · exact clean_bringup
  · exact clean_configWaits bus_reset _ f hf
  · exact clean_cmdWait bus_reset _

/-- A frame of the right length is staged. -/
theorem clean_stage {d : List Byte} (hd : d.length = Literal.frameLen) {s t : State} (h : Clean P s t) :
    Clean P s { t with rxStage := overwrite d t.rxStage, rxValid := true } :=
  ⟨h.cfg, h.log, h.status, h.trace, h.polls, h.cmdLen, h.respLen,
    fun hs => (length_overwrite (by rw [h.stageLen hs, hd])).trans (h.stageLen hs), h.agent⟩

theorem clean_stageFrame (hP : Bus P) : Keeps (Clean P) stageFrame := fun s =>
  clean_stage (length_readBytes Literal.frameLen (openRxRead s)) (clean_readRxFifo hP Literal.frameLen s)

theorem clean_handOff : Keeps (Clean P) handOff := by
  intro s
  unfold handOff
  split
  · exact .of_eq rfl rfl rfl rfl rfl id rfl rfl rfl (.refl _)
  · exact .refl P s

theorem clean_receiveSteps (hP : Bus P) : ∀ f ∈ receiveSteps, Keeps (Clean P) f := by
  simp only [receiveSteps, List.mem_cons, List.not_mem_nil, or_false, forall_eq_or_imp, forall_eq]
  exact ⟨clean_stageFrame hP, clean_cmdWait hP _, clean_clearInterrupts hP, clean_cmdWait hP _⟩

theorem clean_tryReceive : Keeps (Clean Event.onBusOrSample) tryReceive := by
  intro s
  have h1 : Clean Event.onBusOrSample s (stepDone (sampleIrq s)) :=
    (clean_sampleIrq (fun _ => trivial) s).trans (clean_stepDone _)
  unfold tryReceive
  dsimp only
  split
  · refine h1.trans (Keeps.bind (Clean.composes _) ?_ (fun _ => clean_handOff) _)
    exact Keeps.counted (Clean.composes _) clean_stepDone (clean_receiveSteps bus_sample)
  · exact h1

theorem clean_clearIfAsserted (hP : Bus P) : Keeps (Clean P) clearIfAsserted := by
  intro s
  unfold clearIfAsserted
  split
  · exact clean_clearInterrupts hP s
  · exact .refl P s

theorem clean_sendFrameSteps (f : List Byte) : ∀ g ∈ sendFrameSteps f, Keeps (Clean Event.onBusOrSample) g := by
  simp only [sendFrameSteps, List.mem_cons, List.not_mem_nil, or_false, forall_eq_or_imp, forall_eq]
  exact ⟨fun s => clean_sendCommand bus_sample _ s, clean_writeTxFifo bus_sample f, clean_waitForCts bus_sample,
    fun s => clean_sampleIrq (fun _ => trivial) s, clean_clearIfAsserted bus_sample, clean_sendCommand bus_sample _⟩

/-- The body of a host operation that is a list of steps. -/
theorem clean_body {fs : List Step} (h : ∀ f ∈ fs, Keeps (Clean P) f) :
    Keeps (Clean P) (fun t => (chain (counted fs) t).bind fun _ u => .ok Result.ok u) :=
  Keeps.bind (Clean.composes P) (Keeps.counted (Clean.composes P) clean_stepDone h) fun _ s => .refl P s

end Sys2Proof.Machine
end

