-- ==== Sys2Proof/Laws/Ends.lean ====
section
/-! SUPPORT. How the parts of an operation end under an admitted configuration: with a value, or by a Timeout whose recorded
values are those of spec R262; never at a point with no meaning (R278). -/

namespace Sys2Proof.Machine

/-- What is recorded at a Timeout: the polls, all of them, and the busy byte of the last one (R262). -/
structure TimedOut (c : Config) (n : Nat) (t : State) : Prop where
  cfg : t.cfg = c
  polls : n = c.ctsRetryMax
  count : t.pollCount = c.ctsRetryMax
  last : ∃ b, b ≠ Literal.ctsReady ∧ t.lastCts = some b

/-- A part ends with a value or by a Timeout. -/
def Flow.Ended {α : Type} (c : Config) : Flow α → Prop
  | .ok _ t => t.cfg = c
  | .timeout n t => TimedOut c n t
  | .fault _ => False

/-- Under the configuration `c` the part ends with a value or by a Timeout. -/
def Ends {α : Type} (c : Config) (f : State → Flow α) : Prop := ∀ s, s.cfg = c → (f s).Ended c

variable {c : Config}

theorem Ends.bind {α β : Type} {f : State → Flow α} {g : α → State → Flow β} (hf : Ends c f) (hg : ∀ a, Ends c (g a)) :
    Ends c (fun s => (f s).bind g) := by
  intro s hs
  have h := hf s hs
  cases hfs : f s with
  | ok a t => rw [hfs] at h; simpa [hfs] using hg a t h
  | timeout n t => rw [hfs] at h; dsimp only; rw [hfs]; exact h
  | fault t => rw [hfs] at h; exact h.elim

theorem ends_lift {f : State → State} (h : ∀ s, (f s).cfg = s.cfg) : Ends c (lift f) := fun s hs => (h s).trans hs

theorem Ends.chain {fs : List Step} (h : ∀ f ∈ fs, Ends c f) : Ends c (chain fs) := by
  induction fs with
  | nil => exact fun _ hs => hs
  | cons f fs ih => exact (h f (by simp)).bind fun _ => ih fun g hg => h g (by simp [hg])

theorem Ends.counted {fs : List Step} (h : ∀ f ∈ fs, Ends c f) : ∀ g ∈ counted fs, Ends c g := by
  intro g hg
  obtain ⟨f, hf, rfl⟩ := List.mem_map.1 hg
  exact (h f hf).bind fun _ s hs => by simpa [Flow.Ended] using hs

theorem ends_sendFrom {src : FrameSource} {f : List Byte} (h : f.length ≤ c.cmdBufCap) : Ends c (sendFrom src f) := by
  rintro s rfl
  rw [sendFrom_ok h]
  simp [Flow.Ended]

theorem ends_sendCommand {f : List Byte} (h : f.length ≤ c.cmdBufCap) : Ends c (sendCommand f) := ends_sendFrom h

theorem ends_getResponse (hp : Polls c) {n : Nat} (hn : n ≤ c.respBufCap) : Ends c (getResponse n) := by
  rintro s rfl
  unfold getResponse
  obtain ⟨k, hk, hbusy, h⟩ := pollLoop_cases n s.cfg.ctsRetryMax (beginHandshake s)
  rcases h with ⟨rfl, h⟩ | ⟨-, -, h⟩ <;> rw [h]
  · refine ⟨by simp, by simp, by simp, ?_⟩
    obtain ⟨j, hj⟩ : ∃ j, s.cfg.ctsRetryMax = j + 1 := ⟨s.cfg.ctsRetryMax - 1, by have := hp.ceiling; omega⟩
    have hb := hbusy j (by omega)
    rw [hj, polled_succ]
    exact ⟨xferByte Literal.dummyByte (xfer (polled j (beginHandshake s)).cfg.opReadCmdBuff (selOn (polled j (beginHandshake s)))),
      fun he => hb (congrArg some he), rfl⟩
  · rcases respond_cases n (counted1 (polled k (beginHandshake s))) with ⟨-, hr⟩ | ⟨hlt, -⟩
    · rw [hr]
      simp [Flow.Ended, counted1]
    · simp [counted1] at hlt
      omega

theorem Ends.discard {α : Type} {f : State → Flow α} (h : Ends c f) : Ends c (fun s => (f s).bind fun _ t => .ok () t) :=
  h.bind fun _ _ hs => hs

theorem ends_waitForCts (hp : Polls c) : Ends c waitForCts := (ends_getResponse hp (Nat.zero_le _)).discard

theorem ends_cmdWait (hp : Polls c) {f : List Byte} (h : f.length ≤ c.cmdBufCap) : Ends c (cmdWait f) :=
  Ends.chain (by simp [ends_sendCommand h, ends_waitForCts hp])

theorem ends_configWait (hp : Polls c) {f : List Byte} (h : f.length ≤ c.cmdBufCap) : Ends c (configWait f) :=
  Ends.chain (by simp [ends_sendFrom h, ends_waitForCts hp])

theorem ends_readRxFifo (n : Nat) : Ends c (readRxFifo n) := fun s hs => by
  simpa [readRxFifo, openRxRead, Flow.Ended] using hs

theorem ends_writeTxFifo (d : List Byte) : Ends c (writeTxFifo d) := ends_lift fun s => by simp

variable (hf : Facts c)
include hf

theorem ends_setPropertySteps (g o : Byte) {d : List Byte} (h : d.length ≤ c.propMax) :
    ∀ f ∈ setPropertySteps g o d, Ends c f := by
  have : (propFrame g o d).length ≤ c.cmdBufCap := by have := hf.propCap; simp [propFrame]; omega
  simp [setPropertySteps, ends_sendCommand this, ends_waitForCts hf.polls]

theorem ends_planSteps {plan : List PlanEntry} (h : ∀ e ∈ plan, e.count ≤ c.propMax) (p : List Byte) :
    ∀ f ∈ planSteps plan p, Ends c f := by
  intro f hm
  obtain ⟨e, he, rfl⟩ := List.mem_map.1 hm
  exact Ends.chain (ends_setPropertySteps hf _ _ ((length_planSlice p e).trans (h e he)))

theorem ends_clearIntsSteps : ∀ f ∈ clearIntsSteps c, Ends c f := by
  have : (intStatusFrame c).length ≤ c.cmdBufCap := by have := hf.intCap; simp [intStatusFrame]; omega
  simp only [clearIntsSteps, List.mem_cons, List.not_mem_nil, or_false, forall_eq_or_imp, forall_eq]
  exact ⟨ends_sendCommand this, (ends_getResponse hf.polls hf.respCap).discard⟩

theorem ends_clearInterrupts : Ends c clearInterrupts := by
  rintro s rfl
  exact Ends.chain (ends_clearIntsSteps hf) s rfl

theorem ends_powerUpSteps : ∀ f ∈ powerUpSteps c, Ends c f := by
  simp only [powerUpSteps, List.mem_cons, List.not_mem_nil, or_false, forall_eq_or_imp, forall_eq]
  exact ⟨ends_lift fun _ => rfl, ends_lift fun _ => rfl, ends_lift fun _ => rfl, ends_lift fun _ => rfl,
    ends_sendCommand hf.powerFits, ends_waitForCts hf.polls, ends_clearInterrupts hf⟩

theorem ends_powerUp : Ends c powerUp := by
  rintro s rfl
  exact Ends.chain (ends_powerUpSteps hf) s rfl

theorem ends_replay {t : List Byte} (h : tableWF c.cmdBufCap t = true) : Ends c (replay t) := by
  obtain ⟨fs, hfs, hcap⟩ := tableWF_records h
  rintro s rfl
  rw [replay_eq hfs]
  refine Ends.bind (f := fun u => chain (recordSteps (tableSource s.cfg t) fs) { u with cursor := 0 }) ?_
    (fun _ u hu => ?_) s rfl
  · refine fun s hs => Ends.chain (fun f hm => ?_) { s with cursor := 0 } hs
    obtain ⟨g, hg, rfl⟩ := List.mem_map.1 hm
    refine Ends.chain ?_
    simp only [List.mem_cons, List.not_mem_nil, or_false, forall_eq_or_imp, forall_eq]
    exact ⟨ends_sendFrom (hcap g hg), ends_waitForCts hf.polls, ends_lift fun _ => rfl⟩
  · simpa [Flow.Ended] using hu

theorem ends_configWaits {fs : List (List Byte)} (h : ∀ f ∈ fs, f.length ≤ c.cmdBufCap) :
    ∀ g ∈ fs.map configWait, Ends c g := by
  intro g hg
  obtain ⟨f, hm, rfl⟩ := List.mem_map.1 hg
  exact ends_configWait hf.polls (h f hm)

theorem ends_resetFifo (sub : Byte) : Ends c (resetFifo sub) :=
  ends_cmdWait hf.polls (by have := hf.cmdCap; simp [fifoResetFrame]; omega)

theorem ends_rearm : Ends c rearm := ends_cmdWait hf.polls (by have := hf.cmdCap; simp [rearmFrame, startRxFrame]; omega)

theorem ends_bringup : Ends c bringup := by
  rintro s rfl
  refine Ends.chain (fs := bringupSteps s.cfg) ?_ s rfl
  intro f hm
  simp only [bringupSteps, List.mem_append, List.mem_cons, List.not_mem_nil, or_false] at hm
  rcases hm with ((rfl | rfl | rfl | rfl) | hm) | rfl | rfl
  · exact ends_powerUp hf
  · exact ends_replay hf hf.table
  · intro u hu
    have := Ends.chain (ends_planSteps hf (fun e he => (hf.freqPlan e he).1) s.cfg.freqParams) u hu
    unfold setFrequency
    rwa [hu]
  · intro u hu
    have := Ends.chain (ends_planSteps hf (fun e he => (hf.powerPlan e he).1) s.cfg.powerParams) u hu
    unfold setPower
    rwa [hu]
  · exact ends_configWaits hf hf.extraFits f hm
  · exact ends_resetFifo hf _
  · exact ends_clearInterrupts hf

theorem ends_enterSteps {fs : List (List Byte)} (h : ∀ f ∈ fs, f.length ≤ c.cmdBufCap) {last : List Byte}
    (hl : last.length ≤ c.cmdBufCap) : ∀ f ∈ bringup :: (fs.map configWait ++ [cmdWait last]), Ends c f := by
  intro f hm
  simp only [List.mem_cons, List.mem_append, List.not_mem_nil, or_false] at hm
  rcases hm with rfl | hm | rfl
  · exact ends_bringup hf
  · exact ends_configWaits hf h f hm
  · exact ends_cmdWait hf.polls hl

omit hf in
theorem ends_stageFrame : Ends c stageFrame := (ends_readRxFifo _).bind fun _ _ hs => hs

theorem ends_clearIfAsserted : Ends c clearIfAsserted := by
  intro s hs
  unfold clearIfAsserted
  split
  · exact ends_clearInterrupts hf s hs
  · exact hs

theorem ends_sendFrameSteps (f : List Byte) : ∀ g ∈ sendFrameSteps f, Ends c g := by
  have := hf.cmdCap
  simp only [sendFrameSteps, List.mem_cons, List.not_mem_nil, or_false, forall_eq_or_imp, forall_eq]
  refine ⟨?_, ends_writeTxFifo f, ends_waitForCts hf.polls, ends_lift fun _ => rfl, ends_clearIfAsserted hf,
    ends_sendCommand (by simp [startTxFrame]; omega)⟩
  rintro s rfl
  exact ends_sendCommand (by simp [standbyFrame]; omega) s rfl

omit hf

/-- The state after `n` bytes are read from the RX FIFO and staged (R240). -/
def stagedBy (n : Nat) (s : State) : State :=
  { selOff (afterReads n (openRxRead s)) with
    rxStage := overwrite (readBytes n (openRxRead s)) s.rxStage
    rxValid := true }

theorem stage_eq (n : Nat) (s : State) :
    ((readRxFifo n s).bind fun d t => .ok () { t with rxStage := overwrite d t.rxStage, rxValid := true }) =
      .ok () (stagedBy n s) := by
  simp [readRxFifo, openRxRead, stagedBy]

@[simp] theorem stagedBy_cfg (n : Nat) (s : State) : (stagedBy n s).cfg = s.cfg := by simp [stagedBy, openRxRead]
@[simp] theorem stagedBy_rxStage (n : Nat) (s : State) :
    (stagedBy n s).rxStage = overwrite (readBytes n (openRxRead s)) s.rxStage := rfl

/-- The state after the frame is staged (R240). -/
def staged (s : State) : State := stagedBy Literal.frameLen s

theorem stageFrame_eq (s : State) : stageFrame s = .ok () (staged s) := stage_eq Literal.frameLen s

@[simp] theorem staged_cfg (s : State) : (staged s).cfg = s.cfg := stagedBy_cfg _ s

theorem staged_rxStage (s : State) :
    (staged s).rxStage = overwrite (readBytes Literal.frameLen (openRxRead s)) s.rxStage := stagedBy_rxStage _ s

/-- What TRY_RECEIVE does once the frame is staged (R240). -/
def receiveRest : List Step := [resetFifo Literal.fifoSubRx, clearInterrupts, rearm]

theorem receive_eq (s : State) :
    chain (counted receiveSteps) s = chain (counted receiveRest) (stepDone (staged s)) := by
  show chain ((fun s => (stageFrame s).bind fun _ t => .ok () (stepDone t)) :: counted receiveRest) s = _
  exact chain_ok (by rw [stageFrame_eq, Flow.bind_ok])

theorem frame_receiveRest : Keeps (Frame respRegs) (chain (counted receiveRest)) := by
  refine Keeps.counted (Frame.composes _) (frame_stepDone _) ?_
  simp only [receiveRest, List.mem_cons, List.not_mem_nil, or_false, forall_eq_or_imp, forall_eq]
  exact ⟨(frame_cmdWait _).mono (by decide), frame_clearInterrupts, (frame_cmdWait _).mono (by decide)⟩

/-- The hand-off finds a staged frame (R240, R241). -/
theorem handOff_staged {s : State} {d : List Byte} (hd : d.length = Literal.frameLen) {b : Buffer}
    (h : s.rxStage = overwrite d b) : handOff s = .ok (.some d) { s with rxValid := false } := by
  unfold handOff
  rw [h, ← hd, readBuffer_overwrite]

/-- The rest of TRY_RECEIVE leaves the staged frame where it is. -/
theorem receiveRest_stage {s t : State} (h : chain (counted receiveRest) (stepDone (staged s)) = .ok () t) :
    t.rxStage = overwrite (readBytes Literal.frameLen (openRxRead s)) s.rxStage := by
  have := (frame_receiveRest (stepDone (staged s))).rxStage (by decide)
  rw [h] at this
  rw [Flow.state_ok] at this
  rw [this, stepDone_rxStage, staged_rxStage]

include hf in
theorem ends_tryReceive : Ends c tryReceive := by
  rintro s rfl
  unfold tryReceive
  dsimp only
  have hcfg : (stepDone (sampleIrq s)).cfg = s.cfg := by simp
  generalize stepDone (sampleIrq s) = u at hcfg
  split
  · rw [receive_eq]
    have hlist : ∀ f ∈ receiveRest, Ends s.cfg f := by
      simp only [receiveRest, List.mem_cons, List.not_mem_nil, or_false, forall_eq_or_imp, forall_eq]
      exact ⟨ends_resetFifo hf _, ends_clearInterrupts hf, ends_rearm hf⟩
    have hend := Ends.chain (Ends.counted hlist) (stepDone (staged u)) (by simpa using hcfg)
    cases hc : chain (counted receiveRest) (stepDone (staged u)) with
    | ok a w =>
      rw [hc] at hend
      rw [Flow.bind_ok, handOff_staged (length_readBytes _ _) (receiveRest_stage hc)]
      exact hend
    | timeout n w => rw [hc] at hend; exact hend
    | fault w => rw [hc] at hend; exact hend.elim
  · exact hcfg

/-- The body of a host operation that is a list of steps. -/
theorem ends_body {fs : List Step} (h : ∀ f ∈ fs, Ends c f) :
    Ends c (fun t => (chain (counted fs) t).bind fun _ u => .ok Result.ok u) :=
  (Ends.chain (Ends.counted h)).bind fun _ _ hs => hs

end Sys2Proof.Machine
end

