-- ==== Sys2Proof/Laws/Exec.lean ====
section
/-! SUPPORT. The instructions, all at once: each host operation and pseudo-instruction is `hostOp` of its body, each wire row
`wireOp` of its body; and of every body, which registers it may write, which events it may cause, and how it ends. -/

namespace Sys2Proof.Machine

/-- The body of an operation that is a list of steps. -/
def stepsBody (fs : List Step) (t : State) : Flow Result := (chain (counted fs) t).bind fun _ u => .ok .ok u

/-- The body of a host operation or pseudo-instruction under a configuration. -/
def hostBody (c : Config) : Instr → State → Flow Result
  | .waitCts => stepsBody [waitForCts]
  | .sendCmd frame => stepsBody [sendCommand frame]
  | .getResp n => fun t => (getResponse n t).bind fun l u => .ok (.okBytes l) (stepDone u)
  | .readRxFifo n => fun t => (readRxFifo n t).bind fun l u => .ok (.okBytes l) (stepDone u)
  | .writeTxFifo data => stepsBody [writeTxFifo data]
  | .setProperty g o d => stepsBody (setPropertySteps g o d)
  | .replay t => stepsBody [Machine.replay t]
  | .powerUp => stepsBody (powerUpSteps c)
  | .clearInts => stepsBody (clearIntsSteps c)
  | .setFreq p => stepsBody (planSteps c.freqPlan p)
  | .setPower p => stepsBody (planSteps c.powerPlan p)
  | .startTx ch cond len => stepsBody [Machine.startTx ch cond len]
  | .startRx ch cond len t v x => stepsBody (startRxSteps ch cond len t v x)
  | .resetFifo sub => stepsBody (resetFifoSteps sub)
  | .standby => stepsBody [Machine.standby]
  | .enterRx => stepsBody (enterRxSteps c)
  | .enterTx => stepsBody (enterTxSteps c)
  | .tryReceive => Machine.tryReceive
  | .sendFrame frame => stepsBody (sendFrameSteps frame)
  | .readRssi => fun t => .ok (.okByte t.cfg.rssiPlaceholder) (stepDone t)
  | .resetTxFifo => stepsBody (resetFifoSteps Literal.fifoSubTx)
  | .resetRxFifo => stepsBody (resetFifoSteps Literal.fifoSubRx)
  | .resetBothFifos => stepsBody (resetFifoSteps Literal.fifoSubBoth)
  | .rearmRx => stepsBody (startRxSteps Literal.rearmChannel Literal.rearmCondition Literal.frameLength
      Literal.rearmOnTimeout Literal.rearmOnValid Literal.rearmOnInvalid)
  | _ => fun t => .ok .ok t

/-- The body of a wire row under a configuration. -/
def wireBody (c : Config) : Instr → Step
  | .wireWriteTxFifo data => writeTxFifo data
  | .wireReadRxFifo n => fun t => (readRxFifo n t).bind fun _ u => .ok () u
  | .wireReadCmdBuff n => fun t =>
    if (askCts t).lastCts = some Literal.ctsReady then (respond n (askCts t)).bind fun _ u => .ok () u
    else .ok () (selOff (askCts t))
  | i => sendCommand (encodeFrame c i)

theorem exec_host {i : Instr} (h : i.isWire = false) (s : State) : exec i s = hostOp i.expand (hostBody s.cfg i) s := by
  cases i <;> first | rfl | simp [Instr.isWire] at h

theorem exec_wire {i : Instr} (h : i.isWire = true) (s : State) : exec i s = wireOp i (wireBody s.cfg i) s := by
  cases i <;> first | rfl | simp [Instr.isWire] at h

/-- The checks of an instruction are those of its expansion. -/
theorem failingCheck_expand {i : Instr} (c : Config) : i.expand.failingCheck c = i.failingCheck c := by
  cases i <;> rfl

theorem expand_wire {i : Instr} (h : i.isWire = true) : i.expand = i := by
  cases i <;> first | rfl | simp [Instr.isWire] at h

/-- Everything an instruction that answers a next state has done: the engine was IDLE; and the instruction was refused, or
its body ran as a host operation, or its body ran as one wire transaction. -/
theorem exec_next {i : Instr} {s t : State} (h : exec i s = .next t) :
    s.seq = .idle ∧
      ((∃ k, i.failingCheck s.cfg = some k ∧ t = refuse (.op i.expand) k s) ∨
        (i.failingCheck s.cfg = none ∧ i.isWire = false ∧
          t = finish i.expand (hostBody s.cfg i (begin i.expand s))) ∨
        (i.failingCheck s.cfg = none ∧ i.isWire = true ∧ t = settle (wireBody s.cfg i s))) := by
  cases hw : i.isWire with
  | true =>
    rw [exec_wire hw] at h
    obtain ⟨hs, ⟨k, hk, rfl⟩ | ⟨hk, rfl⟩⟩ := wireOp_next h
    · exact ⟨hs, .inl ⟨k, hk, by rw [expand_wire hw]⟩⟩
    · exact ⟨hs, .inr (.inr ⟨hk, rfl, rfl⟩)⟩
  | false =>
    rw [exec_host hw] at h
    obtain ⟨hs, ⟨k, hk, rfl⟩ | ⟨hk, rfl⟩⟩ := hostOp_next h
    · exact ⟨hs, .inl ⟨k, by rw [← failingCheck_expand]; exact hk, rfl⟩⟩
    · exact ⟨hs, .inr (.inl ⟨by rw [← failingCheck_expand]; exact hk, rfl, rfl⟩)⟩

/-- An admitted request on an IDLE engine runs the body of its instruction (R45, R133). -/
theorem exec_runs {i : Instr} {s : State} (hw : i.isWire = false) (hs : s.seq = .idle) (hk : i.failingCheck s.cfg = none) :
    exec i s = .next (finish i.expand (hostBody s.cfg i (begin i.expand s))) := by
  rw [exec_host hw, hostOp_admitted hs ((failingCheck_expand s.cfg).trans hk)]

/-- As `exec_runs`, for a wire row. -/
theorem exec_runs_wire {i : Instr} {s : State} (hw : i.isWire = true) (hs : s.seq = .idle)
    (hk : i.failingCheck s.cfg = none) : exec i s = .next (settle (wireBody s.cfg i s)) := by
  rw [exec_wire hw, wireOp_idle hs, hk]

/-! ### Frames -/

theorem frame_stepsBody {w : List Reg} {fs : List Step} (h : ∀ f ∈ fs, Keeps (Frame w) f) :
    Keeps (Frame w) (stepsBody fs) := frame_body h

theorem frame_cmdSteps (f : List Byte) : ∀ g ∈ [sendCommand f, waitForCts], Keeps (Frame cmdRegs) g := by
  simp only [List.mem_cons, List.not_mem_nil, or_false, forall_eq_or_imp, forall_eq]
  exact ⟨(frame_sendCommand f).mono (by decide), frame_waitForCts.mono (by decide)⟩

theorem frame_single {w : List Reg} {f : Step} (h : Keeps (Frame w) f) : ∀ g ∈ [f], Keeps (Frame w) g := by
  simpa using h

theorem frame_value {α : Type} {w : List Reg} {f : State → Flow α} (h : Keeps (Frame w) f) (r : α → Result) :
    Keeps (Frame w) (fun t => (f t).bind fun l u => .ok (r l) (stepDone u)) :=
  Keeps.bind (Frame.composes w) h fun _ => frame_stepDone w

/-- The registers the body of a host operation may write: those of `Instr.writes`, `rx_valid` only in TRY_RECEIVE (elsewhere
it is the abort path's, R265). -/
def bodyWrites (i : Instr) : List Reg :=
  match i with
  | .tryReceive => i.writes
  | _ => i.writes.filter fun r => decide (r ≠ .rxValid)

/-- No body writes a register beyond `bodyWrites`. -/
theorem frame_hostBody (c : Config) (i : Instr) : Keeps (Frame (bodyWrites i)) (hostBody c i) := by
  cases i with
  | waitCts => exact frame_stepsBody (frame_single (frame_waitForCts.mono (by dsimp only [bodyWrites, Instr.writes]; decide)))
  | sendCmd f => exact frame_stepsBody (frame_single ((frame_sendCommand f).mono (by dsimp only [bodyWrites, Instr.writes]; decide)))
  | getResp n => exact frame_value ((frame_getResponse n).mono (by dsimp only [bodyWrites, Instr.writes]; decide)) _
  | readRxFifo n => exact frame_value ((frame_readRxFifo n).mono (by dsimp only [bodyWrites, Instr.writes]; decide)) _
  | writeTxFifo d => exact frame_stepsBody (frame_single ((frame_writeTxFifo d).mono (by dsimp only [bodyWrites, Instr.writes]; decide)))
  | setProperty g o d => exact frame_stepsBody fun f hf => (frame_cmdSteps _ f hf).mono (by dsimp only [bodyWrites, Instr.writes]; decide)
  | replay t => exact frame_stepsBody (frame_single ((frame_replay t).mono (by dsimp only [bodyWrites, Instr.writes]; decide)))
  | powerUp => exact frame_stepsBody fun f hf => (frame_powerUpSteps c f hf).mono (by dsimp only [bodyWrites, Instr.writes]; decide)
  | clearInts => exact frame_stepsBody fun f hf => (frame_clearIntsSteps c f hf).mono (by dsimp only [bodyWrites, Instr.writes]; decide)
  | setFreq p => exact frame_stepsBody fun f hf => (frame_planSteps _ p f hf).mono (by dsimp only [bodyWrites, Instr.writes]; decide)
  | setPower p => exact frame_stepsBody fun f hf => (frame_planSteps _ p f hf).mono (by dsimp only [bodyWrites, Instr.writes]; decide)
  | startTx ch cond len => exact frame_stepsBody (frame_single ((frame_sendCommand _).mono (by dsimp only [bodyWrites, Instr.writes]; decide)))
  | startRx ch cond len t v x => exact frame_stepsBody fun f hf => (frame_cmdSteps _ f hf).mono (by dsimp only [bodyWrites, Instr.writes]; decide)
  | resetFifo sub => exact frame_stepsBody fun f hf => (frame_cmdSteps _ f hf).mono (by dsimp only [bodyWrites, Instr.writes]; decide)
  | standby => exact frame_stepsBody (frame_single (frame_standby.mono (by dsimp only [bodyWrites, Instr.writes]; decide)))
  | enterRx => exact frame_stepsBody fun f hf => (frame_enterSteps _ rearmFrame f hf).mono (by dsimp only [bodyWrites, Instr.writes]; decide)
  | enterTx => exact frame_stepsBody fun f hf => (frame_enterSteps _ (fifoResetFrame _) f hf).mono (by dsimp only [bodyWrites, Instr.writes]; decide)
  | tryReceive => exact frame_tryReceive
  | sendFrame f => exact frame_stepsBody fun g hg => (frame_sendFrameSteps f g hg).mono (by dsimp only [bodyWrites, Instr.writes]; decide)
  | readRssi => exact fun s => frame_stepDone _ s
  | resetTxFifo => exact frame_stepsBody fun f hf => (frame_cmdSteps _ f hf).mono (by dsimp only [bodyWrites, Instr.writes]; decide)
  | resetRxFifo => exact frame_stepsBody fun f hf => (frame_cmdSteps _ f hf).mono (by dsimp only [bodyWrites, Instr.writes]; decide)
  | resetBothFifos => exact frame_stepsBody fun f hf => (frame_cmdSteps _ f hf).mono (by dsimp only [bodyWrites, Instr.writes]; decide)
  | rearmRx => exact frame_stepsBody fun f hf => (frame_cmdSteps _ f hf).mono (by dsimp only [bodyWrites, Instr.writes]; decide)
  | _ => exact fun s => Frame.refl _ s

/-- The body writes nothing beyond what the instruction may write. -/
theorem bodyWrites_subset (i : Instr) : bodyWrites i ⊆ i.writes := by
  unfold bodyWrites
  split
  · exact List.Subset.refl _
  · exact fun r hr => (List.mem_filter.1 hr).1

theorem frame_askCts (s : State) : Frame [.sel, .lastCts] s (askCts s) := by constructor <;> intros <;> simp_all

theorem frame_wireBody (c : Config) {i : Instr} (h : i.isWire = true) : Keeps (Frame i.writes) (wireBody c i) := by
  cases i with
  | wireWriteTxFifo d => exact frame_writeTxFifo d
  | wireReadRxFifo n => exact (frame_readRxFifo n).discard
  | wireReadCmdBuff n =>
    intro s
    unfold wireBody
    dsimp only
    split
    · exact ((frame_askCts s).mono (by dsimp only [Instr.writes]; decide)).trans ((frame_respond n).discard.mono (by dsimp only [Instr.writes]; decide) _)
    · exact ((frame_askCts s).mono (by dsimp only [Instr.writes]; decide)).trans (by constructor <;> intros <;> simp_all [Instr.writes])
  | wirePropWrite _ _ _ _ => exact frame_sendCommand _
  | wireFifoReset _ => exact frame_sendCommand _
  | wireStartTx _ _ _ => exact frame_sendCommand _
  | wireStartRx _ _ _ _ _ _ => exact frame_sendCommand _
  | wireGetIntStatus _ => exact frame_sendCommand _
  | wireChangeState _ => exact frame_sendCommand _
  | wirePowerUp _ => exact frame_sendCommand _
  | _ => simp [Instr.isWire] at h

/-! ### Events -/

/-- The events an operation may cause beyond those of its transactions: the reset line and the delays in POWER_UP and the
bring-ups (R32), the ready-line sample in Frame I/O (R271). -/
def mayCause : Instr → Event → Prop
  | .powerUp => Event.onBusOrReset
  | .enterRx => Event.onBusOrReset
  | .enterTx => Event.onBusOrReset
  | .tryReceive => Event.onBusOrSample
  | .sendFrame _ => Event.onBusOrSample
  | _ => Event.onBus

theorem clean_stepsBody {P : Event → Prop} {fs : List Step} (h : ∀ f ∈ fs, Keeps (Clean P) f) :
    Keeps (Clean P) (stepsBody fs) := clean_body h

theorem clean_cmdSteps {P : Event → Prop} (hP : Bus P) (f : List Byte) :
    ∀ g ∈ [sendCommand f, waitForCts], Keeps (Clean P) g := by
  simp only [List.mem_cons, List.not_mem_nil, or_false, forall_eq_or_imp, forall_eq]
  exact ⟨clean_sendCommand hP f, clean_waitForCts hP⟩

theorem clean_single {P : Event → Prop} {f : Step} (h : Keeps (Clean P) f) : ∀ g ∈ [f], Keeps (Clean P) g := by
  simpa using h

theorem clean_value {α : Type} {P : Event → Prop} {f : State → Flow α} (h : Keeps (Clean P) f) (r : α → Result) :
    Keeps (Clean P) (fun t => (f t).bind fun l u => .ok (r l) (stepDone u)) :=
  Keeps.bind (Clean.composes P) h fun _ => clean_stepDone

theorem clean_hostBody (c : Config) (i : Instr) : Keeps (Clean (mayCause i)) (hostBody c i) := by
  cases i with
  | waitCts => exact clean_stepsBody (clean_single (clean_waitForCts bus_onBus))
  | sendCmd f => exact clean_stepsBody (clean_single (clean_sendCommand bus_onBus f))
  | getResp n => exact clean_value (clean_getResponse bus_onBus n) _
  | readRxFifo n => exact clean_value (clean_readRxFifo bus_onBus n) _
  | writeTxFifo d => exact clean_stepsBody (clean_single (clean_writeTxFifo bus_onBus d))
  | setProperty g o d => exact clean_stepsBody (clean_cmdSteps bus_onBus _)
  | replay t => exact clean_stepsBody (clean_single (clean_replay bus_onBus t))
  | powerUp => exact clean_stepsBody (clean_powerUpSteps c)
  | clearInts => exact clean_stepsBody (clean_clearIntsSteps bus_onBus c)
  | setFreq p => exact clean_stepsBody (clean_planSteps bus_onBus _ p)
  | setPower p => exact clean_stepsBody (clean_planSteps bus_onBus _ p)
  | startTx ch cond len => exact clean_stepsBody (clean_single (clean_sendCommand bus_onBus _))
  | startRx ch cond len t v x => exact clean_stepsBody (clean_cmdSteps bus_onBus _)
  | resetFifo sub => exact clean_stepsBody (clean_cmdSteps bus_onBus _)
  | standby => exact clean_stepsBody (clean_single fun s => clean_sendCommand bus_onBus _ s)
  | enterRx => exact clean_stepsBody (clean_enterSteps _ rearmFrame)
  | enterTx => exact clean_stepsBody (clean_enterSteps _ (fifoResetFrame _))
  | tryReceive => exact clean_tryReceive
  | sendFrame f => exact clean_stepsBody (clean_sendFrameSteps f)
  | readRssi => exact fun s => clean_stepDone s
  | resetTxFifo => exact clean_stepsBody (clean_cmdSteps bus_onBus _)
  | resetRxFifo => exact clean_stepsBody (clean_cmdSteps bus_onBus _)
  | resetBothFifos => exact clean_stepsBody (clean_cmdSteps bus_onBus _)
  | rearmRx => exact clean_stepsBody (clean_cmdSteps bus_onBus _)
  | _ => exact fun s => Clean.refl _ s

theorem clean_poll (c : Config) {P : Event → Prop} (hP : Bus P) (n : Nat) :
    Keeps (Clean P) (wireBody c (.wireReadCmdBuff n)) := by
  intro s
  have hx : Exchanges (selOn s) (askCts s) := by
    have := ((exchanges_xfer s.cfg.opReadCmdBuff (selOn s)).trans (exchanges_xfer Literal.dummyByte _))
    exact this.trans ⟨rfl, rfl, rfl, rfl, ⟨[], by simp [askCts], by simp⟩, rfl, rfl, rfl, rfl, .of_eq rfl rfl⟩
  unfold wireBody
  dsimp only
  split
  · have key : Clean P s (selOff (afterReads n (askCts s))) := clean_window hP (hx.trans (exchanges_afterReads n _))
    rcases respond_cases n (askCts s) with ⟨hn, h⟩ | ⟨-, h⟩ <;> rw [h]
    · refine { key with respLen := fun hs => ?_ }
      have : (askCts s).respBuf = s.respBuf := by simp
      show (overwrite (readBytes n (askCts s)) (askCts s).respBuf).length = _
      rw [this, length_overwrite, hs]
      rw [length_readBytes, hs]
      simpa using hn
    · exact key
  · exact clean_window hP hx

theorem clean_wireBody (c : Config) {i : Instr} (h : i.isWire = true) : Keeps (Clean Event.onBus) (wireBody c i) := by
  cases i with
  | wireWriteTxFifo d => exact clean_writeTxFifo bus_onBus d
  | wireReadRxFifo n => exact (clean_readRxFifo bus_onBus n).cleanDiscard
  | wireReadCmdBuff n => exact clean_poll c bus_onBus n
  | wirePropWrite _ _ _ _ => exact clean_sendCommand bus_onBus _
  | wireFifoReset _ => exact clean_sendCommand bus_onBus _
  | wireStartTx _ _ _ => exact clean_sendCommand bus_onBus _
  | wireStartRx _ _ _ _ _ _ => exact clean_sendCommand bus_onBus _
  | wireGetIntStatus _ => exact clean_sendCommand bus_onBus _
  | wireChangeState _ => exact clean_sendCommand bus_onBus _
  | wirePowerUp _ => exact clean_sendCommand bus_onBus _
  | _ => simp [Instr.isWire] at h

/-! ### Ends -/

theorem ends_stepsBody {c : Config} {fs : List Step} (h : ∀ f ∈ fs, Ends c f) : Ends c (stepsBody fs) := ends_body h

theorem ends_value {α : Type} {c : Config} {f : State → Flow α} (h : Ends c f) (r : α → Result) :
    Ends c (fun t => (f t).bind fun l u => .ok (r l) (stepDone u)) :=
  h.bind fun _ s hs => by simpa [Flow.Ended] using hs

theorem ends_cmdSteps {c : Config} (hp : Polls c) {f : List Byte} (h : f.length ≤ c.cmdBufCap) :
    ∀ g ∈ [sendCommand f, waitForCts], Ends c g := by
  simp [ends_sendCommand h, ends_waitForCts hp]

theorem ends_single {c : Config} {f : Step} (h : Ends c f) : ∀ g ∈ [f], Ends c g := by simpa using h

/-- Under an admitted configuration every admitted operation ends with a value or by a Timeout (R16, R278). -/
theorem ends_hostBody {c : Config} (hc : c.admitted = true) {i : Instr} (h : i.failingCheck c = none) :
    Ends c (hostBody c i) := by
  have hf := facts_of_admitted hc
  have h8 := hf.cmdCap
  cases i with
  | waitCts => exact ends_stepsBody (ends_single (ends_waitForCts hf.polls))
  | sendCmd f =>
    refine ends_stepsBody (ends_single (ends_sendCommand ?_))
    simp only [Instr.failingCheck] at h
    split at h
    · cases h
    · split at h
      · cases h
      · omega
  | getResp n =>
    refine ends_value (ends_getResponse hf.polls ?_) _
    simp only [Instr.failingCheck] at h
    split at h
    · cases h
    · omega
  | readRxFifo n => exact ends_value (ends_readRxFifo n) _
  | writeTxFifo d => exact ends_stepsBody (ends_single (ends_writeTxFifo d))
  | setProperty g o d =>
    refine ends_stepsBody (ends_setPropertySteps hf g o ?_)
    simp only [Instr.failingCheck] at h
    split at h
    · cases h
    · omega
  | replay t =>
    refine ends_stepsBody (ends_single (ends_replay hf ?_))
    simp only [Instr.failingCheck] at h
    split at h
    · assumption
    · cases h
  | powerUp => exact ends_stepsBody (ends_powerUpSteps hf)
  | clearInts => exact ends_stepsBody (ends_clearIntsSteps hf)
  | setFreq p => exact ends_stepsBody (ends_planSteps hf (fun e he => (hf.freqPlan e he).1) p)
  | setPower p => exact ends_stepsBody (ends_planSteps hf (fun e he => (hf.powerPlan e he).1) p)
  | startTx ch cond len => exact ends_stepsBody (ends_single (ends_sendCommand (by simp [startTxFrame]; omega)))
  | startRx ch cond len t v x => exact ends_stepsBody (ends_cmdSteps hf.polls (by simp [startRxFrame]; omega))
  | resetFifo sub => exact ends_stepsBody (ends_cmdSteps hf.polls (by simp [fifoResetFrame]; omega))
  | standby =>
    refine ends_stepsBody (ends_single ?_)
    rintro s rfl
    exact ends_sendCommand (by simp [standbyFrame]; omega) s rfl
  | enterRx => exact ends_stepsBody (ends_enterSteps hf hf.rxFits (last := rearmFrame) (by simp [rearmFrame, startRxFrame]; omega))
  | enterTx => exact ends_stepsBody (ends_enterSteps hf hf.txFits (last := fifoResetFrame Literal.fifoSubTx) (by simp [fifoResetFrame]; omega))
  | tryReceive => exact ends_tryReceive hf
  | sendFrame f => exact ends_stepsBody (ends_sendFrameSteps hf f)
  | readRssi => exact fun s hs => (stepDone_cfg s).trans hs
  | resetTxFifo => exact ends_stepsBody (ends_cmdSteps hf.polls (by simp [fifoResetFrame]; omega))
  | resetRxFifo => exact ends_stepsBody (ends_cmdSteps hf.polls (by simp [fifoResetFrame]; omega))
  | resetBothFifos => exact ends_stepsBody (ends_cmdSteps hf.polls (by simp [fifoResetFrame]; omega))
  | rearmRx => exact ends_stepsBody (ends_cmdSteps hf.polls (by simp [startRxFrame]; omega))
  | _ => exact fun s hs => hs

/-- An admitted wire row goes through: its transaction is put on the bus, whatever the chip answers. -/
theorem wireBody_ok {c : Config} (hc : c.admitted = true) {i : Instr} (hi : i.isWire = true)
    (h : i.failingCheck c = none) (s : State) (hs : s.cfg = c) : ∃ t, wireBody c i s = .ok () t := by
  have h8 := (facts_of_admitted hc).cmdCap
  subst hs
  cases i with
  | wireWriteTxFifo d => exact ⟨_, rfl⟩
  | wireReadRxFifo n => exact ⟨_, rfl⟩
  | wireReadCmdBuff n =>
    unfold wireBody
    dsimp only
    split
    · rcases respond_cases n (askCts s) with ⟨-, hr⟩ | ⟨hlt, -⟩
      · rw [hr]
        exact ⟨_, rfl⟩
      · simp only [Instr.failingCheck] at h
        split at h
        · cases h
        · simp at hlt
          omega
    · exact ⟨_, rfl⟩
  | wirePropWrite g n o d =>
    simp only [Instr.failingCheck] at h
    split at h
    · cases h
    · exact ⟨_, sendCommand_ok (by simp [encodeFrame]; omega)⟩
  | wireFifoReset _ => exact ⟨_, sendCommand_ok (by simp [encodeFrame]; omega)⟩
  | wireStartTx _ _ _ => exact ⟨_, sendCommand_ok (by simp [encodeFrame]; omega)⟩
  | wireStartRx _ _ _ _ _ _ => exact ⟨_, sendCommand_ok (by simp [encodeFrame]; omega)⟩
  | wireGetIntStatus a =>
    simp only [Instr.failingCheck] at h
    split at h
    · cases h
    · exact ⟨_, sendCommand_ok (by simp [encodeFrame]; omega)⟩
  | wireChangeState _ => exact ⟨_, sendCommand_ok (by simp [encodeFrame]; omega)⟩
  | wirePowerUp a =>
    simp only [Instr.failingCheck] at h
    split at h
    · cases h
    · exact ⟨_, sendCommand_ok (by simp [encodeFrame]; omega)⟩
  | _ => simp [Instr.isWire] at hi

/-! ### The reset line and the staged frame at the end of a body -/

/-- After the pulse of `power_up()` the reset line is released, however the rest ends (R196). -/
theorem released_powerUpSteps (c : Config) (s : State) : (chain (counted (powerUpSteps c)) s).state.rst = false := by
  have h : Keeps (Frame respRegs) (chain (counted [lift (delayMs c.tSettleMs), sendCommand c.powerUpFrame, waitForCts,
      clearInterrupts])) := by
    refine Keeps.counted (Frame.composes _) (frame_stepDone _) ?_
    simp only [List.mem_cons, List.not_mem_nil, or_false, forall_eq_or_imp, forall_eq]
    exact ⟨fun s => frame_delayMs _ _ s, (frame_sendCommand _).mono (by decide), frame_waitForCts.mono (by decide),
      frame_clearInterrupts⟩
  have := (h (stepDone (setRst false (stepDone (delayUs c.tRstAssertUs (stepDone (setRst true s))))))).rst (by decide)
  rw [stepDone_rst, setRst_rst] at this
  exact this

/-- As `released_powerUpSteps`, for POWER_UP inside a bring-up. -/
theorem released_powerUp (s : State) : (powerUp s).state.rst = false := by
  have h : Keeps (Frame respRegs) (chain [lift (delayMs s.cfg.tSettleMs), sendCommand s.cfg.powerUpFrame, waitForCts,
      clearInterrupts]) := by
    refine Keeps.chain (Frame.composes _) ?_
    simp only [List.mem_cons, List.not_mem_nil, or_false, forall_eq_or_imp, forall_eq]
    exact ⟨fun s => frame_delayMs _ _ s, (frame_sendCommand _).mono (by decide), frame_waitForCts.mono (by decide),
      frame_clearInterrupts⟩
  have := (h (setRst false (delayUs s.cfg.tRstAssertUs (setRst true s)))).rst (by decide)
  rw [setRst_rst] at this
  exact this

/-- A part that leaves a released reset line released. -/
abbrev Releases {α : Type} (f : State → Flow α) : Prop := Keeps (fun s t => s.rst = false → t.rst = false) f

theorem releases_composes : Composes (fun s t : State => s.rst = false → t.rst = false) :=
  ⟨fun _ h => h, fun h k x => k (h x)⟩

theorem releases_frame {α : Type} {w : List Reg} {f : State → Flow α} (hw : Reg.rst ∉ w) (h : Keeps (Frame w) f) :
    Releases f := fun s hs => ((h s).rst hw).trans hs

theorem releases_bringup : Releases bringup := by
  intro s
  refine Keeps.chain releases_composes (fs := bringupSteps s.cfg) ?_ s
  intro f hf
  simp only [bringupSteps, List.mem_append, List.mem_cons, List.not_mem_nil, or_false] at hf
  rcases hf with ((rfl | rfl | rfl | rfl) | hf) | rfl | rfl
  · exact fun s _ => released_powerUp s
  · exact releases_frame (by decide) (frame_replay _)
  · exact releases_frame (by decide) (frame_setFrequency _)
  · exact releases_frame (by decide) (frame_setPower _)
  · exact releases_frame (by decide) (frame_configWaits _ f hf)
  · exact releases_frame (by decide) (frame_cmdWait _)
  · exact releases_frame (by decide) frame_clearInterrupts

theorem releases_enterSteps (fs : List (List Byte)) (last : List Byte) :
    Releases (stepsBody (bringup :: (fs.map configWait ++ [cmdWait last]))) := by
  refine Keeps.bind releases_composes (Keeps.counted releases_composes (fun s h => by simpa using h) ?_)
    fun _ _ hs => hs
  intro f hf
  simp only [List.mem_cons, List.mem_append, List.not_mem_nil, or_false] at hf
  rcases hf with rfl | hf | rfl
  · exact releases_bringup
  · exact releases_frame (by decide) (frame_configWaits _ f hf)
  · exact releases_frame (by decide) (frame_cmdWait _)

theorem rst_mem_writes {i : Instr} (h : Reg.rst ∈ bodyWrites i) : i = .powerUp ∨ i = .enterRx ∨ i = .enterTx := by
  cases i <;> first | exact .inl rfl | exact .inr (.inl rfl) | exact .inr (.inr rfl) |
    (revert h; dsimp only [bodyWrites, Instr.writes]; simp)

/-- Every body leaves a released reset line released (R32). -/
theorem releases_hostBody (c : Config) (i : Instr) : Releases (hostBody c i) := by
  by_cases h : Reg.rst ∈ bodyWrites i
  · rcases rst_mem_writes h with rfl | rfl | rfl
    · intro s _
      have := released_powerUpSteps c s
      show ((chain (counted (powerUpSteps c)) s).bind fun _ u => .ok Result.ok u).state.rst = false
      cases hc : chain (counted (powerUpSteps c)) s <;> rw [hc] at this <;> exact this
    · exact releases_enterSteps _ rearmFrame
    · exact releases_enterSteps _ (fifoResetFrame _)
  · exact releases_frame h (frame_hostBody c i)

/-- A completed TRY_RECEIVE leaves no frame staged (R240, R241). -/
theorem tryReceive_handedOff {s t : State} {r : Result} (h : tryReceive s = .ok r t) (hs : s.rxValid = false) :
    t.rxValid = false := by
  unfold tryReceive at h
  dsimp only at h
  split at h
  · cases hc : chain (counted receiveSteps) (stepDone (sampleIrq s)) with
    | ok a u =>
      rw [hc, Flow.bind_ok] at h
      unfold handOff at h
      split at h
      · injection h with h1 h2
        rw [← h2]
      · cases h
    | timeout n u => rw [hc] at h; cases h
    | fault u => rw [hc] at h; cases h
  · injection h with h1 h2
    rw [← h2]
    simpa using hs

/-- A completed operation leaves no frame staged (R39). -/
theorem hostBody_handedOff {c : Config} {i : Instr} {s t : State} {r : Result} (h : hostBody c i s = .ok r t)
    (hs : s.rxValid = false) : t.rxValid = false := by
  by_cases hi : i = .tryReceive
  · subst hi
    exact tryReceive_handedOff h hs
  · have hf := frame_hostBody c i s
    rw [h] at hf
    refine (hf.rxValid ?_).trans hs
    unfold bodyWrites
    split
    · exact absurd rfl hi
    · simp

/-- A bare transaction leaves the sequencer alone. -/
theorem seq_wireBody (c : Config) {i : Instr} (h : i.isWire = true) (s : State) : (wireBody c i s).state.seq = s.seq := by
  have hs : ∀ f : List Byte, (sendCommand f s).state.seq = s.seq := fun f => by
    rcases sendCommand_cases f s with ⟨-, h⟩ | ⟨-, h⟩ <;> rw [h] <;> simp
  cases i with
  | wireWriteTxFifo d => simp [wireBody, writeTxFifo, lift]
  | wireReadRxFifo n => simp [wireBody, readRxFifo, openRxRead]
  | wireReadCmdBuff n =>
    unfold wireBody
    dsimp only
    split
    · rcases respond_cases n (askCts s) with ⟨-, h⟩ | ⟨-, h⟩ <;> rw [h] <;> simp
    · simp
  | wirePropWrite _ _ _ _ => exact hs _
  | wireFifoReset _ => exact hs _
  | wireStartTx _ _ _ => exact hs _
  | wireStartRx _ _ _ _ _ _ => exact hs _
  | wireGetIntStatus _ => exact hs _
  | wireChangeState _ => exact hs _
  | wirePowerUp _ => exact hs _
  | _ => simp [Instr.isWire] at h

end Sys2Proof.Machine
end

