-- ==== Sys2Proof/Laws/Handshake.lean ====
section
/-! SUPPORT. What a handshake, a command with its handshake, and a replay put on the bus, whatever the chip answers. -/

namespace Sys2Proof.Machine

/-- A poll sequence and one poll more. -/
theorem pollSeq_snoc {c : Config} {vs : List Byte} {v m} {es : List Event} (h : PollSeq c vs es) :
    PollSeq c (vs ++ [v]) (es ++ [.sel, .x c.opReadCmdBuff m, .x Literal.dummyByte v, .desel]) := by
  induction vs generalizing es with
  | nil => cases h; exact ⟨m, [], rfl, rfl⟩
  | cons w vs ih =>
    obtain ⟨m', rest, rfl, h⟩ := h
    exact ⟨m', _, by simp, ih h⟩

/-- `k` polls that read no 0xFF, as a poll sequence in the trace (R153). -/
theorem polled_seq' (k : Nat) (s : State) (hb : ∀ j < k, ¬ readyAt (polled j s)) :
    ∃ vs es, vs.length = k ∧ (∀ v ∈ vs, v ≠ 0xFF) ∧ PollSeq s.cfg vs es ∧ (polled k s).trace = s.trace ++ es ∧
      (0 < k → (polled k s).lastCts = vs.getLast?) := by
  induction k with
  | zero => exact ⟨[], [], rfl, by simp, rfl, by simp [polled], by simp⟩
  | succ k ih =>
    obtain ⟨vs, es, h1, h2, h3, h4, -⟩ := ih fun j hj => hb j (by omega)
    set p := polled k s
    refine ⟨vs ++ [xferByte Literal.dummyByte (xfer p.cfg.opReadCmdBuff (selOn p))],
      es ++ [.sel, .x s.cfg.opReadCmdBuff (xferByte p.cfg.opReadCmdBuff (selOn p)),
       .x Literal.dummyByte (xferByte Literal.dummyByte (xfer p.cfg.opReadCmdBuff (selOn p))), .desel], by simp [h1],
           ?_, pollSeq_snoc h3, ?_, fun _ => ?_⟩
    · intro v hv
      rcases List.mem_append.1 hv with hv | hv
      · exact h2 v hv
      · rw [List.mem_singleton.1 hv]
        intro he
        exact hb k (by omega) (by unfold readyAt counted1 askCts; exact congrArg some he)
    · rw [polled_succ]
      show (busyPoll p).trace = _
      simp only [busyPoll, counted1, askCts, selOff_trace, xfer_trace, selOn_trace]
      rw [h4]
      simp [p]
    · rw [polled_succ]
      simp [busyPoll, counted1, askCts, p]

/-- Everything a handshake can do (R153, R154, R156): some polls that read no 0xFF,
    and then either the ready one with the
response in its window, or, after CTS_RETRY_MAX of them, Timeout. -/
theorem getResponse_all {s : State} {n} (hp : Polls s.cfg) (hn : n ≤ s.cfg.respBufCap) :
    ∃ vs es, (∀ v ∈ vs, v ≠ 0xFF) ∧ PollSeq s.cfg vs es ∧
     ((∃ r last t, getResponse n s = .ok r t ∧ r.length = n ∧ ResponseWindow s.cfg r last ∧
         t.trace = s.trace ++ es ++ last ∧ vs.length < s.cfg.ctsRetryMax ∧
        t.pollCount = vs.length + 1 ∧ t.lastCts = some 0xFF ∧ t.respBuf = overwrite r s.respBuf) ∨
      (∃ t, getResponse n s = .timeout s.cfg.ctsRetryMax t ∧ t.trace = s.trace ++ es ∧ vs.length = s.cfg.ctsRetryMax ∧
          t.pollCount = s.cfg.ctsRetryMax ∧ t.respBuf = s.respBuf ∧
        t.lastCts = vs.getLast?)) := by
  unfold getResponse
  obtain ⟨k, hk, hb, h⟩ := pollLoop_cases n s.cfg.ctsRetryMax (beginHandshake s)
  obtain ⟨vs, es, h1, h2, h3, h4, h5⟩ := polled_seq' k _ hb
  refine ⟨vs, es, h2, h3, ?_⟩
  rcases h with ⟨rfl, h⟩ | ⟨hlt, hr, h⟩
  · exact .inr ⟨_, h, h4, h1, by simp, by simp, h5 hp.ceiling⟩
  · set p := polled k (beginHandshake s)
    rcases respond_cases n (counted1 p) with ⟨-, hr'⟩ | ⟨hlt, -⟩
    · rw [hr'] at h
      refine .inl ⟨_, [.sel, .x s.cfg.opReadCmdBuff (xferByte p.cfg.opReadCmdBuff (selOn p)),
          .x Literal.dummyByte 0xFF] ++ (readBytes n (counted1 p)).map (Event.x Literal.dummyByte) ++ [.desel], _, h,
          by simp, ⟨_, rfl⟩, ?_, by omega, ?_, ?_, ?_⟩
      · show (selOff (afterReads n (counted1 p))).trace = _
        have hff : xferByte Literal.dummyByte (xfer p.cfg.opReadCmdBuff (selOn p)) = 0xFF := Option.some.inj hr
        rw [selOff_trace, trace_afterReads]
        simp only [counted1, askCts, xfer_trace, selOn_trace, hff]
        rw [h4]
        simp [p]
      · simp [counted1, p, h1]
      · simp; exact hr
      · simp [counted1, p]
    · simp [counted1, p] at hlt; omega

/-- A sequence that completes: so did its first step, and then the rest. -/
theorem chain_cons_ok {f : Step} {fs : List Step} {s u : State} (h : chain (f :: fs) s = .ok () u) :
    ∃ t, f s = .ok () t ∧ chain fs t = .ok () u := by
  unfold chain at h
  cases hf : f s with
  | ok r t => rw [hf] at h; exact ⟨t, rfl, h⟩
  | timeout n t => rw [hf] at h; cases h
  | fault t => rw [hf] at h; cases h

theorem wait_ok {s t : State} (h : waitForCts s = .ok () t) : ∃ l, getResponse 0 s = .ok l t := by
  unfold waitForCts at h
  cases hf : getResponse 0 s with
  | ok r u => rw [hf] at h; injection h with _ h; subst h; exact ⟨r, rfl⟩
  | timeout n t => rw [hf] at h; cases h
  | fault t => rw [hf] at h; cases h

/-- A completed handshake has put one `Handshake` on the bus (R153, R156). -/
theorem get_hand {s t : State} {n r} (hp : Polls s.cfg) (hn : n ≤ s.cfg.respBufCap) (h : getResponse n s = .ok r t) :
    ∃ new, Handshake s.cfg n new ∧ t.trace = s.trace ++ new ∧ t.cfg = s.cfg := by
  obtain ⟨vs, es, h1, h2, h3⟩ := getResponse_all hp hn
  have hc := (frame_getResponse n s).cfg
  rw [h] at hc
  rcases h3 with ⟨r', last, t', e, hr, hl, ht, hlt, -⟩ | ⟨t', e, -⟩
  · rw [h] at e; injection e with e1 e2; subst e1 e2
    exact ⟨es ++ last, ⟨vs, es, _, last, h1, hlt, h2, hr, hl, rfl⟩, by rw [ht, List.append_assoc], hc⟩
  · rw [h] at e; cases e

/-- As `get_hand`, for WAIT_CTS. -/
theorem wait_hand {s t : State} (hp : Polls s.cfg) (h : waitForCts s = .ok () t) : ∃ new, Handshake s.cfg 0 new ∧
    t.trace = s.trace ++ new ∧ t.cfg = s.cfg := by
  obtain ⟨l, hl⟩ := wait_ok h
  exact get_hand hp (Nat.zero_le _) hl

/-- Everything WAIT_CTS can do (R153, R154). -/
theorem wait_all {s : State} (hp : Polls s.cfg) :
    (∃ t new, waitForCts s = .ok () t ∧ Handshake s.cfg 0 new ∧ t.trace = s.trace ++ new ∧ t.cfg = s.cfg ∧
        t.cursor = s.cursor) ∨
    ∃ t busy polls, waitForCts s = .timeout s.cfg.ctsRetryMax t ∧ PollSeq s.cfg busy polls ∧ (∀ v ∈ busy, v ≠ 0xFF) ∧
      busy.length = s.cfg.ctsRetryMax ∧ t.trace = s.trace ++ polls ∧ t.cursor = s.cursor := by
  have hcur := (frame_waitForCts s).cursor (by decide)
  obtain ⟨vs, es, h1, h2, ⟨r, last, t, e, -⟩ | ⟨t, e, ht, hl, -⟩⟩ := getResponse_all hp (Nat.zero_le s.cfg.respBufCap)
  · have hw : waitForCts s = .ok () t := by unfold waitForCts; rw [e]; rfl
    obtain ⟨new, a, b, d⟩ := wait_hand hp hw
    rw [hw] at hcur
    exact .inl ⟨t, new, hw, a, b, d, hcur⟩
  · have hw : waitForCts s = .timeout s.cfg.ctsRetryMax t := by unfold waitForCts; rw [e]; rfl
    rw [hw] at hcur
    exact .inr ⟨t, vs, es, hw, h2, h1, hl, ht, hcur⟩

/-- What `send_command` has put on the bus (R155). -/
theorem send_shape {s t : State} {f} (hl : f.length ≤ s.cfg.cmdBufCap) (h : sendCommand f s = .ok () t) :
    ∃ new, new.map Event.out = wOut f ∧ t.trace = s.trace ++ new ∧ t.cfg = s.cfg := by
  rw [sendCommand_ok hl] at h
  injection h with _ h
  obtain ⟨new, h1, h2⟩ := puts_writeWindow f (loadCmd .command f s)
  exact ⟨new, h2, by rw [← h]; exact h1, by rw [← h]; simp [loadCmd]⟩

/-- A command frame and its handshake (R159). -/
theorem cmdWait_shape {s t : State} {f} (hp : Polls s.cfg) (hl : f.length ≤ s.cfg.cmdBufCap)
    (h : cmdWait f s = .ok () t) :
    ∃ e1 h1, e1.map Event.out = wOut f ∧ Handshake s.cfg 0 h1 ∧ t.trace = s.trace ++ (e1 ++ h1) ∧ t.cfg = s.cfg := by
  obtain ⟨u, hu, h⟩ := chain_cons_ok h
  obtain ⟨v, hv, h⟩ := chain_cons_ok h
  injection h with _ h; subst h
  obtain ⟨e1, a1, a2, a3⟩ := send_shape hl hu
  obtain ⟨e2, b1, b2, b3⟩ := wait_hand (by rw [a3]; exact hp) hv
  rw [a3] at b1 b3
  exact ⟨e1, e2, a1, b1, by rw [b2, a2, List.append_assoc], b3⟩

/-- CLEAR_INTS that completes (R197). -/
theorem clear_shape {s t : State} (hs : s.cfg.admitted = true) (h : clearInterrupts s = .ok () t) :
    ∃ e1 h1, e1.map Event.out = wOut (intStatusFrame s.cfg) ∧ Handshake s.cfg 8 h1 ∧ t.trace = s.trace ++ (e1 ++ h1) ∧
        t.cfg = s.cfg := by
  have F := facts_of_admitted hs
  obtain ⟨u, hu, h⟩ := chain_cons_ok h
  obtain ⟨v, hv, h⟩ := chain_cons_ok h
  injection h with _ h; subst h
  obtain ⟨e1, a1, a2, a3⟩ := send_shape (by have := F.intCap; simp [intStatusFrame]; omega) hu
  cases hg : getResponse Literal.intStatusRespLen u with
  | ok l x =>
    rw [hg] at hv
    injection hv with _ hv; subst hv
    obtain ⟨e2, b1, b2, b3⟩ := get_hand (by rw [a3]; exact F.polls) (by rw [a3]; exact F.respCap) hg
    rw [a3] at b1 b3
    exact ⟨e1, e2, a1, b1, by rw [b2, a2, List.append_assoc], b3⟩
  | timeout n x => rw [hg] at hv; cases hv
  | fault x => rw [hg] at hv; cases hv

/-- Everything the records of a table can do (R180, R182, R184): all are sent,
    each with its handshake; or the handshake after
record `k` times out, and the cursor keeps its offset. -/
theorem records_all {c : Config} (hp : Polls c) {src} {fs : List (List Byte)}
    (hcap : ∀ f ∈ fs, f.length ≤ c.cmdBufCap) (s : State) (hs : s.cfg = c) :
    (∃ t done, chain (recordSteps src fs) s = .ok () t ∧ FramesSent c fs done ∧ t.trace = s.trace ++ done) ∨
    ∃ t k f done e busy polls, chain (recordSteps src fs) s = .timeout c.ctsRetryMax t ∧ fs[k]? = some f ∧
      FramesSent c (fs.take k) done ∧ e.map Event.out = wOut f ∧ PollSeq c busy polls ∧ (∀ v ∈ busy, v ≠ 0xFF) ∧
      busy.length = c.ctsRetryMax ∧ t.trace = s.trace ++ (done ++ e ++ polls) ∧
      t.cursor = s.cursor + ((fs.take k).map fun f => f.length + 1).sum := by
  induction fs generalizing s with
  | nil => exact .inl ⟨s, [], rfl, rfl, by simp⟩
  | cons f fs ih =>
    have hl : f.length ≤ s.cfg.cmdBufCap := by rw [hs]; exact hcap f (by simp)
    obtain ⟨e, he, h2⟩ := puts_writeWindow f (loadCmd src f s)
    have h1 := sendFrom_ok (source := src) hl
    set u := writeWindow f (loadCmd src f s) with hu
    have h3 : u.cfg = s.cfg := by have := (frame_sendFrom src f s).cfg; rw [h1] at this; exact this
    have hc : u.cursor = s.cursor := by have := (frame_sendFrom src f s).cursor (by decide); rw [h1] at this; exact this
    have he : u.trace = s.trace ++ e := he
    rcases wait_all (s := u) (by rw [h3, hs]; exact hp) with ⟨v, new, a1, a2, a3, a4, a5⟩ | ⟨v, busy, polls, a1, a2,
        a3, a4, a5, a6⟩
    · rw [h3, hs] at a2 a4
      have hrec : replayRecord src f.length f s = .ok () { v with cursor := v.cursor + f.length + 1 } := by
        unfold replayRecord; rw [chain_ok h1, chain_ok a1]; rfl
      have hch : chain (recordSteps src (f :: fs)) s = chain (recordSteps src fs) { v with cursor :=
          v.cursor + f.length + 1 } := chain_ok hrec
      rw [hch]
      rcases ih (fun g hg => hcap g (by simp [hg])) { v with cursor := v.cursor + f.length + 1 } a4 with ⟨t, done, b1,
          b2, b3⟩ | ⟨t, k, g, done, e', busy, polls, b1, b2, b3, b4, b5, b6, b7, b8, b9⟩
      · exact .inl ⟨t, e ++ new ++ done, b1, ⟨e, new, done, rfl, h2, a2, b2⟩, by rw [b3, show ({ v with cursor :=
            v.cursor + f.length + 1 } : State).trace = v.trace from rfl, a3, he]; simp⟩
      · refine .inr ⟨t, k + 1, g, e ++ new ++ done, e', busy, polls, b1, by simpa using b2, ⟨e, new, done, rfl, h2,
            a2, b3⟩, b4, b5, b6, b7, ?_, ?_⟩
        · rw [b8, show ({ v with cursor := v.cursor + f.length + 1 } : State).trace = v.trace from rfl, a3, he]; simp
        · rw [b9, List.take_succ_cons, List.map_cons, List.sum_cons]
          show v.cursor + f.length + 1 + _ = _
          rw [a5, hc]; omega
    · rw [h3, hs] at a1 a2 a4
      have hrec : replayRecord src f.length f s = .timeout c.ctsRetryMax v := by
        unfold replayRecord; rw [chain_ok h1, chain_timeout a1]
      refine .inr ⟨v, 0, f, [], e, busy, polls, chain_timeout hrec, rfl, rfl, h2, a2, a3, a4, ?_, ?_⟩
      · rw [a5, he]; simp
      · rw [a6, hc]; simp

end Sys2Proof.Machine
end

