-- ==== Sys2Proof/Laws/Parts.lean ====
section
/-! SUPPORT. One traversal of all the operations: a relation between states that the transactions and the few other parts keep
is kept by every operation. `frames` says which command frames an instruction sends. -/

namespace Sys2Proof.Machine

/-- A command frame as it is sent: where it comes from, and its bytes. -/
abbrev Sent := FrameSource × List Byte

/-- A frame that the engine composes or the host gives. -/
abbrev Sent.ofCommand (f : List Byte) : Sent := (.command, f)

/-- A configured frame. -/
abbrev Sent.ofConfig (f : List Byte) : Sent := (.configuration, f)

/-- The part relates its start to its end by `R`, under the configuration `c`. -/
def KeepsAt {α : Type} (c : Config) (R : State → State → Prop) (f : State → Flow α) : Prop :=
  ∀ s, s.cfg = c → R s (f s).state ∧ (f s).state.cfg = c

/-- `R` is kept by the parts that occur in every kind of operation, under the configuration `c` and for the command frames
that meet `ok`: whatever leaves the chip agent alone, a command frame, a FIFO write, a FIFO read, a handshake with its
response, a sample of the ready line. -/
structure Closed (c : Config) (ok : Sent → Prop) (R : State → State → Prop) : Prop where
  comp : Composes R
  regs : ∀ s t : State, t.agent = s.agent → t.cfg = s.cfg → R s t
  send : ∀ (f : Sent) (s : State), s.cfg = c → ok f → R s (writeWindow f.2 (loadCmd f.1 f.2 s))
  push : ∀ (d : List Byte) (s : State), s.cfg = c → R s (writeWindow (Literal.opWriteTxFifo :: d) s)
  pull : ∀ (n : Nat) (s : State), s.cfg = c → R s (selOff (afterReads n (openRxRead s)))
  poll : ∀ (n : Nat) (s : State), s.cfg = c → R s (getResponse n s).state
  sample : ∀ s : State, s.cfg = c → R s (sampleIrq s)

/-- `R` is also kept by the reset line and the delays. -/
structure ClosedReset (c : Config) (R : State → State → Prop) : Prop where
  rst : ∀ (b : Bool) (s : State), s.cfg = c → R s (setRst b s)
  us : ∀ (n : Nat) (s : State), s.cfg = c → R s (delayUs n s)
  ms : ∀ (n : Nat) (s : State), s.cfg = c → R s (delayMs n s)

/-- `R` is also kept when the chip agent is told that a configuration replay has completed. -/
abbrev ClosedReplay (c : Config) (R : State → State → Prop) : Prop :=
  ∀ (t : List Byte) (s : State), s.cfg = c → R s (noteReplayed t s)

variable {c : Config} {ok : Sent → Prop} {R : State → State → Prop}

theorem KeepsAt.bind {α β : Type} (hR : Composes R) {f : State → Flow α} {g : α → State → Flow β} (hf : KeepsAt c R f)
    (hg : ∀ a, KeepsAt c R (g a)) : KeepsAt c R (fun s => (f s).bind g) := by
  intro s hs
  have h := hf s hs
  dsimp only
  cases hfs : f s with
  | ok a t =>
    rw [hfs] at h
    obtain ⟨h1, h2⟩ := hg a t h.2
    exact ⟨hR.trans h.1 h1, h2⟩
  | timeout n t => rw [hfs] at h; exact h
  | fault t => rw [hfs] at h; exact h

theorem KeepsAt.chain (hR : Composes R) {fs : List Step} (h : ∀ f ∈ fs, KeepsAt c R f) : KeepsAt c R (chain fs) := by
  induction fs with
  | nil => exact fun s hs => ⟨hR.refl s, hs⟩
  | cons f fs ih => exact KeepsAt.bind hR (h f (by simp)) fun _ => ih fun g hg => h g (by simp [hg])

theorem KeepsAt.discard {α : Type} (hR : Composes R) {f : State → Flow α} (h : KeepsAt c R f) :
    KeepsAt c R (fun s => (f s).bind fun _ t => .ok () t) :=
  KeepsAt.bind hR h fun _ s hs => ⟨hR.refl s, hs⟩

section
variable (h : Closed c ok R)
include h

theorem Closed.stepDone : KeepsAt c R (lift Machine.stepDone) := fun s hs =>
  ⟨h.regs s (Machine.stepDone s) (by simp) (by simp), (stepDone_cfg s).trans hs⟩

theorem Closed.counted {fs : List Step} (hf : ∀ f ∈ fs, KeepsAt c R f) : KeepsAt c R (Machine.chain (counted fs)) := by
  refine KeepsAt.chain h.comp fun g hg => ?_
  obtain ⟨f, hm, rfl⟩ := List.mem_map.1 hg
  exact KeepsAt.bind h.comp (hf f hm) fun _ => h.stepDone

theorem Closed.steps {fs : List Step} (hf : ∀ f ∈ fs, KeepsAt c R f) : KeepsAt c R (stepsBody fs) :=
  KeepsAt.bind h.comp (h.counted hf) fun _ s hs => ⟨h.comp.refl s, hs⟩

theorem Closed.value {α : Type} {f : State → Flow α} (hf : KeepsAt c R f) (r : α → Result) :
    KeepsAt c R (fun t => (f t).bind fun l u => .ok (r l) (Machine.stepDone u)) :=
  KeepsAt.bind h.comp hf fun _ => h.stepDone

theorem Closed.sendFrom {src : FrameSource} {f : List Byte} (hf : ok (src, f)) : KeepsAt c R (sendFrom src f) := by
  intro s hs
  rcases sendFrom_cases src f s with ⟨-, hh⟩ | ⟨-, hh⟩ <;> rw [hh]
  · exact ⟨h.send (src, f) s hs hf, by simpa using hs⟩
  · exact ⟨h.comp.refl s, hs⟩

theorem Closed.sendCommand {f : List Byte} (hf : ok (.ofCommand f)) : KeepsAt c R (sendCommand f) := h.sendFrom hf

theorem Closed.getResponse (n : Nat) : KeepsAt c R (getResponse n) := fun s hs =>
  ⟨h.poll n s hs, ((frame_getResponse n s).cfg).trans hs⟩

theorem Closed.waitForCts : KeepsAt c R waitForCts := (h.getResponse 0).discard h.comp

theorem Closed.cmdSteps {src : FrameSource} {f : List Byte} (hf : ok (src, f)) :
    ∀ g ∈ [Machine.sendFrom src f, Machine.waitForCts], KeepsAt c R g := by
  simp only [List.mem_cons, List.not_mem_nil, or_false, forall_eq_or_imp, forall_eq]
  exact ⟨h.sendFrom hf, h.waitForCts⟩

theorem Closed.cmdWait {f : List Byte} (hf : ok (.ofCommand f)) : KeepsAt c R (cmdWait f) :=
  KeepsAt.chain h.comp (h.cmdSteps hf)

theorem Closed.configWaits {fs : List (List Byte)} (hf : ∀ f ∈ fs.map Sent.ofConfig, ok f) :
    ∀ g ∈ fs.map Machine.configWait, KeepsAt c R g := by
  intro g hg
  obtain ⟨f, hm, rfl⟩ := List.mem_map.1 hg
  exact KeepsAt.chain h.comp (h.cmdSteps (hf _ (List.mem_map_of_mem hm)))

theorem Closed.readRxFifo (n : Nat) : KeepsAt c R (readRxFifo n) := fun s hs =>
  ⟨h.pull n s hs, by simpa [Machine.readRxFifo, openRxRead] using hs⟩

theorem Closed.writeTxFifo (d : List Byte) : KeepsAt c R (writeTxFifo d) := fun s hs =>
  ⟨h.push d s hs, by simpa [Machine.writeTxFifo, lift] using hs⟩

theorem Closed.clearIntsSteps (hf : ok (.ofCommand (intStatusFrame c))) : ∀ f ∈ clearIntsSteps c, KeepsAt c R f := by
  simp only [Machine.clearIntsSteps, List.mem_cons, List.not_mem_nil, or_false, forall_eq_or_imp, forall_eq]
  exact ⟨h.sendCommand hf, (h.getResponse _).discard h.comp⟩

theorem Closed.clearInterrupts (hf : ok (.ofCommand (intStatusFrame c))) : KeepsAt c R clearInterrupts := by
  rintro s rfl
  exact KeepsAt.chain h.comp (h.clearIntsSteps hf) s rfl

/-- The frames of a plan's property writes (R198, R199). -/
def planFrames (plan : List PlanEntry) (p : List Byte) : List Sent :=
  plan.map fun e => .ofCommand (propFrame e.group e.offset (planSlice p e))

theorem Closed.planSteps {plan : List PlanEntry} {p : List Byte} (hf : ∀ f ∈ planFrames plan p, ok f) :
    ∀ f ∈ planSteps plan p, KeepsAt c R f := by
  intro f hm
  obtain ⟨e, he, rfl⟩ := List.mem_map.1 hm
  exact h.cmdWait (hf _ (List.mem_map.2 ⟨e, he, rfl⟩))

/-- The record frames of a table, as REPLAY sends them (R185, R222). -/
def tableFrames (c : Config) (t : List Byte) : List Sent := ((tableRecords t).getD []).map (tableSource c t, ·)

theorem Closed.replay (hr : ClosedReplay c R) {t : List Byte} (hwf : tableWF c.cmdBufCap t = true)
    (hf : ∀ f ∈ tableFrames c t, ok f) : KeepsAt c R (replay t) := by
  obtain ⟨fs, hfs, -⟩ := tableWF_records hwf
  have hm : ∀ f ∈ fs, ok (tableSource c t, f) := fun f hm => hf _ (by
    rw [tableFrames, hfs]
    exact List.mem_map_of_mem hm)
  rintro s rfl
  rw [replay_eq hfs]
  have hsteps : ∀ g ∈ recordSteps (tableSource s.cfg t) fs, KeepsAt s.cfg R g := by
    intro g hg
    obtain ⟨f, hf', rfl⟩ := List.mem_map.1 hg
    refine KeepsAt.chain h.comp ?_
    simp only [List.mem_cons, List.not_mem_nil, or_false, forall_eq_or_imp, forall_eq]
    exact ⟨h.sendFrom (hm f hf'), h.waitForCts, fun s hs => ⟨h.regs s _ rfl rfl, hs⟩⟩
  refine KeepsAt.bind h.comp (f := fun u => Machine.chain (recordSteps (tableSource s.cfg t) fs) { u with cursor := 0 })
    (g := fun _ u => .ok () (noteReplayed t u)) (fun u hu => ?_)
    (fun _ u hu => ⟨hr t u hu, (noteReplayed_cfg u t).trans hu⟩) s rfl
  obtain ⟨h1, h2⟩ := KeepsAt.chain h.comp hsteps { u with cursor := 0 } hu
  exact ⟨h.comp.trans (h.regs u { u with cursor := 0 } rfl rfl) h1, h2⟩

theorem Closed.powerUpSteps (hr : ClosedReset c R) (h1 : ok (.ofCommand c.powerUpFrame))
    (h2 : ok (.ofCommand (intStatusFrame c))) :
    ∀ f ∈ powerUpSteps c, KeepsAt c R f := by
  simp only [Machine.powerUpSteps, List.mem_cons, List.not_mem_nil, or_false, forall_eq_or_imp, forall_eq]
  exact ⟨fun s hs => ⟨hr.rst true s hs, hs⟩, fun s hs => ⟨hr.us _ s hs, hs⟩, fun s hs => ⟨hr.rst false s hs, hs⟩,
    fun s hs => ⟨hr.ms _ s hs, hs⟩, h.sendCommand h1, h.waitForCts, h.clearInterrupts h2⟩

/-- The command frames of BRINGUP (R204). -/
def bringupCommands (c : Config) : List Sent :=
  .ofCommand c.powerUpFrame :: (tableFrames c c.configTable ++ planFrames c.freqPlan c.freqParams ++
    planFrames c.powerPlan c.powerParams ++ (bringupFrames c.bringupExtra).map Sent.ofConfig ++
    [.ofCommand (fifoResetFrame Literal.fifoSubBoth), .ofCommand (intStatusFrame c)])

theorem Closed.bringup (hr : ClosedReset c R) (hp : ClosedReplay c R) (hwf : tableWF c.cmdBufCap c.configTable = true)
    (hf : ∀ f ∈ bringupCommands c, ok f) : KeepsAt c R bringup := by
  simp only [bringupCommands, List.mem_cons, List.mem_append, List.not_mem_nil, or_false, or_imp, forall_and,
    forall_eq] at hf
  obtain ⟨h1, ⟨⟨⟨h2, h3⟩, h4⟩, h5⟩, h6, h7⟩ := hf
  rintro s rfl
  refine KeepsAt.chain h.comp (fs := bringupSteps s.cfg) ?_ s rfl
  intro f hm
  simp only [bringupSteps, List.mem_append, List.mem_cons, List.not_mem_nil, or_false] at hm
  rcases hm with ((rfl | rfl | rfl | rfl) | hm) | rfl | rfl
  · intro u hu
    unfold Machine.powerUp
    rw [hu]
    exact KeepsAt.chain h.comp (h.powerUpSteps hr h1 h7) u hu
  · exact h.replay hp hwf h2
  · intro u hu
    unfold setFrequency
    rw [hu]
    exact KeepsAt.chain h.comp (h.planSteps h3) u hu
  · intro u hu
    unfold setPower
    rw [hu]
    exact KeepsAt.chain h.comp (h.planSteps h4) u hu
  · exact h.configWaits h5 f hm
  · exact h.cmdWait h6
  · exact h.clearInterrupts h7

theorem Closed.tryReceive (h1 : ok (.ofCommand (fifoResetFrame Literal.fifoSubRx)))
    (h2 : ok (.ofCommand (intStatusFrame c))) (h3 : ok (.ofCommand rearmFrame)) :
    KeepsAt c R tryReceive := by
  intro s hs
  have h0 : R s (Machine.stepDone (sampleIrq s)) :=
    h.comp.trans (h.sample s hs) (h.regs (sampleIrq s) _ (by simp) (by simp))
  have hcfg : (Machine.stepDone (sampleIrq s)).cfg = c := by simpa using hs
  unfold Machine.tryReceive
  dsimp only
  split
  · have hsteps : ∀ f ∈ receiveSteps, KeepsAt c R f := by
      simp only [receiveSteps, List.mem_cons, List.not_mem_nil, or_false, forall_eq_or_imp, forall_eq]
      refine ⟨?_, h.cmdWait h1, h.clearInterrupts h2, h.cmdWait h3⟩
      exact KeepsAt.bind h.comp (h.readRxFifo Literal.frameLen) fun d t ht => ⟨h.regs t _ rfl rfl, ht⟩
    have hoff : KeepsAt c R handOff := by
      intro u hu
      unfold handOff
      split
      · exact ⟨h.regs u _ rfl rfl, hu⟩
      · exact ⟨h.comp.refl u, hu⟩
    obtain ⟨h4, h5⟩ := KeepsAt.bind h.comp (h.counted hsteps) (fun _ => hoff) _ hcfg
    exact ⟨h.comp.trans h0 h4, h5⟩
  · exact ⟨h0, hcfg⟩

theorem Closed.sendFrameSteps (h1 : ok (.ofCommand (standbyFrame c))) (h2 : ok (.ofCommand (intStatusFrame c)))
    (h3 : ok (.ofCommand sendTxFrame)) (f : List Byte) :
    ∀ g ∈ sendFrameSteps f, KeepsAt c R g := by
  simp only [Machine.sendFrameSteps, List.mem_cons, List.not_mem_nil, or_false, forall_eq_or_imp, forall_eq]
  refine ⟨?_, h.writeTxFifo f, h.waitForCts, fun s hs => ⟨h.sample s hs, hs⟩, ?_, h.sendCommand h3⟩
  · rintro s rfl
    exact h.sendCommand h1 s rfl
  · intro s hs
    unfold clearIfAsserted
    split
    · exact h.clearInterrupts h2 s hs
    · exact ⟨h.comp.refl s, hs⟩

end

/-- The command frames an instruction sends under a configuration (R155 to R160, R180, R196 to R206, R240, R242). -/
def frames (c : Config) : Instr → List Sent
  | .sendCmd f => [.ofCommand f]
  | .setProperty g o d => [.ofCommand (propFrame g o d)]
  | .replay t => tableFrames c t
  | .powerUp => [.ofCommand c.powerUpFrame, .ofCommand (intStatusFrame c)]
  | .clearInts => [.ofCommand (intStatusFrame c)]
  | .setFreq p => planFrames c.freqPlan p
  | .setPower p => planFrames c.powerPlan p
  | .startTx ch cond len => [.ofCommand (startTxFrame ch cond len)]
  | .startRx ch cond len t v x => [.ofCommand (startRxFrame ch cond len t v x)]
  | .resetFifo sub => [.ofCommand (fifoResetFrame sub)]
  | .standby => [.ofCommand (standbyFrame c)]
  | .enterRx => bringupCommands c ++ c.rxIrqEnable.map Sent.ofConfig ++ [.ofCommand rearmFrame]
  | .enterTx => bringupCommands c ++ c.txIrqEnable.map Sent.ofConfig ++ [.ofCommand (fifoResetFrame Literal.fifoSubTx)]
  | .tryReceive => [.ofCommand (fifoResetFrame Literal.fifoSubRx), .ofCommand (intStatusFrame c), .ofCommand rearmFrame]
  | .sendFrame _ => [.ofCommand (standbyFrame c), .ofCommand (intStatusFrame c), .ofCommand sendTxFrame]
  | .resetTxFifo => [.ofCommand (fifoResetFrame Literal.fifoSubTx)]
  | .resetRxFifo => [.ofCommand (fifoResetFrame Literal.fifoSubRx)]
  | .resetBothFifos => [.ofCommand (fifoResetFrame Literal.fifoSubBoth)]
  | .rearmRx => [.ofCommand rearmFrame]
  | .waitCts => []
  | .getResp _ => []
  | .readRxFifo _ => []
  | .writeTxFifo _ => []
  | .readRssi => []
  | .wireWriteTxFifo _ => []
  | .wireReadRxFifo _ => []
  | .wireReadCmdBuff _ => []
  | .wirePropWrite g n o d => [.ofCommand (encodeFrame c (.wirePropWrite g n o d))]
  | .wireFifoReset sub => [.ofCommand (encodeFrame c (.wireFifoReset sub))]
  | .wireStartTx ch cond len => [.ofCommand (encodeFrame c (.wireStartTx ch cond len))]
  | .wireStartRx ch cond len t v x => [.ofCommand (encodeFrame c (.wireStartRx ch cond len t v x))]
  | .wireGetIntStatus a => [.ofCommand (encodeFrame c (.wireGetIntStatus a))]
  | .wireChangeState code => [.ofCommand (encodeFrame c (.wireChangeState code))]
  | .wirePowerUp a => [.ofCommand (encodeFrame c (.wirePowerUp a))]

/-- The instruction is POWER_UP or contains it (R196, R204). -/
def Pulses (i : Instr) : Prop := i = .powerUp ∨ i = .enterRx ∨ i = .enterTx

/-- The instruction is REPLAY or contains it (R180, R204). -/
def Replays (i : Instr) : Prop := (∃ t, i = .replay t) ∨ i = .enterRx ∨ i = .enterTx

/-- What the parts keep, the body of every admitted host operation keeps. -/
theorem Closed.hostBody (h : Closed c ok R) {i : Instr} (hw : i.isWire = false) (ha : c.admitted = true)
    (hk : i.failingCheck c = none) (hf : ∀ f ∈ frames c i, ok f) (hr : Pulses i → ClosedReset c R)
    (hp : Replays i → ClosedReplay c R) : KeepsAt c R (hostBody c i) := by
  have hfacts := facts_of_admitted ha
  have one : ∀ {f : Step}, KeepsAt c R f → ∀ g ∈ [f], KeepsAt c R g := fun hf => by simpa using hf
  cases i with
  | waitCts => exact h.steps (one h.waitForCts)
  | sendCmd f => exact h.steps (one (h.sendCommand (hf (.ofCommand f) (by simp [frames]))))
  | getResp n => exact h.value (h.getResponse n) _
  | readRxFifo n => exact h.value (h.readRxFifo n) _
  | writeTxFifo d => exact h.steps (one (h.writeTxFifo d))
  | setProperty g o d => exact h.steps (h.cmdSteps (hf _ (by simp [frames])))
  | replay t =>
    refine h.steps (one (h.replay (hp (.inl ⟨t, rfl⟩)) ?_ hf))
    simp only [Instr.failingCheck] at hk
    split at hk
    · assumption
    · cases hk
  | powerUp => exact h.steps (h.powerUpSteps (hr (.inl rfl)) (hf _ (by simp [frames])) (hf _ (by simp [frames])))
  | clearInts => exact h.steps (h.clearIntsSteps (hf _ (by simp [frames])))
  | setFreq p => exact h.steps (h.planSteps hf)
  | setPower p => exact h.steps (h.planSteps hf)
  | startTx ch cond len => exact h.steps (one (h.sendCommand (hf _ (by simp [frames]))))
  | startRx ch cond len t v x => exact h.steps (h.cmdSteps (hf _ (by simp [frames])))
  | resetFifo sub => exact h.steps (h.cmdSteps (hf _ (by simp [frames])))
  | standby =>
    refine h.steps (one ?_)
    rintro s rfl
    exact h.sendCommand (hf (.ofCommand (standbyFrame s.cfg)) (by simp [frames])) s rfl
  | enterRx =>
    simp only [frames, List.mem_append, List.mem_singleton, or_imp, forall_and, forall_eq] at hf
    refine h.steps (fs := enterRxSteps c) fun g hg => ?_
    simp only [enterRxSteps, List.mem_cons, List.mem_append, List.not_mem_nil, or_false] at hg
    rcases hg with rfl | hg | rfl
    · exact h.bringup (hr (.inr (.inl rfl))) (hp (.inr (.inl rfl))) hfacts.table hf.1.1
    · exact h.configWaits hf.1.2 g hg
    · exact h.cmdWait hf.2
  | enterTx =>
    simp only [frames, List.mem_append, List.mem_singleton, or_imp, forall_and, forall_eq] at hf
    refine h.steps (fs := enterTxSteps c) fun g hg => ?_
    simp only [enterTxSteps, List.mem_cons, List.mem_append, List.not_mem_nil, or_false] at hg
    rcases hg with rfl | hg | rfl
    · exact h.bringup (hr (.inr (.inr rfl))) (hp (.inr (.inr rfl))) hfacts.table hf.1.1
    · exact h.configWaits hf.1.2 g hg
    · exact h.cmdWait hf.2
  | tryReceive =>
    simp only [frames, List.mem_cons, List.not_mem_nil, or_false, forall_eq_or_imp, forall_eq] at hf
    exact h.tryReceive hf.1 hf.2.1 hf.2.2
  | sendFrame f =>
    simp only [frames, List.mem_cons, List.not_mem_nil, or_false, forall_eq_or_imp, forall_eq] at hf
    exact h.steps (h.sendFrameSteps hf.1 hf.2.1 hf.2.2 f)
  | readRssi => exact h.stepDone
  | resetTxFifo => exact h.steps (h.cmdSteps (hf _ (by simp [frames])))
  | resetRxFifo => exact h.steps (h.cmdSteps (hf _ (by simp [frames])))
  | resetBothFifos => exact h.steps (h.cmdSteps (hf _ (by simp [frames])))
  | rearmRx => exact h.steps (h.cmdSteps (f := rearmFrame) (hf _ (by simp [frames])))
  | _ => simp [Instr.isWire] at hw

/-- One poll as a transaction of its own is the first poll of a handshake: what the poll's own window keeps, the wire row
keeps. -/
theorem Closed.wireBody (h : Closed c ok R) {i : Instr} (hw : i.isWire = true) (hf : ∀ f ∈ frames c i, ok f)
    (hb : ∀ s : State, s.cfg = c → R s (selOff (askCts s)))
    (hr : ∀ (n : Nat) (s : State), s.cfg = c → R s (respond n (askCts s)).state) : KeepsAt c R (wireBody c i) := by
  cases i with
  | wireWriteTxFifo d => exact h.writeTxFifo d
  | wireReadRxFifo n => exact (h.readRxFifo n).discard h.comp
  | wireReadCmdBuff n =>
    intro s hs
    unfold Machine.wireBody
    dsimp only
    split
    · have h1 := hr n s hs
      rcases respond_cases n (askCts s) with ⟨-, hh⟩ | ⟨-, hh⟩ <;> rw [hh] at h1 ⊢
      · exact ⟨h1, by simpa using hs⟩
      · exact ⟨h1, by simpa using hs⟩
    · exact ⟨hb s hs, by simpa using hs⟩
  | wirePropWrite g n o d => exact h.sendCommand (hf _ (by simp [frames]))
  | wireFifoReset sub => exact h.sendCommand (hf _ (by simp [frames]))
  | wireStartTx ch cond len => exact h.sendCommand (hf _ (by simp [frames]))
  | wireStartRx ch cond len t v x => exact h.sendCommand (hf _ (by simp [frames]))
  | wireGetIntStatus a => exact h.sendCommand (hf _ (by simp [frames]))
  | wireChangeState code => exact h.sendCommand (hf _ (by simp [frames]))
  | wirePowerUp a => exact h.sendCommand (hf _ (by simp [frames]))
  | _ => simp [Instr.isWire] at hw

end Sys2Proof.Machine
end

