-- ==== Sys2Proof/Laws/Model.lean ====
section
/-! SUPPORT. The abstract chip model (spec R61 to R66, R210 to R223) at the bus: what every transaction keeps of the chip, and
what one command frame, one FIFO write and one handshake do to it. -/

namespace Sys2Proof.Machine

variable {c : Config}

/-! ### What every transaction keeps -/

/-- A relation between chips that everything at the bus keeps, for the command frames that meet `ok`. -/
structure ChipClosed (c : Config) (ok : Sent → Prop) (Q : Chip → Chip → Prop) : Prop where
  refl : ∀ h, Q h h
  trans : ∀ {f g h}, Q f g → Q g h → Q f h
  move : ∀ m h, Q h (h.move c m)
  lost : ∀ h, Q h h.lost
  rx : ∀ h l, Q h { h with rxFifo := l }
  processed : ∀ h : Chip, h.mode ≠ .unknown → Q h (h.processed c)
  push : ∀ d h, Q h (h.pushTx c d)
  read : ∀ n h, Q h (h.afterRead n)
  command : ∀ (f : Sent) (h : Chip), ok f → Q h (h.command c f.1 f.2)

/-! ### The source of a frame stays while its window is open -/

theorem turn_source (c : Config) (a : Agent) : (a.turn c).source = a.source := by
  unfold Agent.turn
  split
  · split <;> rfl
  · rfl
  · rfl

theorem draw_source (a : Agent) : a.draw.2.source = a.source := by unfold Agent.draw; split <;> rfl

theorem modelAnswer_source (c : Config) (a : Agent) : (a.modelAnswer c).2.source = a.source := by
  unfold Agent.modelAnswer Agent.modelRx Agent.modelCts Agent.drawByte
  repeat' split
  all_goals first | rfl | exact draw_source _ | skip
  dsimp only
  split <;> exact draw_source a

@[simp] theorem selOn_source (s : State) : (Machine.selOn s).agent.source = s.agent.source := turn_source _ _

@[simp] theorem xfer_source (m : Byte) (s : State) : (Machine.xfer m s).agent.source = s.agent.source := by
  rw [xfer_agent]
  unfold Agent.onExchange
  dsimp only
  split
  · exact (draw_source _).trans (turn_source _ _)
  · exact (modelAnswer_source _ _).trans (turn_source _ _)
  · exact turn_source _ _

@[simp] theorem writeBytes_source (l : List Byte) (s : State) :
    (Machine.writeBytes l s).agent.source = s.agent.source := by
  induction l generalizing s with
  | nil => rfl
  | cons m ms ih => exact (ih (Machine.xfer m s)).trans (xfer_source m s)

/-- The relation between states: if the chip obeys the abstract chip model it still does, and `Q` relates the chips. -/
def Under (Q : Chip → Chip → Prop) (s t : State) : Prop :=
  s.agent.law = .abstractModel → t.agent.law = .abstractModel ∧ Q s.agent.chip t.agent.chip

section
variable {ok : Sent → Prop} {Q : Chip → Chip → Prop} (h : ChipClosed c ok Q)
include h

theorem ChipClosed.composes : Composes (Under Q) :=
  ⟨fun _ hl => ⟨hl, h.refl _⟩, fun h1 h2 hl => ⟨(h2 (h1 hl).1).1, h.trans (h1 hl).2 (h2 (h1 hl).1).2⟩⟩

theorem ChipClosed.moves : ∀ (ms : List ChipMove) (g : Chip), Q g (Chip.moves c ms g)
  | [], g => h.refl g
  | m :: ms, g => h.trans (h.move m g) (ChipClosed.moves ms _)

theorem ChipClosed.turn {a : Agent} (hl : a.law = .abstractModel) :
    (a.turn c).law = .abstractModel ∧ Q a.chip (a.turn c).chip ∧ (a.turn c).window = a.window := by
  unfold Agent.turn
  rw [hl]
  dsimp only
  split
  · exact ⟨hl, h.refl _, rfl⟩
  · exact ⟨rfl, h.moves _ _, rfl⟩

omit h in
theorem draw_same (a : Agent) : a.draw.2.law = a.law ∧ a.draw.2.chip = a.chip ∧ a.draw.2.plan = a.plan := by
  unfold Agent.draw
  split <;> exact ⟨rfl, rfl, rfl⟩

theorem ChipClosed.answer {a : Agent} (hl : a.law = .abstractModel) :
    (a.modelAnswer c).2.law = .abstractModel ∧ Q a.chip (a.modelAnswer c).2.chip := by
  have hd : ∀ b : Agent, b.law = .abstractModel → Q a.chip b.chip →
      b.drawByte.2.law = .abstractModel ∧ Q a.chip b.drawByte.2.chip := fun b hb hq =>
    ⟨(draw_same b).1.trans hb, by rw [show b.drawByte.2.chip = b.chip from (draw_same b).2.1]; exact hq⟩
  have hlost := hd ({ a with chip := a.chip.lost } : Agent) hl (h.lost _)
  have hself := hd a hl (h.refl _)
  unfold Agent.modelAnswer
  split
  · exact hself
  · split
    · exact hself
    · rename_i hm
      split
      · split
        · unfold Agent.modelRx
          split
          · exact ⟨hl, h.rx _ _⟩
          · exact hlost
        · exact hlost
      · split
        · unfold Agent.modelCts
          split
          · exact ⟨hl, h.refl _⟩
          · dsimp only
            split
            · refine ⟨hself.1, ?_⟩
              have hc : a.drawByte.2.chip = a.chip := (draw_same a).2.1
              show Q a.chip (a.drawByte.2.chip.processed c)
              rw [hc]
              exact h.processed _ (by tauto)
            · exact hself
        · exact hself

theorem ChipClosed.close {a : Agent} (hl : a.law = .abstractModel) (hw : ok (a.source, a.window) ∨ a.window = [] ∨
    a.window.head? = some Literal.opWriteTxFifo ∨ a.window.head? = some Literal.opReadRxFifo ∨
    a.window.head? = some c.opReadCmdBuff) :
    (a.modelClose c).law = .abstractModel ∧ Q a.chip (a.modelClose c).chip := by
  unfold Agent.modelClose
  split
  · exact ⟨hl, h.refl _⟩
  · rename_i op args hwin
    split
    · exact ⟨hl, h.push _ _⟩
    · split
      · exact ⟨hl, h.refl _⟩
      · split
        · exact ⟨hl, h.read _ _⟩
        · have hok : ok (a.source, op :: args) := by
            rw [hwin] at hw
            simp only [List.head?_cons, Option.some.injEq, reduceCtorEq, false_or] at hw
            tauto
          exact ⟨hl, h.command (a.source, op :: args) _ hok⟩

theorem ChipClosed.selOn (s : State) (hs : s.cfg = c) : Under Q s (selOn s) := by
  intro hl
  subst hs
  exact ⟨(h.turn hl).1, (h.turn hl).2.1⟩

theorem ChipClosed.xfer (m : Byte) (s : State) (hs : s.cfg = c) : Under Q s (xfer m s) := by
  intro hl
  subst hs
  have ht := h.turn hl
  have ha := h.answer ht.1
  rw [xfer_agent]
  unfold Agent.onExchange
  dsimp only
  rw [ht.1]
  exact ⟨ha.1, h.trans ht.2.1 ha.2⟩

omit h in
theorem xfer_window (m : Byte) (s : State) (hl : s.agent.law = .abstractModel) :
    (Machine.xfer m s).agent.window = s.agent.window ++ [m] := by
  have hw : ∀ (c : Config) (a : Agent), (a.turn c).window = a.window ∧ (a.turn c).law = a.law := fun c a => by
    unfold Agent.turn
    split
    · split <;> exact ⟨rfl, rfl⟩
    · exact ⟨rfl, rfl⟩
    · exact ⟨rfl, rfl⟩
  rw [xfer_agent]
  unfold Agent.onExchange
  dsimp only
  rw [(hw s.cfg s.agent).2, hl]
  dsimp only
  rw [(hw s.cfg s.agent).1]

omit h in
theorem selOn_window (s : State) : (Machine.selOn s).agent.window = [] := rfl

theorem ChipClosed.writeBytes (l : List Byte) (s : State) (hs : s.cfg = c) : Under Q s (writeBytes l s) := by
  induction l generalizing s with
  | nil => exact h.composes.refl s
  | cons m ms ih => exact h.composes.trans (h.xfer m s hs) (ih _ hs)

omit h in
theorem writeBytes_window (l : List Byte) (s : State) (hl : s.agent.law = .abstractModel) :
    (Machine.writeBytes l s).agent.window = s.agent.window ++ l := by
  induction l generalizing s with
  | nil => simp [Machine.writeBytes]
  | cons m ms ih =>
    have h1 : (Machine.xfer m s).agent.law = .abstractModel :=
      (keeps_onExchange s.cfg s.agent m).law.trans hl
    rw [Machine.writeBytes, ih _ h1, xfer_window m s hl]
    simp

theorem ChipClosed.afterReads (n : Nat) (s : State) (hs : s.cfg = c) : Under Q s (afterReads n s) := by
  induction n generalizing s with
  | zero => exact h.composes.refl s
  | succ n ih => exact h.composes.trans (h.xfer _ s hs) (ih _ hs)

omit h in
/-- The first byte of the window stays while bytes are read. -/
theorem afterReads_head (n : Nat) (s : State) (hl : s.agent.law = .abstractModel) {op : Byte}
    (hw : s.agent.window.head? = some op) : (Machine.afterReads n s).agent.window.head? = some op := by
  induction n generalizing s with
  | zero => exact hw
  | succ n ih =>
    refine ih _ ((keeps_onExchange s.cfg s.agent _).law.trans hl) ?_
    rw [xfer_window _ s hl]
    cases hs : s.agent.window <;> simp_all

theorem ChipClosed.selOff (s : State) (hs : s.cfg = c) (hw : s.agent.law = .abstractModel →
    ok (s.agent.source, s.agent.window) ∨ s.agent.window = [] ∨ s.agent.window.head? = some Literal.opWriteTxFifo ∨
    s.agent.window.head? = some Literal.opReadRxFifo ∨ s.agent.window.head? = some c.opReadCmdBuff) :
    Under Q s (selOff s) := by
  intro hl
  subst hs
  have ht := h.turn hl
  have hc := h.close ht.1 (by rw [ht.2.2, turn_source]; exact hw hl)
  rw [selOff_agent]
  unfold Agent.onDesel
  dsimp only
  rw [ht.1]
  exact ⟨hc.1, h.trans ht.2.1 hc.2⟩

theorem ChipClosed.askCts (s : State) (hs : s.cfg = c) : Under Q s (askCts s) :=
  h.composes.trans (h.composes.trans (h.selOn s hs) (h.xfer s.cfg.opReadCmdBuff (Machine.selOn s) hs))
    (h.xfer Literal.dummyByte _ hs)

omit h in
/-- A poll's window begins with its opcode. -/
theorem askCts_head (s : State) (hl : s.agent.law = .abstractModel) :
    (Machine.askCts s).agent.window = [s.cfg.opReadCmdBuff, Literal.dummyByte] := by
  have h1 : (Machine.selOn s).agent.law = .abstractModel := (keeps_onSel s.cfg s.agent).law.trans hl
  have h2 : (Machine.xfer s.cfg.opReadCmdBuff (Machine.selOn s)).agent.law = .abstractModel :=
    (keeps_onExchange s.cfg _ _).law.trans h1
  show (Machine.xfer Literal.dummyByte (Machine.xfer s.cfg.opReadCmdBuff (Machine.selOn s))).agent.window = _
  rw [xfer_window _ _ h2, xfer_window _ _ h1]
  rfl

omit h in
theorem askCts_law (s : State) (hl : s.agent.law = .abstractModel) : (Machine.askCts s).agent.law = .abstractModel :=
  (keeps_onExchange s.cfg _ _).law.trans ((keeps_onExchange s.cfg _ _).law.trans ((keeps_onSel s.cfg s.agent).law.trans hl))

theorem ChipClosed.busy (s : State) (hs : s.cfg = c) : Under Q s (Machine.selOff (Machine.askCts s)) := by
  refine h.composes.trans (h.askCts s hs) (h.selOff _ (by simpa using hs) fun hl => ?_)
  by_cases hl' : s.agent.law = .abstractModel
  · exact .inr (.inr (.inr (.inr (by rw [askCts_head s hl', hs]; rfl))))
  · have := (keeps_onExchange s.cfg (Machine.xfer s.cfg.opReadCmdBuff (Machine.selOn s)).agent Literal.dummyByte).law.trans
      ((keeps_onExchange s.cfg (Machine.selOn s).agent s.cfg.opReadCmdBuff).law.trans (keeps_onSel s.cfg s.agent).law)
    exact absurd (this.symm.trans hl) hl'

theorem ChipClosed.respond (n : Nat) (s : State) (hs : s.cfg = c) : Under Q s (Machine.respond n (Machine.askCts s)).state := by
  have key : Under Q s (Machine.selOff (Machine.afterReads n (Machine.askCts s))) := by
    intro hl
    refine h.composes.trans (h.askCts s hs) (h.composes.trans (h.afterReads n _ (by simpa using hs))
      (h.selOff _ (by simpa using hs) fun _ => ?_)) hl
    refine .inr (.inr (.inr (.inr ?_)))
    exact afterReads_head n _ (askCts_law s hl) (by rw [askCts_head s hl, hs]; rfl)
  rcases respond_cases n (Machine.askCts s) with ⟨-, hr⟩ | ⟨-, hr⟩ <;> rw [hr]
  · exact key
  · exact key

theorem ChipClosed.getResponse (n : Nat) (s : State) (hs : s.cfg = c) : Under Q s (Machine.getResponse n s).state := by
  have hb : Under Q s (beginHandshake s) := fun hl => by
    rw [beginHandshake_agent]
    simpa [Agent.onHandshake, hl] using h.refl s.agent.chip
  refine h.composes.trans hb ?_
  have hp : ∀ (k : Nat) (t : State), t.cfg = c → Under Q t (polled k t) := by
    intro k
    induction k with
    | zero => exact fun t _ => h.composes.refl t
    | succ k ih => exact fun t ht => h.composes.trans (h.busy t ht) (ih (busyPoll t) ht)
  unfold Machine.getResponse
  obtain ⟨k, -, -, hr⟩ := pollLoop_cases n s.cfg.ctsRetryMax (beginHandshake s)
  have hcfg : (polled k (beginHandshake s)).cfg = c := by simpa using hs
  rcases hr with ⟨-, hr⟩ | ⟨-, -, hr⟩ <;> rw [hr]
  · exact hp k _ hs
  · refine h.composes.trans (hp k _ hs) ?_
    have heq : ∀ t : State, (Machine.respond n (counted1 t)).state.agent = (Machine.respond n (Machine.askCts t)).state.agent := by
      intro t
      have hx : ∀ (n : Nat) (u : State) (p : Nat), (Machine.afterReads n { u with pollCount := p }).agent = (Machine.afterReads n u).agent ∧
          (Machine.afterReads n { u with pollCount := p }).cfg = (Machine.afterReads n u).cfg := by
        intro n
        induction n with
        | zero => exact fun _ _ => ⟨rfl, rfl⟩
        | succ n ih => exact fun u p => ih (Machine.xfer _ u) p
      have ha := hx n (Machine.askCts t) (t.pollCount + 1)
      have hb : (Machine.selOff (Machine.afterReads n (counted1 t))).agent = (Machine.selOff (Machine.afterReads n (Machine.askCts t))).agent := by
        rw [selOff_agent, selOff_agent]
        rw [show (Machine.afterReads n (counted1 t)).agent = _ from ha.1, show (Machine.afterReads n (counted1 t)).cfg = _ from ha.2]
      rcases respond_cases n (counted1 t) with ⟨-, h1⟩ | ⟨-, h1⟩ <;>
        rcases respond_cases n (Machine.askCts t) with ⟨-, h2⟩ | ⟨-, h2⟩ <;> rw [h1, h2] <;> exact hb
    intro hl
    rw [heq]
    exact h.respond n _ hcfg hl

/-- What the chip's functions keep, the engine's transactions keep under the abstract chip model. -/
theorem ChipClosed.closed : Closed c ok (Under Q) where
  comp := h.composes
  regs s t ha _ hl := by rw [ha]; exact ⟨hl, h.refl _⟩
  send f s hs hf := by
    have h0 : Under Q s (loadCmd f.1 f.2 s) := fun hl => ⟨hl, h.refl _⟩
    refine h.composes.trans h0 (h.composes.trans (h.composes.trans (h.selOn _ hs) (h.writeBytes f.2 (Machine.selOn _) hs))
      (h.selOff _ (by simpa using hs) fun hl => ?_))
    by_cases hl' : s.agent.law = .abstractModel
    · rw [writeBytes_window f.2 _ ((keeps_onSel s.cfg (loadCmd f.1 f.2 s).agent).law.trans hl'), writeBytes_source,
        selOn_source]
      exact .inl hf
    · exact absurd (((exchanges_writeBytes f.2 (Machine.selOn (loadCmd f.1 f.2 s))).agent.law.trans
        (keeps_onSel s.cfg (loadCmd f.1 f.2 s).agent).law).symm.trans hl) hl'
  push d s hs := by
    refine h.composes.trans (h.composes.trans (h.selOn s hs) (h.writeBytes _ (Machine.selOn s) hs))
      (h.selOff _ (by simpa using hs) fun hl => ?_)
    by_cases hl' : s.agent.law = .abstractModel
    · rw [writeBytes_window _ _ ((keeps_onSel s.cfg s.agent).law.trans hl')]
      exact .inr (.inr (.inl rfl))
    · exact absurd (((exchanges_writeBytes _ (Machine.selOn s)).agent.law.trans (keeps_onSel s.cfg s.agent).law).symm.trans hl) hl'
  pull n s hs := by
    intro hl
    have h1 : (Machine.selOn s).agent.law = .abstractModel := (keeps_onSel s.cfg s.agent).law.trans hl
    have h2 : (openRxRead s).agent.law = .abstractModel := (keeps_onExchange s.cfg _ _).law.trans h1
    refine h.composes.trans (h.composes.trans (h.composes.trans (h.selOn s hs) (h.xfer Literal.opReadRxFifo _ hs))
      (h.afterReads n (openRxRead s) hs)) (h.selOff _ (by simpa [openRxRead] using hs) fun _ => ?_) hl
    refine .inr (.inr (.inr (.inl ?_)))
    refine afterReads_head n _ h2 ?_
    unfold openRxRead
    rw [xfer_window _ _ h1]
    rfl
  poll n s hs := h.getResponse n s hs
  sample s hs := by
    intro hl
    subst hs
    have ht := h.turn hl
    rw [sampleIrq_agent]
    unfold Agent.onSample
    dsimp only
    rw [ht.1]
    dsimp only
    split
    · exact ⟨(draw_same _).1.trans ht.1, by rw [(draw_same _).2.1]; exact ht.2.1⟩
    · exact ⟨ht.1, ht.2.1⟩

/-- The same for a wire row. -/
theorem ChipClosed.wireBody {i : Instr} (hw : i.isWire = true) (hf : ∀ f ∈ frames c i, ok f) :
    KeepsAt c (Under Q) (wireBody c i) :=
  h.closed.wireBody hw hf h.busy h.respond

end

/-! ### What single transactions do -/

/-- A property of the agent that the chip's turns, free draws and the window's bytes do not touch. -/
structure Stable (c : Config) (P : Agent → Prop) : Prop where
  law : ∀ {a}, P a → a.law = .abstractModel
  turn : ∀ {a}, P a → P (a.turn c)
  draw : ∀ {a}, P a → P a.draw.2
  window : ∀ {a} (w : List Byte), P a → P { a with window := w }
  source : ∀ {a} (f : FrameSource), P a → P { a with source := f }

/-- The chip makes no move of its own, and it is `g` (a premise of `Attentive`). -/
def Still (g : Chip) (a : Agent) : Prop := a.law = .abstractModel ∧ a.plan = [] ∧ a.chip = g

theorem stable_still (c : Config) (g : Chip) : Stable c (Still g) where
  law h := h.1
  turn {a} h := by
    have : a.turn c = a := by unfold Agent.turn; rw [h.1, h.2.1]
    rw [this]
    exact h
  draw {a} h := ⟨(draw_same a).1.trans h.1, (draw_same a).2.2.trans h.2.1, (draw_same a).2.1.trans h.2.2⟩
  window _ h := h
  source _ h := h

theorem moves_keep {P : Chip → Prop} (h : ∀ m g, P g → P (g.move c m)) :
    ∀ (ms : List ChipMove) (g : Chip), P g → P (Chip.moves c ms g)
  | [], _, hg => hg
  | m :: ms, g, hg => moves_keep h ms _ (h m g hg)

/-- A property of the chip that its own moves keep. -/
theorem stable_of_moves {P : Chip → Prop} (h : ∀ m g, P g → P (g.move c m)) :
    Stable c (fun a => a.law = .abstractModel ∧ P a.chip) where
  law h := h.1
  turn {a} ha := by
    unfold Agent.turn
    rw [ha.1]
    dsimp only
    split
    · exact ha
    · exact ⟨rfl, moves_keep h _ _ ha.2⟩
  draw {a} ha := ⟨(draw_same a).1.trans ha.1, by rw [(draw_same a).2.1]; exact ha.2⟩
  window _ h := h
  source _ h := h

/-- A window whose next byte is answered by a free draw: it is empty, or it is no FIFO read and its CTS byte, if it is a
poll, is already read. -/
def Plain (c : Config) : List Byte → Prop
  | [] => True
  | op :: args => op ≠ Literal.opReadRxFifo ∧ (op = c.opReadCmdBuff → args ≠ [])

theorem turn_window (c : Config) (a : Agent) : (a.turn c).window = a.window := by
  unfold Agent.turn
  split
  · split <;> rfl
  · rfl
  · rfl

section
variable {P : Agent → Prop} (hP : Stable c P)
include hP

theorem Stable.selOn {s : State} (hs : s.cfg = c) (h : P s.agent) : P (selOn s).agent := by
  subst hs
  exact hP.window [] (hP.turn h)

theorem Stable.xfer {s : State} (hs : s.cfg = c) (h : P s.agent) (hw : Plain c s.agent.window) (m : Byte) :
    P (xfer m s).agent := by
  subst hs
  have ht := hP.turn h
  rw [xfer_agent]
  unfold Agent.onExchange
  dsimp only
  rw [hP.law ht]
  dsimp only
  apply hP.window
  unfold Agent.modelAnswer
  rw [turn_window]
  split
  · exact hP.draw ht
  · rename_i op args hwin
    rw [hwin] at hw
    split
    · exact hP.draw ht
    · rw [if_neg hw.1, if_neg (fun hh => hw.2 hh.1 hh.2)]
      exact hP.draw ht

theorem Stable.writeBytes {op : Byte} (h7 : op ≠ Literal.opReadRxFifo) (hr : op ≠ c.opReadCmdBuff) {l : List Byte} {s : State}
    (hs : s.cfg = c) (h : P s.agent) (hw : s.agent.window.head? = some op) : P (writeBytes l s).agent := by
  induction l generalizing s with
  | nil => exact h
  | cons m ms ih =>
    have hpl : Plain c s.agent.window := by
      cases hh : s.agent.window with
      | nil => trivial
      | cons x xs =>
        rw [hh] at hw
        obtain rfl : x = op := by simpa using hw
        exact ⟨h7, fun e => absurd e hr⟩
    refine ih (s := Machine.xfer m s) hs (hP.xfer hs h hpl m) ?_
    rw [xfer_window m s (hP.law h)]
    cases hh : s.agent.window <;> simp_all

/-- Just before the select line falls on a frame that is neither a FIFO read nor a poll. -/
theorem Stable.frame {op : Byte} (h7 : op ≠ Literal.opReadRxFifo) (hr : op ≠ c.opReadCmdBuff) (args : List Byte) {s : State}
    (hs : s.cfg = c) (h : P s.agent) : P (Machine.writeBytes (op :: args) (Machine.selOn s)).agent ∧
      (Machine.writeBytes (op :: args) (Machine.selOn s)).agent.window = op :: args := by
  have h1 := hP.selOn hs h
  have h2 := hP.xfer (s := Machine.selOn s) hs h1 trivial op
  refine ⟨hP.writeBytes h7 hr (s := Machine.xfer op (Machine.selOn s)) hs h2 ?_, ?_⟩
  · rw [xfer_window _ _ (hP.law h1)]
    rfl
  · rw [writeBytes_window _ _ (hP.law h1)]
    rfl

/-- A command frame reaches the chip as one command, from the source it was sent from (R212, R222). -/
theorem Stable.command {op : Byte} (h6 : op ≠ Literal.opWriteTxFifo) (h7 : op ≠ Literal.opReadRxFifo)
    (hr : op ≠ c.opReadCmdBuff) (args : List Byte) {s : State} (hs : s.cfg = c) (h : P s.agent) :
    ∃ a, P a ∧ (writeWindow (op :: args) s).agent.law = .abstractModel ∧
      (writeWindow (op :: args) s).agent.plan = a.plan ∧
      (writeWindow (op :: args) s).agent.chip = a.chip.command c s.agent.source (op :: args) := by
  obtain ⟨h1, h2⟩ := hP.frame h7 hr args hs h
  have ht := hP.turn h1
  have hcfg : (Machine.writeBytes (op :: args) (Machine.selOn s)).cfg = c := by simpa using hs
  unfold writeWindow
  rw [selOff_agent, hcfg]
  unfold Agent.onDesel
  dsimp only
  rw [hP.law ht]
  dsimp only
  unfold Agent.modelClose
  rw [turn_window, h2]
  dsimp only
  rw [if_neg h6, if_neg h7, if_neg hr, turn_source, writeBytes_source, selOn_source]
  have hlaw := hP.law ht
  exact ⟨_, ht, hlaw, rfl, rfl⟩

/-- A FIFO write reaches the chip's TX FIFO (R64). -/
theorem Stable.push (hr : Literal.opWriteTxFifo ≠ c.opReadCmdBuff) (d : List Byte) {s : State} (hs : s.cfg = c)
    (h : P s.agent) :
    ∃ a, P a ∧ (writeWindow (Literal.opWriteTxFifo :: d) s).agent.law = .abstractModel ∧
      (writeWindow (Literal.opWriteTxFifo :: d) s).agent.plan = a.plan ∧
      (writeWindow (Literal.opWriteTxFifo :: d) s).agent.chip = a.chip.pushTx c d := by
  obtain ⟨h1, h2⟩ := hP.frame (by decide) hr d hs h
  have ht := hP.turn h1
  have hcfg : (Machine.writeBytes (Literal.opWriteTxFifo :: d) (Machine.selOn s)).cfg = c := by simpa using hs
  unfold writeWindow
  rw [selOff_agent, hcfg]
  unfold Agent.onDesel
  dsimp only
  rw [hP.law ht]
  dsimp only
  unfold Agent.modelClose
  rw [turn_window, h2]
  have hlaw := hP.law ht
  exact ⟨(Machine.writeBytes (Literal.opWriteTxFifo :: d) (Machine.selOn s)).agent.turn c, ht, hlaw, rfl, rfl⟩

omit hP in
/-- The chip agent at the CTS exchange of a poll: a busy, known and powered chip answers by a free draw, and 0xFF means that
it has processed its frame (R63, R212). -/
theorem modelCts_busy {a : Agent} (hc : a.chip.cts = false) :
    ((a.modelCts c).1 = Literal.ctsReady → (a.modelCts c).2.chip = a.chip.processed c ∧ (a.modelCts c).2.law = a.law ∧
      (a.modelCts c).2.plan = a.plan) ∧ ((a.modelCts c).1 ≠ Literal.ctsReady → (a.modelCts c).2 = a.draw.2) := by
  unfold Agent.modelCts
  rw [hc]
  dsimp only
  have hd : a.drawByte.2 = a.draw.2 := rfl
  by_cases hf : a.drawByte.1 = Literal.ctsReady
  · rw [if_neg (by simp), if_pos hf]
    refine ⟨fun _ => ⟨?_, (draw_same a).1, (draw_same a).2.2⟩, fun hh => absurd hf hh⟩
    show a.draw.2.chip.processed c = _
    rw [(draw_same a).2.1]
  · rw [if_neg (by simp), if_neg hf]
    exact ⟨fun hh => absurd hh hf, fun _ => hd⟩

/-- One poll of a busy chip, up to its CTS byte: not ready, and nothing has changed; or ready, and the chip has processed its
frame. -/
theorem Stable.ask (hd : c.opReadCmdBuff ≠ Literal.opReadRxFifo)
    (hbusy : ∀ {a}, P a → a.chip.cts = false ∧ a.chip.mode ≠ .unknown ∧ a.chip.mode ≠ .off) {s : State} (hs : s.cfg = c)
    (h : P s.agent) :
    (¬ readyAt s ∧ P (counted1 s).agent) ∨
      (readyAt s ∧ ∃ a, P a ∧ (counted1 s).agent.chip = a.chip.processed c ∧ (counted1 s).agent.law = .abstractModel ∧
        (counted1 s).agent.plan = a.plan) := by
  subst hs
  have h1 := hP.selOn rfl h
  have h2 := hP.xfer (s := Machine.selOn s) rfl h1 trivial s.cfg.opReadCmdBuff
  have hw : (Machine.xfer s.cfg.opReadCmdBuff (Machine.selOn s)).agent.window = [s.cfg.opReadCmdBuff] := by
    rw [xfer_window _ _ (hP.law h1)]
    rfl
  have ht := hP.turn h2
  have hb := hbusy ht
  have hx : (Machine.xfer s.cfg.opReadCmdBuff (Machine.selOn s)).agent.onExchange s.cfg Literal.dummyByte =
      ((((Machine.xfer s.cfg.opReadCmdBuff (Machine.selOn s)).agent.turn s.cfg).modelCts s.cfg).1,
        { (((Machine.xfer s.cfg.opReadCmdBuff (Machine.selOn s)).agent.turn s.cfg).modelCts s.cfg).2 with
          window := [s.cfg.opReadCmdBuff] ++ [Literal.dummyByte] }) := by
    unfold Agent.onExchange
    dsimp only
    rw [hP.law ht]
    dsimp only
    have hm : Agent.modelAnswer s.cfg ((Machine.xfer s.cfg.opReadCmdBuff (Machine.selOn s)).agent.turn s.cfg) =
        ((Machine.xfer s.cfg.opReadCmdBuff (Machine.selOn s)).agent.turn s.cfg).modelCts s.cfg := by
      unfold Agent.modelAnswer
      rw [turn_window, hw]
      dsimp only
      rw [if_neg (by tauto), if_neg hd, if_pos (by simp)]
    rw [hm, turn_window, hw]
  generalize hg : (Machine.xfer s.cfg.opReadCmdBuff (Machine.selOn s)).agent.turn s.cfg = b at hx ht hb
  have hlast : (counted1 s).lastCts = some (b.modelCts s.cfg).1 := by
    show some ((Machine.xfer s.cfg.opReadCmdBuff (Machine.selOn s)).agent.onExchange s.cfg Literal.dummyByte).1 = _
    rw [hx]
  have hagent : (counted1 s).agent = { (b.modelCts s.cfg).2 with window := [s.cfg.opReadCmdBuff] ++ [Literal.dummyByte] } := by
    show ((Machine.xfer s.cfg.opReadCmdBuff (Machine.selOn s)).agent.onExchange s.cfg Literal.dummyByte).2 = _
    rw [hx]
  obtain ⟨k1, k2⟩ := modelCts_busy (c := s.cfg) hb.1
  by_cases hr : (b.modelCts s.cfg).1 = Literal.ctsReady
  · obtain ⟨e1, e2, e3⟩ := k1 hr
    refine .inr ⟨by rw [readyAt, hlast, hr], b, ht, ?_, ?_, ?_⟩ <;> rw [hagent]
    · exact e1
    · exact e2.trans (hP.law ht)
    · exact e3
  · refine .inl ⟨fun hh => hr ?_, ?_⟩
    · rw [readyAt, hlast] at hh
      exact Option.some.inj hh
    · rw [hagent, k2 hr]
      exact hP.window _ (hP.draw ht)

omit hP in
/-- A window that carries a poll alone changes nothing when it closes. -/
theorem afterRead_one (h : Chip) : h.afterRead 1 = h := by
  unfold Chip.afterRead
  rw [if_neg (by omega)]

/-- The window of a poll closes after `n` response bytes: the response read reaches the chip (R220). -/
theorem Stable.closePoll (hd : c.opReadCmdBuff ≠ Literal.opReadRxFifo ∧ c.opReadCmdBuff ≠ Literal.opWriteTxFifo)
    {s : State} (hs : s.cfg = c) (h : P s.agent) {args : List Byte} (hw : s.agent.window = c.opReadCmdBuff :: args)
    (ha : args ≠ []) (n : Nat) :
    ∃ a, P a ∧ (Machine.selOff (Machine.afterReads n s)).agent.law = .abstractModel ∧
      (Machine.selOff (Machine.afterReads n s)).agent.plan = a.plan ∧
      (Machine.selOff (Machine.afterReads n s)).agent.chip = a.chip.afterRead (args.length + n) := by
  induction n generalizing s args with
  | zero =>
    have ht := hP.turn h
    refine ⟨s.agent.turn c, ht, ?_⟩
    show (Machine.selOff s).agent.law = _ ∧ (Machine.selOff s).agent.plan = _ ∧ (Machine.selOff s).agent.chip = _
    rw [selOff_agent, hs]
    unfold Agent.onDesel
    dsimp only
    rw [hP.law ht]
    dsimp only
    unfold Agent.modelClose
    rw [turn_window, hw]
    dsimp only
    rw [if_neg hd.2, if_neg hd.1, if_pos rfl]
    have hlaw := hP.law ht
    exact ⟨hlaw, rfl, rfl⟩
  | succ n ih =>
    have hpl : Plain c s.agent.window := by
      rw [hw]
      exact ⟨hd.1, fun _ => ha⟩
    obtain ⟨a, h1, h2, h3, h4⟩ := ih (s := Machine.xfer Literal.dummyByte s) hs (hP.xfer hs h hpl _)
      (args := args ++ [Literal.dummyByte]) (by rw [xfer_window _ _ (hP.law h), hw]; rfl) (by simp)
    refine ⟨a, h1, h2, h3, ?_⟩
    rw [Machine.afterReads, h4]
    simp only [List.length_append, List.length_singleton]
    congr 1
    omega

/-- A handshake that returns ready, with its response read, on a busy chip: the chip has processed its frame and then seen
the response read (R212, R213, R220). `P'` is what holds of a processed chip. -/
theorem Stable.handshake {P' : Agent → Prop} (hP' : Stable c P')
    (hd : c.opReadCmdBuff ≠ Literal.opReadRxFifo ∧ c.opReadCmdBuff ≠ Literal.opWriteTxFifo)
    (hbusy : ∀ {a}, P a → a.chip.cts = false ∧ a.chip.mode ≠ .unknown ∧ a.chip.mode ≠ .off)
    (hproc : ∀ {a b : Agent}, P a → b.law = .abstractModel → b.plan = a.plan → b.chip = a.chip.processed c → P' b)
    {n : Nat} {r : List Byte} {s t : State} (hs : s.cfg = c) (h : P s.agent) (hr : Machine.getResponse n s = .ok r t) :
    ∃ a, P' a ∧ t.agent.law = .abstractModel ∧ t.agent.plan = a.plan ∧ t.agent.chip = a.chip.afterRead (n + 1) := by
  have hb : P (beginHandshake s).agent := by
    rw [beginHandshake_agent]
    simpa [Agent.onHandshake, hP.law h] using h
  unfold Machine.getResponse at hr
  obtain ⟨k, -, hnr, hcase⟩ := pollLoop_cases n s.cfg.ctsRetryMax (beginHandshake s)
  have hpoll : ∀ j ≤ k, P (polled j (beginHandshake s)).agent := by
    intro j
    induction j with
    | zero => exact fun _ => hb
    | succ j ih =>
      intro hj
      have hj' := ih (by omega)
      have hcfg : (polled j (beginHandshake s)).cfg = c := by simpa using hs
      rcases hP.ask hd.1 hbusy hcfg hj' with ⟨-, h1⟩ | ⟨h1, -⟩
      · rw [polled_succ]
        have hw : (counted1 (polled j (beginHandshake s))).agent.window = c.opReadCmdBuff :: [Literal.dummyByte] := by
          rw [← hcfg]
          exact askCts_head _ (hP.law hj')
        -- closing the poll's window
        have ht := hP.turn h1
        show P (Machine.selOff (counted1 (polled j (beginHandshake s)))).agent
        rw [selOff_agent, show (counted1 (polled j (beginHandshake s))).cfg = c from hcfg]
        unfold Agent.onDesel
        dsimp only
        rw [hP.law ht]
        dsimp only
        apply hP.window
        unfold Agent.modelClose
        rw [turn_window, hw]
        dsimp only
        rw [if_neg hd.2, if_neg hd.1, if_pos rfl, show [Literal.dummyByte].length = 1 from rfl, afterRead_one]
        exact hP.window _ ht
      · exact absurd h1 (hnr j (by omega))
  rcases hcase with ⟨-, hc⟩ | ⟨-, hrd, hc⟩ <;> rw [hc] at hr
  · cases hr
  · have hcfg : (polled k (beginHandshake s)).cfg = c := by simpa using hs
    rcases hP.ask hd.1 hbusy hcfg (hpoll k le_rfl) with ⟨h1, -⟩ | ⟨-, a, h1, h2, h3, h4⟩
    · exact absurd hrd h1
    · have hw : (counted1 (polled k (beginHandshake s))).agent.window = c.opReadCmdBuff :: [Literal.dummyByte] := by
        rw [← hcfg]
        exact askCts_head _ (hP.law (hpoll k le_rfl))
      have hcl := hP'.closePoll hd (s := counted1 (polled k (beginHandshake s))) hcfg (hproc h1 h3 h4 h2) hw (by simp) n
      obtain ⟨b, h5, h6, h7, h8⟩ := hcl
      rcases respond_cases n (counted1 (polled k (beginHandshake s))) with ⟨-, he⟩ | ⟨-, he⟩ <;> rw [he] at hr
      · injection hr with _ hr
        rw [← hr]
        refine ⟨b, h5, h6, h7, ?_⟩
        rw [Nat.add_comm n 1]
        exact h8
      · cases hr

end

/-! ### A handshake is a barrier (R98) -/

/-- The chip is ready, or it answers whatever it may. -/
def Answered (h : Chip) : Prop := h.cts = true ∨ h.mode = .unknown ∨ h.mode = .off

theorem effect_cts (src : FrameSource) (f : List Byte) (h : Chip) :
    (h.effect c src f).cts = h.cts ∨ (h.effect c src f).mode = .unknown := by
  unfold Chip.effect Chip.obey Chip.configure Chip.propWrite Chip.startTx Chip.startRx
  repeat' split
  all_goals first | exact .inl rfl | exact .inr rfl

theorem answered_act (h : Chip) (ha : Answered h) : Answered (h.act c) := by
  unfold Chip.act
  split
  · exact ha
  · rename_i src f _
    dsimp only
    split
    · rename_i hb
      rcases ha with ha | ha | ha
      · exact .inl ha
      · rw [hb] at ha; cases ha
      · rw [hb] at ha; cases ha
    · split
      · exact ha
      · rename_i hp
        have hc : h.cts = true := by
          rcases ha with ha | ha | ha
          · exact ha
          · rw [ha] at hp; exact absurd (by decide) hp
          · rw [ha] at hp; exact absurd (by decide) hp
        split
        · exact .inl hc
        · rcases effect_cts (c := c) src f { h with taken := none } with e | e
          · exact .inl (e.trans hc)
          · exact .inr (.inl e)

theorem answered_move (m : ChipMove) (h : Chip) (ha : Answered h) : Answered (h.move c m) := by
  have enter : ∀ (m : Mode) (g : Chip), g.cts = h.cts → h.mode ≠ .unknown ∧ h.mode ≠ .off → Answered (g.enter m) := by
    intro m g hg hm
    unfold Chip.enter
    split
    · exact .inr (.inl rfl)
    · exact .inl (hg.trans (ha.resolve_right fun h => h.elim hm.1 hm.2))
  cases m <;> simp only [Chip.move, Chip.txComplete, Chip.rxValid, Chip.rxInvalid, Chip.rxTimeout]
  · exact answered_act h ha
  all_goals split
  · rename_i hh
    exact enter _ _ rfl (by rw [hh.1]; decide)
  · exact ha
  · rename_i hh
    split
    · exact .inr (.inl rfl)
    · exact enter _ _ rfl (by rw [hh.1]; decide)
  · exact ha
  · rename_i hh
    exact enter _ _ rfl (by rw [hh]; decide)
  · exact ha
  · rename_i hh
    exact enter _ _ rfl (by rw [hh]; decide)
  · exact ha

/-- Everything at the bus but a command frame keeps that. -/
theorem closed_answered (c : Config) : ChipClosed c (fun _ => False) (fun g h => Answered g → Answered h) where
  refl _ h := h
  trans a b h := b (a h)
  move m h := answered_move m h
  lost _ _ := .inr (.inl rfl)
  rx _ _ h := h
  processed _ _ _ := .inl rfl
  push d h ha := by
    unfold Chip.pushTx
    split
    · exact ha
    · split
      · exact .inr (.inl rfl)
      · exact ha
  read n h ha := by
    unfold Chip.afterRead
    split <;> exact ha
  command _ _ hf := hf.elim

/-- The answer 0xFF to a poll comes from a chip that is ready from then on, or that answers whatever it may. -/
theorem answered_modelCts (a : Agent) (h : (a.modelCts c).1 = Literal.ctsReady) : Answered (a.modelCts c).2.chip := by
  cases hc : a.chip.cts with
  | false =>
    rw [((modelCts_busy (c := c) hc).1 h).1]
    exact .inl rfl
  | true =>
    have e : a.modelCts c = (Literal.ctsReady, a) := by
      unfold Agent.modelCts
      rw [if_pos hc]
    rw [e]
    exact .inl hc

/-- One poll that reads ready, up to its CTS byte. -/
theorem answered_ask (hd : c.opReadCmdBuff ≠ Literal.opReadRxFifo) {s : State} (hs : s.cfg = c)
    (hl : s.agent.law = .abstractModel) (hr : readyAt s) : Answered (counted1 s).agent.chip := by
  subst hs
  have h1 : (Machine.selOn s).agent.law = .abstractModel := (keeps_onSel s.cfg s.agent).law.trans hl
  have h2 : (Machine.xfer s.cfg.opReadCmdBuff (Machine.selOn s)).agent.law = .abstractModel :=
    (keeps_onExchange s.cfg _ _).law.trans h1
  have hw : (Machine.xfer s.cfg.opReadCmdBuff (Machine.selOn s)).agent.window = [s.cfg.opReadCmdBuff] := by
    rw [xfer_window _ _ h1]
    rfl
  generalize hu : Machine.xfer s.cfg.opReadCmdBuff (Machine.selOn s) = u at h2 hw
  have hcfg : u.cfg = s.cfg := by rw [← hu]; rfl
  have hlast : (u.agent.onExchange s.cfg Literal.dummyByte).1 = Literal.ctsReady := by
    have : (counted1 s).lastCts = some (u.agent.onExchange u.cfg Literal.dummyByte).1 := by rw [← hu]; rfl
    rw [readyAt, this, hcfg] at hr
    exact Option.some.inj hr
  have hagent : (counted1 s).agent = (u.agent.onExchange s.cfg Literal.dummyByte).2 := by
    rw [← hcfg, ← hu]
    rfl
  rw [hagent]
  revert hlast
  unfold Agent.onExchange
  dsimp only
  have htl : (u.agent.turn s.cfg).law = .abstractModel := (keeps_turn s.cfg u.agent).law.trans h2
  rw [htl]
  dsimp only
  have htw : (u.agent.turn s.cfg).window = [s.cfg.opReadCmdBuff] := by rw [turn_window, hw]
  generalize u.agent.turn s.cfg = b at htl htw
  unfold Agent.modelAnswer
  rw [htw]
  dsimp only
  by_cases hm : b.chip.mode = .unknown ∨ b.chip.mode = .off
  · rw [if_pos hm]
    intro _
    have : b.drawByte.2.chip = b.chip := (draw_same b).2.1
    exact .inr (by rw [this]; exact hm)
  · rw [if_neg hm, if_neg hd, if_pos (by simp)]
    exact answered_modelCts b

/-- After a handshake that returns ready the chip is ready, or it answers whatever it may (R98). -/
theorem ready_handshake (hd : c.opReadCmdBuff ≠ Literal.opReadRxFifo) {n : Nat} {r : List Byte} {s t : State}
    (hs : s.cfg = c) (hl : s.agent.law = .abstractModel) (hr : Machine.getResponse n s = .ok r t) :
    Answered t.agent.chip := by
  have law : ∀ {u v : State}, AgentKeeps u.agent v.agent → u.agent.law = .abstractModel → v.agent.law = .abstractModel :=
    fun h hl => h.law.trans hl
  have hb : (beginHandshake s).agent.law = .abstractModel := by
    rw [beginHandshake_agent]
    exact (keeps_onHandshake _).law.trans hl
  unfold Machine.getResponse at hr
  obtain ⟨k, -, -, hcase⟩ := pollLoop_cases n s.cfg.ctsRetryMax (beginHandshake s)
  have hcfg : (polled k (beginHandshake s)).cfg = c := by simpa using hs
  have hp : ∀ (j : Nat) (u : State), u.cfg = c → u.agent.law = .abstractModel → (polled j u).agent.law = .abstractModel := by
    intro j
    induction j with
    | zero => exact fun _ _ h => h
    | succ j ih =>
      exact fun u hu h => ih (busyPoll u) hu ((keeps_onDesel u.cfg (Machine.askCts u).agent).law.trans (askCts_law u h))
  rcases hcase with ⟨-, hc⟩ | ⟨-, hrd, hc⟩ <;> rw [hc] at hr
  · cases hr
  · have hul := hp k _ (by simpa using hs) hb
    generalize polled k (beginHandshake s) = u at *
    have hw : (counted1 u).agent.window = [c.opReadCmdBuff, Literal.dummyByte] := hcfg ▸ askCts_head u hul
    have hcl : (counted1 u).agent.law = .abstractModel := askCts_law u hul
    have h1 := (closed_answered c).afterReads n (counted1 u) hcfg hcl
    have h2 := (closed_answered c).selOff (Machine.afterReads n (counted1 u))
      ((by simp : (Machine.afterReads n (counted1 u)).cfg = (counted1 u).cfg).trans hcfg) (fun _ =>
      .inr (.inr (.inr (.inr (afterReads_head n _ hcl (by rw [hw]; rfl)))))) h1.1
    have ht : t.agent = (Machine.selOff (Machine.afterReads n (counted1 u))).agent := by
      rcases respond_cases n (counted1 u) with ⟨-, he⟩ | ⟨-, he⟩ <;> rw [he] at hr
      · injection hr with _ hr
        rw [← hr]
      · cases hr
    rw [ht]
    exact h2.2 (h1.2 (answered_ask hd hcfg hul hrd))

end Sys2Proof.Machine
end

