-- ==== Sys2Proof/Laws/Leads.lean ====
section
/-! SUPPORT. Reasoning about what a completed operation leaves of the chip under the abstract chip model. -/

namespace Sys2Proof.Machine

theorem onRequest_model {a : Agent} {i} (h : a.law = .abstractModel) :
    a.onRequest i = { a with chip := a.chip.request i } := by
  unfold Agent.onRequest; rw [h]

theorem begin_model {i : Instr} {s : State} (hl : s.agent.law = .abstractModel) :
    (begin i s).agent = { s.agent with chip := s.agent.chip.request i } := onRequest_model hl

/-! ### Command frames at a powered chip -/

theorem powered_ne {m : Mode} (h : m.powered = true) : m ≠ .unknown ∧ m ≠ .off ∧ m ≠ .boot := by
  cases m <;> simp_all [Mode.powered]

/-- A command frame at a powered chip that is not busy (R97, R212). -/
theorem command_powered {c src f} {h : Chip} (hm : h.mode.powered = true) (hc : h.cts = true) : h.command c src f =
    (if (({ h with intRead := false } : Chip).effect c src f).mode = .unknown then
        (({ h with intRead := false } : Chip).effect c src f)
     else { (if atOnce c src f then ({ h with intRead := false } : Chip).effect c src f else { h with intRead := false }) with
        cts := false, taken := some (src, f) }) := by
  obtain ⟨h1, h2, h3⟩ := powered_ne hm
  unfold Chip.command
  rw [if_neg h1, if_neg (by simp [hc, h2]), if_neg h3]

/-- What a powered chip is after a frame that it has yet to act on: the same, busy, the frame in hand (R97). -/
def Chip.take (src : FrameSource) (f : List Byte) (h : Chip) : Chip :=
  { h with intRead := false, cts := false, taken := some (src, f) }

theorem command_take {c src f} {h : Chip} (hm : h.mode.powered = true) (hc : h.cts = true) (ha : atOnce c src f = false)
    (he : (({ h with intRead := false } : Chip).effect c src f).mode ≠ .unknown) : h.command c src f = h.take src f := by
  rw [command_powered hm hc, if_neg he, ha]
  rfl

/-- Acting on the frame in hand (R97). -/
theorem act_take {c src f} {h : Chip} (hm : h.mode.powered = true) (ha : atOnce c src f = false) :
    (h.take src f).act c =
      (({ h with intRead := false, cts := false, taken := none } : Chip).effect c src f).enableInts c f := by
  unfold Chip.act Chip.take
  dsimp only
  rw [if_neg (powered_ne hm).2.2, if_neg (by simp [hm]), ha]
  rfl

theorem processed_take {c src f} {h : Chip} (hm : h.mode.powered = true) (ha : atOnce c src f = false) :
    (h.take src f).processed c =
      { (({ h with intRead := false, cts := false, taken := none } : Chip).effect c src f).enableInts c f with
        cts := true } := by
  unfold Chip.processed
  rw [act_take hm ha]

/-- One of its own moves, at a chip that neither transmits nor receives: acting on its frame, or nothing. -/
theorem move_idle {c : Config} (m) {g : Chip} (h1 : g.mode ≠ .txArmed) (h2 : g.mode ≠ .rxArmed) :
    g.move c m = g ∨ g.move c m = g.act c := by
  cases m <;> simp [Chip.move, Chip.txComplete, Chip.rxValid, Chip.rxInvalid, Chip.rxTimeout, h1, h2]

/-- R214. -/
theorem standby_effect {c : Config} (hc : c.admitted = true) (h : Chip) :
    h.effect c .command (standbyFrame c) = { h.cutTx with mode := .standbyReady } := by
  unfold Chip.effect standbyFrame
  rw [decodeFrame_state (Config.distinct hc)]
  simp [decodeOneByte, Chip.obey, Instr.wireFieldsOk]

/-- R215. -/
theorem startTx_effect {c : Config} (ch cond) (len : Half) {h : Chip} (hcf : h.configured = true) (hl : len ≠ 0)
    (hlen : len.toNat ≤ h.txFifo.length) :
    h.effect c .command (startTxFrame ch cond len) =
      { h with
        mode := .txArmed
        txActive := decide (cond.extractLsb' 0 2 = 0#2)
        txLength := len.toNat
        txCondition := cond } := by
  unfold Chip.effect startTxFrame
  rw [decodeFrame_startTx]
  simp only [decodeWireStartTx, half_hi8_lo8, Chip.obey, Chip.startTx]
  rw [if_neg (by rintro (h1 | h1 | h1); exact h1 hcf; exact hl h1; omega)]

/-- R217. -/
theorem startRx_effect {c : Config} (ch cond) (len : Half) (x y z) {h : Chip} (hcf : h.configured = true)
    (hl : len ≠ 0) :
    h.effect c .command (startRxFrame ch cond len x y z) =
      { h.cutTx with mode := .rxArmed, rxLength := len.toNat, onTimeout := x, onValid := y, onInvalid := z } := by
  unfold Chip.effect startRxFrame
  rw [decodeFrame_startRx]
  simp only [decodeWireStartRx, half_hi8_lo8, Chip.obey, Chip.startRx]
  rw [if_neg (by rintro (h1 | h1); exact h1 hcf; exact hl h1)]

/-- The opcode of GET_INT_STATUS is none of those that act at once (R128). -/
theorem opcode_status {c : Config} (hc : c.admitted = true) :
    c.opGetIntStatus ≠ Literal.opStartTx ∧ c.opGetIntStatus ≠ c.opChangeState := by
  have h1 := (Config.distinct hc).status
  have h2 := (Config.distinct hc).state
  simp only [List.mem_cons, List.not_mem_nil, or_false, not_or] at h1 h2
  exact ⟨h1.2.2.1, fun h => by rw [h] at h2; simp_all⟩

/-- R220. -/
theorem status_effect {c : Config} (hc : c.admitted = true) (h : Chip) :
    h.effect c .command (intStatusFrame c) = h.intStatus := by
  unfold Chip.effect intStatusFrame
  rw [decodeFrame_status (Config.distinct hc)]
  simp [Chip.obey, Instr.wireFieldsOk]

theorem atOnce_status {c : Config} (hc : c.admitted = true) : atOnce c .command (intStatusFrame c) = false := by
  obtain ⟨h1, h2⟩ := opcode_status hc
  simp [atOnce, intStatusFrame, h1, h2]

/-- A GET_INT_STATUS frame at a powered chip that is not busy (R65, R97). -/
theorem status_command {c : Config} (hc : c.admitted = true) {h : Chip} (hm : h.mode.powered = true) (hcts : h.cts = true) :
    h.command c .command (intStatusFrame c) = h.take .command (intStatusFrame c) :=
  command_take hm hcts (atOnce_status hc) (by rw [status_effect hc]; exact (powered_ne hm).1)

/-- R219. -/
theorem fifo_effect {c : Config} (sub : Byte) (hs : sub = 1 ∨ sub = 2 ∨ sub = 3) (h : Chip) :
    h.effect c .command (fifoResetFrame sub) = h.fifoReset sub := by
  unfold Chip.effect fifoResetFrame
  rw [decodeFrame_fifoReset]
  simp only [decodeOneByte, Chip.obey]
  rw [if_pos]
  rcases hs with rfl | rfl | rfl <;> simp [Instr.wireFieldsOk, Literal.fifoSubTx, Literal.fifoSubRx,
      Literal.fifoSubBoth]

/-! ### The opcodes of an admitted configuration -/

theorem standby_wf {c : Config} (hc : c.admitted = true) : c.opChangeState ≠ 0x66 ∧ c.opChangeState ≠ 0x77 ∧
    c.opChangeState ≠ c.opReadCmdBuff := by
  have := (Config.distinct hc).state
  simp only [List.mem_cons, List.not_mem_nil, or_false, not_or] at this
  exact ⟨this.2.2.2.2.1, this.2.2.2.2.2.1, this.2.2.2.2.2.2.1⟩

theorem poll_wf {c : Config} (hc : c.admitted = true) : c.opReadCmdBuff ≠ 0x66 ∧ c.opReadCmdBuff ≠ 0x77 ∧
    c.opReadCmdBuff ≠ 0x11 ∧ c.opReadCmdBuff ≠ 0x15 ∧ c.opReadCmdBuff ≠ 0x31 ∧ c.opReadCmdBuff ≠ 0x32 := by
  have := (Config.distinct hc).poll
  simp only [List.mem_cons, List.not_mem_nil, or_false, not_or] at this
  exact ⟨this.2.2.2.2.1, this.2.2.2.2.2, this.1, this.2.1, this.2.2.1, this.2.2.2.1⟩

theorem status_wf {c : Config} (hc : c.admitted = true) : c.opGetIntStatus ≠ 0x66 ∧ c.opGetIntStatus ≠ 0x77 ∧
    c.opGetIntStatus ≠ c.opReadCmdBuff := by
  have := (Config.distinct hc).status
  simp only [List.mem_cons, List.not_mem_nil, or_false, not_or] at this
  exact ⟨this.2.2.2.2.1, this.2.2.2.2.2.1, this.2.2.2.2.2.2⟩

theorem cf_cons {c : Config} {op : Byte} {args} (h1 : op ≠ 0x66) (h2 : op ≠ 0x77) (h3 : op ≠ c.opReadCmdBuff) :
    CommandFrame c (op :: args) :=
  ⟨fun h => h1 (Option.some.inj h), fun h => h2 (Option.some.inj h), fun h => h3 (Option.some.inj h)⟩

theorem power_wf {c : Config} (hc : c.admitted = true) : c.powerUpFrame ≠ [] ∧ CommandFrame c c.powerUpFrame := by
  have hpw := (Config.distinct hc).power
  cases hp : c.powerUpFrame with
  | nil =>
    exfalso
    obtain ⟨-, -, hd⟩ := Config.admitted_parts hc
    simp only [Config.dataOk, Config.frameParams, planOk, frameFits, Bool.and_eq_true, decide_eq_true_eq,
        List.all_eq_true] at hd
    simp [hp] at hd
  | cons a l =>
    rw [hp] at hpw
    simp only [List.headD_cons, List.mem_cons, List.not_mem_nil, or_false, not_or] at hpw
    exact ⟨by simp, cf_cons hpw.2.2.2.2.1 hpw.2.2.2.2.2.1 hpw.2.2.2.2.2.2.1⟩

theorem cf_standby {c : Config} (hc : c.admitted = true) : CommandFrame c (standbyFrame c) :=
  cf_cons (standby_wf hc).1 (standby_wf hc).2.1 (standby_wf hc).2.2

theorem cf_status {c : Config} (hc : c.admitted = true) : CommandFrame c (intStatusFrame c) :=
  cf_cons (status_wf hc).1 (status_wf hc).2.1 (status_wf hc).2.2

theorem cf_tx {c : Config} (hc : c.admitted = true) (ch cond len) : CommandFrame c (startTxFrame ch cond len) :=
  cf_cons (by decide) (by decide) (Ne.symm (poll_wf hc).2.2.2.2.1)

theorem cf_rx {c : Config} (hc : c.admitted = true) (ch cond len x y z) :
    CommandFrame c (startRxFrame ch cond len x y z) :=
  cf_cons (by decide) (by decide) (Ne.symm (poll_wf hc).2.2.2.2.2)

theorem cf_fifo {c : Config} (hc : c.admitted = true) (sub) : CommandFrame c (fifoResetFrame sub) :=
  cf_cons (by decide) (by decide) (Ne.symm (poll_wf hc).2.2.2.1)

theorem cf_prop {c : Config} (hc : c.admitted = true) (g o d) : CommandFrame c (propFrame g o d) :=
  cf_cons (by decide) (by decide) (Ne.symm (poll_wf hc).2.2.1)

/-! ### Partial correctness under the abstract chip model -/

variable {c : Config} {E : List (List ChipMove) → Prop} {P Q R : Chip → Prop}

/-- The abstract chip model is in force, its plan is in `E`, the chip in `P`. -/
def Calm (E : List (List ChipMove) → Prop) (P : Chip → Prop) (a : Agent) : Prop :=
  a.law = .abstractModel ∧ E a.plan ∧ P a.chip

/-- The chip has no move left, or none of its moves leaves `P`. -/
def Quiet (c : Config) (E : List (List ChipMove) → Prop) (P : Chip → Prop) : Prop :=
  (∀ l, E l → l = []) ∨ ((∀ l, E l) ∧ ∀ m g, P g → P (g.move c m))

theorem stable_calm {c E P} (h : Quiet c E P) : Stable c (Calm E P) where
  law h := h.1
  turn {a} ha := by
    unfold Agent.turn
    rw [ha.1]
    dsimp only
    split
    · exact ha
    · rename_i hpl
      rcases h with h | ⟨h1, h2⟩
      · have := h _ ha.2.1
        rw [hpl] at this; cases this
      · exact ⟨rfl, h1 _, moves_keep h2 _ _ ha.2.2⟩
  draw {a} ha := ⟨(draw_same a).1.trans ha.1, by rw [(draw_same a).2.2]; exact ha.2.1,
      by rw [(draw_same a).2.1]; exact ha.2.2⟩
  window _ h := h
  source _ h := h

/-- From a chip in `P` the part, if it completes, leads to a chip in `Q`. -/
def Leads {α : Type} (c : Config) (E : List (List ChipMove) → Prop) (P : Chip → Prop) (f : State → Flow α)
    (Q : Chip → Prop) : Prop :=
  ∀ s r t, s.cfg = c → Calm E P s.agent → f s = .ok r t → t.cfg = c ∧ Calm E Q t.agent

theorem Leads.mono {α} {f : State → Flow α} {P' Q'} (h : Leads c E P f Q) (hp : ∀ g, P' g → P g)
    (hq : ∀ g, Q g → Q' g) : Leads c E P' f Q' :=
  fun s r t hs ha hf => let ⟨x, y, z, w⟩ := h s r t hs ⟨ha.1, ha.2.1, hp _ ha.2.2⟩ hf; ⟨x, y, z, hq _ w⟩

/-- Sequencing. -/
theorem Leads.bind {α β} {f : State → Flow α} {g : α → State → Flow β} (hf : Leads c E P f Q)
    (hg : ∀ a, Leads c E Q (g a) R) : Leads c E P (fun s => (f s).bind g) R := by
  intro s r t hs ha h
  cases hfs : f s with
  | ok a u =>
    obtain ⟨h1, h2⟩ := hf s a u hs ha hfs
    have h : (f s).bind g = .ok r t := h
    rw [hfs] at h
    exact hg a u r t h1 h2 h
  | timeout n u => have h : (f s).bind g = .ok r t := h; rw [hfs] at h; cases h
  | fault u => have h : (f s).bind g = .ok r t := h; rw [hfs] at h; cases h

theorem Leads.ret {α} (v : State → α) : Leads c E P (fun s => .ok (v s) s) P := by
  intro s r t hs ha h
  injection h with _ h
  subst h; exact ⟨hs, ha⟩

theorem Leads.nil : Leads c E P (chain []) P := Leads.ret _

theorem Leads.cons {f : Step} {fs} (hf : Leads c E P f Q) (hg : Leads c E Q (chain fs) R) :
    Leads c E P (chain (f :: fs)) R :=
  Leads.bind hf fun _ => hg

theorem Leads.one {f : Step} (hf : Leads c E P f Q) : Leads c E P (chain [f]) Q := hf.cons .nil

theorem Leads.append {fs gs} (hf : Leads c E P (chain fs) Q) (hg : Leads c E Q (chain gs) R) :
    Leads c E P (chain (fs ++ gs)) R := by
  intro s r t hs ha h
  rw [chain_append] at h
  exact Leads.bind hf (fun _ => hg) s r t hs ha h

/-- A sequence whose every step keeps `P`. -/
theorem Leads.all {fs : List Step} (h : ∀ f ∈ fs, Leads c E P f P) : Leads c E P (chain fs) P := by
  induction fs with
  | nil => exact .nil
  | cons f fs ih => exact (h f (by simp)).cons (ih fun g hg => h g (by simp [hg]))

/-- A step that touches no agent. -/
theorem Leads.pure {f : State → State} (h1 : ∀ s, (f s).agent = s.agent) (h2 : ∀ s, (f s).cfg = s.cfg) :
    Leads c E P (lift f) P := by
  intro s r t hs ha h
  injection h with _ h
  subst h; exact ⟨(h2 s).trans hs, by rw [h1]; exact ha⟩

theorem Leads.done : Leads c E P (lift stepDone) P := .pure (fun s => by simp) (fun s => by simp)

theorem Leads.counted {f : Step} (h : Leads c E P f Q) :
    Leads c E P (fun s => (f s).bind fun _ t => .ok () (stepDone t)) Q := h.bind fun _ => Leads.done

/-- As `Leads.cons`, for the counted steps of an operation. -/
theorem Leads.cons' {f : Step} {fs} (hf : Leads c E P f Q) (hg : Leads c E Q (chain (Machine.counted fs)) R) :
    Leads c E P (chain (Machine.counted (f :: fs))) R :=
  Leads.cons hf.counted hg

theorem Leads.nil' : Leads c E P (chain (Machine.counted [])) P := .nil

theorem Leads.all' {fs : List Step} (h : ∀ f ∈ fs, Leads c E P f P) : Leads c E P (chain (Machine.counted fs)) P := by
  induction fs with
  | nil => exact .nil
  | cons f fs ih => exact (h f (by simp)).cons' (ih fun g hg => h g (by simp [hg]))

theorem Leads.append' {fs gs} (hf : Leads c E P (chain (Machine.counted fs)) Q)
    (hg : Leads c E Q (chain (Machine.counted gs)) R) : Leads c E P (chain (Machine.counted (fs ++ gs))) R := by
  unfold Machine.counted at *; rw [List.map_append]; exact hf.append hg

/-- A command frame (R212). -/
theorem Leads.send (hq : Quiet c E P) {src f} (hne : f ≠ []) (hcf : CommandFrame c f) (hl : f.length ≤ c.cmdBufCap)
    (h : ∀ g, P g → Q (g.command c src f)) : Leads c E P (sendFrom src f) Q := by
  rintro s r t rfl ha hs
  rw [sendFrom_ok hl] at hs
  injection hs with _ hs
  subst hs
  cases f with
  | nil => exact absurd rfl hne
  | cons op args =>
    obtain ⟨h6, h7, hr⟩ := hcf
    simp only [List.head?_cons, ne_eq, Option.some.injEq] at h6 h7 hr
    obtain ⟨a, h1, h2, h3, h4⟩ := (stable_calm hq).command
      (s := loadCmd src (op :: args) s) h6 h7 hr args rfl ((stable_calm hq).source src ha)
    exact ⟨by simp, h2, by rw [h3]; exact h1.2.1, by rw [h4]; exact h _ h1.2.2⟩

/-- A handshake of a busy chip, which it ends ready (R212), with its response read (R220). -/
theorem Leads.wait (hc : c.admitted = true) {n} (hq : Quiet c E P) (hq' : Quiet c E R)
    (hb : ∀ g, P g → g.cts = false ∧ g.mode ≠ .unknown ∧ g.mode ≠ .off) (hr : ∀ g, P g → R (g.processed c))
    (h : ∀ g, R g → Q (g.afterRead (n + 1))) : Leads c E P (getResponse n) Q := by
  rintro s r t rfl ha hs
  have hp := poll_wf hc
  obtain ⟨a, h1, h2, h3, h4⟩ := (stable_calm hq).handshake (stable_calm hq') ⟨hp.2.1, hp.1⟩
    (fun h => hb _ h.2.2) (fun h e1 e2 e3 => ⟨e1, by rw [e2]; exact h.2.1, by rw [e3]; exact hr _ h.2.2⟩) rfl ha hs
  have := (frame_getResponse n s).cfg
  rw [hs] at this
  exact ⟨this, h2, by rw [h3]; exact h1.2.1, by rw [h4]; exact h _ h1.2.2⟩

theorem Leads.discard {α} {f : State → Flow α} (h : Leads c E P f Q) :
    Leads c E P (fun s => (f s).bind fun _ t => .ok () t) Q := h.bind fun _ => Leads.ret (fun _ => ())

theorem Leads.waitCts (hc : c.admitted = true) (hq : Quiet c E P) (hq' : Quiet c E Q)
    (hb : ∀ g, P g → g.cts = false ∧ g.mode ≠ .unknown ∧ g.mode ≠ .off) (h : ∀ g, P g → Q (g.processed c)) :
    Leads c E P waitForCts Q :=
  (Leads.wait (n := 0) hc hq hq' hb h (fun g hg => by rw [afterRead_one]; exact hg)).discard

/-- WRITE_TX_FIFO (R64). -/
theorem Leads.push (hc : c.admitted = true) (hq : Quiet c E P) (d) (h : ∀ g, P g → Q (g.pushTx c d)) :
    Leads c E P (writeTxFifo d) Q := by
  rintro s r t rfl ha hs
  injection hs with _ hs
  subst hs
  obtain ⟨a, h1, h2, h3, h4⟩ := (stable_calm hq).push (Ne.symm (poll_wf hc).1) d rfl ha
  exact ⟨by simp, h2, by rw [h3]; exact h1.2.1, by rw [h4]; exact h _ h1.2.2⟩

/-- The ready-line sample (R65). -/
theorem Leads.sample (hq : Quiet c E P) : Leads c E P (lift sampleIrq) P := by
  rintro s r t rfl ha hs
  injection hs with _ hs
  subst hs
  have ht := (stable_calm hq).turn ha
  refine ⟨by simp, ?_⟩
  rw [sampleIrq_agent]
  unfold Agent.onSample
  dsimp only
  rw [ht.1]
  dsimp only
  split
  · exact (stable_calm hq).draw ht
  · exact ht

theorem Leads.steps {fs : List Step} (h : Leads c E P (chain (Machine.counted fs)) Q) :
    Leads c E P (stepsBody fs) Q := Leads.bind h fun _ => Leads.ret _

theorem quiet_nil {c P} : Quiet c (· = []) P := .inl fun _ h => h

/-- The chip at the end of a completed operation. -/
theorem end_chip {i : Instr} {r} {u : State} (hl : u.agent.law = .abstractModel) :
    (complete i r u).agent.chip = { u.agent.chip with held := false } ∧ (complete i r u).agent.law = .abstractModel ∧
    (complete i r u).agent.plan = u.agent.plan ∧ (complete i r u).agent.drawn = u.agent.drawn := by
  have : (complete i r u).agent = u.agent.onEnd := rfl
  rw [this]; unfold Agent.onEnd; rw [hl]; exact ⟨rfl, rfl, rfl, rfl⟩

/-- From the request to the end of a host operation that completes. -/
theorem completed_chip {i : Instr} {s t : State} (hs : Accepts s) (hl : s.agent.law = .abstractModel)
    (hE : E s.agent.plan) (hw : i.isWire = false) (hk : i.failingCheck s.cfg = none) (hx : i.expand = i)
    (hreq : P (s.agent.chip.request i)) {f : State → Flow Result} (hb : hostBody s.cfg i = f)
    (hL : Leads s.cfg E P f Q) (h : exec i s = .next t) (hst : t.status = .ok) :
    t.cfg = s.cfg ∧ t.agent.law = .abstractModel ∧ E t.agent.plan ∧
      ∃ g, Q g ∧ t.agent.chip = { g with held := false } := by
  rw [exec_runs hw hs.2 hk, hb, hx] at h
  injection h with h
  subst h
  cases hbody : f (begin i s) with
  | ok r u =>
    obtain ⟨h1, h2, h3, h4⟩ := hL (begin i s) r u rfl ⟨(onRequest_law _ _).trans hl, by rw [begin_model hl]; exact hE,
        by rw [begin_model hl]; exact hreq⟩ hbody
    obtain ⟨e1, e2, e3, -⟩ := end_chip (i := i) (r := r) (u := u) h2
    exact ⟨h1, e2, by rw [show (finish i (.ok r u)).agent.plan = _ from e3]; exact h3, _, h4, e1⟩
  | timeout n u => rw [hbody] at hst; exact absurd (show Status.timeout = Status.ok from hst) (by decide)
  | fault u =>
    exfalso
    have he := ends_hostBody hs.1 hk (begin i s) rfl
    rw [hb, hbody] at he
    exact he.elim

end Sys2Proof.Machine
end

