-- ==== Sys2Proof/Laws/Pieces.lean ====
section
/-! SUPPORT. What every part of an operation puts on the bus, whatever the chip answers: its pieces, all of them, or up to the
handshake that fails (spec R160, R265, R266, R269). -/

namespace Sys2Proof.Machine

variable {c : Config}

/-! ### Piece lists -/

theorem Finished.append {ps qs : List Piece} {a b : List Event} (h : Finished c ps a) (k : Finished c qs b) :
    Finished c (ps ++ qs) (a ++ b) := by
  induction ps generalizing a with
  | nil => cases h; exact k
  | cons p ps ih =>
    obtain ⟨first, rest, rfl, hp, h⟩ := h
    exact ⟨first, rest ++ b, by simp, hp, ih h⟩

theorem Finished.one {p : Piece} {es : List Event} (h : p.Whole c es) : Finished c [p] es := ⟨es, [], by simp, h, rfl⟩

theorem Aborted.append {ps : List Piece} {a : List Event} (h : Aborted c ps a) (qs : List Piece) : Aborted c (ps ++ qs) a := by
  obtain ⟨pre, n, post, first, busy, polls, rfl, h⟩ := h
  exact ⟨pre, n, post ++ qs, first, busy, polls, by simp, h⟩

theorem Aborted.after {ps qs : List Piece} {a b : List Event} (h : Finished c ps a) (k : Aborted c qs b) :
    Aborted c (ps ++ qs) (a ++ b) := by
  obtain ⟨pre, n, post, first, busy, polls, rfl, h1, h2, h3, h4, rfl⟩ := k
  exact ⟨ps ++ pre, n, post, a ++ first, busy, polls, by simp, h.append h1, h2, h3, h4, by simp⟩

/-! ### Parts -/

/-- From `s` on, the part has put its pieces on the bus: all of them, or up to the handshake that fails. -/
def Flow.Acts {α : Type} (c : Config) (ps : List Piece) (s : State) : Flow α → Prop
  | .ok _ t => t.cfg = c ∧ ∃ new, t.trace = s.trace ++ new ∧ Finished c ps new
  | .timeout n t => n = c.ctsRetryMax ∧ ∃ new, t.trace = s.trace ++ new ∧ Aborted c ps new
  | .fault _ => False

/-- Under the configuration `c` the part puts these pieces on the bus. -/
def Acts {α : Type} (c : Config) (f : State → Flow α) (ps : List Piece) : Prop := ∀ s, s.cfg = c → (f s).Acts c ps s

theorem Flow.Acts.bind {α β : Type} {ps qs : List Piece} {s : State} {x : Flow α} {g : α → State → Flow β}
    (hx : x.Acts c ps s) (hg : ∀ a t, x = .ok a t → t.cfg = c → (g a t).Acts c qs t) : (x.bind g).Acts c (ps ++ qs) s := by
  cases x with
  | ok a t =>
    obtain ⟨hc, new, ht, hf⟩ := hx
    have h := hg a t rfl hc
    rw [Flow.bind_ok]
    cases hgt : g a t with
    | ok b u =>
      rw [hgt] at h
      obtain ⟨hc', new', hu, hf'⟩ := h
      exact ⟨hc', new ++ new', by rw [hu, ht, List.append_assoc], hf.append hf'⟩
    | timeout n u =>
      rw [hgt] at h
      obtain ⟨hn, new', hu, hf'⟩ := h
      exact ⟨hn, new ++ new', by rw [hu, ht, List.append_assoc], .after hf hf'⟩
    | fault u => rw [hgt] at h; exact h.elim
  | timeout n t =>
    obtain ⟨hn, new, ht, hf⟩ := hx
    exact ⟨hn, new, ht, hf.append qs⟩
  | fault t => exact hx.elim

/-- Only the trace counts of the state a part starts in. -/
theorem Flow.Acts.from {α : Type} {ps : List Piece} {s s' : State} {x : Flow α} (h : x.Acts c ps s)
    (he : s.trace = s'.trace) : x.Acts c ps s' := by
  cases x with
  | ok a t => exact ⟨h.1, by rw [← he]; exact h.2⟩
  | timeout n t => exact ⟨h.1, by rw [← he]; exact h.2⟩
  | fault t => exact h.elim

theorem Acts.bind {α β : Type} {ps qs : List Piece} {f : State → Flow α} {g : α → State → Flow β} (hf : Acts c f ps)
    (hg : ∀ a, Acts c (g a) qs) : Acts c (fun s => (f s).bind g) (ps ++ qs) :=
  fun s hs => (hf s hs).bind fun a t _ ht => hg a t ht

/-- What a part hands on is no event. -/
theorem Acts.map {α β : Type} {ps : List Piece} {f : State → Flow α} (hf : Acts c f ps) (g : α → β) {d : State → State}
    (hc : ∀ s, (d s).cfg = s.cfg) (ht : ∀ s, (d s).trace = s.trace) :
    Acts c (fun s => (f s).bind fun a t => .ok (g a) (d t)) ps := by
  have := hf.bind (g := fun a t => .ok (g a) (d t)) (qs := []) fun _ s hs => ⟨(hc s).trans hs, [], by simp [ht], rfl⟩
  simpa using this

/-- A part that puts one piece on the bus and cannot fail. -/
theorem acts_lift {f : State → State} {p : Piece} (hc : ∀ s, (f s).cfg = s.cfg)
    (ht : ∀ s, ∃ new, (f s).trace = s.trace ++ new ∧ p.Whole c new) : Acts c (lift f) [p] := fun s hs => by
  obtain ⟨new, h, hw⟩ := ht s
  exact ⟨(hc s).trans hs, new, h, .one hw⟩

/-- Each step of a list puts its pieces on the bus. -/
inductive ActsAll (c : Config) : List Step → List Piece → Prop where
  | nil : ActsAll c [] []
  | cons {f : Step} {fs : List Step} {ps qs : List Piece} (hf : Acts c f ps) (hfs : ActsAll c fs qs) :
      ActsAll c (f :: fs) (ps ++ qs)

theorem ActsAll.one {f : Step} {ps : List Piece} (hf : Acts c f ps) : ActsAll c [f] ps := by
  simpa using ActsAll.cons hf .nil

theorem ActsAll.append {fs gs : List Step} {ps qs : List Piece} (h : ActsAll c fs ps) (k : ActsAll c gs qs) :
    ActsAll c (fs ++ gs) (ps ++ qs) := by
  induction h with
  | nil => exact k
  | cons hf _ ih => simpa using ActsAll.cons hf ih

theorem ActsAll.map {α : Type} {xs : List α} {f : α → Step} {g : α → List Piece} (h : ∀ x ∈ xs, Acts c (f x) (g x)) :
    ActsAll c (xs.map f) (xs.flatMap g) := by
  induction xs with
  | nil => exact .nil
  | cons x xs ih => exact .cons (h x (by simp)) (ih fun y hy => h y (by simp [hy]))

theorem ActsAll.counted {fs : List Step} {ps : List Piece} (h : ActsAll c fs ps) : ActsAll c (counted fs) ps := by
  induction h with
  | nil => exact .nil
  | cons hf _ ih => exact .cons (hf.map (fun _ => ()) (by simp) (by simp)) ih

theorem ActsAll.chain {fs : List Step} {ps : List Piece} (h : ActsAll c fs ps) : Acts c (chain fs) ps := by
  induction h with
  | nil => exact fun s hs => ⟨hs, [], by simp, rfl⟩
  | cons hf _ ih => exact hf.bind fun _ => ih

theorem ActsAll.body {fs : List Step} {ps : List Piece} (h : ActsAll c fs ps) : Acts c (stepsBody fs) ps :=
  h.counted.chain.map (fun _ => Result.ok) (d := id) (fun _ => rfl) fun _ => rfl

/-! ### The engine's parts -/

theorem acts_sendFrom {src : FrameSource} {f : List Byte} (h : f.length ≤ c.cmdBufCap) :
    Acts c (sendFrom src f) [.send f] := by
  rintro s rfl
  rw [sendFrom_ok h]
  obtain ⟨new, h1, h2⟩ := puts_writeWindow f (loadCmd src f s)
  exact ⟨by simp, new, h1, .one h2⟩

theorem acts_getResponse (hp : Polls c) {n : Nat} (hn : n ≤ c.respBufCap) : Acts c (getResponse n) [.hand n] := by
  rintro s rfl
  obtain ⟨vs, es, h1, h2, ⟨r, last, t, e, hr, hl, ht, hlt, -⟩ | ⟨t, e, ht, hl, -⟩⟩ := getResponse_all hp hn
  · have hc := (frame_getResponse n s).cfg
    rw [e] at hc ⊢
    exact ⟨hc, es ++ last, by rw [ht, List.append_assoc], .one ⟨vs, es, r, last, h1, hlt, h2, hr, hl, rfl⟩⟩
  · rw [e]
    exact ⟨rfl, es, ht, [], n, [], [], vs, es, rfl, rfl, h2, h1, hl, rfl⟩

theorem acts_waitForCts (hp : Polls c) : Acts c waitForCts [.hand 0] :=
  (acts_getResponse hp (Nat.zero_le _)).map (fun _ => ()) (d := id) (fun _ => rfl) fun _ => rfl

theorem acts_pair (hp : Polls c) {src : FrameSource} {f : List Byte} (h : f.length ≤ c.cmdBufCap) :
    ActsAll c [sendFrom src f, waitForCts] (waited f) := .cons (acts_sendFrom h) (.one (acts_waitForCts hp))

theorem acts_event {f : State → State} {e : Event} (hc : ∀ s, (f s).cfg = s.cfg) (ht : ∀ s, (f s).trace = s.trace ++ [e]) :
    Acts c (lift f) [.event e] := acts_lift hc fun s => ⟨[e], ht s, rfl⟩

theorem acts_writeTxFifo (d : List Byte) : Acts c (writeTxFifo d) [.send (Literal.opWriteTxFifo :: d)] :=
  acts_lift (by simp) fun s => puts_writeWindow _ s

/-- A READ_RX_FIFO transaction, answers left out (R119). -/
theorem puts_readRx (n : Nat) (s : State) : Puts s (selOff (afterReads n (openRxRead s)))
    (wOut (Literal.opReadRxFifo :: List.replicate n Literal.dummyByte)) := by
  have h1 : Puts s (openRxRead s) [.sel, .x Literal.opReadRxFifo 0] := ⟨_, (by simp [openRxRead] : _ = s.trace ++ [.sel, .x Literal.opReadRxFifo (xferByte Literal.opReadRxFifo (selOn s))]), rfl⟩
  have h2 := puts_afterReads n (openRxRead s)
  have h3 : Puts (afterReads n (openRxRead s)) (selOff (afterReads n (openRxRead s))) [.desel] := puts_one .desel (by simp)
  have := (h1.trans h2).trans h3
  simpa [wOut] using this

theorem acts_readRxFifo (n : Nat) :
    Acts c (readRxFifo n) [.send (Literal.opReadRxFifo :: List.replicate n Literal.dummyByte)] := by
  intro s hs
  obtain ⟨new, h1, h2⟩ := puts_readRx n s
  exact ⟨by simpa [openRxRead] using hs, new, h1, .one h2⟩

variable (hf : Facts c)
include hf

theorem acts_setPropertySteps (g o : Byte) {d : List Byte} (h : d.length ≤ c.propMax) :
    ActsAll c (setPropertySteps g o d) (waited (propFrame g o d)) :=
  acts_pair hf.polls (by have := hf.propCap; simp [propFrame]; omega)

theorem acts_planSteps {plan : List PlanEntry} (h : ∀ e ∈ plan, e.count ≤ c.propMax) (p : List Byte) :
    ActsAll c (planSteps plan p) (planPieces plan p) :=
  ActsAll.map fun e he => (acts_setPropertySteps hf e.group e.offset ((length_planSlice p e).trans (h e he))).chain

theorem acts_clearIntsSteps : ActsAll c (clearIntsSteps c) (clearPieces c) := by
  refine .cons (acts_sendFrom ?_) (.one ((acts_getResponse hf.polls hf.respCap).map (fun _ => ()) (d := id) (fun _ => rfl)
    fun _ => rfl))
  have := hf.intCap
  simp [intStatusFrame]; omega

theorem acts_clearInterrupts : Acts c clearInterrupts (clearPieces c) := by
  rintro s rfl
  exact (acts_clearIntsSteps hf).chain s rfl

theorem acts_powerUpSteps : ActsAll c (powerUpSteps c) (powerUpPieces c) := by
  have h1 (b : Bool) : Acts c (lift (setRst b)) [.event (.rst b)] := acts_event (fun _ => rfl) fun _ => rfl
  have h2 : Acts c (lift (delayUs c.tRstAssertUs)) [.event (.delayUs c.tRstAssertUs)] := acts_event (fun _ => rfl) fun _ => rfl
  have h3 : Acts c (lift (delayMs c.tSettleMs)) [.event (.delayMs c.tSettleMs)] := acts_event (fun _ => rfl) fun _ => rfl
  have := ActsAll.cons (h1 true) <| .cons h2 <| .cons (h1 false) <| .cons h3 <|
    .append (acts_pair (src := .command) hf.polls hf.powerFits) (.one (acts_clearInterrupts hf))
  simpa [powerUpPieces, powerUpSteps, sendCommand] using this

theorem acts_records {src : FrameSource} {fs : List (List Byte)} (h : ∀ f ∈ fs, f.length ≤ c.cmdBufCap) :
    Acts c (chain (recordSteps src fs)) (fs.flatMap waited) := by
  refine (ActsAll.map fun f hm => ?_).chain
  have := (acts_pair hf.polls (src := src) (h f hm)).chain.map (fun _ => ())
    (d := fun s => { s with cursor := s.cursor + f.length + 1 }) (fun _ => rfl) fun _ => rfl
  have he : replayRecord src f.length f = fun s => (chain [sendFrom src f, waitForCts] s).bind fun _ t =>
      .ok () { t with cursor := t.cursor + f.length + 1 } := by
    funext s
    exact (chain_append (fs := [sendFrom src f, waitForCts])).trans (by rfl)
  rw [he]
  exact this

theorem acts_replay {t : List Byte} (h : tableWF c.cmdBufCap t = true) : Acts c (replay t) (tablePieces t) := by
  obtain ⟨fs, hfs, hcap⟩ := tableWF_records h
  rintro s rfl
  rw [replay_eq hfs]
  have h1 := ((acts_records hf (src := tableSource s.cfg t) hcap { s with cursor := 0 } rfl).from (s' := s) rfl).bind
    (g := fun _ u => .ok () (noteReplayed t u)) (qs := []) fun _ u _ hu => ⟨by simpa using hu, [], by simp, rfl⟩
  simpa [tablePieces, hfs] using h1

theorem acts_configWaits {fs : List (List Byte)} (h : ∀ f ∈ fs, f.length ≤ c.cmdBufCap) :
    ActsAll c (fs.map configWait) (fs.flatMap waited) :=
  ActsAll.map fun f hm => (acts_pair hf.polls (h f hm)).chain

theorem acts_bringup : Acts c bringup (bringupPieces c) := by
  rintro s rfl
  have h1 : Acts s.cfg powerUp (powerUpPieces s.cfg) := fun u hu => by
    have := (acts_powerUpSteps hf).chain u hu
    unfold powerUp
    rwa [hu]
  have h2 : Acts s.cfg (setFrequency s.cfg.freqParams) (planPieces s.cfg.freqPlan s.cfg.freqParams) := fun u hu => by
    have := (acts_planSteps hf (fun e he => (hf.freqPlan e he).1) s.cfg.freqParams).chain u hu
    unfold setFrequency
    rwa [hu]
  have h3 : Acts s.cfg (setPower s.cfg.powerParams) (planPieces s.cfg.powerPlan s.cfg.powerParams) := fun u hu => by
    have := (acts_planSteps hf (fun e he => (hf.powerPlan e he).1) s.cfg.powerParams).chain u hu
    unfold setPower
    rwa [hu]
  have := ActsAll.append (ActsAll.append (.cons h1 <| .cons (acts_replay hf hf.table) <| .cons h2 <| .one h3)
    (acts_configWaits hf hf.extraFits)) (.cons (f := resetFifo Literal.fifoSubBoth) (acts_pair (src := .command) hf.polls
      (f := fifoResetFrame Literal.fifoSubBoth) (by have := hf.cmdCap; simp [fifoResetFrame]; omega)).chain
        (.one (acts_clearInterrupts hf)))
  have := this.chain s rfl
  unfold bringup bringupSteps
  simpa [bringupPieces] using this

theorem acts_enterSteps {fs : List (List Byte)} (h : ∀ f ∈ fs, f.length ≤ c.cmdBufCap) {last : List Byte}
    (hl : last.length ≤ c.cmdBufCap) :
    ActsAll c (bringup :: (fs.map configWait ++ [cmdWait last])) (bringupPieces c ++ fs.flatMap waited ++ waited last) := by
  have := ActsAll.cons (acts_bringup hf) ((acts_configWaits hf h).append
    (.one (f := cmdWait last) (acts_pair (src := .command) hf.polls hl).chain))
  simpa using this

/-- The pieces of TRY_RECEIVE, by the sample, which stands in `irq` at the end (R33, R240). -/
theorem acts_tryReceive (s : State) (hs : s.cfg = c) :
    (tryReceive s).Acts c (Instr.pieces c (tryReceive s).state.irq .tryReceive) s := by
  subst hs
  have hirq : (tryReceive s).state.irq = (sampleIrq s).irq := by
    unfold tryReceive
    dsimp only
    split
    · refine ((Keeps.bind (Frame.composes [.sel, .cmdBuf, .pollCount, .lastCts, .respBuf, .rxStage, .rxValid])
        (Keeps.counted (Frame.composes _) (frame_stepDone _) (fs := receiveSteps) ?_) (fun _ => frame_handOff.mono (by decide)))
          (stepDone (sampleIrq s))).irq (by decide) |>.trans (by simp)
      simp only [receiveSteps, List.mem_cons, List.not_mem_nil, or_false, forall_eq_or_imp, forall_eq]
      exact ⟨frame_stageFrame.mono (by decide), (frame_cmdWait _).mono (by decide), frame_clearInterrupts.mono (by decide),
        (frame_cmdWait _).mono (by decide)⟩
    · simp
  rw [hirq]
  unfold tryReceive
  dsimp only
  rw [stepDone_irq]
  cases hv : (sampleIrq s).irq with
  | false =>
    rw [if_neg (by decide)]
    exact ⟨by simp, [.irq false], by rw [← hv]; simp, .one rfl⟩
  | true =>
    rw [if_pos rfl]
    have h8 := hf.cmdCap
    have hst : Acts s.cfg stageFrame
        [.send (Literal.opReadRxFifo :: List.replicate Literal.frameLen Literal.dummyByte)] :=
      fun t ht => by
        have := (acts_readRxFifo Literal.frameLen t ht).bind
          (g := fun d t => Flow.ok () { t with rxStage := overwrite d t.rxStage, rxValid := true }) (qs := [])
          fun _ u _ hu => ⟨hu, [], by simp, rfl⟩
        unfold stageFrame
        simpa using this
    have hall : ActsAll s.cfg receiveSteps _ := .cons hst <|
      .cons (acts_pair (src := .command) hf.polls (f := fifoResetFrame Literal.fifoSubRx) (by simp [fifoResetFrame]; omega)).chain <|
      .cons (acts_clearInterrupts hf) <| .one (acts_pair (src := .command) hf.polls (f := rearmFrame)
        (by simp [rearmFrame, startRxFrame]; omega)).chain
    have hch := hall.counted.chain (stepDone (sampleIrq s)) (by simp)
    have hho : ∀ a u, chain (counted receiveSteps) (stepDone (sampleIrq s)) = .ok a u → u.cfg = s.cfg →
        (handOff u).Acts s.cfg [] u := by
      intro a u hu hc
      rw [receive_eq] at hu
      rw [handOff_staged (length_readBytes _ _) (receiveRest_stage hu)]
      exact ⟨hc, [], by simp, rfl⟩
    have h0 : (Flow.ok () (stepDone (sampleIrq s))).Acts s.cfg [.event (.irq true)] s :=
      ⟨by simp, [.irq true], by rw [← hv]; simp, .one rfl⟩
    have := h0.bind (g := fun _ t => (chain (counted receiveSteps) t).bind fun _ u => handOff u) fun _ t ht _ => by
      injection ht with _ ht
      subst ht
      exact hch.bind hho
    simpa [Instr.pieces] using this

/-- The pieces of SEND_FRAME, by the sample, which stands in `irq` at the end; where no sample is made, by any (R242). -/
theorem acts_sendFrame (f : List Byte) (s : State) (hs : s.cfg = c) :
    (stepsBody (sendFrameSteps f) s).Acts c (Instr.pieces c (stepsBody (sendFrameSteps f) s).state.irq (.sendFrame f)) s := by
  have h8 := hf.cmdCap
  have hstand : Acts c standby [.send (standbyFrame c)] := by
    rintro u rfl
    exact acts_sendFrom (by simp [standbyFrame]; omega) u rfl
  have h3 := (ActsAll.cons hstand <| .cons (acts_writeTxFifo f) <| .one (acts_waitForCts hf.polls)).counted.chain s hs
  have he : stepsBody (sendFrameSteps f) s = (chain (counted [standby, writeTxFifo f, waitForCts]) s).bind fun _ t =>
      stepsBody [lift sampleIrq, clearIfAsserted, startTx Literal.sendChannel Literal.sendCondition Literal.frameLength] t := by
    unfold stepsBody
    rw [show counted (sendFrameSteps f) = counted [standby, writeTxFifo f, waitForCts] ++ counted [lift sampleIrq,
      clearIfAsserted, startTx Literal.sendChannel Literal.sendCondition Literal.frameLength] from rfl, chain_append]
    cases chain (counted [standby, writeTxFifo f, waitForCts]) s <;> rfl
  rw [he]
  generalize hx : chain (counted [standby, writeTxFifo f, waitForCts]) s = x at h3 ⊢
  have hsplit : ∀ v, Instr.pieces c v (.sendFrame f) = ([Piece.send (standbyFrame c)] ++
      ([.send (Literal.opWriteTxFifo :: f)] ++ [.hand 0])) ++ ([.event (.irq v)] ++ ((if v then clearPieces c else []) ++
        [.send (startTxFrame Literal.sendChannel Literal.sendCondition Literal.frameLength)])) := by
    intro v; cases v <;> rfl
  rw [hsplit]
  refine h3.bind fun a t ht htc => ?_
  subst ht
  rw [Flow.bind_ok]
  set u := stepDone (sampleIrq t) with hu
  have huc : u.cfg = c := by simpa [hu] using htc
  have hb : stepsBody [lift sampleIrq, clearIfAsserted, startTx Literal.sendChannel Literal.sendCondition Literal.frameLength] t =
      stepsBody [clearIfAsserted, startTx Literal.sendChannel Literal.sendCondition Literal.frameLength] u := rfl
  have hirq : (stepsBody [clearIfAsserted, startTx Literal.sendChannel Literal.sendCondition Literal.frameLength] u).state.irq =
      (sampleIrq t).irq := by
    refine ((frame_stepsBody (w := respRegs) ?_) u).irq (by decide) |>.trans (by simp [hu])
    simp only [List.mem_cons, List.not_mem_nil, or_false, forall_eq_or_imp, forall_eq]
    exact ⟨frame_clearIfAsserted, (frame_sendCommand _).mono (by decide)⟩
  rw [hb, hirq]
  have hclr : (clearIfAsserted u).Acts c (if (sampleIrq t).irq then clearPieces c else []) u := by
    unfold clearIfAsserted
    rw [hu, stepDone_irq, ← hu]
    cases (sampleIrq t).irq with
    | true => exact acts_clearInterrupts hf u huc
    | false => exact ⟨huc, [], by simp, rfl⟩
  have hlast : Acts c (startTx Literal.sendChannel Literal.sendCondition Literal.frameLength)
      [.send (startTxFrame Literal.sendChannel Literal.sendCondition Literal.frameLength)] :=
    acts_sendFrom (by simp [startTxFrame]; omega)
  have hrest : (stepsBody [clearIfAsserted, startTx Literal.sendChannel Literal.sendCondition Literal.frameLength] u).Acts c
      ((if (sampleIrq t).irq then clearPieces c else []) ++
        [.send (startTxFrame Literal.sendChannel Literal.sendCondition Literal.frameLength)]) u := by
    have h2 := (hclr.bind (g := fun _ t => Flow.ok () (stepDone t)) (qs := []) fun _ v _ hv =>
      ⟨by simpa using hv, [], by simp, rfl⟩).bind fun _ v _ hv => (ActsAll.one hlast).body v hv
    rw [List.append_nil] at h2
    refine cast (congrArg (fun x => Flow.Acts c _ u x) ?_) h2
    unfold stepsBody counted
    simp only [List.map_cons, chain]
    cases clearIfAsserted u <;> rfl
  have h0 : (lift (fun s => stepDone (sampleIrq s)) t).Acts c [.event (.irq (sampleIrq t).irq)] t :=
    ⟨huc, [.irq (sampleIrq t).irq], by simp, .one rfl⟩
  exact h0.bind fun _ v hv _ => by
    have hv : v = u := by injection hv with _ hv; exact hv.symm
    subst hv
    exact hrest

omit hf in
/-- What every admitted operation puts on the bus, whatever the chip answers (R160, R265, R266, R269). -/
theorem acts_hostBody (hc : c.admitted = true) {i : Instr} (hw : i.isWire = false) (h : i.failingCheck c = none) (s : State)
    (hs : s.cfg = c) : (hostBody c i s).Acts c (i.pieces c (hostBody c i s).state.irq) s := by
  have hf := facts_of_admitted hc
  have h8 := hf.cmdCap
  cases i with
  | waitCts => exact (ActsAll.one (acts_waitForCts hf.polls)).body s hs
  | sendCmd f =>
    refine (ActsAll.one (acts_sendFrom (src := .command) ?_)).body s hs
    simp only [Instr.failingCheck] at h
    split at h
    · cases h
    · split at h
      · cases h
      · omega
  | getResp n =>
    refine (acts_getResponse hf.polls ?_).map Result.okBytes (d := stepDone) (by simp) (by simp) s hs
    simp only [Instr.failingCheck] at h
    split at h
    · cases h
    · omega
  | readRxFifo n => exact (acts_readRxFifo n).map Result.okBytes (d := stepDone) (by simp) (by simp) s hs
  | writeTxFifo d => exact (ActsAll.one (acts_writeTxFifo d)).body s hs
  | setProperty g o d =>
    refine (acts_setPropertySteps hf g o ?_).body s hs
    simp only [Instr.failingCheck] at h
    split at h
    · cases h
    · omega
  | replay t =>
    refine (ActsAll.one (acts_replay hf ?_)).body s hs
    simp only [Instr.failingCheck] at h
    split at h
    · assumption
    · cases h
  | powerUp => exact (acts_powerUpSteps hf).body s hs
  | clearInts => exact (acts_clearIntsSteps hf).body s hs
  | setFreq p => exact (acts_planSteps hf (fun e he => (hf.freqPlan e he).1) p).body s hs
  | setPower p => exact (acts_planSteps hf (fun e he => (hf.powerPlan e he).1) p).body s hs
  | startTx ch cond len => exact (ActsAll.one (acts_sendFrom (src := .command) (by simp [startTxFrame]; omega))).body s hs
  | startRx ch cond len t v x => exact (acts_pair (src := .command) hf.polls (by simp [startRxFrame]; omega)).body s hs
  | resetFifo sub => exact (acts_pair (src := .command) hf.polls (by simp [fifoResetFrame]; omega)).body s hs
  | standby =>
    refine (ActsAll.one ?_).body s hs
    rintro u rfl
    exact acts_sendFrom (by simp [standbyFrame]; omega) u rfl
  | enterRx => exact (acts_enterSteps hf hf.rxFits (last := rearmFrame) (by simp [rearmFrame, startRxFrame]; omega)).body s hs
  | enterTx => exact (acts_enterSteps hf hf.txFits (last := fifoResetFrame Literal.fifoSubTx) (by simp [fifoResetFrame]; omega)).body s hs
  | tryReceive => exact acts_tryReceive hf s hs
  | sendFrame f => exact acts_sendFrame hf f s hs
  | readRssi => exact ⟨(stepDone_cfg s).trans hs, [], by simp, rfl⟩
  | resetTxFifo => exact (acts_pair (src := .command) hf.polls (by simp [fifoResetFrame]; omega)).body s hs
  | resetRxFifo => exact (acts_pair (src := .command) hf.polls (by simp [fifoResetFrame]; omega)).body s hs
  | resetBothFifos => exact (acts_pair (src := .command) hf.polls (by simp [fifoResetFrame]; omega)).body s hs
  | rearmRx => exact (acts_pair (src := .command) hf.polls (by simp [rearmFrame, startRxFrame]; omega)).body s hs
  | _ => simp [Instr.isWire] at hw

omit hf

/-- A list of steps answers Ok() if it answers at all. -/
theorem stepsBody_ok {fs : List Step} {s u : State} {r : Result} (h : stepsBody fs s = .ok r u) : r = .ok := by
  unfold stepsBody at h
  cases hc : chain (counted fs) s with
  | ok a t => rw [hc] at h; injection h with h _; exact h.symm
  | timeout n t => rw [hc] at h; cases h
  | fault t => rw [hc] at h; cases h

/-- An admitted operation that is a list of steps, with pieces that do not depend on a sample, runs as those pieces. -/
theorem runsAs {i : Instr} {s : State} {fs : List Step} {ps : List Piece} (hw : i.isWire = false) (hs : Accepts s)
    (hk : i.failingCheck s.cfg = none) (hb : hostBody s.cfg i = stepsBody fs) (hr : ∀ n, abortResult i.expand n = .timeout n)
    (hp : ∀ v, i.pieces s.cfg v = ps) : RunsAs i ps s := by
  have ha := acts_hostBody hs.1 hw hk (begin i.expand s) rfl
  have hcl := (clean_hostBody s.cfg i (begin i.expand s)).log
  have he := exec_runs hw hs.2 hk
  rw [hp] at ha
  cases hx : hostBody s.cfg i (begin i.expand s) with
  | ok r u =>
    rw [hx] at ha hcl he
    obtain ⟨-, new, ht, hf⟩ := ha
    obtain rfl : r = .ok := stepsBody_ok (by rw [← hb]; exact hx)
    exact ⟨_, new, he, ht, .inl ⟨hf, rfl, congrArg (· ++ [_]) hcl⟩⟩
  | timeout n u =>
    rw [hx] at ha hcl he
    obtain ⟨rfl, new, ht, hf⟩ := ha
    refine ⟨_, new, he, ht, .inr ⟨hf, rfl, ?_⟩⟩
    show u.log ++ [⟨.op i.expand, abortResult i.expand _, .timeout⟩] = _
    rw [hr, show u.log = s.log from hcl]
  | fault u => rw [hx] at ha; exact ha.elim

end Sys2Proof.Machine
end

