-- ==== Sys2Proof/Tests/Slice0.lean ====
section
/-! SUPPORT. Tests. Expected values are those of spec/95_test_vectors.md (the vector is named in each docstring) or are worked
out by hand from the rule named there. After them, a witness for the hypotheses of every statement that has some. -/

-- One test at a time: each waits for the kernel, and a waiting test holds a thread with a stack of its own.
set_option Elab.async false

namespace Sys2Proof.Tests

open Machine

/-! ### Helpers -/

/-- The reference parameters with a ceiling of 3 polls. -/
def small : Config := { Config.reference with ctsRetryMax := 3 }

/-- Engine reset against SimChip with its three inputs (R68). -/
def sim (busy : List (Option Nat)) (irq : List Bool) (rx : List Byte) : State :=
  { State.resetWith small with
    agent := { Agent.reset with law := .sim, sim := { SimChip.ready with busy := busy, irq := irq, rx := rx } } }

/-- Engine reset against an always-ready SimChip. -/
def ready : State := sim [] [] []

/-- Engine reset against the abstract chip model, every free draw 0xFF. -/
def model (h : Chip) : State :=
  { State.resetWith small with
    agent := { Agent.reset with law := .abstractModel, chip := h, draws := List.replicate 200 0xFF } }

/-- A configured, idle chip in Standby/Ready. -/
def standbyChip : Chip := { Chip.unknown with mode := .standbyReady, cts := true, configured := true }

/-- A chip with a transmission of 21 bytes in progress (M4). -/
def sendingChip : Chip :=
  { standbyChip with
    mode := .txArmed, txActive := true, txLength := 21, txCondition := 0x30, txFifo := List.replicate 21 7
    intEnabled := ⟨false, true⟩ }

/-- A chip armed as ENTER_RX arms it (M7). -/
def armedChip : Chip :=
  { standbyChip with mode := .rxArmed, rxLength := 21, onValid := 3, onInvalid := 3, intEnabled := ⟨true, false⟩ }

/-- The state after an instruction, or the same state if it has no next one. -/
def after (i : Instr) (s : State) : State :=
  match exec i s with
  | .next t => t
  | .fault _ => s
  | .refused _ => s

/-- A command frame by SEND_CMD, and the WAIT_CTS that places its effect (R97). -/
def sendWait (f : List Byte) (s : State) : State := after .waitCts (after (.sendCmd f) s)

/-- `W[…]`, every answer 0x00. -/
def sent (l : List Byte) : List Event := .sel :: (l.map fun m => .x m 0) ++ [.desel]

/-- `P(v)`. -/
def poll (v : Byte) : List Event := [.sel, .x 0x44 0, .x 0 v, .desel]

/-- `RR(n)`. -/
def readBack (n : Nat) : List Event := [.sel, .x 0x44 0, .x 0 0xFF] ++ List.replicate n (.x 0 0) ++ [.desel]

/-- `CLR`. -/
def clr : List Event := sent [0x20, 0, 0, 0] ++ readBack 8

/-- `PWR`. -/
def pwr : List Event :=
  [.rst true, .delayUs 300, .rst false, .delayMs 5] ++ sent [0x02, 0x01, 0x00, 0x01, 0xC9, 0xC3, 0x80] ++ poll 0xFF ++ clr

/-- A command frame and a ready poll. -/
def waited (l : List Byte) : List Event := sent l ++ poll 0xFF

/-- `BRING`. -/
def bring : List Event :=
  pwr ++ waited [0x11, 0x10, 0x02, 0x00, 0x08, 0x14] ++
    waited [0x11, 0x40, 0x08, 0x00, 0x38, 0x0E, 0x66, 0x66, 0x44, 0x44, 0x20, 0xFE] ++
    waited [0x11, 0x22, 0x02, 0x01, 0x7F, 0x00] ++ waited [0x11, 0x00, 0x01, 0x00, 0x52] ++ waited [0x15, 0x03] ++ clr

/-- `ARM`. -/
def arm : List Event := waited [0x32, 0x00, 0x00, 0x00, 0x15, 0x00, 0x03, 0x03]

/-- `F`: byte `i` is 0x41 + i. -/
def frameF : List Byte := (List.range 21).map fun i => BitVec.ofNat 8 (0x41 + i)

/-- `G`: byte `i` is i. -/
def frameG : List Byte := (List.range 21).map fun i => BitVec.ofNat 8 i

/-- `RXRD(…)`. -/
def rxRead (l : List Byte) : List Event := [.sel, .x 0x77 0] ++ l.map (Event.x 0) ++ [.desel]

/-- `T2` of 95_test_vectors.md §2.2. -/
def table2 : List Byte := [2, 0x15, 0x03, 5, 0x11, 0x20, 0x01, 0x00, 0x7E, 0]

/-- The last result. -/
def lastResult (s : State) : Option Result := (s.log.getLast?).map (·.result)

/-! ### WellFormed refuses one ill-formed term for each check -/

/-- D43 is admitted, with the reference ceiling and with a small one. -/
theorem test_admitted : Config.reference.admitted = true ∧ small.admitted = true := by decide +kernel

/-- V40-8. -/
theorem test_illFormed_emptyFrame : (Instr.sendCmd []).wellFormed small = false ∧
    (Instr.sendCmd []).failingCheck small = some .emptyFrame := by decide +kernel

/-- V40-9, V40-10: 16 bytes fit, 17 do not. -/
theorem test_illFormed_frameTooLong : (Instr.sendCmd (List.replicate 16 1)).wellFormed small = true ∧
    (Instr.sendCmd (List.replicate 17 1)).failingCheck small = some .frameTooLong := by decide +kernel

/-- V40-14. -/
theorem test_illFormed_respTooLong : (Instr.getResp 16).wellFormed small = true ∧
    (Instr.getResp 17).failingCheck small = some .respTooLong := by decide +kernel

/-- V40-17, V40-20. -/
theorem test_illFormed_fifoLen : (Instr.readRxFifo 64).wellFormed small = true ∧
    (Instr.readRxFifo 65).failingCheck small = some .fifoLen ∧
    (Instr.writeTxFifo (List.replicate 65 0)).failingCheck small = some .fifoLen := by decide +kernel

/-- V40-22 to V40-24. -/
theorem test_illFormed_propCount : (Instr.setProperty 0x20 0 (List.replicate 12 1)).wellFormed small = true ∧
    (Instr.setProperty 0x20 0 (List.replicate 13 1)).failingCheck small = some .propCount ∧
    (Instr.setProperty 0x20 0 []).failingCheck small = some .propCount := by decide +kernel

/-- V42-6, V42-9. -/
theorem test_illFormed_paramCount : (Instr.setFreq (List.replicate 7 0)).failingCheck small = some .paramCount ∧
    (Instr.setPower [0x7F]).failingCheck small = some .paramCount := by decide +kernel

/-- V42-19, V42-20. -/
theorem test_illFormed_fifoSub : (Instr.resetFifo 0).failingCheck small = some .fifoSub ∧
    (Instr.resetFifo 4).failingCheck small = some .fifoSub := by decide +kernel

/-- V43-10, V43-11. -/
theorem test_illFormed_frameSize : (Instr.sendFrame (List.replicate 20 0)).failingCheck small = some .frameSize ∧
    (Instr.sendFrame (List.replicate 22 0)).failingCheck small = some .frameSize := by decide +kernel

/-- V41-7 to V41-10: conditions (c), (a), (a) and (d) of R185. -/
theorem test_illFormed_table : (Instr.replay [3, 0x11, 0xAA]).failingCheck small = some .table ∧
    (Instr.replay [2, 0x15, 0x03]).failingCheck small = some .table ∧
    (Instr.replay []).failingCheck small = some .table ∧
    (Instr.replay (17 :: List.replicate 17 1 ++ [0])).failingCheck small = some .table := by decide +kernel

/-- Wire fields: a miscounted property frame, a reserved sub-code, other arguments than the configured ones (R112, R113,
R122 to R124). -/
theorem test_illFormed_wireFields : (Instr.wirePropWrite 1 2 0 [5]).wellFormed small = false ∧
    (Instr.wireFifoReset 4).wellFormed small = false ∧ (Instr.wireGetIntStatus [1]).wellFormed small = false ∧
    (Instr.wireChangeState 4).wellFormed small = false ∧ (Instr.wirePowerUp []).wellFormed small = false := by decide +kernel

/-- V40-26 to V40-28, V42-13, V42-17: the decoder's checks. -/
theorem test_illFormed_requests : decodeRequest ⟨0x00, []⟩ = .error .unknownOp ∧
    decodeRequest ⟨0x15, []⟩ = .error .unknownOp ∧
    decodeRequest ⟨0x06, [.num 0x100, .num 0, .list []]⟩ = .error .byteRange ∧
    decodeRequest ⟨0x0C, [.num 0, .num 0x30, .num 0x10000]⟩ = .error .byteRange ∧
    decodeRequest ⟨0x0D, [.num 0, .num 0, .num 21, .num 0x100, .num 3, .num 3]⟩ = .error .byteRange ∧
    decodeRequest ⟨0x01, [.num 0]⟩ = .error .argShape := by decide +kernel

/-- The decoder's checks of a frame (R110, R113, R119; log entry 10). -/
theorem test_illFormed_frames : decodeFrame small [] = .error .emptyFrame ∧
    decodeFrame small [0xE0] = .error .unknownFrame ∧ decodeFrame small [0x15] = .error .malformedFrame ∧
    decodeFrame small [0x77, 1] = .error .malformedFrame := by decide +kernel

/-- Configurations that are not admitted: an empty table, a settle time below 5 ms, two equal opcodes (R133, R8, R128). -/
theorem test_illFormed_configurations : ({ small with configTable := [] } : Config).admitted = false ∧
    ({ small with tSettleMs := 4 } : Config).admitted = false ∧
    ({ small with opChangeState := 0x44 } : Config).admitted = false := by decide +kernel

/-! ### Decoding: words written out from the encodings of the spec -/

/-- R131: the operations of family 40. -/
theorem test_decode_family40 : decode small (.request ⟨0x01, []⟩) = .ok .waitCts ∧
    decode small (.request ⟨0x02, [.list [0x15, 0x03]]⟩) = .ok (.sendCmd [0x15, 0x03]) ∧
    decode small (.request ⟨0x03, [.num 300]⟩) = .ok (.getResp 300) ∧
    decode small (.request ⟨0x04, [.num 2]⟩) = .ok (.readRxFifo 2) ∧
    decode small (.request ⟨0x05, [.list [1, 2]]⟩) = .ok (.writeTxFifo [1, 2]) ∧
    decode small (.request ⟨0x06, [.num 0x40, .num 0, .list [0x41, 0x0A]]⟩) = .ok (.setProperty 0x40 0 [0x41, 0x0A]) := by
  decide +kernel

/-- R131: families 41 and 43, and READ_RSSI. -/
theorem test_decode_family41_43 : decode small (.request ⟨0x07, [.list [3, 0x11, 0xAA, 0xBB, 0]]⟩) =
      .ok (.replay [3, 0x11, 0xAA, 0xBB, 0]) ∧
    decode small (.request ⟨0x12, []⟩) = .ok .tryReceive ∧
    decode small (.request ⟨0x13, [.list [1]]⟩) = .ok (.sendFrame [1]) ∧
    decode small (.request ⟨0x14, []⟩) = .ok .readRssi := by decide +kernel

/-- R131: family 42. -/
theorem test_decode_family42 : decode small (.request ⟨0x08, []⟩) = .ok .powerUp ∧
    decode small (.request ⟨0x09, []⟩) = .ok .clearInts ∧
    decode small (.request ⟨0x0A, [.list [1, 2]]⟩) = .ok (.setFreq [1, 2]) ∧
    decode small (.request ⟨0x0B, [.list [3]]⟩) = .ok (.setPower [3]) ∧
    decode small (.request ⟨0x0C, [.num 1, .num 0x80, .num 0x1234]⟩) = .ok (.startTx 1 0x80 0x1234) ∧
    decode small (.request ⟨0x0D, [.num 2, .num 1, .num 0x0100, .num 4, .num 5, .num 6]⟩) =
      .ok (.startRx 2 1 0x0100 4 5 6) ∧
    decode small (.request ⟨0x0E, [.num 3]⟩) = .ok (.resetFifo 3) ∧
    decode small (.request ⟨0x0F, []⟩) = .ok .standby ∧ decode small (.request ⟨0x10, []⟩) = .ok .enterRx ∧
    decode small (.request ⟨0x11, []⟩) = .ok .enterTx := by decide +kernel

/-- R112 to R124: every wire frame, bytes written out under D43. -/
theorem test_decode_wire : decodeFrame small [0x11, 0x40, 0x02, 0x07, 0x41, 0x0A] =
      .ok (.wirePropWrite 0x40 0x02 0x07 [0x41, 0x0A]) ∧
    decodeFrame small [0x15, 0x02] = .ok (.wireFifoReset 2) ∧
    decodeFrame small [0x31, 0x01, 0x80, 0x12, 0x34] = .ok (.wireStartTx 1 0x80 0x1234) ∧
    decodeFrame small [0x32, 0x02, 0x01, 0x01, 0x00, 0x04, 0x05, 0x06] = .ok (.wireStartRx 2 1 0x0100 4 5 6) ∧
    decodeFrame small [0x66, 0x01, 0x02] = .ok (.wireWriteTxFifo [1, 2]) ∧
    decodeFrame small [0x77, 0x00, 0x00] = .ok (.wireReadRxFifo 2) ∧
    decodeFrame small [0x44, 0x00, 0x00, 0x00] = .ok (.wireReadCmdBuff 2) ∧
    decodeFrame small [0x20, 0x00, 0x00, 0x00] = .ok (.wireGetIntStatus [0, 0, 0]) ∧
    decodeFrame small [0x34, 0x03] = .ok (.wireChangeState 3) ∧
    decodeFrame small [0x02, 0x01] = .ok (.wirePowerUp [1]) := by decide +kernel

/-- R135: a pseudo-instruction's encoding is that of its expansion. -/
theorem test_encode_pseudo : encode small .resetTxFifo = .request ⟨0x0E, [.num 1]⟩ ∧
    encode small .resetRxFifo = .request ⟨0x0E, [.num 2]⟩ ∧ encode small .resetBothFifos = .request ⟨0x0E, [.num 3]⟩ ∧
    encode small .rearmRx = .request ⟨0x0D, [.num 0, .num 0, .num 21, .num 0, .num 3, .num 3]⟩ := by decide +kernel

/-- The word interface: WAIT_CTS from 0x01, RESET_FIFO 3 from 0x030E, and FIFO_RESET from 0x15 (R131, R113). -/
theorem test_decode_words : decodeTableWord 8 0x01 = some .waitCts ∧ decodeTableWord 16 0x030E = some (.resetFifo 3) ∧
    decodeTableWord 8 0x15 = some (.wireFifoReset 0) := by decide +kernel

/-- The text of P3's program assembles to its encoding (R134). -/
theorem test_assembler : assemble "ENTER_RX\nTRY_RECEIVE\nREARM_RX ; again\nSEND_CMD [0x15, 3]".toList =
    some [⟨0x10, []⟩, ⟨0x12, []⟩, ⟨0x0D, [.num 0, .num 0, .num 21, .num 0, .num 3, .num 3]⟩,
      ⟨0x02, [.list [0x15, 3]]⟩] := by decide +kernel

/-! ### Family 40 -/

/-- V40-6: the base model with answers 0xFE, 0x7F, 0xFF; the other draws answer the opcode exchanges. -/
theorem test_waitCts_base :
    let t := after .waitCts { State.resetWith small with
      agent := { Agent.reset with draws := [1, 0xFE, 2, 0x7F, 3, 0xFF] } }
    t.pollCount = 3 ∧ t.lastCts = some 0xFF ∧ t.status = .ok ∧
      t.trace = [.sel, .x 0x44 1, .x 0 0xFE, .desel, .sel, .x 0x44 2, .x 0 0x7F, .desel, .sel, .x 0x44 3, .x 0 0xFF, .desel] := by
  decide +kernel

/-- W4, V40-3 with the ceiling 3. -/
theorem test_waitCts_timeout : let t := after .waitCts (sim [none] [] [])
    t.trace = poll 0 ++ poll 0 ++ poll 0 ∧ t.status = .timeout ∧ t.pollCount = 3 ∧ t.lastCts = some 0 ∧
      lastResult t = some (.timeout 3) ∧ t.seq = .idle := by decide +kernel

/-- V40-7. -/
theorem test_sendCmd : let t := after (.sendCmd [0x15, 0x03]) ready
    t.trace = sent [0x15, 0x03] ∧ t.cmdBuf.take 3 = [some 0x15, some 0x03, none] ∧ t.pollCount = 0 := by decide +kernel

/-- V40-8: refused, and the mark is set. -/
theorem test_sendCmd_refused : let t := after (.sendCmd []) ready
    t.trace = [] ∧ t.status = .refused ∧ t.refused = true ∧ lastResult t = some (.refused .emptyFrame) := by decide +kernel

/-- V40-12. -/
theorem test_getResp : let t := after (.getResp 8) (sim [some 1] [] [])
    t.trace = poll 0 ++ readBack 8 ∧ t.respBuf = List.replicate 8 (some 0) ++ List.replicate 8 none ∧ t.pollCount = 2 := by
  decide +kernel

/-- V40-13. -/
theorem test_getResp_timeout : let t := after (.getResp 2) (sim [none] [] [])
    t.trace = poll 0 ++ poll 0 ++ poll 0 ∧ t.respBuf = List.replicate 16 none ∧ t.status = .timeout := by decide +kernel

/-- V40-16. -/
theorem test_readRxFifo : let t := after (.readRxFifo 2) (sim [] [] [0xA0, 0xA1])
    t.trace = rxRead [0xA0, 0xA1] ∧ lastResult t = some (.okBytes [0xA0, 0xA1]) := by decide +kernel

/-- V40-15. -/
theorem test_readRxFifo_none : (after (.readRxFifo 0) ready).trace = [.sel, .x 0x77 0, .desel] := by decide +kernel

/-- V40-19. -/
theorem test_writeTxFifo : (after (.writeTxFifo [1, 2]) ready).trace = [.sel, .x 0x66 0, .x 1 0, .x 2 0, .desel] := by
  decide +kernel

/-- V40-21. -/
theorem test_setProperty : (after (.setProperty 0xAA 0x01 [0x05]) ready).trace =
    waited [0x11, 0xAA, 0x01, 0x01, 0x05] := by decide +kernel

/-- V40-25 with the ceiling 3. -/
theorem test_setProperty_timeout : let t := after (.setProperty 0x20 0 [0x7E]) (sim [none] [] [])
    t.trace = sent [0x11, 0x20, 0x01, 0x00, 0x7E] ++ poll 0 ++ poll 0 ++ poll 0 ∧ t.status = .timeout := by decide +kernel

/-! ### Family 41 -/

/-- V41-6. -/
theorem test_replay : let t := after (.replay table2) (sim [some 2, some 1] [] [])
    t.trace = sent [0x15, 0x03] ++ poll 0 ++ poll 0 ++ poll 0xFF ++ sent [0x11, 0x20, 0x01, 0x00, 0x7E] ++ poll 0 ++ poll 0xFF ∧
      t.cursor = 9 ∧ t.pollCount = 2 ∧ t.status = .ok := by decide +kernel

/-- V41-4. -/
theorem test_replay_failsFast : let t := after (.replay table2) (sim [some 0, none] [] [])
    t.trace = waited [0x15, 0x03] ++ sent [0x11, 0x20, 0x01, 0x00, 0x7E] ++ poll 0 ++ poll 0 ++ poll 0 ∧
      t.cursor = 3 ∧ t.status = .timeout := by decide +kernel

/-! ### Family 42 -/

/-- V42-1. -/
theorem test_powerUp : let t := after .powerUp ready
    t.trace = pwr ∧ t.rst = false ∧ t.pollCount = 1 ∧ t.respBuf.take 9 = List.replicate 8 (some 0) ++ [none] := by
  decide +kernel

/-- V42-2: no CLEAR_INTS. -/
theorem test_powerUp_timeout : let t := after .powerUp (sim [none] [] [])
    t.trace = [.rst true, .delayUs 300, .rst false, .delayMs 5] ++ sent [0x02, 0x01, 0x00, 0x01, 0xC9, 0xC3, 0x80] ++
      poll 0 ++ poll 0 ++ poll 0 ∧ t.rst = false ∧ t.status = .timeout := by decide +kernel

/-- V42-4. -/
theorem test_clearInts : let t := after .clearInts (sim [some 2] [] [])
    t.trace = sent [0x20, 0, 0, 0] ++ poll 0 ++ poll 0 ++ readBack 8 ∧ t.pollCount = 3 ∧ t.status = .ok := by decide +kernel

/-- V42-7: two plan entries. -/
theorem test_setFreq : (after (.setFreq [0x38, 0x0E, 0x66, 0x66, 0x44, 0x44, 0x20, 0xFE])
    { ready with cfg := { small with freqPlan := [⟨0x40, 0x00, 0, 4⟩, ⟨0x40, 0x04, 4, 4⟩] } }).trace =
    waited [0x11, 0x40, 0x04, 0x00, 0x38, 0x0E, 0x66, 0x66] ++ waited [0x11, 0x40, 0x04, 0x04, 0x44, 0x44, 0x20, 0xFE] := by
  decide +kernel

/-- V42-8. -/
theorem test_setPower : (after (.setPower [0x7F, 0x00]) ready).trace = waited [0x11, 0x22, 0x02, 0x01, 0x7F, 0x00] := by
  decide +kernel

/-- V42-11. -/
theorem test_startTx : (after (.startTx 1 0x80 0x1234) ready).trace = sent [0x31, 0x01, 0x80, 0x12, 0x34] := by decide +kernel

/-- V42-15. -/
theorem test_startRx : (after (.startRx 2 0 0x0100 0 3 3) ready).trace =
    waited [0x32, 0x02, 0x00, 0x01, 0x00, 0x00, 0x03, 0x03] := by decide +kernel

/-- W9. -/
theorem test_resetFifo : (after (.resetFifo 1) ready).trace = waited [0x15, 0x01] ∧
    (after (.resetFifo 2) ready).trace = waited [0x15, 0x02] := by decide +kernel

/-- V42-21. -/
theorem test_standby : (after .standby ready).trace = sent [0x34, 0x03] := by decide +kernel

/-- V42-24. -/
theorem test_enterRx : let t := after .enterRx ready
    t.trace = bring ++ waited [0x11, 0x01, 0x02, 0x00, 0x01, 0x10] ++ arm ∧ t.cursor = 7 ∧ t.status = .ok := by decide +kernel

/-- V42-25: handshake 6, the FIFO reset, fails. -/
theorem test_enterRx_timeout : let t := after .enterRx (sim (List.replicate 6 (some 0) ++ [none]) [] [])
    t.status = .timeout ∧ t.cursor = 7 ∧ t.trace.getLast? = some .desel ∧
      t.trace.drop (t.trace.length - 16) = sent [0x15, 0x03] ++ poll 0 ++ poll 0 ++ poll 0 := by decide +kernel

/-- V42-23. -/
theorem test_enterTx : let t := after .enterTx ready
    t.trace = bring ++ waited [0x11, 0x01, 0x02, 0x00, 0x01, 0x20] ++ waited [0x15, 0x01] ∧ t.cursor = 7 := by decide +kernel

/-- P4, line 1. -/
theorem test_enterTx_timeout : let t := after .enterTx (sim [some 0, some 3] [] [])
    t.trace = [.rst true, .delayUs 300, .rst false, .delayMs 5] ++ waited [0x02, 0x01, 0x00, 0x01, 0xC9, 0xC3, 0x80] ++
      sent [0x20, 0, 0, 0] ++ poll 0 ++ poll 0 ++ poll 0 ∧ t.cursor = 0 ∧ t.status = .timeout := by decide +kernel

/-- V42-22. -/
theorem test_readRssi : let t := after .readRssi ready
    t.trace = [] ∧ lastResult t = some (.okByte small.rssiPlaceholder) := by decide +kernel

/-! ### Family 43 -/

/-- V43-2. -/
theorem test_tryReceive : let t := after .tryReceive (sim [] [true] frameG)
    t.trace = [.irq true] ++ rxRead frameG ++ waited [0x15, 0x02] ++ clr ++ arm ∧ lastResult t = some (.some frameG) ∧
      t.rxStage = frameG.map some ∧ t.rxValid = false := by decide +kernel

/-- V43-3: the frame read is kept and not handed over. -/
theorem test_tryReceive_timeout : let t := after .tryReceive (sim [none] [true] frameG)
    t.trace = [.irq true] ++ rxRead frameG ++ sent [0x15, 0x02] ++ poll 0 ++ poll 0 ++ poll 0 ∧ lastResult t = some .none ∧
      t.status = .timeout ∧ t.rxValid = false ∧ t.rxStage = frameG.map some := by decide +kernel

/-- V43-7: the RevB1A path. -/
theorem test_sendFrame : let t := after (.sendFrame frameF) (sim [] [true] [])
    t.trace = sent [0x34, 0x03] ++ sent (0x66 :: frameF) ++ poll 0xFF ++ [.irq true] ++ clr ++
      sent [0x31, 0x00, 0x30, 0x00, 0x15] := by decide +kernel

/-- V43-8: no sample, no START_TX. -/
theorem test_sendFrame_timeout : let t := after (.sendFrame frameF) (sim [none] [] [])
    t.trace = sent [0x34, 0x03] ++ sent (0x66 :: frameF) ++ poll 0 ++ poll 0 ++ poll 0 ∧ t.status = .timeout := by
  decide +kernel

/-! ### Wire rows and pseudo-instructions -/

/-- R112 to R116, R122 to R124: one transaction each, its own bytes. -/
theorem test_wire_commands : (after (.wirePropWrite 0x40 2 0 [0x41, 0x0A]) ready).trace =
      sent [0x11, 0x40, 0x02, 0x00, 0x41, 0x0A] ∧
    (after (.wireFifoReset 3) ready).trace = sent [0x15, 0x03] ∧
    (after (.wireStartTx 0 0x30 21) ready).trace = sent [0x31, 0x00, 0x30, 0x00, 0x15] ∧
    (after (.wireStartRx 0 0 21 0 3 3) ready).trace = sent [0x32, 0x00, 0x00, 0x00, 0x15, 0x00, 0x03, 0x03] ∧
    (after (.wireGetIntStatus [0, 0, 0]) ready).trace = sent [0x20, 0, 0, 0] ∧
    (after (.wireChangeState 3) ready).trace = sent [0x34, 0x03] ∧
    (after (.wirePowerUp [1, 0, 1, 0xC9, 0xC3, 0x80]) ready).trace = sent [0x02, 0x01, 0x00, 0x01, 0xC9, 0xC3, 0x80] := by
  decide +kernel

/-- R118 to R121. -/
theorem test_wire_accesses : (after (.wireWriteTxFifo [1, 2]) ready).trace = sent [0x66, 1, 2] ∧
    (after (.wireReadRxFifo 2) (sim [] [] [0xA0])).trace = rxRead [0xA0, 0] ∧
    (after (.wireReadCmdBuff 2) { ready with agent := { Agent.reset with draws := [0, 0xFF, 0, 0] } }).trace = readBack 2 := by
  decide +kernel

/-- R68: outside a handshake SimChip answers 0x00 to a window that opens with OP_READ_CMD_BUFF, also after a handshake. -/
theorem test_sim_noHandshake : (after (.sendCmd [0x44, 0]) (after .waitCts ready)).trace = poll 0xFF ++ sent [0x44, 0] ∧
    (after (.wireReadCmdBuff 2) (after .waitCts (sim [some 5] [] []))).trace = poll 0 ++ poll 0 ++ poll 0 ++ poll 0 := by
  decide +kernel

/-- R135. -/
theorem test_pseudo : (after .resetTxFifo ready).trace = waited [0x15, 0x01] ∧
    (after .resetRxFifo ready).trace = waited [0x15, 0x02] ∧ (after .resetBothFifos ready).trace = waited [0x15, 0x03] ∧
    (after .rearmRx ready).trace = arm := by decide +kernel

/-! ### The abstract chip model (95_test_vectors.md §4) -/

/-- M2. -/
theorem test_chip_powerUp : let t := after .powerUp (model Chip.unknown)
    t.status = .ok ∧ t.agent.chip.mode = .standbyReady ∧ t.agent.chip.txFifo = [] ∧ t.agent.chip.intPending = ⟨false, false⟩ := by
  decide +kernel

/-- M3. -/
theorem test_chip_unknownFrame : (after (.sendCmd [0xE0]) (model standbyChip)).agent.chip.mode = .unknown := by decide +kernel

/-- M4: the transmission completes, and the ready line reads asserted. -/
theorem test_chip_txComplete : let h := sendingChip.move small .txComplete
    h.mode = .standbyReady ∧ h.txFifo = [] ∧ h.irqLevel = true := by decide +kernel

/-- M5 and M6: Unknown for the whole of it and after it; the next bring-up lifts it. -/
theorem test_chip_bringUpInFlight : let t := after .enterRx (model sendingChip)
    t.agent.chip.mode = .unknown ∧ t.agent.chip.held = false ∧
      (after .powerUp { t with agent := { t.agent with draws := List.replicate 40 0xFF } }).agent.chip.mode = .standbyReady := by
  decide +kernel

/-- M7, M8, M11. -/
theorem test_chip_rxOutcomes : (armedChip.move small .rxInvalid).mode = .standbyReady ∧
    (armedChip.move small .rxTimeout).mode = .rxArmed ∧
    (({ armedChip with onValid := 5 } : Chip).move small (.rxValid frameG)).mode = .unknown ∧
    (armedChip.move small (.rxValid frameG)).rxFifo = frameG ∧
    (armedChip.move small (.rxValid frameG)).irqLevel = true := by decide +kernel

/-- M9: the second STANDBY meets a busy chip. -/
theorem test_chip_busyCommand : (after .standby (after .standby (model standbyChip))).agent.chip.mode = .unknown ∧
    (after .standby (model standbyChip)).agent.chip.mode = .standbyReady := by decide +kernel

/-- M10. -/
theorem test_chip_resetFifo :
    let t := after (.resetFifo 1) (model { standbyChip with txFifo := [1, 2], rxFifo := [3] })
    t.status = .ok ∧ t.agent.chip.mode = .standbyReady ∧ t.agent.chip.txFifo = [] ∧ t.agent.chip.rxFifo = [3] := by
  decide +kernel

/-- R65, R220: CLEAR_INTS empties the pending set. -/
theorem test_chip_clearInts : let t := after .clearInts (model { standbyChip with intPending := ⟨true, true⟩ })
    t.status = .ok ∧ t.agent.chip.intPending = ⟨false, false⟩ := by decide +kernel

/-- R65, R97: by the poll after a GET_INT_STATUS frame the pending set is empty, with no response read. -/
theorem test_chip_intStatusFrame :
    (sendWait [0x20, 0, 0, 0] (model { standbyChip with intPending := ⟨true, true⟩ })).agent.chip.irqLevel = false := by
  decide +kernel

/-- R97: the chip may act on the frame before that poll, and need not. -/
theorem test_chip_actsWhenItLikes :
    let h : Chip := { standbyChip with cts := false, intPending := ⟨true, true⟩, taken := some (.command, [0x20, 0, 0, 0]) }
    ((model h).agent.onSample small).1 = true ∧
      (({ (model h).agent with plan := [[.act]] } : Agent).onSample small).1 = false := by decide +kernel

/-- R65, R97, R221: each enable list enables its own class, by the poll after the frame. -/
theorem test_chip_enables : (sendWait [0x11, 0x01, 0x02, 0x00, 0x01, 0x10] (model standbyChip)).agent.chip.intEnabled = ⟨true, false⟩ ∧
    (sendWait [0x11, 0x01, 0x02, 0x00, 0x01, 0x20] (model standbyChip)).agent.chip.intEnabled = ⟨false, true⟩ := by
  decide +kernel

/-- R223 with R66: a miscounted property frame. -/
theorem test_chip_miscount : (after (.wirePropWrite 1 2 0 [5]) (model standbyChip)).agent.chip.mode = .unknown := by
  decide +kernel

/-- R216 and D32: condition nibble 0 changes no mode, and bits [3:2] have no meaning (U10). -/
theorem test_chip_conditions : (({ sendingChip with txCondition := 0x00 } : Chip).move small .txComplete).mode = .txArmed ∧
    (({ sendingChip with txCondition := 0x34 } : Chip).move small .txComplete).mode = .unknown := by decide +kernel

/-- R214, R224: STANDBY cuts the transmission and leaves the FIFO. -/
theorem test_chip_cut : let t := after .standby (model sendingChip)
    t.agent.chip.mode = .standbyReady ∧ t.agent.chip.txFifo = List.replicate 21 7 ∧ t.agent.chip.txActive = false ∧
      t.agent.chip.intPending = ⟨false, false⟩ := by decide +kernel

/-- A table of a START_RX record, a CHANGE_STATE record, POWER_UP_FRAME, a run past offset 0xFF, and an opcode of no row. -/
def oddTable : List Byte :=
  [8, 0x32, 0, 0, 0, 21, 0, 3, 3, 2, 0x34, 0x03, 7, 0x02, 0x01, 0x00, 0x01, 0xC9, 0xC3, 0x80, 6, 0x11, 1, 2, 0xFF, 5, 6, 1, 0xE0, 0]

/-- R222: as CONFIG_TABLE those records leave the mode; the first of them sent by SEND_CMD meets R217, the last is Unknown. -/
theorem test_chip_configuredFrames :
    (after (.replay oddTable) { model armedChip with cfg := { small with configTable := oddTable } }).agent.chip.mode = .rxArmed ∧
    (sendWait [0x32, 0, 0, 0, 21, 0, 3, 3] (model standbyChip)).agent.chip.mode = .rxArmed ∧
    (after (.sendCmd [0xE0]) { model armedChip with cfg := { small with configTable := oddTable } }).agent.chip.mode = .unknown := by
  decide +kernel

/-- R64: an underflow of the RX FIFO. -/
theorem test_chip_underflow : (after (.readRxFifo 2) (model { standbyChip with rxFifo := [9] })).agent.chip.mode = .unknown := by
  decide +kernel

/-! ### Witnesses: states and operands that meet the hypotheses of the statements -/

/-- An instruction on an IDLE engine has a next state. -/
theorem runs (i : Instr) {s : State} (h : s.seq = .idle) : exec i s = .next (after i s) := by
  have key : ∃ t, exec i s = .next t := by
    cases hw : i.isWire with
    | false =>
      rw [exec_host hw]
      unfold hostOp
      rw [if_pos h]
      split
      · exact ⟨_, rfl⟩
      · exact ⟨_, rfl⟩
    | true =>
      rw [exec_wire hw]
      unfold wireOp
      rw [if_pos h]
      split
      · exact ⟨_, rfl⟩
      · exact ⟨_, rfl⟩
  obtain ⟨t, ht⟩ := key
  rw [show after i s = t from by unfold after; rw [ht], ht]

theorem accepts {s : State} (h : s.cfg = small) (hs : s.seq = .idle) : Accepts s := ⟨h ▸ test_admitted.2, hs⟩

/-- `Accepts`, the premise of most statements and the only one of `ReadRssi`. -/
theorem test_witness_accepts : Accepts State.reset ∧ Accepts ready ∧ Accepts (model standbyChip) :=
  ⟨⟨test_admitted.1, rfl⟩, accepts rfl rfl, accepts rfl rfl⟩

theorem test_witness_DecodingAnEncoding : small.admitted = true := test_admitted.2

theorem test_witness_EncodingADecoding :
    decode small (.request ⟨0x0D, [.num 0, .num 0, .num 65535, .num 255, .num 3, .num 3]⟩) =
      .ok (.startRx 0 0 0xFFFF 0xFF 3 3) ∧
    decode small (.transaction [0x77]) = .ok (.wireReadRxFifo 0) := by decide +kernel

/-- Counts at both ends: no data and 255 bytes. -/
theorem test_witness_ComposedFrames : ([] : List Byte).length ≤ 255 ∧ (List.replicate 255 (1 : Byte)).length ≤ 255 := by
  decide +kernel

theorem test_witness_StepRunsTheDecodedInstruction : ∃ (s : State) (it : Item) (i : Instr), s.cfg.admitted = true ∧
    s.pending = it :: [] ∧ decode s.cfg it = .ok i :=
  ⟨{ ready with pending := [.request ⟨0x01, []⟩] }, _, .waitCts, test_admitted.2, rfl, rfl⟩

theorem test_witness_StepWithoutARequest : ready.cfg.admitted = true ∧ ready.pending = [] ∧
    ready.agent.law ≠ .abstractModel := ⟨test_admitted.2, rfl, by decide⟩

theorem test_witness_WhereTheMachineStops :
    ({ ready with cfg := { small with ctsRetryMax := 0 } } : State).cfg.admitted = false ∧
    ({ ready with seq := .run .waitCts 0 } : State).seq ≠ .idle := by decide +kernel

theorem test_witness_RefusedRequest : ready.seq = .idle ∧ (Instr.getResp 17).failingCheck ready.cfg = some .respTooLong ∧
    (Instr.wireReadRxFifo 65).failingCheck ready.cfg = some .fifoLen := by decide +kernel

theorem test_witness_RefusedItem : ∃ (s : State) (it : Item), s.cfg.admitted = true ∧ s.seq = .idle ∧
    s.pending = it :: [] ∧ decode s.cfg it = .error .unknownOp :=
  ⟨{ ready with pending := [.request ⟨0x15, []⟩] }, _, test_admitted.2, rfl, rfl, rfl⟩

/-- Each value and each side of a bound of `RefusalChecks`. -/
theorem test_witness_RefusalChecks : decodeRequest ⟨0x14, []⟩ = .ok .readRssi ∧
    decodeRequest ⟨0x0C, [.num 255, .num 256, .num 0]⟩ = .error .byteRange ∧
    decodeRequest ⟨0x06, [.num 1, .num 1, .list [255, 256]]⟩ = .error .byteRange ∧
    (Instr.writeTxFifo (List.replicate 64 0)).failingCheck small = none := by decide +kernel

/-- The three ways to end (`ResultAndStatus`). -/
theorem test_witness_ResultAndStatus : Instr.waitCts.isWire = false ∧ (after .waitCts ready).status = .ok ∧
    (after .waitCts (sim [none] [] [])).status = .timeout ∧ (after (.sendCmd []) ready).status = .refused := by decide +kernel

theorem reset_windows : Inv (State.resetWith small) where
  idle := rfl
  deselected := rfl
  released := rfl
  handedOff := rfl
  windows := rfl
  polls := by decide +kernel
  cmdLen := by decide +kernel
  respLen := by decide +kernel
  stageLen := by decide +kernel
  props := rfl
  noBusFault := by decide
  noFault := rfl
  notHeld := rfl
  acted := fun _ => rfl

theorem idle_step {s : State} (hc : s.cfg.admitted = true) (hp : s.pending = []) : step s = .next (chipTurn s) := by
  unfold step fetch
  rw [if_pos hc, hp]

/-- A state that meets the invariant and takes a step: `EveryStepKeepsInv`, `ConfigurationIsFixed`,
`ObservationGrows`. -/
theorem test_witness_EveryStepKeepsInv : ∃ s t : State, Inv s ∧ step s = .next t :=
  ⟨State.resetWith small, chipTurn (State.resetWith small), reset_windows, idle_step test_admitted.2 rfl⟩

/-- Marks that are set (`MarksAreSticky`). -/
theorem test_witness_MarksAreSticky : ∃ s t : State, step s = .next t ∧ s.refused = true ∧ s.fault = true :=
  ⟨{ ready with refused := true, fault := true }, chipTurn { ready with refused := true, fault := true },
    idle_step test_admitted.2 rfl, rfl, rfl⟩

/-- The premises of the statements over all instructions (`EveryInstructionDeselects`, `OnlyPowerUpDrivesReset`,
`OnlyFrameIoSamplesTheReadyLine`, `BusFaultIsNeverProduced`, `NoModelFault`). -/
theorem test_witness_wholeMachine : ready.sel = false ∧ ready.rst = false ∧ ready.status ≠ .busFault ∧
    exec .standby ready = .next (after .standby ready) ∧ exec .enterRx ready = .next (after .enterRx ready) :=
  ⟨rfl, rfl, by decide, runs _ rfl, runs _ rfl⟩

/-- A handshake of SEND_FRAME and one inside a bring-up fail (`AbortPath`, its clause on the bus). -/
theorem test_witness_AbortPath_bus : let s := sim [none] [] []
    Accepts s ∧ exec (.sendFrame frameF) s = .next (after (.sendFrame frameF) s) ∧
    (after (.sendFrame frameF) s).status = .timeout ∧ exec .enterRx s = .next (after .enterRx s) ∧
    (after .enterRx s).status = .timeout :=
  ⟨accepts rfl rfl, runs _ rfl, by decide +kernel, runs _ rfl, by decide +kernel⟩

/-- The other clauses of `AbortPath`. -/
theorem test_witness_AbortPath : (∃ (s u : State), s.seq = .idle ∧ Instr.waitCts.failingCheck s.cfg = none ∧
      (fun t : State => (Flow.timeout 3 t : Flow Result)) (begin .waitCts s) = .timeout 3 u) ∧
    (after .waitCts (sim [none] [] [])).status = .timeout ∧
    (after .waitCts { model { standbyChip with cts := false } with
      agent := { (model { standbyChip with cts := false }).agent with draws := List.replicate 20 0 } }).status = .timeout := by
  refine ⟨⟨ready, _, rfl, rfl, rfl⟩, by decide +kernel, by decide +kernel⟩

theorem test_witness_NoHandshakeNoTimeout : exec .readRssi ready = .next (after .readRssi ready) ∧
    exec (.sendCmd [1]) ready = .next (after (.sendCmd [1]) ready) := ⟨runs _ rfl, runs _ rfl⟩

/-- GET_RESP at both ends of its range (`PollCountingIsExact`). -/
theorem test_witness_PollCountingIsExact : Accepts ready ∧ 0 ≤ ready.cfg.respBufCap ∧ 16 ≤ ready.cfg.respBufCap :=
  ⟨accepts rfl rfl, by decide +kernel, by decide +kernel⟩

/-- Frames of 1 and of 16 bytes, and a length beyond 0xFFFF (`UnwaitedCommands`). -/
theorem test_witness_UnwaitedCommands : Accepts ready ∧ 1 ≤ [(1 : Byte)].length ∧
    (List.replicate 16 (1 : Byte)).length ≤ ready.cfg.cmdBufCap ∧
    ready.cfg.cmdBufCap < (List.replicate 17 (1 : Byte)).length ∧ 65535 < 65536 :=
  ⟨accepts rfl rfl, by decide, by decide +kernel, by decide +kernel, by decide⟩

/-- FIFO accesses of 0 and of 64 bytes (`FifoAccesses`, `WireAccesses`). -/
theorem test_witness_FifoAccesses : Accepts ready ∧ 64 ≤ ready.cfg.fifoCap ∧
    (List.replicate 64 (0 : Byte)).length ≤ ready.cfg.fifoCap ∧ 16 ≤ ready.cfg.respBufCap :=
  ⟨accepts rfl rfl, by decide +kernel, by decide +kernel, by decide +kernel⟩

/-- A wire row of each shape, and the largest property frame (`WireCommands`). -/
theorem test_witness_WireCommands : (Instr.wirePropWrite 1 12 0 (List.replicate 12 1)).failingCheck ready.cfg = none ∧
    (Instr.wireFifoReset 3).failingCheck ready.cfg = none ∧ (Instr.wireStartTx 0 0x30 21).failingCheck ready.cfg = none ∧
    (Instr.wireStartRx 0 0 21 0 3 3).failingCheck ready.cfg = none ∧
    (Instr.wireGetIntStatus [0, 0, 0]).failingCheck ready.cfg = none ∧ (Instr.wireChangeState 3).failingCheck ready.cfg = none ∧
    (Instr.wirePowerUp (List.replicate 15 1)).failingCheck ready.cfg = none := by decide +kernel

/-- Both sides of the ceiling, and never (`WaitCtsAgainstSimChip`). -/
theorem test_witness_WaitCtsAgainstSimChip : (after .waitCts (sim [some 2] [] [])).pollCount = 3 ∧
    (after .waitCts (sim [some 2] [] [])).status = .ok ∧ (after .waitCts (sim [some 3] [] [])).status = .timeout ∧
    (sim [some 2] [] []).agent.law = .sim ∧ (sim [none] [] []).agent.sim.busy = [none] := by decide +kernel

/-- A chip that always returns ready (R68), with either sample (`ReadyHandshakes`, `PowerUpSequence`, `BringUpSequences`,
`TryReceiveAsserted`). -/
theorem test_witness_alwaysReady : AlwaysReady ready ∧ AlwaysReady (sim [] [true] frameG) ∧
    NextSample true (sim [] [true] frameG) ∧ NextSample false ready ∧ (sim [] [true] frameG).rxStage.length = 21 :=
  ⟨⟨rfl, rfl⟩, ⟨rfl, rfl⟩, rfl, rfl, by decide +kernel⟩

/-- An operation of each shape, whatever the chip (`WaitedCommands`, and the clauses for every chip of `ReadyHandshakes`,
`PlannedWrites`, `PowerUpSequence` and `BringUpSequences`, whose other premise is `Accepts`). -/
theorem test_witness_WaitedCommands : State.reset.agent.law = .base ∧
    (Instr.setProperty 1 2 [3]).failingCheck State.reset.cfg = none ∧ (Instr.setProperty 1 2 [3]).failingCheck ready.cfg = none ∧
    (Instr.startRx 0 0 21 0 3 3).failingCheck ready.cfg = none ∧ (Instr.resetFifo 3).failingCheck ready.cfg = none ∧
    Instr.rearmRx.failingCheck ready.cfg = none := by decide +kernel

theorem test_witness_PlannedWrites : small.freqParams.length = 8 ∧ small.powerParams.length = 2 := by decide +kernel

/-- A table that is well formed, with its offsets, and one that is not (`TableWellFormed`). -/
theorem test_witness_TableWellFormed : tableWF 16 table2 = true ∧ tableCount table2 = 2 ∧
    tableWF 16 [] = false ∧ tableWF 16 [0] = true ∧ small.cmdBufCap = 16 := by decide +kernel

theorem test_witness_ReplayAgainstAReadyChip :
    tableRecords table2 = some [[0x15, 0x03], [0x11, 0x20, 0x01, 0x00, 0x7E]] ∧
    (∀ f ∈ [[0x15, 0x03], [0x11, 0x20, 0x01, 0x00, (0x7E : Byte)]], f.length ≤ small.cmdBufCap) := by decide +kernel

/-- The first and the last record (`ReplayFailsFast`). -/
theorem test_witness_ReplayFailsFast : (sim [none] [] []).agent.sim.busy = List.replicate 0 (some 0) ++ none :: [] ∧
    (sim [some 0, none] [] []).agent.sim.busy = List.replicate 1 (some 0) ++ none :: [] ∧
    ((tableRecords table2).getD [])[1]? = some [0x11, 0x20, 0x01, 0x00, 0x7E] := by decide +kernel

theorem test_witness_TryReceiveDeasserted : (sampleIrq (begin .tryReceive ready)).irq = false := by decide +kernel

/-- SEND_FRAME that completes, with either sample (`SendFrameForEveryChip`, `SendFrameSequence`). -/
theorem test_witness_SendFrameForEveryChip : frameF.length = 21 ∧ (after (.sendFrame frameF) ready).status = .ok ∧
    (after (.sendFrame frameF) ready).irq = false ∧ (after (.sendFrame frameF) (sim [] [true] [])).status = .ok ∧
    (after (.sendFrame frameF) (sim [] [true] [])).irq = true := by decide +kernel

theorem test_witness_TryReceiveForEveryChip : (sampleIrq (begin .tryReceive (sim [] [true] frameG))).irq = true ∧
    (after .tryReceive (sim [] [true] frameG)).status = .ok := by decide +kernel

theorem test_witness_RoundTripThroughTheFifo : ∃ s : State, Accepts s ∧ AlwaysReady s ∧ s.agent.sim.loop = true ∧
    s.agent.sim.irq = false :: true :: [] ∧ frameF.length = 21 :=
  ⟨{ ready with agent := { ready.agent with sim := { SimChip.ready with loop := true, irq := [false, true] } } },
    accepts rfl rfl, ⟨rfl, rfl⟩, rfl, rfl, by decide +kernel⟩

theorem test_witness_TryReceiveTwice : NextSample true (sim [] [true, false] frameG) ∧
    (sim [] [true, false] frameG).agent.sim.irq.getD 1 false = false := ⟨rfl, rfl⟩

/-- One instruction of each group of `FrameWithoutAHandshake`, `FrameOfHandshakes` and `FrameOfSequences`. -/
theorem test_witness_frames : Instr.readRssi.failingCheck ready.cfg = none ∧
    (Instr.wireReadCmdBuff 2).failingCheck ready.cfg = none ∧ Instr.clearInts.failingCheck ready.cfg = none ∧
    (Instr.replay table2).failingCheck ready.cfg = none ∧ (Instr.sendFrame frameF).failingCheck ready.cfg = none := by
  decide +kernel

/-- A property write, a SEND_CMD that writes none, a plan, a replay, a power-up and the bring-ups, each of which leaves the
chip known (`PropertyStoreFrame`, `PropertyWriteStores`). -/
theorem test_witness_PropertyStoreFrame : (model standbyChip).agent.law = .abstractModel ∧
    (after (.setProperty 1 2 [3, 4]) (model standbyChip)).agent.chip.mode ≠ .unknown ∧
    (after (.sendCmd [0x15, 0x01]) (model standbyChip)).agent.chip.mode ≠ .unknown ∧
    (after (.setFreq small.freqParams) (model standbyChip)).agent.chip.mode ≠ .unknown ∧
    (after (.setPower small.powerParams) (model standbyChip)).agent.chip.mode ≠ .unknown ∧
    (after (.replay table2) (model standbyChip)).agent.chip.mode ≠ .unknown ∧
    (after .waitCts (model standbyChip)).agent.chip.mode ≠ .unknown ∧
    (after .powerUp (model standbyChip)).agent.chip.mode ≠ .unknown ∧
    (after .enterRx (model standbyChip)).agent.chip.mode ≠ .unknown ∧
    (after .enterTx (model standbyChip)).agent.chip.mode ≠ .unknown ∧ (model standbyChip).agent.chip.held = false := by
  decide +kernel

/-- A chip with a property frame in hand that stores to one byte alone (`PropertyStoreFrame`). -/
theorem test_witness_NotInHand : let s := model { standbyChip with taken := some (.command, [0x11, 1, 1, 2, 3]) }
    NotInHand s (256 + 1) ∧ NotInHand s (256 + 3) ∧ ¬ NotInHand s (256 + 2) := by
  have e : ∀ a, StoresTo [0x11, 1, 1, 2, 3] a → a = 258 := by
    rintro a ⟨g, n, o, d, he, h1, h2, -⟩
    injection he with _ he
    injection he with hg he
    injection he with _ he
    injection he with ho hd
    subst hg ho hd
    change 256 + 2 ≤ a at h1
    change a < 256 + 2 + 1 at h2
    omega
  have k : ∀ a, a ≠ 258 → NotInHand (model { standbyChip with taken := some (.command, [0x11, 1, 1, 2, 3]) }) a := by
    rintro a ha src f hf hs
    injection hf with hf
    injection hf with _ hf
    subst hf
    exact ha (e a hs)
  exact ⟨k _ (by decide), k _ (by decide), fun h => h _ _ rfl ⟨1, 1, 2, [3], rfl, by decide, by decide, by decide⟩⟩

/-- The senders of a property run, each at a chip that stays known: SET_PROPERTY, the wire row and SEND_CMD with a
WAIT_CTS after them, a plan's entry between two others, a table's record (`PropertyWriteStores`). -/
theorem test_witness_PropertyWriteStores :
    (after (.setProperty 1 0xFF [3, 4]) (model standbyChip)).agent.chip.mode ≠ .unknown ∧
    (Instr.wirePropWrite 1 2 0xFF [3, 4]).failingCheck small = none ∧
    (after .waitCts (after (.wirePropWrite 1 2 0xFF [3, 4]) (model standbyChip))).agent.chip.mode ≠ .unknown ∧
    (Instr.sendCmd [0x11, 1, 2, 0xFF, 3, 4]).failingCheck small = none ∧
    (sendWait [0x11, 1, 2, 0xFF, 3, 4] (model standbyChip)).agent.chip.mode ≠ .unknown ∧
    small.freqPlan = [] ++ ⟨0x40, 0, 0, 8⟩ :: [] ∧ small.powerPlan = [] ++ ⟨0x22, 1, 0, 2⟩ :: [] ∧
    tableRecords table2 = some ([[0x15, 0x03]] ++ [0x11, 0x20, 0x01, 0x00, 0x7E] :: []) ∧
    (after (.replay table2) (model standbyChip)).agent.chip.mode ≠ .unknown := by decide +kernel

/-- The frames of a bring-up, a record before all the others and an enable frame after them, at a chip that stays known
(the last clause of `PropertyWriteStores`). -/
theorem test_witness_bringupWrites :
    bringupWrites small ++ small.rxIrqEnable = [] ++ [0x11, 0x10, 0x02, 0x00, 0x08, 0x14] ::
      [[0x11, 0x40, 0x08, 0x00, 0x38, 0x0E, 0x66, 0x66, 0x44, 0x44, 0x20, 0xFE], [0x11, 0x22, 0x02, 0x01, 0x7F, 0x00],
        [0x11, 0x00, 0x01, 0x00, 0x52], [0x11, 0x01, 0x02, 0x00, 0x01, 0x10]] ∧
    bringupWrites small ++ small.txIrqEnable = bringupWrites small ++ [0x11, 0x01, 0x02, 0x00, 0x01, 0x20] :: [] ∧
    (after .enterRx (model standbyChip)).agent.chip.mode ≠ .unknown ∧
    (after .enterTx (model standbyChip)).agent.chip.mode ≠ .unknown := by
  decide +kernel

/-- R204, R205, R206: a record's byte after ENTER_RX, and the enable frame's after either. -/
theorem test_bringup_stored : readProp (0x10 * 256 + 1) (after .enterRx (model standbyChip)) = some 0x14 ∧
    readProp (256 + 1) (after .enterRx (model standbyChip)) = some 0x10 ∧
    readProp (256 + 1) (after .enterTx (model standbyChip)) = some 0x20 := by decide +kernel

/-- R66, R97: the bytes of a property frame stand after the poll; those past offset 0xFF are stored nowhere (log entry 16). -/
theorem test_propertyFrame_stored : let t := sendWait [0x11, 1, 2, 0xFF, 3, 4] (model standbyChip)
    readProp (256 + 255) t = some 3 ∧ readProp 512 t = none := by decide +kernel

/-- R198, R180: the bytes of a plan entry and of a table's record. -/
theorem test_plan_stored : readProp (0x40 * 256 + 7) (after (.setFreq [1, 2, 3, 4, 5, 6, 7, 8]) (model standbyChip)) = some 8 ∧
    readProp (0x20 * 256) (after (.replay table2) (model standbyChip)) = some 0x7E := by decide +kernel

/-- The stored bytes, read back (R66). -/
theorem test_propertyStore : let t := after (.setProperty 1 2 [3, 4]) (model standbyChip)
    readProp (256 + 2) t = some 3 ∧ readProp (256 + 3) t = some 4 ∧ readProp (256 + 4) t = none := by decide +kernel

/-- A run to the end of group 1 and one byte past it (R66, R224; log entry 16). -/
theorem test_propertyStore_end : let t := after (.setProperty 1 0xFF [3, 4]) (model standbyChip)
    readProp (256 + 255) t = some 3 ∧ readProp 512 t = none ∧ t.agent.chip.mode = .standbyReady := by decide +kernel

theorem test_witness_PowerUpRevivesTheChip : (model Chip.unknown).agent.chip.held = false ∧
    (after .powerUp (model Chip.unknown)).status = .ok := by decide +kernel

theorem test_witness_BringUpInFlight : (model sendingChip).agent.chip.mode = .txArmed ∧
    exec .enterRx (model sendingChip) = .next (after .enterRx (model sendingChip)) ∧
    exec .enterTx (model sendingChip) = .next (after .enterTx (model sendingChip)) := ⟨rfl, runs _ rfl, runs _ rfl⟩

theorem test_witness_UnknownLasts : (model Chip.unknown).agent.chip.mode = .unknown ∧
    exec .waitCts (model Chip.unknown) = .next (after .waitCts (model Chip.unknown)) := ⟨rfl, runs _ rfl⟩

/-- A busy chip, a command frame, a sender of each kind, the asserted line, and a table whose first record is a command
frame (`CommandToABusyChip`). -/
theorem test_witness_CommandToABusyChip :
    let s := model { standbyChip with cts := false, intPending := ⟨true, false⟩ }
    Accepts s ∧ s.agent.chip.cts = false ∧ CommandFrame s.cfg [0x34] ∧
      (∀ i ∈ [Instr.sendCmd [0x34], .standby, .startTx 0 0x30 21, .setProperty 1 2 [3], .startRx 0 0 21 0 3 3, .resetFifo 3,
        .clearInts, .setFreq small.freqParams, .setPower small.powerParams, .sendFrame frameF, .tryReceive, .replay table2,
        .resetTxFifo, .resetRxFifo, .resetBothFifos, .rearmRx, .wireChangeState 3], i.failingCheck s.cfg = none) ∧
      (sampleIrq (begin .tryReceive s)).irq = true ∧
      tableRecords table2 = some ([0x15, 0x03] :: [[0x11, 0x20, 0x01, 0x00, 0x7E]]) ∧ CommandFrame s.cfg [0x15, 0x03] :=
  ⟨accepts rfl rfl, rfl, ⟨by decide +kernel, by decide +kernel, by decide +kernel⟩, by decide +kernel, by decide +kernel,
    by decide +kernel, ⟨by decide +kernel, by decide +kernel, by decide +kernel⟩⟩

/-- A ready chip in Boot and a frame that is not POWER_UP_FRAME; a POWER_UP_FRAME outside Boot (`CommandToABusyChip`). -/
theorem test_witness_CommandInBoot : let s := model { Chip.unknown with mode := .boot, cts := true }
    Accepts s ∧ s.agent.chip.mode = .boot ∧ s.agent.chip.taken = none ∧
      Instr.sendCmd [0x34, 3] ≠ .sendCmd s.cfg.powerUpFrame ∧ CommandFrame s.cfg [0x34, 3] ∧
      encodeFrame s.cfg (.wirePowerUp [1]) ≠ s.cfg.powerUpFrame ∧
      tableRecords table2 ≠ some (s.cfg.powerUpFrame :: [[0x11, 0x20, 0x01, 0x00, 0x7E]]) ∧
      (model standbyChip).agent.chip.mode ≠ .boot ∧ (model { Chip.unknown with mode := .off }).agent.chip.mode ≠ .boot :=
  ⟨accepts rfl rfl, rfl, rfl, by decide, ⟨by decide +kernel, by decide +kernel, by decide +kernel⟩, by decide +kernel,
    by decide +kernel, by decide, by decide⟩

/-- R213, R300: in Boot another command frame leads to Unknown and POWER_UP_FRAME to Standby/Ready; outside Boot
POWER_UP_FRAME leads to Unknown. -/
theorem test_chip_boot : let boot := model { Chip.unknown with mode := .boot, cts := true }
    (after (.sendCmd [0x34, 3]) boot).agent.chip.mode = .unknown ∧
    (sendWait small.powerUpFrame boot).agent.chip.mode = .standbyReady ∧
    (after (.sendCmd small.powerUpFrame) (model standbyChip)).agent.chip.mode = .unknown := by decide +kernel

/-- A transmission, a packet, and each kind of next-state code (`ModesAfterTheChipsMoves`). -/
theorem test_witness_ModesAfterTheChipsMoves : sendingChip.mode = .txArmed ∧ sendingChip.txActive = true ∧
    sendingChip.txCondition = 0x30 ∧ armedChip.mode = .rxArmed ∧ frameG.length = armedChip.rxLength ∧
    armedChip.rxFifo.length + frameG.length ≤ small.fifoCap ∧ (sendingChip.move small .txComplete).mode ≠ .unknown ∧
    nextMode armedChip.onValid .rxArmed ≠ .unknown ∧
    (({ sendingChip with txCondition := 0x00 } : Chip).move small .txComplete).mode ≠ .unknown := by decide +kernel

/-- R216, R224: with any condition that leaves the mode known the bytes sent leave the TX FIFO. -/
theorem test_chip_sentBytes : (({ sendingChip with txCondition := 0x00, txFifo := List.replicate 22 7 } : Chip).move small
    .txComplete).txFifo = [7] := by decide +kernel

theorem attentive (h : Chip) (h1 : h.mode.powered = true) (h2 : h.cts = true) : Attentive (model h) := ⟨rfl, rfl, h1, h2⟩

/-- A TX FIFO that fills exactly, one that overflows by one, an RX FIFO read to its end and one byte further, at a chip
that is busy and at one that is not (`FifosOfTheChip`). -/
theorem test_witness_FifosOfTheChip : Powered (model { standbyChip with txFifo := List.replicate 62 0 }) ∧
    (List.replicate 62 (0 : Byte)).length + [(1 : Byte), 2].length ≤ small.fifoCap ∧
    small.fifoCap < (List.replicate 62 (0 : Byte)).length + [(1 : Byte), 2, 3].length ∧
    Powered (model { standbyChip with rxFifo := [1, 2], cts := false }) ∧ 2 ≤ [(1 : Byte), 2].length ∧
    [(1 : Byte), 2].length < 3 ∧ 3 ≤ small.fifoCap :=
  ⟨⟨rfl, rfl, rfl⟩, by decide +kernel, by decide +kernel, ⟨rfl, rfl, rfl⟩, by decide, by decide, by decide +kernel⟩

/-- A property frame that fills the command buffer, and one of each enable list (`UnwaitedCommandsAtTheChip`). -/
theorem test_witness_enableFrames :
    4 + (List.replicate 12 (7 : Byte)).length ≤ small.cmdBufCap ∧ (12 : Byte).toNat = (List.replicate 12 (7 : Byte)).length ∧
    [0x11, 0x01, 0x02, 0x00, 0x01, 0x10] ∈ small.rxIrqEnable ∧ [0x11, 0x01, 0x02, 0x00, 0x01, 0x20] ∈ small.txIrqEnable := by
  decide +kernel

/-- A busy chip with a FIFO_RESET frame in hand. -/
def handChip : Chip := { standbyChip with cts := false, taken := some (.command, [0x15, 3]) }

/-- Exactly as many bytes as START_TX asks for, one too few, length 0, and no completed replay; a count that is right and one
that is not; an opcode that R128 does not name; a handshake that completes after a frame in hand
(`UnwaitedCommandsAtTheChip`). -/
theorem test_witness_UnwaitedCommandsAtTheChip : Attentive (model { standbyChip with txFifo := List.replicate 21 7 }) ∧
    standbyChip.configured = true ∧ (21 : Half) ≠ 0 ∧ (21 : Half).toNat ≤ (List.replicate 21 (7 : Byte)).length ∧
    (List.replicate 21 (7 : Byte)).length < (22 : Half).toNat ∧
    Attentive (model { standbyChip with configured := false }) ∧ (2 : Byte).toNat ≠ [(5 : Byte)].length ∧
    (sendWait (small.opGetIntStatus :: small.intClrArgs) (model standbyChip)).status = .ok ∧
    (sendWait [0x11, 1, 1, 0, 5] (model standbyChip)).status = .ok ∧
    (0xE0 : Byte) ∉ [0x11, 0x15, 0x31, 0x32, 0x66, 0x77, small.opReadCmdBuff, small.opGetIntStatus, small.opChangeState] ∧
    small.powerUpFrame.head? ≠ some 0xE0 ∧
    (handChip.cts = true → handChip.taken = none) ∧ (after .waitCts (model handChip)).status = .ok ∧
    (after .waitCts (model handChip)).agent.chip.mode.powered = true :=
  ⟨attentive _ rfl rfl, rfl, by decide, by decide, by decide, attentive _ rfl rfl, by decide, by decide +kernel,
    by decide +kernel, by decide +kernel, by decide +kernel, Bool.noConfusion, by decide +kernel, by decide +kernel⟩

/-- START_TX with start field 0, with start field 1, and with one of bits [3:2] set, on one attentive chip (R215, log entry
20; the clause of `UnwaitedCommandsAtTheChip`). -/
theorem test_witness_startFields :
    let s := model { standbyChip with txFifo := List.replicate 21 7 }
    Attentive s ∧ ∀ p ∈ [((0x30 : Byte), true), (0x31, false), (0x34, true)],
      (p.1.extractLsb' 0 2 = 0#2 ↔ p.2 = true) ∧ (after (.startTx 0 p.1 21) s).agent.chip.mode = .txArmed ∧
        (after (.startTx 0 p.1 21) s).agent.chip.txActive = p.2 :=
  ⟨attentive _ rfl rfl, by decide +kernel⟩

/-- R215, R293, U9, U11: START_TX without a completed replay, with too few bytes, with length 0. -/
theorem test_chip_startTx_unknown :
    (after (.startTx 0 0x30 1) (model { standbyChip with configured := false, txFifo := [7] })).agent.chip.mode = .unknown ∧
    (after (.startTx 0 0x30 2) (model { standbyChip with txFifo := [7] })).agent.chip.mode = .unknown ∧
    (after (.startTx 0 0x30 0) (model { standbyChip with txFifo := [7] })).agent.chip.mode = .unknown := by decide +kernel

/-- A chip with a frame received and its class pending. -/
def receivedChip : Chip := { standbyChip with rxFifo := frameG, intPending := ⟨true, false⟩ }

/-- The operations that complete (`WaitedCommandsAtTheChip`). -/
theorem test_witness_WaitedCommandsAtTheChip : Attentive (model standbyChip) ∧ standbyChip.configured = true ∧
    (after .clearInts (model standbyChip)).status = .ok ∧ (after (.resetFifo 3) (model standbyChip)).status = .ok ∧
    (after (.startRx 0 0 1 0 3 3) (model standbyChip)).status = .ok ∧ (1 : Half) ≠ 0 ∧
    (after (.sendFrame frameF) (model { standbyChip with txFifo := List.replicate 43 0 })).status = .ok ∧
    (List.replicate 43 (0 : Byte)).length + 21 ≤ small.fifoCap ∧ Attentive (model receivedChip) ∧
    (after .tryReceive (model receivedChip)).log = [⟨.op .tryReceive, .some frameG, .ok⟩] ∧
    21 ≤ receivedChip.rxFifo.length ∧ (after .enterRx (model Chip.unknown)).status = .ok ∧
    (after .enterTx (model Chip.unknown)).status = .ok ∧ Chip.unknown.held = false ∧ Chip.unknown.mode ≠ .txArmed ∧
    small.rxIrqEnable ≠ [] ∧ small.txIrqEnable ≠ [] ∧ Chip.unknown.configured = false ∧
    (∀ i ∈ [Instr.startRx 0 0 21 0 3 3, .sendFrame frameF, .tryReceive], i.failingCheck small = none) :=
  ⟨attentive _ rfl rfl, rfl, by decide +kernel, by decide +kernel, by decide +kernel, by decide, by decide +kernel,
    by decide +kernel, attentive _ rfl rfl, by decide +kernel, by decide +kernel, by decide +kernel, by decide +kernel,
    rfl, by decide, by decide, by decide, rfl, by decide +kernel⟩

/-- R293, U11: START_RX, SEND_FRAME and TRY_RECEIVE before a completed replay, and START_RX with length 0. -/
theorem test_chip_unconfigured : let h : Chip := { standbyChip with configured := false }
    (after (.startRx 0 0 21 0 3 3) (model h)).agent.chip.mode = .unknown ∧
    (after (.sendFrame frameF) (model h)).agent.chip.mode = .unknown ∧
    (after .tryReceive (model h)).agent.chip.mode = .unknown ∧
    (after (.startRx 0 0 0 0 3 3) (model standbyChip)).agent.chip.mode = .unknown := by decide +kernel

/-- A property-group write that is a plain frame. -/
theorem plain_property (g n o : Byte) (d : List Byte) (hn : n.toNat = d.length) :
    PlainFrame small (0x11 :: g :: n :: o :: d) := by
  refine ⟨⟨by simp [Literal.opWriteTxFifo], by simp [Literal.opReadRxFifo], ?_⟩, fun _ => ⟨g, n, o, d, rfl, hn⟩⟩
  simp [small, Config.reference]

/-- The reference frames are plain (`WaitedCommandsAtTheChip`, ENTER_RX and ENTER_TX). -/
theorem test_witness_PlainConfig : PlainConfig small := by
  have e : (tableRecords small.configTable).getD [] ++ bringupFrames small.bringupExtra ++ small.rxIrqEnable ++
      small.txIrqEnable = [[0x11, 0x10, 0x02, 0x00, 0x08, 0x14], [0x11, 0x00, 0x01, 0x00, 0x52],
        [0x11, 0x01, 0x02, 0x00, 0x01, 0x10], [0x11, 0x01, 0x02, 0x00, 0x01, 0x20]] := by decide +kernel
  unfold PlainConfig
  rw [e]
  simp only [List.mem_cons, List.not_mem_nil, or_false, forall_eq_or_imp, forall_eq]
  exact ⟨plain_property _ _ _ _ rfl, plain_property _ _ _ _ rfl, plain_property _ _ _ _ rfl, plain_property _ _ _ _ rfl⟩

end Sys2Proof.Tests
end

section
/-! PROOFS. Family 00_scope: a step's item (O6), how operations end (O12), what the observation keeps (O18), and what the
waited operations put on the bus, for every chip and against one that always returns ready (O33, O34, O35, O39, O40). -/

namespace Sys2Proof.Machine

/-! ### One step -/

/-- The head of the host's stream is taken, and the chip has its turn (R130, log entry 22). -/
theorem fetch_cons {s : State} {it : Item} {rest : List Item} (h : s.pending = it :: rest) :
    fetch s = some (it, chipTurn { s with pending := rest }) := by
  unfold fetch
  rw [h]

theorem step_noRequest {s : State} (ha : s.cfg.admitted = true) (hp : s.pending = []) : step s = .next (chipTurn s) := by
  have hf : fetch s = none := by unfold fetch; rw [hp]
  unfold step
  rw [if_pos ha, hf]

theorem step_decoded {s : State} {it : Item} {rest : List Item} {i : Instr} (ha : s.cfg.admitted = true)
    (hp : s.pending = it :: rest) (hd : decode s.cfg it = .ok i) :
    step s = exec i (chipTurn { s with pending := rest }) := by
  unfold step
  rw [if_pos ha, fetch_cons hp]
  dsimp only [chipTurn_cfg]
  rw [hd]

theorem step_undecoded {s : State} {it : Item} {rest : List Item} {k : Check} (ha : s.cfg.admitted = true)
    (hp : s.pending = it :: rest) (hd : decode s.cfg it = .error k) :
    step s = rejectItem it k (chipTurn { s with pending := rest }) := by
  unfold step
  rw [if_pos ha, fetch_cons hp]
  dsimp only [chipTurn_cfg]
  rw [hd]

theorem admitted_of_step {s t : State} (h : step s = .next t) : s.cfg.admitted = true := by
  by_contra hn
  unfold step at h
  rw [if_neg hn] at h
  cases h

theorem rejectItem_next {it : Item} {k : Check} {s t : State} (h : rejectItem it k s = .next t) :
    t = refuse (.raw it) k s := by
  unfold rejectItem at h
  split at h
  · injection h with h
    exact h.symm
  · cases h

/-- Settles O6: the fetch takes the head of the stream, and the decoder's answer is what runs. -/
theorem stepRunsTheDecodedInstruction : Obligations.StepRunsTheDecodedInstruction := by
  unfold Obligations.StepRunsTheDecodedInstruction
  intro s it rest i ha hp hd
  exact step_decoded ha hp hd

/-! ### The observation -/

/-- From `s` to `t` no request is taken, and the observation grows, by one line of the log at most (R11, R96). -/
structure Grows (s t : State) : Prop where
  pending : t.pending = s.pending
  trace : ∃ new, t.trace = s.trace ++ new
  log : ∃ new, t.log = s.log ++ new ∧ new.length ≤ 1

theorem grows_refuse (w : Issued) (k : Check) (s : State) : Grows s (refuse w k s) :=
  ⟨rfl, ⟨[], by simp⟩, [_], refuse_log s w k, le_rfl⟩

theorem grows_chipTurn (s : State) : Grows s (chipTurn s) := ⟨rfl, ⟨[], by simp⟩, [], by simp, by simp⟩

/-- The end of a host operation adds its one line (R261). -/
theorem finish_observed (i : Instr) (x : Flow Result) :
    (finish i x).pending = x.state.pending ∧ (finish i x).trace = x.state.trace ∧
      ∃ e, (finish i x).log = x.state.log ++ [e] := by
  cases x with
  | ok r u => exact ⟨rfl, rfl, _, rfl⟩
  | timeout n u => exact ⟨rfl, rfl, _, rfl⟩
  | fault u => exact ⟨rfl, rfl, _, rfl⟩

/-- The end of a wire row adds no line (log entry 5). -/
theorem settle_observed (x : Flow Unit) :
    (settle x).pending = x.state.pending ∧ (settle x).trace = x.state.trace ∧ (settle x).log = x.state.log := by
  cases x with
  | ok r u => exact ⟨rfl, rfl, rfl⟩
  | timeout n u => exact ⟨rfl, rfl, rfl⟩
  | fault u => exact ⟨rfl, rfl, rfl⟩

/-- Every instruction leaves the host's stream alone and lets the observation grow (R11, R96). -/
theorem grows_exec {i : Instr} {s t : State} (h : exec i s = .next t) : Grows s t := by
  obtain ⟨-, ⟨k, -, rfl⟩ | ⟨-, -, rfl⟩ | ⟨-, hw, rfl⟩⟩ := exec_next h
  · exact grows_refuse _ k s
  · obtain ⟨hpending, htrace, e, hlog⟩ := finish_observed i.expand (hostBody s.cfg i (begin i.expand s))
    have hclean := clean_hostBody s.cfg i (begin i.expand s)
    obtain ⟨new, hnew, -⟩ := hclean.trace
    exact ⟨hpending.trans (frame_hostBody s.cfg i (begin i.expand s)).pending, ⟨new, htrace.trans hnew⟩, [e],
      by rw [hlog, hclean.log, begin_log], le_rfl⟩
  · obtain ⟨hpending, htrace, hlog⟩ := settle_observed (wireBody s.cfg i s)
    have hclean := clean_wireBody s.cfg hw s
    obtain ⟨new, hnew, -⟩ := hclean.trace
    exact ⟨hpending.trans (frame_wireBody s.cfg hw s).pending, ⟨new, htrace.trans hnew⟩, [],
      by rw [hlog, hclean.log, List.append_nil], Nat.zero_le 1⟩

/-- What follows the fetch of an item keeps the rest of the stream (R130). -/
theorem Grows.after_fetch {s t : State} {it : Item} {rest : List Item} (hp : s.pending = it :: rest)
    (h : Grows (chipTurn { s with pending := rest }) t) :
    t.pending = s.pending.tail ∧ (∃ new, t.trace = s.trace ++ new) ∧ ∃ new, t.log = s.log ++ new ∧ new.length ≤ 1 :=
  ⟨by rw [h.pending, hp]; rfl, h.trace, h.log⟩

/-- Settles O18: a step without a request is the chip's turn; any other takes the head of the stream and then refuses or
runs it, and both only add to the observation. -/
theorem observationGrows : Obligations.ObservationGrows := by
  unfold Obligations.ObservationGrows
  intro s t h
  have ha := admitted_of_step h
  cases hp : s.pending with
  | nil =>
    rw [step_noRequest ha hp] at h
    injection h with h
    subst h
    have hg := grows_chipTurn s
    exact ⟨hp, hg.trace, hg.log⟩
  | cons it rest =>
    rw [← hp]
    cases hd : decode s.cfg it with
    | ok i =>
      rw [step_decoded ha hp hd] at h
      exact (grows_exec h).after_fetch hp
    | error k =>
      rw [step_undecoded ha hp hd] at h
      rw [rejectItem_next h]
      exact (grows_refuse _ k _).after_fetch hp

/-! ### How a host operation ends -/

/-- A result of a completed operation: no refusal, no Timeout, no point with no meaning (R15). -/
def Result.Value : Result → Prop
  | .ok | .okBytes _ | .okByte _ | .some _ | .none => True
  | .timeout _ | .refused _ | .noMeaning => False

theorem Result.Value.ne {r : Result} (h : r.Value) :
    r ≠ .noMeaning ∧ (∀ n, r ≠ .timeout n) ∧ ∀ k, r ≠ .refused k := by
  refine ⟨?_, fun n => ?_, fun k => ?_⟩ <;> rintro rfl <;> exact h

/-- What the body answers, when it answers, is the result of a completed operation. -/
def Answers (f : State → Flow Result) : Prop := ∀ s r t, f s = .ok r t → r.Value

theorem answers_stepsBody (fs : List Step) : Answers (stepsBody fs) := by
  intro s r t h
  rw [stepsBody_ok h]
  trivial

theorem answers_bytes (f : State → Flow (List Byte)) :
    Answers (fun t => (f t).bind fun l u => .ok (.okBytes l) (stepDone u)) := by
  intro s r t h
  cases hf : f s with
  | ok l u =>
    simp only [hf, Flow.bind_ok, Flow.ok.injEq] at h
    rw [← h.1]
    trivial
  | timeout n u => simp [hf] at h
  | fault u => simp [hf] at h

theorem answers_handOff : Answers handOff := by
  intro s r t h
  unfold handOff at h
  split at h
  · injection h with h
    rw [← h]
    trivial
  · cases h

theorem answers_tryReceive : Answers tryReceive := by
  intro s r t h
  unfold tryReceive at h
  dsimp only at h
  split at h
  · cases hc : chain (counted receiveSteps) (stepDone (sampleIrq s)) with
    | ok a u =>
      rw [hc, Flow.bind_ok] at h
      exact answers_handOff u r t h
    | timeout n u => rw [hc] at h; cases h
    | fault u => rw [hc] at h; cases h
  · injection h with h
    rw [← h]
    trivial

theorem answers_hostBody (c : Config) {i : Instr} (hw : i.isWire = false) : Answers (hostBody c i) := by
  cases i with
  | getResp n => exact answers_bytes (getResponse n)
  | readRxFifo n => exact answers_bytes (readRxFifo n)
  | tryReceive => exact answers_tryReceive
  | readRssi =>
    intro s r t h
    injection h with h
    rw [← h]
    trivial
  | wirePropWrite | wireFifoReset | wireStartTx | wireStartRx | wireWriteTxFifo | wireReadRxFifo | wireReadCmdBuff
  | wireGetIntStatus | wireChangeState | wirePowerUp => cases hw
  | _ => exact answers_stepsBody _

/-- The result of an aborted operation, by the instruction as it was issued (R15, R240). -/
theorem abortResult_expand (i : Instr) (n : Nat) :
    abortResult i.expand n = if i = .tryReceive then .none else .timeout n := by
  cases i <;> rfl

/-- Settles O12: the request is refused by its check, or its body ends with a value or by a Timeout, and each end writes
`status` beside its result. -/
theorem resultAndStatus : Obligations.ResultAndStatus := by
  unfold Obligations.ResultAndStatus
  rintro i s hw ⟨ha, hs⟩
  cases hk : i.failingCheck s.cfg with
  | some k =>
    refine ⟨refuse (.op i.expand) k s, .refused k, ?_, rfl, hs, .inl ⟨k, rfl, rfl, rfl⟩⟩
    rw [exec_host hw, hostOp_refused hs ((failingCheck_expand s.cfg).trans hk)]
  | none =>
    have hrun := exec_runs hw hs hk
    have hend := ends_hostBody ha hk (begin i.expand s) rfl
    have hlog := (clean_hostBody s.cfg i (begin i.expand s)).log
    cases hx : hostBody s.cfg i (begin i.expand s) with
    | ok r u =>
      rw [hx] at hrun hlog
      obtain ⟨hmeaning, htimeout, hrefused⟩ := (answers_hostBody s.cfg hw _ r u hx).ne
      exact ⟨_, r, hrun, congrArg (· ++ [_]) hlog, rfl, .inr (.inl ⟨rfl, rfl, hmeaning, htimeout, hrefused⟩)⟩
    | timeout n u =>
      rw [hx] at hrun hlog hend
      refine ⟨_, abortResult i.expand n, hrun, congrArg (· ++ [_]) hlog, rfl, .inr (.inr ⟨rfl, rfl, ?_⟩)⟩
      rw [abortResult_expand, hend.polls]
    | fault u =>
      rw [hx] at hend
      exact hend.elim

/-! ### Operations that complete against a chip that always returns ready -/

/-- An admitted operation whose body has gone through is completed, and has written no register beyond its body's (R45,
R261). -/
theorem completed_of_went {i : Instr} {s u : State} {r : Result} {es : List Event} (hw : i.isWire = false)
    (hs : Accepts s) (hk : i.failingCheck s.cfg = none) (hx : hostBody s.cfg i (begin i.expand s) = .ok r u)
    (hwent : Went (begin i.expand s) u es) :
    exec i s = .next (complete i.expand r u) ∧ Completed i.expand r es (bodyWrites i) s (complete i.expand r u) := by
  refine ⟨?_, hwent.puts.congr rfl rfl, congrArg (· ++ [_]) hwent.log, rfl, rfl, ?_⟩
  · rw [exec_runs hw hs.2 hk, hx]
    rfl
  · have hbody := frame_hostBody s.cfg i (begin i.expand s)
    rw [hx] at hbody
    have hbegin : Frame (bodyWrites i) s (begin i.expand s) := by constructor <;> intros <;> rfl
    have hcomplete : Frame (bodyWrites i) u (complete i.expand r u) := by constructor <;> intros <;> rfl
    exact (hbegin.trans hbody).trans hcomplete

/-- The start of an operation is none of SimChip's business (R68). -/
theorem AlwaysReady.begin {s : State} (h : AlwaysReady s) (i : Instr) : Left [] (begin i s) := by
  unfold Left
  rw [begin_agent, onRequest_sim h.1]
  exact h

theorem Went.stepDone {s u : State} {es : List Event} (h : Went s u es) : Went s (stepDone u) es := by
  simpa using h.trans (goes_stepDone u)

/-- Steps that go through make a body that does, when every handshake is ready (R68). -/
theorem stepsBody_ready {c : Config} {fs : List Step} {n : Nat} {es : List Event} (h : GoesAll c fs n es) {s : State}
    (hc : s.cfg = c) (hl : Left [] s) : ∃ u, stepsBody fs s = .ok .ok u ∧ Went s u es := by
  obtain ⟨u, hu, hwent, -⟩ := h.counted.chain s [] hc hl (by simp)
  exact ⟨u, by rw [stepsBody, hu, Flow.bind_ok], hwent⟩

/-- An admitted operation that is a list of steps, each of which goes through, completes against a chip that always returns
ready, with Ok() (R68). -/
theorem completed_of_steps {i : Instr} {s : State} {fs : List Step} {n : Nat} {es : List Event} (hw : i.isWire = false)
    (hs : Accepts s) (hr : AlwaysReady s) (hk : i.failingCheck s.cfg = none) (hb : hostBody s.cfg i = stepsBody fs)
    (hg : GoesAll s.cfg fs n es) : ∃ t, exec i s = .next t ∧ Completed i.expand .ok es (bodyWrites i) s t := by
  obtain ⟨u, hu, hwent⟩ := stepsBody_ready hg (s := begin i.expand s) rfl (hr.begin _)
  rw [← hb] at hu
  exact ⟨_, completed_of_went hw hs hk hu hwent⟩

/-- What the poll registers and the buffers hold after a ready handshake that has read `r` (R37, R40, R41). -/
structure ReadyEnd (r : List Byte) (s u : State) : Prop where
  respBuf : u.respBuf = overwrite r s.respBuf
  pollCount : u.pollCount = 1
  lastCts : u.lastCts = some Literal.ctsReady
  cmdBuf : u.cmdBuf = s.cmdBuf

/-- A ready handshake as a part of an operation, with what it leaves in the registers (R154, R156). -/
theorem getResponse_readyEnd {c : Config} (hp : Polls c) {n : Nat} (hn : n ≤ c.respBufCap) {s : State} (hc : s.cfg = c)
    (hl : Left [] s) : ∃ r u, getResponse n s = .ok r u ∧ Went s u (rrOut c n) ∧ r.length = n ∧ ReadyEnd r s u := by
  obtain ⟨r, u, hu, hwent, -, hlen, hresp, hcount, hlast⟩ := getResponse_ready hp hn hc hl rfl
  have hcmd := (frame_getResponse n s).cmdBuf (by decide)
  rw [hu] at hcmd
  exact ⟨r, u, hu, hwent, hlen, hresp, hcount, hlast, hcmd⟩

theorem ReadyEnd.stepDone {r : List Byte} {s u : State} (h : ReadyEnd r s u) : ReadyEnd r s (stepDone u) where
  respBuf := (stepDone_respBuf u).trans h.respBuf
  pollCount := (stepDone_pollCount u).trans h.pollCount
  lastCts := (stepDone_lastCts u).trans h.lastCts
  cmdBuf := (stepDone_cmdBuf u).trans h.cmdBuf

/-- A body that is one ready handshake. -/
theorem waitBody_ready {c : Config} (hp : Polls c) {s : State} (hc : s.cfg = c) (hl : Left [] s) :
    ∃ r u, stepsBody [waitForCts] s = .ok .ok u ∧ Went s u (pOut c) ∧ ReadyEnd r s u := by
  obtain ⟨r, u, hu, hwent, -, hend⟩ := getResponse_readyEnd hp (Nat.zero_le _) hc hl
  refine ⟨r, stepDone u, ?_, hwent.stepDone, hend.stepDone⟩
  simp [stepsBody, counted, chain, waitForCts, hu]

/-- The response read of `n` bytes as a step, its bytes discarded: `waitForCts` is `readStep 0` by definition (R156, D44). -/
def readStep (n : Nat) : Step := fun s => (getResponse n s).bind fun _ t => .ok () t

/-- A body that is one command frame and one ready handshake: the frame stands in `cmd_buf`, the response in `resp_buf`
(R155, R160, R197). -/
theorem commandBody_ready {c : Config} (hp : Polls c) {f : List Byte} (hf : f.length ≤ c.cmdBufCap) {n : Nat}
    (hn : n ≤ c.respBufCap) {s : State} (hc : s.cfg = c) (hl : Left [] s) :
    ∃ r u, stepsBody [sendCommand f, readStep n] s = .ok .ok u ∧ Went s u (wOut f ++ rrOut c n) ∧ r.length = n ∧
      u.cmdBuf = overwrite f s.cmdBuf ∧ u.respBuf = overwrite r s.respBuf ∧ u.pollCount = 1 := by
  subst hc
  obtain ⟨v, hv, hsent, hlv⟩ := goes_sendCommand hf s [] rfl hl (by simp)
  have hsv := sendCommand_ok hf
  rw [hv] at hsv
  injection hsv with _ hsv
  have hlv' : Left [] (stepDone v) := by unfold Left; rw [stepDone_agent]; exact hlv
  have hcv : (stepDone v).cfg = s.cfg := (stepDone_cfg v).trans hsent.cfg
  obtain ⟨r, u, hu, hread, hlen, hend⟩ := getResponse_readyEnd hp hn hcv hlv'
  refine ⟨r, stepDone u, ?_, ?_, hlen, ?_, ?_, hend.stepDone.pollCount⟩
  · simp [stepsBody, counted, chain, readStep, hv, hu]
  · exact hsent.stepDone.trans hread.stepDone
  · rw [hend.stepDone.cmdBuf, stepDone_cmdBuf, hsv]
    simp
  · rw [hend.stepDone.respBuf, stepDone_respBuf, hsv]
    simp

/-- An admitted operation that is one command frame and one ready handshake (R160, R197). -/
theorem completed_of_command {i : Instr} {s : State} {f : List Byte} {n : Nat} (hw : i.isWire = false) (hs : Accepts s)
    (hr : AlwaysReady s) (hk : i.failingCheck s.cfg = none)
    (hb : hostBody s.cfg i = stepsBody [sendCommand f, readStep n]) (hf : f.length ≤ s.cfg.cmdBufCap)
    (hn : n ≤ s.cfg.respBufCap) :
    ∃ t r, exec i s = .next t ∧ r.length = n ∧
      Completed i.expand .ok (wOut f ++ rrOut s.cfg n) (bodyWrites i) s t ∧
      t.cmdBuf = overwrite f s.cmdBuf ∧ t.respBuf = overwrite r s.respBuf ∧ t.pollCount = 1 := by
  obtain ⟨r, u, hu, hwent, hlen, hcmd, hresp, hcount⟩ :=
    commandBody_ready (facts_of_admitted hs.1).polls hf hn (s := begin i.expand s) rfl (hr.begin _)
  rw [← hb] at hu
  obtain ⟨ht, hdone⟩ := completed_of_went hw hs hk hu hwent
  exact ⟨_, r, ht, hlen, hdone, hcmd, hresp, hcount⟩

theorem intStatusFrame_fits {c : Config} (hf : Facts c) : (intStatusFrame c).length ≤ c.cmdBufCap := by
  have := hf.intCap
  simp only [intStatusFrame, List.length_cons]
  omega

/-- Settles O33: each operation's body is one handshake, alone or behind the GET_INT_STATUS frame. -/
theorem readyHandshakes : Obligations.ReadyHandshakes := by
  unfold Obligations.ReadyHandshakes
  refine ⟨fun s hs hr => ?_, fun s n hs hr hn => ?_, fun s hs hr => ?_, fun s hs => ?_⟩
  · obtain ⟨r, u, hu, hwent, hend⟩ :=
      waitBody_ready (facts_of_admitted hs.1).polls (s := begin .waitCts s) rfl (hr.begin _)
    obtain ⟨ht, hdone⟩ := completed_of_went (i := .waitCts) rfl hs rfl hu hwent
    exact ⟨_, ht, hdone, hend.pollCount, hend.lastCts⟩
  · have hk : (Instr.getResp n).failingCheck s.cfg = none := if_neg (Nat.not_lt.2 hn)
    obtain ⟨r, u, hu, hwent, hlen, hend⟩ := getResponse_readyEnd (facts_of_admitted hs.1).polls
      (s := begin (.getResp n) s) hn rfl (hr.begin _)
    have hx : hostBody s.cfg (.getResp n) (begin (.getResp n) s) = .ok (.okBytes r) (stepDone u) := by
      show (getResponse n (begin (.getResp n) s)).bind _ = _
      rw [hu, Flow.bind_ok]
    obtain ⟨ht, hdone⟩ := completed_of_went (i := .getResp n) rfl hs hk hx hwent.stepDone
    exact ⟨_, r, ht, hlen, hdone, hend.stepDone.respBuf, hend.stepDone.pollCount⟩
  · have hf := facts_of_admitted hs.1
    obtain ⟨t, r, ht, hlen, hdone, -, hresp, -⟩ := completed_of_command (i := .clearInts) rfl hs hr rfl rfl
      (intStatusFrame_fits hf) hf.respCap
    exact ⟨t, r, ht, hlen, hdone, hresp⟩
  · exact runsAs rfl hs rfl rfl (fun _ => rfl) fun _ => rfl

/-! ### One command frame and its handshake -/

/-- The instruction is one frame that the engine composes, and its handshake (R135, R159, R201, R202). -/
structure SendsOne (c : Config) (i : Instr) (f : List Byte) : Prop where
  host : i.isWire = false
  body : hostBody c i = stepsBody [sendCommand f, waitForCts]
  fits : f.length ≤ c.cmdBufCap
  aborts : ∀ n, abortResult i.expand n = .timeout n
  pieces : ∀ v, i.pieces c v = waited f
  writes : bodyWrites i = cmdRegs

theorem sendsOne_setProperty {c : Config} (hf : Facts c) {g o : Byte} {d : List Byte}
    (hk : (Instr.setProperty g o d).failingCheck c = none) : SendsOne c (.setProperty g o d) (propFrame g o d) := by
  refine ⟨rfl, rfl, ?_, fun _ => rfl, fun _ => rfl, rfl⟩
  have hcap := hf.propCap
  have hlen : ¬ (d.length = 0 ∨ c.propMax < d.length) := fun h => by
    rw [Instr.failingCheck, if_pos h] at hk
    cases hk
  simp only [propFrame, List.length_cons]
  omega

theorem sendsOne_startRx {c : Config} (hf : Facts c) (ch cond : Byte) (len : Half) (t v x : Byte) :
    SendsOne c (.startRx ch cond len t v x) (startRxFrame ch cond len t v x) :=
  ⟨rfl, rfl, hf.cmdCap, fun _ => rfl, fun _ => rfl, rfl⟩

theorem fifoResetFrame_fits {c : Config} (hf : Facts c) (sub : Byte) : (fifoResetFrame sub).length ≤ c.cmdBufCap :=
  le_trans (by simp [fifoResetFrame]) hf.cmdCap

theorem sendsOne_resetFifo {c : Config} (hf : Facts c) (sub : Byte) :
    SendsOne c (.resetFifo sub) (fifoResetFrame sub) :=
  ⟨rfl, rfl, fifoResetFrame_fits hf sub, fun _ => rfl, fun _ => rfl, rfl⟩

/-- A pseudo-instruction sends what its expansion sends (R135). -/
theorem SendsOne.of_expand {c : Config} {i : Instr} {f : List Byte} (h : SendsOne c i.expand f) : SendsOne c i f := by
  cases i <;> exact ⟨h.host, h.body, h.fits, h.aborts, h.pieces, h.writes⟩

/-- An operation of this kind, for every chip and against one that always returns ready (R68, R160). -/
theorem SendsOne.waited {i : Instr} {s : State} {f : List Byte} (h : SendsOne s.cfg i f) (hs : Accepts s)
    (hk : i.failingCheck s.cfg = none) :
    RunsAs i [.send f, .hand 0] s ∧
      (AlwaysReady s → ∃ t, exec i s = .next t ∧ Completed i.expand .ok (wOut f ++ pOut s.cfg) cmdRegs s t ∧
        t.cmdBuf = overwrite f s.cmdBuf ∧ t.pollCount = 1) := by
  refine ⟨runsAs h.host hs hk h.body h.aborts h.pieces, fun hr => ?_⟩
  obtain ⟨t, r, ht, -, hdone, hcmd, -, hcount⟩ :=
    completed_of_command (n := 0) h.host hs hr hk h.body h.fits (Nat.zero_le _)
  rw [h.writes] at hdone
  exact ⟨t, ht, hdone, hcmd, hcount⟩

/-- Settles O34: each of the seven operations is one composed frame and its handshake. -/
theorem waitedCommands : Obligations.WaitedCommands := by
  unfold Obligations.WaitedCommands
  intro i s f hs hk hi
  have hf := facts_of_admitted hs.1
  refine SendsOne.waited ?_ hs hk
  rcases hi with ⟨g, o, d, rfl, rfl⟩ | ⟨ch, cond, len, t, v, x, rfl, rfl⟩ | ⟨sub, rfl, rfl⟩ | ⟨rfl, rfl⟩ | ⟨rfl, rfl⟩ |
    ⟨rfl, rfl⟩ | ⟨rfl, rfl⟩
  · exact sendsOne_setProperty hf hk
  · exact sendsOne_startRx hf ch cond len t v x
  · exact sendsOne_resetFifo hf sub
  · exact .of_expand (sendsOne_resetFifo hf Literal.fifoSubTx)
  · exact .of_expand (sendsOne_resetFifo hf Literal.fifoSubRx)
  · exact .of_expand (sendsOne_resetFifo hf Literal.fifoSubBoth)
  · exact .of_expand (sendsOne_startRx hf _ _ _ _ _ _)

/-! ### Plans -/

/-- A plan entry inside its argument writes as many bytes as it counts, so its frame's count byte is the entry's (R112,
R198). -/
theorem propFrame_planSlice {p : List Byte} {e : PlanEntry} (h : e.start + e.count ≤ p.length) :
    propFrame e.group e.offset (planSlice p e) =
      0x11 :: e.group :: BitVec.ofNat 8 e.count :: e.offset :: (p.drop e.start).take e.count := by
  have hlen : (planSlice p e).length = e.count := by
    simp only [planSlice, List.length_take, List.length_drop]
    omega
  rw [propFrame, hlen]
  rfl

theorem planOut_eq {c : Config} {plan : List PlanEntry} {p : List Byte} (h : ∀ e ∈ plan, e.start + e.count ≤ p.length) :
    planOut c plan p = plan.flatMap fun e =>
      wOut (0x11 :: e.group :: BitVec.ofNat 8 e.count :: e.offset :: (p.drop e.start).take e.count) ++ pOut c :=
  List.flatMap_congr fun e he => by rw [propFrame_planSlice (h e he), cmdOut]

theorem planPieces_eq {plan : List PlanEntry} {p : List Byte} (h : ∀ e ∈ plan, e.start + e.count ≤ p.length) :
    planPieces plan p = plan.flatMap fun e =>
      [.send (0x11 :: e.group :: BitVec.ofNat 8 e.count :: e.offset :: (p.drop e.start).take e.count), .hand 0] :=
  List.flatMap_congr fun e he => by rw [propFrame_planSlice (h e he), waited]

/-- Settles O35: each plan is a list of property writes, and admission keeps every entry inside the argument. -/
theorem plannedWrites : Obligations.PlannedWrites := by
  unfold Obligations.PlannedWrites
  have hfreq {s : State} {p : List Byte} (hs : Accepts s) (hp : p.length = 8) :
      ∀ e ∈ s.cfg.freqPlan, e.start + e.count ≤ p.length :=
    fun e he => hp ▸ ((facts_of_admitted hs.1).freqPlan e he).2.2
  have hpower {s : State} {p : List Byte} (hs : Accepts s) (hp : p.length = 2) :
      ∀ e ∈ s.cfg.powerPlan, e.start + e.count ≤ p.length :=
    fun e he => hp ▸ ((facts_of_admitted hs.1).powerPlan e he).2.2
  refine ⟨fun s p hs hr hp => ?_, fun s p hs hr hp => ?_, fun s p hs hp => ?_, fun s p hs hp => ?_⟩
  · have hf := facts_of_admitted hs.1
    rw [← planOut_eq (hfreq hs hp)]
    exact completed_of_steps (i := .setFreq p) rfl hs hr (if_pos hp) rfl
      (all_planSteps hf (fun e he => (hf.freqPlan e he).1) p)
  · have hf := facts_of_admitted hs.1
    rw [← planOut_eq (hpower hs hp)]
    exact completed_of_steps (i := .setPower p) rfl hs hr (if_pos hp) rfl
      (all_planSteps hf (fun e he => (hf.powerPlan e he).1) p)
  · rw [← planPieces_eq (hfreq hs hp)]
    exact runsAs rfl hs (if_pos hp) rfl (fun _ => rfl) fun _ => rfl
  · rw [← planPieces_eq (hpower hs hp)]
    exact runsAs rfl hs (if_pos hp) rfl (fun _ => rfl) fun _ => rfl

/-! ### Power-up and bring-up -/

/-- The widths of the reset pulse and of the settle time in an admitted configuration (R133, R308). -/
theorem pulse_of_admitted {c : Config} (h : c.admitted = true) : 300 ≤ c.tRstAssertUs ∧ 5 ≤ c.tSettleMs := by
  obtain ⟨hb, -, -⟩ := Config.admitted_parts h
  simp only [Config.boundsOk, Literal.rstAssertMinUs, Literal.settleMinMs, Bool.and_eq_true, decide_eq_true_eq] at hb
  omega

theorem finish_rst (i : Instr) (x : Flow Result) : (finish i x).rst = x.state.rst := by
  cases x <;> rfl

theorem stepsBody_state (fs : List Step) (s : State) : (stepsBody fs s).state = (chain (counted fs) s).state := by
  unfold stepsBody
  cases chain (counted fs) s <;> rfl

/-- POWER_UP, which no check refuses, leaves the reset line released, however it ends (R196). -/
theorem powerUp_released {s t : State} (h : exec .powerUp s = .next t) : t.rst = false := by
  obtain ⟨-, ⟨k, hk, -⟩ | ⟨-, -, rfl⟩ | ⟨-, hw, -⟩⟩ := exec_next h
  · cases hk
  · rw [finish_rst]
    exact (congrArg State.rst (stepsBody_state _ _)).trans (released_powerUpSteps s.cfg _)
  · cases hw

/-- Settles O39: the steps of POWER_UP one by one, against a ready chip and as pieces for every chip. -/
theorem powerUpSequence : Obligations.PowerUpSequence := by
  unfold Obligations.PowerUpSequence
  refine ⟨fun s hs hr => ?_, fun s hs => ?_⟩
  · obtain ⟨t, ht, hdone⟩ := completed_of_steps (i := .powerUp) rfl hs hr rfl rfl
      (all_powerUpSteps (facts_of_admitted hs.1))
    refine ⟨t, ht, ?_, powerUp_released ht, pulse_of_admitted hs.1⟩
    have hout : powerUpOut s.cfg = [.rst true, .delayUs s.cfg.tRstAssertUs, .rst false, .delayMs s.cfg.tSettleMs] ++
        wOut s.cfg.powerUpFrame ++ pOut s.cfg ++ wOut (s.cfg.opGetIntStatus :: s.cfg.intClrArgs) ++ rrOut s.cfg 8 := by
      simp [powerUpOut, cmdOut, clearOut, intStatusFrame]
    exact hout ▸ hdone
  · exact runsAs rfl hs rfl rfl (fun _ => rfl) fun _ => rfl

/-- A bring-up, its interrupt-enable frames and its last command go through (R204 to R206). -/
theorem all_enterSteps {c : Config} (hf : Facts c) {fs : List (List Byte)} (h : ∀ f ∈ fs, f.length ≤ c.cmdBufCap)
    {last : List Byte} (hl : last.length ≤ c.cmdBufCap) :
    GoesAll c (bringup :: (fs.map configWait ++ [cmdWait last])) (bringupHandshakes c + (fs.length + 1))
      (bringupOut c ++ fs.flatMap (cmdOut c) ++ cmdOut c last) := by
  have := GoesAll.cons (goes_bringup hf) ((all_configWaits hf h).append (.one (goes_cmdWait hf.polls hl)))
  simpa using this

/-- Settles O40: both are the bring-up, the enable frames and one last command. -/
theorem bringUpSequences : Obligations.BringUpSequences := by
  unfold Obligations.BringUpSequences
  refine ⟨fun s hs hr => ?_, fun s hs hr => ?_, fun s hs => ?_, fun s hs => ?_⟩
  · have hf := facts_of_admitted hs.1
    exact completed_of_steps (i := .enterRx) rfl hs hr rfl rfl (all_enterSteps hf hf.rxFits (last := rearmFrame) hf.cmdCap)
  · have hf := facts_of_admitted hs.1
    exact completed_of_steps (i := .enterTx) rfl hs hr rfl rfl (all_enterSteps hf hf.txFits (fifoResetFrame_fits hf _))
  · exact runsAs (fs := enterRxSteps s.cfg) rfl hs rfl rfl (fun _ => rfl) fun _ => rfl
  · exact runsAs (fs := enterTxSteps s.cfg) rfl hs rfl rfl (fun _ => rfl) fun _ => rfl

end Sys2Proof.Machine
end

section
/-! PROOFS. Family 10_state: the invariant and what every step keeps (O13 to O17, O20), frames (O48 to O50), the unwaited
commands, WAIT_CTS and REPLAY on the bus (O27, O32, O37, O38), Frame I/O against SimChip (O42, O43, O46, O47), the abstract
chip (O57 to O60) and its property store (O51, O52). -/

namespace Sys2Proof.Machine

/-! ### The invariant -/

/-- The part of the invariant that also holds inside an operation: a bring-up issued in flight may hold the chip (R223), and
only under the abstract chip model. -/
structure Midway (s : State) : Prop where
  deselected : s.sel = false
  released : s.rst = false
  windows : selAfter false s.trace = some false
  polls : s.pollCount ≤ s.cfg.ctsRetryMax
  cmdLen : s.cmdBuf.length = s.cfg.cmdBufCap
  respLen : s.respBuf.length = s.cfg.respBufCap
  stageLen : s.rxStage.length = Literal.frameLen
  props : Memory.wf s.agent.chip.props = true
  held : s.agent.law ≠ .abstractModel → s.agent.chip.held = false
  acted : s.agent.chip.cts = true → s.agent.chip.taken = none

theorem Inv.midway {s : State} (h : Inv s) : Midway s where
  __ := h
  held _ := h.notHeld

/-- The start of an operation tells the chip of it, and nothing else changes but `seq` (R45). -/
theorem Inv.begin {s : State} (h : Inv s) (i : Instr) : Midway (begin i s) where
  __ := h
  props := request_props s.agent i h.props
  held hl := by
    rw [begin_agent, onRequest_law] at hl
    rw [begin_agent, onRequest_chip s.agent i hl]
    exact h.notHeld
  acted := request_acted s.agent i h.acted

/-- What every part of an operation keeps is enough for the invariant, once the reset line is known to be released. -/
theorem Midway.of_clean {P : Event → Prop} {s t : State} (h : Midway s) (hclean : Clean P s t) (hrst : t.rst = false) :
    Midway t where
  deselected := by
    obtain ⟨_, _, _, hsel⟩ := hclean.trace
    exact (hsel h.deselected).1
  released := hrst
  windows := by
    obtain ⟨new, hnew, -, hsel⟩ := hclean.trace
    rw [hnew, selAfter_append, h.windows]
    exact (hsel h.deselected).2
  polls := hclean.cfg ▸ hclean.polls h.polls
  cmdLen := hclean.cfg ▸ hclean.cmdLen h.cmdLen
  respLen := hclean.cfg ▸ hclean.respLen h.respLen
  stageLen := hclean.stageLen h.stageLen
  props := hclean.agent.keeps.props h.props
  held hl := hclean.agent.keeps.held (h.held (hclean.agent.law ▸ hl))
  acted := hclean.agent.keeps.acted h.acted

theorem Midway.complete {s : State} (h : Midway s) (i : Instr) (r : Result) (hv : s.rxValid = false) (hf : s.fault = false) :
    Inv (complete i r s) where
  __ := h
  idle := rfl
  handedOff := hv
  props := (congrArg Memory.wf (onEnd_props s.agent)).trans h.props
  noBusFault := Status.noConfusion
  noFault := hf
  notHeld := onEnd_held s.agent h.held
  acted := onEnd_acted s.agent h.acted

theorem Midway.abort {s : State} (h : Midway s) (i : Instr) (n : Nat) (hf : s.fault = false) : Inv (abort i n s) where
  __ := h
  idle := rfl
  handedOff := rfl
  props := onTimeout_props s.agent h.props
  noBusFault := Status.noConfusion
  noFault := hf
  notHeld := onTimeout_held s.agent h.held
  acted := onTimeout_acted s.agent h.acted

/-- A refusal writes `status`, the mark and the log alone, none of which the invariant reads but to exclude BusFault (R264). -/
theorem Inv.refuse {s : State} (h : Inv s) (w : Issued) (k : Check) : Inv (refuse w k s) where
  __ := h
  noBusFault := Status.noConfusion

/-- Taking an item from the host's stream and the chip's turn at it (R130, log entry 22). -/
theorem Inv.chipTurn {s : State} (h : Inv s) (rest : List Item) : Inv (chipTurn { s with pending := rest }) where
  __ := h
  props := (keeps_turn s.cfg s.agent).keeps.props h.props
  notHeld := (keeps_turn s.cfg s.agent).keeps.held h.notHeld
  acted := (keeps_turn s.cfg s.agent).keeps.acted h.acted

/-- What a wire row may write: the select line, the command buffer, and a poll's CTS byte and response (log entry 5). -/
theorem writes_wire {i : Instr} (hw : i.isWire = true) : i.writes ⊆ [.sel, .cmdBuf, .lastCts, .respBuf] := by
  cases i with
  | wirePropWrite | wireFifoReset | wireStartTx | wireStartRx | wireWriteTxFifo | wireReadRxFifo | wireReadCmdBuff
  | wireGetIntStatus | wireChangeState | wirePowerUp => simp [Instr.writes]
  | _ => cases hw

/-- A wire row is no host operation: it leaves `seq` and `status` as they were, and the chip held by nothing (log entry 5). -/
theorem Inv.wire {s t : State} (h : Inv s) {i : Instr} (hw : i.isWire = true) (ha : s.cfg.admitted = true)
    (hk : i.failingCheck s.cfg = none) (ht : t = settle (wireBody s.cfg i s)) : Inv t := by
  obtain ⟨u, hu⟩ := wireBody_ok ha hw hk s rfl
  have hclean := clean_wireBody s.cfg hw s
  have hframe := (frame_wireBody s.cfg hw s).mono (writes_wire hw)
  have hseq := seq_wireBody s.cfg hw s
  rw [hu] at hclean hframe hseq
  rw [ht, hu]
  exact {
    h.midway.of_clean hclean ((hframe.rst (by decide)).trans h.released) with
    idle := hseq.trans h.idle
    handedOff := (hframe.rxValid (by decide)).trans h.handedOff
    noBusFault := hclean.status ▸ h.noBusFault
    noFault := hframe.fault.trans h.noFault
    notHeld := hclean.agent.keeps.held h.notHeld }

/-- A host operation, which an admitted configuration keeps from a point with no meaning, completes or is aborted. -/
theorem Inv.host {s t : State} (h : Inv s) {i : Instr} (ha : s.cfg.admitted = true) (hk : i.failingCheck s.cfg = none)
    (ht : t = finish i.expand (hostBody s.cfg i (Machine.begin i.expand s))) : Inv t := by
  have hend := ends_hostBody ha hk (Machine.begin i.expand s) rfl
  have hmid := (h.begin i.expand).of_clean (clean_hostBody s.cfg i _)
    (releases_hostBody s.cfg i (Machine.begin i.expand s) h.released)
  have hfault := (frame_hostBody s.cfg i (Machine.begin i.expand s)).fault
  rw [ht]
  cases hx : hostBody s.cfg i (Machine.begin i.expand s) with
  | ok r u =>
    rw [hx] at hmid hfault
    exact hmid.complete i.expand r (hostBody_handedOff hx h.handedOff) (hfault.trans h.noFault)
  | timeout n u =>
    rw [hx] at hmid hfault
    exact hmid.abort i.expand n (hfault.trans h.noFault)
  | fault u =>
    rw [hx] at hend
    exact hend.elim

theorem Inv.exec {i : Instr} {s t : State} (h : Inv s) (ha : s.cfg.admitted = true) (he : exec i s = .next t) : Inv t := by
  obtain ⟨-, ⟨k, -, rfl⟩ | ⟨hk, -, ht⟩ | ⟨hk, hw, ht⟩⟩ := exec_next he
  · exact h.refuse _ k
  · exact h.host ha hk ht
  · exact h.wire hw ha hk ht

/-- A step is the chip's turn, and then, if the host has issued an item, its refusal or its run (R10, R130). -/
theorem step_cases {s t : State} (h : step s = .next t) :
    (s.pending = [] ∧ t = chipTurn s) ∨ ∃ it rest, s.pending = it :: rest ∧
      ((∃ k, t = refuse (.raw it) k (chipTurn { s with pending := rest })) ∨
        ∃ i, exec i (chipTurn { s with pending := rest }) = .next t) := by
  have ha := admitted_of_step h
  cases hp : s.pending with
  | nil =>
    rw [step_noRequest ha hp] at h
    injection h with h
    exact .inl ⟨rfl, h.symm⟩
  | cons it rest =>
    refine .inr ⟨it, rest, rfl, ?_⟩
    cases hd : decode s.cfg it with
    | ok i =>
      rw [step_decoded ha hp hd] at h
      exact .inr ⟨i, h⟩
    | error k =>
      rw [step_undecoded ha hp hd] at h
      exact .inl ⟨k, rejectItem_next h⟩

/-- Settles O15: the chip's turn, a refusal, a host operation and a wire row each keep the invariant, the two runs by what
every part of an operation keeps. -/
theorem everyStepKeepsInv : Obligations.EveryStepKeepsInv := by
  unfold Obligations.EveryStepKeepsInv
  intro s t h hstep
  obtain ⟨-, rfl⟩ | ⟨it, rest, -, ⟨k, rfl⟩ | ⟨i, he⟩⟩ := step_cases hstep
  · exact h.chipTurn s.pending
  · exact (h.chipTurn rest).refuse _ k
  · have ha := admitted_of_step hstep
    exact (h.chipTurn rest).exec ha he

/-! ### Engine reset -/

/-- Settles O13: every row of R52's table is a field of the reset state. -/
theorem resetState : Obligations.ResetState := by
  unfold Obligations.ResetState
  intro c
  exact ⟨_, rfl, rfl, rfl, rfl, rfl, rfl, rfl, rfl, rfl, rfl, rfl, rfl, rfl, rfl, rfl⟩

/-- Settles O14: the buffers have their capacities, and the poll count is 0; the other rows are R52's own. -/
theorem invAtReset : Obligations.InvAtReset := by
  unfold Obligations.InvAtReset
  intro c
  exact {
    idle := rfl
    deselected := rfl
    released := rfl
    handedOff := rfl
    windows := rfl
    polls := Nat.zero_le _
    cmdLen := List.length_replicate
    respLen := List.length_replicate
    stageLen := List.length_replicate
    props := rfl
    noBusFault := Status.noConfusion
    noFault := rfl
    notHeld := rfl
    acted := fun _ => rfl }

/-! ### The configuration and the marks -/

/-- The configuration is as it was, and a mark that was set is set (R47, R48, R50). -/
structure KeepsMarks (s t : State) : Prop where
  cfg : t.cfg = s.cfg
  refused : s.refused = true → t.refused = true
  fault : s.fault = true → t.fault = true

theorem KeepsMarks.of_frame {w : List Reg} {s t : State} (h : Frame w s t) : KeepsMarks s t :=
  ⟨h.cfg, fun hr => h.refused.trans hr, fun hf => h.fault.trans hf⟩

theorem KeepsMarks.trans {s t u : State} (h : KeepsMarks s t) (k : KeepsMarks t u) : KeepsMarks s u :=
  ⟨k.cfg.trans h.cfg, k.refused ∘ h.refused, k.fault ∘ h.fault⟩

theorem keepsMarks_refuse (w : Issued) (k : Check) (s : State) : KeepsMarks s (refuse w k s) := ⟨rfl, fun _ => rfl, id⟩

theorem keepsMarks_finish (i : Instr) (x : Flow Result) : KeepsMarks x.state (finish i x) := by
  cases x with
  | ok r u => exact ⟨rfl, id, id⟩
  | timeout n u => exact ⟨rfl, id, id⟩
  | fault u => exact ⟨rfl, id, fun _ => rfl⟩

theorem keepsMarks_settle (x : Flow Unit) : KeepsMarks x.state (settle x) := by
  cases x with
  | ok r u => exact ⟨rfl, id, id⟩
  | timeout n u => exact ⟨rfl, id, id⟩
  | fault u => exact ⟨rfl, id, fun _ => rfl⟩

theorem keepsMarks_exec {i : Instr} {s t : State} (h : exec i s = .next t) : KeepsMarks s t := by
  obtain ⟨-, ⟨k, -, rfl⟩ | ⟨-, -, rfl⟩ | ⟨-, hw, rfl⟩⟩ := exec_next h
  · exact keepsMarks_refuse _ k s
  · have hbegin : KeepsMarks s (begin i.expand s) := ⟨rfl, id, id⟩
    exact (hbegin.trans (.of_frame (frame_hostBody s.cfg i _))).trans (keepsMarks_finish _ _)
  · exact (KeepsMarks.of_frame (frame_wireBody s.cfg hw s)).trans (keepsMarks_settle _)

theorem keepsMarks_step {s t : State} (h : step s = .next t) : KeepsMarks s t := by
  have hturn (rest : List Item) : KeepsMarks s (chipTurn { s with pending := rest }) := ⟨rfl, id, id⟩
  obtain ⟨-, rfl⟩ | ⟨it, rest, -, ⟨k, rfl⟩ | ⟨i, he⟩⟩ := step_cases h
  · exact hturn s.pending
  · exact (hturn rest).trans (keepsMarks_refuse _ k _)
  · exact (hturn rest).trans (keepsMarks_exec he)

/-- Settles O16: no part of a step writes the configuration. -/
theorem configurationIsFixed : Obligations.ConfigurationIsFixed := by
  unfold Obligations.ConfigurationIsFixed
  exact fun s t h => (keepsMarks_step h).cfg

/-- Settles O17: a mark is written only to set it. -/
theorem marksAreSticky : Obligations.MarksAreSticky := by
  unfold Obligations.MarksAreSticky
  exact fun s t h => ⟨(keepsMarks_step h).refused, (keepsMarks_step h).fault⟩

/-! ### The reset line -/

theorem settle_rst (x : Flow Unit) : (settle x).rst = x.state.rst := by
  cases x <;> rfl

/-- An instruction that is neither POWER_UP nor a bring-up causes no event of the reset line and no delay (R32, R275). -/
theorem mayCause_noReset {i : Instr} (h1 : i ≠ .powerUp) (h2 : i ≠ .enterRx) (h3 : i ≠ .enterTx) {e : Event}
    (h : mayCause i e) : e.onBusOrSample := by
  cases i with
  | powerUp => exact absurd rfl h1
  | enterRx => exact absurd rfl h2
  | enterTx => exact absurd rfl h3
  | tryReceive => exact h
  | sendFrame f => exact h
  | _ => exact bus_sample e h

theorem noReset_of_onBusOrSample {e : Event} (h : e.onBusOrSample) :
    (∀ b, e ≠ .rst b) ∧ (∀ n, e ≠ .delayUs n) ∧ ∀ n, e ≠ .delayMs n := by
  refine ⟨?_, ?_, ?_⟩ <;> rintro x rfl <;> exact h

/-- The part of O20 about the other instructions: the line stands, and what goes on the bus is of other kinds. -/
theorem exec_noReset {i : Instr} {s t : State} (h : exec i s = .next t) (h1 : i ≠ .powerUp) (h2 : i ≠ .enterRx)
    (h3 : i ≠ .enterTx) : t.rst = s.rst ∧ ∃ new, t.trace = s.trace ++ new ∧ ∀ e ∈ new, e.onBusOrSample := by
  obtain ⟨-, ⟨k, -, rfl⟩ | ⟨-, -, rfl⟩ | ⟨-, hw, rfl⟩⟩ := exec_next h
  · exact ⟨rfl, [], (List.append_nil _).symm, by simp⟩
  · have hrst : Reg.rst ∉ bodyWrites i := fun hm => by
      obtain h | h | h := rst_mem_writes hm <;> contradiction
    obtain ⟨new, hnew, hP, -⟩ := (clean_hostBody s.cfg i (begin i.expand s)).trace
    refine ⟨?_, new, ?_, fun e he => mayCause_noReset h1 h2 h3 (hP e he)⟩
    · rw [finish_rst, (frame_hostBody s.cfg i _).rst hrst, begin_rst]
    · exact (finish_observed i.expand _).2.1.trans hnew
  · obtain ⟨new, hnew, hP, -⟩ := (clean_wireBody s.cfg hw s).trace
    refine ⟨?_, new, ?_, fun e he => bus_sample e (hP e he)⟩
    · rw [settle_rst, ((frame_wireBody s.cfg hw s).mono (writes_wire hw)).rst (by decide)]
    · exact (settle_observed _).2.1.trans hnew

/-- Settles O20: a body that may write the reset line releases it at its end, and only those of POWER_UP and the bring-ups
may write it. -/
theorem onlyPowerUpDrivesReset : Obligations.OnlyPowerUpDrivesReset := by
  unfold Obligations.OnlyPowerUpDrivesReset
  intro i s t h
  constructor
  · intro hs
    obtain ⟨-, ⟨k, -, rfl⟩ | ⟨-, -, rfl⟩ | ⟨-, hw, rfl⟩⟩ := exec_next h
    · exact hs
    · rw [finish_rst]
      exact releases_hostBody s.cfg i (begin i.expand s) hs
    · rw [settle_rst, ((frame_wireBody s.cfg hw s).mono (writes_wire hw)).rst (by decide), hs]
  · intro h1 h2 h3
    obtain ⟨hrst, new, hnew, hP⟩ := exec_noReset h h1 h2 h3
    exact ⟨hrst, new, hnew, fun e he => noReset_of_onBusOrSample (hP e he)⟩

/-! ### The frame of an instruction -/

/-- Only an operation with a handshake can be aborted (R262). -/
theorem Aborted.hand_mem {c : Config} {ps : List Piece} {es : List Event} (h : Aborted c ps es) : ∃ n, Piece.hand n ∈ ps := by
  obtain ⟨pre, n, post, -, -, -, rfl, -⟩ := h
  exact ⟨n, List.mem_append_right _ List.mem_cons_self⟩

/-- An instruction with a handshake may write `rx_valid`, by the abort path (R265). -/
theorem rxValid_mem_writes {c : Config} {v : Bool} {i : Instr} {n : Nat} (h : Piece.hand n ∈ i.pieces c v) :
    Reg.rxValid ∈ i.writes := by
  cases i with
  | sendCmd | readRxFifo | writeTxFifo | startTx | standby => simp [Instr.pieces] at h
  | readRssi | wirePropWrite | wireFifoReset | wireStartTx | wireStartRx | wireWriteTxFifo | wireReadRxFifo
  | wireReadCmdBuff | wireGetIntStatus | wireChangeState | wirePowerUp => cases h
  | _ => simp [Instr.writes]

theorem frame_complete (i : Instr) (r : Result) (s : State) : Frame [] s (complete i r s) := by
  constructor <;> intros <;> rfl

theorem frame_abort (i : Instr) (n : Nat) (s : State) : Frame [.rxValid] s (abort i n s) := by
  constructor <;> intros <;> first | rfl | contradiction

theorem frame_begin (i : Instr) (s : State) : Frame [] s (begin i s) := by
  constructor <;> intros <;> rfl

/-- The frame of every instruction that no check refuses: its own registers, and no other. -/
theorem frame_exec {i : Instr} {s t : State} (ha : s.cfg.admitted = true) (hk : i.failingCheck s.cfg = none)
    (h : exec i s = .next t) : Frame i.writes s t := by
  obtain ⟨-, ⟨k, hk', -⟩ | ⟨-, hw, rfl⟩ | ⟨-, hw, rfl⟩⟩ := exec_next h
  · rw [hk] at hk'
    cases hk'
  · have hacts := acts_hostBody ha hw hk (begin i.expand s) rfl
    have hbody := ((frame_begin i.expand s).mono (List.nil_subset _)).trans
      ((frame_hostBody s.cfg i (begin i.expand s)).mono (bodyWrites_subset i))
    cases hx : hostBody s.cfg i (begin i.expand s) with
    | ok r u =>
      rw [hx] at hbody
      exact hbody.trans ((frame_complete _ r u).mono (List.nil_subset _))
    | timeout n u =>
      rw [hx] at hacts hbody
      obtain ⟨-, _, -, habort⟩ := hacts
      obtain ⟨m, hm⟩ := habort.hand_mem
      refine hbody.trans ((frame_abort _ n u).mono ?_)
      simpa using rxValid_mem_writes hm
    | fault u =>
      rw [hx] at hacts
      exact hacts.elim
  · obtain ⟨u, hu⟩ := wireBody_ok ha hw hk s rfl
    have hbody := frame_wireBody s.cfg hw s
    rw [hu] at hbody ⊢
    exact hbody

/-- A wire row writes neither `status` nor the host's log (log entry 5). -/
theorem exec_wire_outcome {i : Instr} {s t : State} (hw : i.isWire = true) (hk : i.failingCheck s.cfg = none)
    (h : exec i s = .next t) : t.status = s.status ∧ t.log = s.log := by
  obtain ⟨-, ⟨k, hk', -⟩ | ⟨-, hh, -⟩ | ⟨-, -, rfl⟩⟩ := exec_next h
  · rw [hk] at hk'
    cases hk'
  · rw [hw] at hh
    cases hh
  · have hclean := clean_wireBody s.cfg hw s
    cases hx : wireBody s.cfg i s <;> rw [hx] at hclean <;> exact ⟨hclean.status, hclean.log⟩

/-- Settles O48: the registers are those each instruction may write. -/
theorem frameWithoutAHandshake : Obligations.FrameWithoutAHandshake := by
  unfold Obligations.FrameWithoutAHandshake
  intro i s t ha hk h
  have hf := frame_exec ha hk h
  refine ⟨?_, ?_, ?_, fun hw => ⟨hf.mono (writes_wire hw), exec_wire_outcome hw hk h⟩, ?_, ?_⟩
  · rintro (⟨f, rfl⟩ | ⟨ch, cond, len, rfl⟩ | rfl) <;> exact hf
  · rintro (⟨n, rfl⟩ | ⟨d, rfl⟩) <;> exact hf
  · rintro rfl
    exact hf
  · rintro (⟨d, rfl⟩ | ⟨n, rfl⟩) <;> exact hf
  · rintro ⟨n, rfl⟩
    exact hf

/-- Settles O49: the registers are those each instruction may write. -/
theorem frameOfHandshakes : Obligations.FrameOfHandshakes := by
  unfold Obligations.FrameOfHandshakes
  intro i s t ha hk h
  have hf := frame_exec ha hk h
  refine ⟨?_, ?_, ?_, ?_⟩
  · rintro rfl
    exact hf
  · rintro ⟨n, rfl⟩
    exact hf
  · rintro (⟨g, o, d, rfl⟩ | ⟨p, rfl⟩ | ⟨p, rfl⟩ | ⟨ch, cond, len, x, y, z, rfl⟩ | ⟨sub, rfl⟩ | rfl | rfl | rfl | rfl) <;>
      exact hf
  · rintro rfl
    exact hf

/-- Settles O50: the registers are those each instruction may write. -/
theorem frameOfSequences : Obligations.FrameOfSequences := by
  unfold Obligations.FrameOfSequences
  intro i s t ha hk h
  have hf := frame_exec ha hk h
  refine ⟨?_, ?_, ?_, ?_, ?_⟩
  · rintro ⟨T, rfl⟩
    exact hf
  · rintro rfl
    exact hf
  · rintro (rfl | rfl) <;> exact hf
  · rintro rfl
    exact hf
  · rintro ⟨f, rfl⟩
    exact hf

/-! ### Commands without a handshake -/

/-- An admitted operation that is one command frame completes whatever the chip answers, and the frame stands in `cmd_buf`
(R36, R155). -/
theorem completed_of_send {i : Instr} {s : State} {f : List Byte} (hw : i.isWire = false) (hs : Accepts s)
    (hk : i.failingCheck s.cfg = none) (hf : f.length ≤ s.cfg.cmdBufCap)
    (hb : hostBody s.cfg i (begin i.expand s) = stepsBody [sendCommand f] (begin i.expand s)) :
    ∃ t, exec i s = .next t ∧ Completed i.expand .ok (wOut f) (bodyWrites i) s t ∧ t.cmdBuf = overwrite f s.cmdBuf := by
  have hsend : sendCommand f (begin i.expand s) = .ok () (writeWindow f (loadCmd .command f (begin i.expand s))) :=
    sendCommand_ok hf
  have hwent : Went (begin i.expand s) (writeWindow f (loadCmd .command f (begin i.expand s))) (wOut f) :=
    ⟨by simp, puts_writeWindow f _, by simp, by simp⟩
  have hx : hostBody s.cfg i (begin i.expand s) =
      .ok .ok (stepDone (writeWindow f (loadCmd .command f (begin i.expand s)))) := by
    rw [hb]
    simp [stepsBody, counted, chain, hsend]
  obtain ⟨ht, hdone⟩ := completed_of_went hw hs hk hx hwent.stepDone
  exact ⟨_, ht, hdone, by simp⟩

theorem failingCheck_sendCmd {c : Config} {f : List Byte} (h1 : 1 ≤ f.length) (h2 : f.length ≤ c.cmdBufCap) :
    (Instr.sendCmd f).failingCheck c = none := by
  rw [Instr.failingCheck, if_neg (by omega), if_neg (by omega)]

theorem decodeStartTx_tooLong (ch cond : Byte) {len : Nat} (h : 65535 < len) :
    decodeStartTx [.num ch.toNat, .num cond.toNat, .num len] = .error .byteRange := by
  have hlen : halfArg len = .error .byteRange := if_neg (by omega)
  unfold decodeStartTx
  dsimp only
  rw [byteArg_toNat, byteArg_toNat, hlen]
  rfl

/-- Settles O27: each body is one `send_command`, and each encoding is the decoder's own row. -/
theorem unwaitedCommands : Obligations.UnwaitedCommands := by
  unfold Obligations.UnwaitedCommands
  refine ⟨fun s f hs h1 h2 => ?_, fun s ch cond len hs => ?_, fun s hs => ?_, fun c f ch cond len => ⟨?_, ?_, rfl, ?_, ?_⟩,
    fun c ch cond len h => decodeStartTx_tooLong ch cond h⟩
  · exact completed_of_send (i := .sendCmd f) rfl hs (failingCheck_sendCmd h1 h2) h2 rfl
  · refine completed_of_send (i := .startTx ch cond len) rfl hs rfl ?_ rfl
    exact le_trans (by simp) (facts_of_admitted hs.1).cmdCap
  · refine completed_of_send (i := .standby) rfl hs rfl ?_ rfl
    exact le_trans (by simp) (facts_of_admitted hs.1).cmdCap
  · show (bytesArg _).map Instr.sendCmd = _
    rw [bytesArg_toNat]
    rfl
  · show decodeStartTx [.num ch.toNat, .num cond.toNat, .num len.toNat] = _
    unfold decodeStartTx
    dsimp only
    rw [byteArg_toNat, byteArg_toNat, halfArg_toNat]
    rfl
  · exact fun h => if_pos h
  · intro h1 h2
    rw [Instr.failingCheck, if_neg h1, if_pos h2]

/-! ### A handshake against SimChip (R68) -/

theorem Left.counted1 {l : List (Option Nat)} {s : State} (h : Left l s) : Left l (counted1 s) := h.askCts

theorem Left.polled {l : List (Option Nat)} {s : State} (h : Left l s) (k : Nat) : Left l (polled k s) := by
  induction k generalizing s with
  | zero => exact h
  | succ k ih => exact ih h.counted1.selOff

theorem went_polled (k : Nat) (s : State) : Went s (polled k s) (List.replicate k (pOut s.cfg)).flatten :=
  ⟨polled_cfg k s, puts_polled k s, polled_log k s, polled_status k s⟩

theorem went_beginHandshake (s : State) : Went s (beginHandshake s) [] := .of_eq rfl rfl rfl rfl

/-- The window of a ready poll that no response follows is a poll like the busy ones (R120). -/
theorem respond_zero (s : State) : respond 0 (counted1 s) = .ok [] (busyPoll s) := by
  obtain ⟨-, h⟩ | ⟨h, -⟩ := respond_cases 0 (counted1 s)
  · rw [h]
    rfl
  · omega

/-- A poll sequence that SimChip's busy polls outlast has read 0x00 last (R68). -/
theorem BusyLeft.last_polled {s : State} {b : Option Nat} (h : BusyLeft b s)
    (hd : s.cfg.opReadCmdBuff ≠ Literal.opReadRxFifo) {j : Nat} (h1 : 1 ≤ j) (hj : ∀ n, b = some n → j ≤ n) :
    (Machine.polled j s).lastCts = some 0 := by
  obtain ⟨i, rfl⟩ := Nat.exists_eq_add_of_le' h1
  have hbusy := h.polled hd i fun n hn => (Nat.le_succ i).trans (hj n hn)
  have hne : b.map (· - i) ≠ some 0 := by
    intro he
    obtain ⟨n, hn, hz⟩ := Option.map_eq_some_iff.1 he
    have := hj n hn
    omega
  rw [polled_succ]
  exact busy_of_ne hbusy hne (by simpa using hd)

/-- How `wait_for_cts()` ends against SimChip, by the next entry `b` of its `busy`: ready after the `k` busy polls of
`some k`, or CTS_RETRY_MAX busy polls (R68, R154). -/
inductive Waits (s : State) (rest : List (Option Nat)) : Option Nat → Prop where
  | ready {k : Nat} {u : State} (hk : k < s.cfg.ctsRetryMax) (run : waitForCts s = .ok () u)
      (went : Went s u (List.replicate (k + 1) (pOut s.cfg)).flatten) (left : Left rest u)
      (count : u.pollCount = k + 1) (last : u.lastCts = some Literal.ctsReady) : Waits s rest (some k)
  | timeout {b : Option Nat} {u : State} (hb : ∀ k, b = some k → s.cfg.ctsRetryMax ≤ k)
      (run : waitForCts s = .timeout s.cfg.ctsRetryMax u)
      (went : Went s u (List.replicate s.cfg.ctsRetryMax (pOut s.cfg)).flatten) (left : Left rest u)
      (count : u.pollCount = s.cfg.ctsRetryMax) (last : u.lastCts = some 0) : Waits s rest b

theorem waits_sim {s : State} {b : Option Nat} {rest : List (Option Nat)} (hp : Polls s.cfg) (h : Left (b :: rest) s) :
    Waits s rest b := by
  obtain ⟨hbusy, hleft⟩ := beginHandshake_sim h.1
  rw [h.2] at hbusy hleft
  have hput (k : Nat) := (went_beginHandshake s).trans (went_polled k (beginHandshake s))
  obtain ⟨k, hk, hlt, hready, hrun⟩ | ⟨hmax, hrun⟩ := getResponse_sim 0 h.1 hp.opcode
  · rw [h.2] at hk
    obtain rfl : b = some k := hk
    refine .ready hlt (u := polled (k + 1) (beginHandshake s)) ?_ (hput (k + 1)) (hleft.polled _) (by simp) ?_
    · rw [waitForCts, hrun, respond_zero, Flow.bind_ok, polled_succ]
    · rw [polled_succ]
      exact hready
  · rw [h.2] at hmax
    refine .timeout hmax (u := polled s.cfg.ctsRetryMax (beginHandshake s)) ?_ (hput _) (hleft.polled _) (by simp)
      (hbusy.last_polled hp.opcode hp.ceiling hmax)
    rw [waitForCts, hrun, Flow.bind_timeout]

theorem Left.begin {l : List (Option Nat)} {s : State} (h : Left l s) (i : Instr) : Left l (begin i s) := by
  unfold Left
  rw [begin_agent, onRequest_sim h.1]
  exact h

theorem Left.stepDone {l : List (Option Nat)} {s : State} (h : Left l s) : Left l (stepDone s) := by
  unfold Left
  rw [stepDone_agent]
  exact h

theorem Left.complete {l : List (Option Nat)} {s : State} (h : Left l s) (i : Instr) (r : Result) :
    Left l (complete i r s) := by
  unfold Left
  rw [complete_agent, onEnd_sim h.1]
  exact h

theorem Left.abort {l : List (Option Nat)} {s : State} (h : Left l s) (i : Instr) (n : Nat) : Left l (abort i n s) := by
  unfold Left
  rw [abort_agent, onTimeout_sim h.1]
  exact h

theorem stepsBody_one_ok {f : Step} {s u : State} (h : f s = .ok () u) : stepsBody [f] s = .ok .ok (stepDone u) := by
  simp [stepsBody, counted, chain, h]

theorem stepsBody_one_timeout {f : Step} {s u : State} {n : Nat} (h : f s = .timeout n u) :
    stepsBody [f] s = .timeout n u := by
  simp [stepsBody, counted, chain, h]

/-- A body that returns completes the operation (R261). -/
theorem exec_completed {i : Instr} {s u : State} {r : Result} (hw : i.isWire = false) (hs : Accepts s)
    (hk : i.failingCheck s.cfg = none) (hx : hostBody s.cfg i (begin i.expand s) = .ok r u) :
    exec i s = .next (complete i.expand r u) := by
  rw [exec_runs hw hs.2 hk, hx]
  rfl

/-- A body that times out aborts the operation (R265). -/
theorem exec_timeout {i : Instr} {s u : State} {n : Nat} (hw : i.isWire = false) (hs : Accepts s)
    (hk : i.failingCheck s.cfg = none) (hx : hostBody s.cfg i (begin i.expand s) = .timeout n u) :
    exec i s = .next (abort i.expand n u) := by
  rw [exec_runs hw hs.2 hk, hx]
  rfl

/-- Settles O32: the body is one handshake, whose polls the next entry of `busy` counts. -/
theorem waitCtsAgainstSimChip : Obligations.WaitCtsAgainstSimChip := by
  unfold Obligations.WaitCtsAgainstSimChip
  intro s b rest hs hl hb
  have hleft : Left (b :: rest) s := ⟨hl, hb⟩
  obtain ⟨hk, run, went, left, count, last⟩ | ⟨hb, run, went, left, count, last⟩ :=
    waits_sim (s := begin .waitCts s) (facts_of_admitted hs.1).polls (hleft.begin .waitCts)
  case ready k u =>
    have hx : hostBody s.cfg .waitCts (begin .waitCts s) = .ok .ok (stepDone u) :=
      stepsBody_one_ok run
    obtain ⟨ht, hdone⟩ := completed_of_went (i := .waitCts) rfl hs rfl hx went.stepDone
    exact ⟨_, ht, (left.stepDone.complete _ _).2,
      .inl ⟨k, rfl, hk, (stepDone_pollCount u).trans count, (stepDone_lastCts u).trans last, hdone⟩⟩
  case timeout u =>
    have hx : hostBody s.cfg .waitCts (begin .waitCts s) = .timeout s.cfg.ctsRetryMax u :=
      stepsBody_one_timeout run
    exact ⟨_, exec_timeout (i := .waitCts) rfl hs rfl hx, (left.abort _ _).2,
      .inr ⟨hb, count, last, went.puts.congr rfl rfl, rfl, congrArg (· ++ [_]) went.log⟩⟩

/-! ### The replayer -/

theorem tableWF_of_records {cap : Nat} {T : List Byte} {fs : List (List Byte)} (h : tableRecords T = some fs)
    (hcap : ∀ f ∈ fs, f.length ≤ cap) : tableWF cap T = true := by
  unfold tableWF
  rw [h]
  simpa using hcap

theorem failingCheck_replay {c : Config} {T : List Byte} {fs : List (List Byte)} (h : tableRecords T = some fs)
    (hcap : ∀ f ∈ fs, f.length ≤ c.cmdBufCap) : (Instr.replay T).failingCheck c = none :=
  if_pos (tableWF_of_records h hcap)

/-- Records that have all been sent have moved the cursor past each of them (R182). -/
theorem recordSteps_cursor {src : FrameSource} {fs : List (List Byte)} {s u : State}
    (h : chain (recordSteps src fs) s = .ok () u) : u.cursor = s.cursor + terminatorAt fs := by
  induction fs generalizing s with
  | nil =>
    injection h with _ h
    rw [← h]
    simp [terminatorAt]
  | cons f fs ih =>
    obtain ⟨v, hrec, hrest⟩ := chain_cons_ok h
    rw [ih hrest, replayRecord_cursor hrec]
    simp only [terminatorAt, List.map_cons, List.sum_cons]
    omega

/-- A replay that returns is its records, one after another, and leaves the cursor on the terminator (R183). -/
theorem replay_ok {T : List Byte} {fs : List (List Byte)} {s v : State} (h : tableRecords T = some fs)
    (hr : replay T s = .ok () v) :
    ∃ u, chain (recordSteps (tableSource s.cfg T) fs) { s with cursor := 0 } = .ok () u ∧ v = noteReplayed T u ∧
      v.cursor = terminatorAt fs := by
  rw [replay_eq h] at hr
  cases hc : chain (recordSteps (tableSource s.cfg T) fs) { s with cursor := 0 } with
  | ok a u =>
    rw [hc] at hr
    injection hr with _ hr
    subst hr
    exact ⟨u, rfl, rfl, by rw [noteReplayed_cursor, recordSteps_cursor hc]; exact Nat.zero_add _⟩
  | timeout n u => rw [hc] at hr; cases hr
  | fault u => rw [hc] at hr; cases hr

/-- Settles O37: the replay goes through, and the records it has sent are the table's. -/
theorem replayAgainstAReadyChip : Obligations.ReplayAgainstAReadyChip := by
  unfold Obligations.ReplayAgainstAReadyChip
  intro s T fs hs hr hfs hcap
  obtain ⟨v, hv, hwent, -⟩ := goes_replay (facts_of_admitted hs.1) (tableWF_of_records hfs hcap)
    (begin (.replay T) s) [] rfl (hr.begin _) (by simp)
  obtain ⟨-, -, -, hcursor⟩ := replay_ok hfs hv
  obtain ⟨ht, hdone⟩ := completed_of_went (i := .replay T) rfl hs (failingCheck_replay hfs hcap) (stepsBody_one_ok hv)
    hwent.stepDone
  rw [replayOut, hfs] at hdone
  have hend : (stepDone v).cursor = terminatorAt fs := (stepDone_cursor v).trans hcursor
  refine ⟨_, ht, hdone, hend, ?_⟩
  rw [complete_cursor, hend]
  exact terminatorAt_zero hfs

theorem replay_timeout {T : List Byte} {fs : List (List Byte)} {s u : State} {n : Nat} (h : tableRecords T = some fs)
    (hc : chain (recordSteps (tableSource s.cfg T) fs) { s with cursor := 0 } = .timeout n u) :
    replay T s = .timeout n u := by
  rw [replay_eq h, hc, Flow.bind_timeout]

/-- Every end of the replayer: all the records are sent, each with its handshake; or the handshake of one fails, which is
the last thing on the bus (R182, R184). -/
theorem replay_all {s : State} {T : List Byte} {fs : List (List Byte)} (hp : Polls s.cfg) (hfs : tableRecords T = some fs)
    (hcap : ∀ f ∈ fs, f.length ≤ s.cfg.cmdBufCap) :
    (∃ v done, replay T s = .ok () v ∧ FramesSent s.cfg fs done ∧ v.trace = s.trace ++ done ∧
        v.cursor = terminatorAt fs) ∨
      ∃ u k f done e busy polls, replay T s = .timeout s.cfg.ctsRetryMax u ∧ fs[k]? = some f ∧
        FramesSent s.cfg (fs.take k) done ∧ e.map Event.out = wOut f ∧ PollSeq s.cfg busy polls ∧
        (∀ v ∈ busy, v ≠ 0xFF) ∧ busy.length = s.cfg.ctsRetryMax ∧ u.trace = s.trace ++ (done ++ e ++ polls) ∧
        u.cursor = terminatorAt (fs.take k) := by
  obtain ⟨u, done, hu, hsent, htrace⟩ | ⟨u, k, f, done, e, busy, polls, hu, hf, hsent, he, hpolls, hbusy, hlen, htrace,
    hcursor⟩ := records_all (src := tableSource s.cfg T) hp hcap { s with cursor := 0 } rfl
  · have hr : replay T s = .ok () (noteReplayed T u) := by rw [replay_eq hfs, hu, Flow.bind_ok]
    obtain ⟨-, -, -, hcursor⟩ := replay_ok hfs hr
    exact .inl ⟨_, done, hr, hsent, (noteReplayed_trace u T).trans htrace, hcursor⟩
  · exact .inr ⟨u, k, f, done, e, busy, polls, replay_timeout hfs hu, hf, hsent, he, hpolls, hbusy, hlen, htrace,
      hcursor.trans (Nat.zero_add _)⟩

/-- Records whose handshakes are all ready at their first poll go through (R68). -/
theorem goes_recordSteps {c : Config} (hf : Facts c) {src : FrameSource} {fs : List (List Byte)}
    (hcap : ∀ f ∈ fs, f.length ≤ c.cmdBufCap) :
    Goes c fs.length (chain (recordSteps src fs)) (fs.flatMap (cmdOut c)) :=
  (GoesAll.map fun f hm => goes_replayRecord hf (hcap f hm)).chain

/-- A record whose handshake never reads ready is the last thing on the bus, and the cursor stays (R184). -/
theorem replayRecord_never {s : State} {src : FrameSource} {f : List Byte} {rest : List (Option Nat)} (hp : Polls s.cfg)
    (hf : f.length ≤ s.cfg.cmdBufCap) (hl : Left (none :: rest) s) :
    ∃ u, replayRecord src f.length f s = .timeout s.cfg.ctsRetryMax u ∧
      Went s u (wOut f ++ (List.replicate s.cfg.ctsRetryMax (pOut s.cfg)).flatten) ∧ u.cursor = s.cursor := by
  obtain ⟨v, hv, hsent, hlv⟩ := goes_sendFrom (src := src) hf s _ rfl hl (by simp)
  have hcv := (frame_sendFrom src f s).cursor (by decide)
  rw [hv] at hcv
  obtain - | ⟨-, run, went, -, -, -⟩ := waits_sim (s := v) (hsent.cfg ▸ hp) hlv
  have hcu := (frame_waitForCts v).cursor (by decide)
  rw [hsent.cfg] at run went
  rw [run] at hcu
  refine ⟨_, ?_, hsent.trans went, hcu.trans hcv⟩
  rw [replayRecord, chain_ok hv, chain_timeout run]

theorem recordSteps_split (src : FrameSource) {fs : List (List Byte)} {k : Nat} {f : List Byte} (h : fs[k]? = some f) :
    recordSteps src fs =
      recordSteps src (fs.take k) ++ replayRecord src f.length f :: recordSteps src (fs.drop (k + 1)) := by
  obtain ⟨hk, rfl⟩ := List.getElem?_eq_some_iff.1 h
  rw [recordSteps, recordSteps, recordSteps, List.map_take, List.map_drop]
  conv_lhs => rw [← List.take_append_drop k (fs.map _), List.drop_eq_getElem_cons (by simpa using hk), List.getElem_map]

theorem replay_never {s : State} {T : List Byte} {fs : List (List Byte)} {k : Nat} {f : List Byte}
    {rest : List (Option Nat)} (ha : s.cfg.admitted = true) (hl : Left (List.replicate k (some 0) ++ none :: rest) s)
    (hfs : tableRecords T = some fs) (hcap : ∀ f ∈ fs, f.length ≤ s.cfg.cmdBufCap) (hf : fs[k]? = some f) :
    ∃ u, replay T s = .timeout s.cfg.ctsRetryMax u ∧
      Went s u (((fs.take k).flatMap (cmdOut s.cfg)) ++ (wOut f ++ (List.replicate s.cfg.ctsRetryMax (pOut s.cfg)).flatten)) ∧
      u.cursor = terminatorAt (fs.take k) := by
  have hk : (fs.take k).length = k := by
    obtain ⟨hlt, -⟩ := List.getElem?_eq_some_iff.1 hf
    exact List.length_take_of_le hlt.le
  have hfacts := facts_of_admitted ha
  obtain ⟨v, hv, hwent, hlv⟩ := goes_recordSteps hfacts (src := tableSource s.cfg T)
    (fun g hg => hcap g (List.mem_of_mem_take hg)) { s with cursor := 0 } _ rfl hl fun j hj => by
      rw [List.getD_append _ _ _ _ (by simpa using hk ▸ hj)]
      exact List.getD_replicate _ (hk ▸ hj)
  rw [hk, List.drop_left' (List.length_replicate)] at hlv
  obtain ⟨u, hu, hlast, hcursor⟩ := replayRecord_never (src := tableSource s.cfg T) (f := f)
    (hwent.cfg ▸ hfacts.polls) (hwent.cfg ▸ hcap f (List.mem_of_getElem? hf)) hlv
  rw [hwent.cfg] at hu hlast
  refine ⟨u, replay_timeout hfs ?_, ?_, ?_⟩
  · rw [recordSteps_split _ hf, chain_append, hv, Flow.bind_ok, chain_timeout hu]
  · have := hwent.trans hlast
    exact ⟨this.cfg, this.puts, this.log, this.status⟩
  · rw [hcursor, recordSteps_cursor hv]
    exact Nat.zero_add _

/-- Settles O38: the records in order, up to the first whose handshake fails; SimChip's `busy` says which that is. -/
theorem replayFailsFast : Obligations.ReplayFailsFast := by
  unfold Obligations.ReplayFailsFast
  refine ⟨fun s T fs hs hfs hcap => ?_, fun s T fs k f rest hs hl hfs hcap hf hb => ?_⟩
  · have hk := failingCheck_replay (T := T) hfs hcap
    have hlog := (clean_replay bus_onBus T (begin (.replay T) s)).log
    obtain ⟨v, done, hv, hsent, htrace, hcursor⟩ | ⟨u, k, f, done, e, busy, polls, hu, hf, hsent, he, hpolls, hbusy, hlen,
      htrace, hcursor⟩ := replay_all (s := begin (.replay T) s) (facts_of_admitted hs.1).polls hfs hcap
    · rw [hv] at hlog
      refine ⟨_, exec_completed rfl hs hk (stepsBody_one_ok hv), .inl ⟨done, hsent, ?_, ?_, ?_⟩⟩
      · exact (stepDone_trace v).trans htrace
      · exact (stepDone_cursor v).trans hcursor
      · exact congrArg (· ++ [_]) ((stepDone_log v).trans hlog)
    · rw [hu] at hlog
      exact ⟨_, exec_timeout rfl hs hk (stepsBody_one_timeout hu), .inr ⟨k, f, done, e, busy, polls, hf, hsent, he, hpolls,
        hbusy, hlen, htrace, hcursor, congrArg (· ++ [_]) hlog⟩⟩
  · have hleft : Left _ s := ⟨hl, hb⟩
    obtain ⟨u, hu, hwent, hcursor⟩ :=
      replay_never (s := begin (.replay T) s) hs.1 (hleft.begin (.replay T)) hfs hcap hf
    refine ⟨_, exec_timeout rfl hs (failingCheck_replay hfs hcap) (stepsBody_one_timeout hu),
      congrArg (· ++ [_]) hwent.log, ?_, hcursor⟩
    have := hwent.puts.congr (s' := s) (t' := abort (.replay T) s.cfg.ctsRetryMax u) rfl rfl
    rwa [← List.append_assoc] at this

section

/-! ### SimChip's queues (R68) -/

/-- The RX FIFO, the samples to come and the form of the loop are the same. -/
structure SameQueues (g h : SimChip) : Prop where
  rx : h.rx = g.rx
  irq : h.irq = g.irq
  loop : h.loop = g.loop

theorem SameQueues.refl (g : SimChip) : SameQueues g g := ⟨rfl, rfl, rfl⟩

theorem SameQueues.trans {f g h : SimChip} (a : SameQueues f g) (b : SameQueues g h) : SameQueues f h :=
  ⟨b.rx.trans a.rx, b.irq.trans a.irq, b.loop.trans a.loop⟩

theorem sameQueues_poll (h : SimChip) : SameQueues h h.poll.2 := by
  unfold SimChip.poll
  split <;> exact ⟨rfl, rfl, rfl⟩

/-- Only a read of the RX FIFO takes from it (R119). -/
theorem sameQueues_answer (c : Config) {w : List Byte} (hw : w.head? ≠ some Literal.opReadRxFifo) (h : SimChip) :
    SameQueues h (h.answer c w).2 := by
  unfold SimChip.answer
  split
  · exact .refl h
  · next op args =>
    rw [if_neg (by simpa using hw)]
    split
    · exact sameQueues_poll h
    · exact .refl h

/-- Only a write of the TX FIFO puts bytes into the loop (R68). -/
theorem sameQueues_close {w : List Byte} (hw : w.head? ≠ some Literal.opWriteTxFifo) (h : SimChip) :
    SameQueues h (h.close w) := by
  unfold SimChip.close
  split
  · exact .refl h
  · next op args =>
    rw [if_neg (by simp_all)]
    exact .refl h

theorem sameQueues_handshake (h : SimChip) : SameQueues h h.handshake := by
  unfold SimChip.handshake
  split <;> exact ⟨rfl, rfl, rfl⟩

/-- A part of an operation that leaves SimChip's queues alone. -/
def SameFifo (s t : State) : Prop := s.agent.law = .sim → t.agent.law = .sim ∧ SameQueues s.agent.sim t.agent.sim

theorem sameFifo_composes : Composes SameFifo where
  refl _ hl := ⟨hl, .refl _⟩
  trans h k hl := ⟨(k (h hl).1).1, (h hl).2.trans (k (h hl).1).2⟩

/-- A window is open that began with `op`, and SimChip's queues are still `g`'s. -/
structure OpenSim (g : SimChip) (op : Byte) (s : State) : Prop where
  law : s.agent.law = .sim
  queues : SameQueues g s.agent.sim
  window : s.agent.window.head? = some op

theorem openSim_first {s : State} (hl : s.agent.law = .sim) (op : Byte) :
    OpenSim s.agent.sim op (xfer op (selOn s)) := by
  have hsel : (selOn s).agent = { s.agent with window := [] } := by rw [selOn_agent, onSel_sim _ hl]
  have hx : (xfer op (selOn s)).agent = { s.agent with window := [op] } := by
    rw [xfer_agent, onExchange_sim _ (by rw [hsel]; exact hl), hsel]
    rfl
  exact ⟨by rw [hx]; exact hl, by rw [hx]; exact .refl _, by rw [hx]; rfl⟩

theorem OpenSim.xfer {g : SimChip} {op : Byte} {s : State} (h : OpenSim g op s) (hop : op ≠ Literal.opReadRxFifo)
    (m : Byte) : OpenSim g op (xfer m s) := by
  have hw : s.agent.window.head? ≠ some Literal.opReadRxFifo := by rw [h.window]; simpa using hop
  obtain ⟨args, hargs⟩ := List.head?_eq_some_iff.1 h.window
  have hx := onExchange_sim s.cfg h.law m
  refine ⟨?_, ?_, ?_⟩ <;> rw [xfer_agent, hx]
  · exact h.law
  · exact h.queues.trans (sameQueues_answer s.cfg hw s.agent.sim)
  · simp [hargs]

theorem OpenSim.writeBytes {g : SimChip} {op : Byte} {s : State} (h : OpenSim g op s) (hop : op ≠ Literal.opReadRxFifo)
    (l : List Byte) : OpenSim g op (writeBytes l s) := by
  induction l generalizing s with
  | nil => exact h
  | cons m l ih => exact ih (h.xfer hop m)

theorem OpenSim.afterReads {g : SimChip} {op : Byte} {s : State} (h : OpenSim g op s) (hop : op ≠ Literal.opReadRxFifo)
    (n : Nat) : OpenSim g op (afterReads n s) := by
  induction n generalizing s with
  | zero => exact h
  | succ n ih => exact ih (h.xfer hop _)

theorem OpenSim.selOff {g : SimChip} {op : Byte} {s : State} (h : OpenSim g op s) (hop : op ≠ Literal.opWriteTxFifo) :
    (selOff s).agent.law = .sim ∧ SameQueues g (selOff s).agent.sim := by
  have hw : s.agent.window.head? ≠ some Literal.opWriteTxFifo := by rw [h.window]; simpa using hop
  rw [selOff_agent, onDesel_sim _ h.law]
  exact ⟨h.law, h.queues.trans (sameQueues_close hw _)⟩

/-- The frame begins with no FIFO opcode. -/
def NoFifo (f : List Byte) : Prop := ∀ op ∈ f.head?, op ≠ Literal.opReadRxFifo ∧ op ≠ Literal.opWriteTxFifo

theorem sameFifo_writeWindow {f : List Byte} (hf : NoFifo f) (s : State) : SameFifo s (writeWindow f s) := by
  intro hl
  cases f with
  | nil =>
    have hsel : (selOn s).agent = { s.agent with window := [] } := by rw [selOn_agent, onSel_sim _ hl]
    rw [show writeWindow [] s = selOff (selOn s) from rfl, selOff_agent, onDesel_sim _ (by rw [hsel]; exact hl), hsel]
    exact ⟨hl, .refl _⟩
  | cons op args =>
    obtain ⟨h7, h6⟩ := hf op rfl
    exact ((openSim_first hl op).writeBytes h7 args).selOff h6

variable {c : Config}

theorem sameFifo_sendFrom (src : FrameSource) {f : List Byte} (hf : NoFifo f) : KeepsAt c SameFifo (sendFrom src f) := by
  rintro s rfl
  obtain ⟨-, h⟩ | ⟨-, h⟩ := sendFrom_cases src f s
  · rw [h]
    exact ⟨fun hl => sameFifo_writeWindow hf (loadCmd src f s) hl, by simp⟩
  · rw [h]
    exact ⟨sameFifo_composes.refl s, rfl⟩

theorem sameFifo_sendCommand {f : List Byte} (hf : NoFifo f) : KeepsAt c SameFifo (sendCommand f) :=
  sameFifo_sendFrom .command hf

theorem sameFifo_beginHandshake (s : State) : SameFifo s (beginHandshake s) := by
  intro hl
  rw [beginHandshake_agent, onHandshake_sim hl]
  exact ⟨hl, sameQueues_handshake _⟩

/-- The opcode of a poll is none of the FIFOs' (R128). -/
structure PollOpcode (c : Config) : Prop where
  read : c.opReadCmdBuff ≠ Literal.opReadRxFifo
  write : c.opReadCmdBuff ≠ Literal.opWriteTxFifo

theorem pollOpcode_of_admitted (h : c.admitted = true) : PollOpcode c := by
  obtain ⟨h6, h7, -⟩ := poll_wf h
  exact ⟨h7, h6⟩

theorem openSim_askCts {s : State} (hp : PollOpcode s.cfg) (hl : s.agent.law = .sim) :
    OpenSim s.agent.sim s.cfg.opReadCmdBuff (counted1 s) := by
  have h := (openSim_first hl s.cfg.opReadCmdBuff).xfer hp.read Literal.dummyByte
  exact ⟨h.law, h.queues, h.window⟩

theorem sameFifo_busyPoll {s : State} (hp : PollOpcode s.cfg) : SameFifo s (busyPoll s) :=
  fun hl => (openSim_askCts hp hl).selOff hp.write

theorem sameFifo_polled {s : State} (hp : PollOpcode s.cfg) (k : Nat) : SameFifo s (polled k s) := by
  induction k generalizing s with
  | zero => exact sameFifo_composes.refl s
  | succ k ih => exact sameFifo_composes.trans (sameFifo_busyPoll hp) (ih (s := busyPoll s) hp)

theorem sameFifo_respond {s : State} (hp : PollOpcode s.cfg) (n : Nat) : SameFifo s (respond n (counted1 s)).state := by
  intro hl
  have h := ((openSim_askCts hp hl).afterReads hp.read n).selOff hp.write
  obtain ⟨-, hr⟩ | ⟨-, hr⟩ := respond_cases n (counted1 s) <;> rw [hr] <;> exact h

theorem sameFifo_getResponse (hp : PollOpcode c) (n : Nat) : KeepsAt c SameFifo (getResponse n) := by
  rintro s rfl
  refine ⟨?_, (frame_getResponse n s).cfg⟩
  obtain ⟨k, -, -, ⟨-, hr⟩ | ⟨-, -, hr⟩⟩ := pollLoop_cases n s.cfg.ctsRetryMax (beginHandshake s)
  all_goals
    rw [show getResponse n s = _ from hr]
    have hk := sameFifo_composes.trans (sameFifo_beginHandshake s) (sameFifo_polled (s := beginHandshake s) hp k)
  · exact hk
  · exact sameFifo_composes.trans hk (sameFifo_respond (by simpa using hp) n)

theorem sameFifo_waitForCts (hp : PollOpcode c) : KeepsAt c SameFifo waitForCts :=
  (sameFifo_getResponse hp 0).discard sameFifo_composes

theorem sameFifo_cmdWait (hp : PollOpcode c) {f : List Byte} (hf : NoFifo f) : KeepsAt c SameFifo (cmdWait f) := by
  refine KeepsAt.chain sameFifo_composes ?_
  simp only [List.mem_cons, List.not_mem_nil, or_false, forall_eq_or_imp, forall_eq]
  exact ⟨sameFifo_sendCommand hf, sameFifo_waitForCts hp⟩

theorem noFifo_cons {op : Byte} {args : List Byte} (h7 : op ≠ Literal.opReadRxFifo) (h6 : op ≠ Literal.opWriteTxFifo) :
    NoFifo (op :: args) := by
  rintro o ho
  obtain rfl : op = o := by simpa using ho
  exact ⟨h7, h6⟩

theorem sameFifo_clearInterrupts (ha : c.admitted = true) : KeepsAt c SameFifo clearInterrupts := by
  obtain ⟨h6, h7, -⟩ := status_wf ha
  have hchain : KeepsAt c SameFifo (chain (clearIntsSteps c)) := by
    refine KeepsAt.chain sameFifo_composes ?_
    simp only [clearIntsSteps, List.mem_cons, List.not_mem_nil, or_false, forall_eq_or_imp, forall_eq]
    exact ⟨sameFifo_sendCommand (noFifo_cons h7 h6),
      (sameFifo_getResponse (pollOpcode_of_admitted ha) _).discard sameFifo_composes⟩
  rintro s rfl
  exact hchain s rfl

theorem sameFifo_standby (ha : c.admitted = true) : KeepsAt c SameFifo standby := by
  obtain ⟨h6, h7, -⟩ := standby_wf ha
  rintro s rfl
  exact sameFifo_sendCommand (noFifo_cons h7 h6) s rfl

/-! ### Runs against SimChip -/

/-- What SimChip holds, and the ready line as last sampled. -/
structure SimView where
  rx : List Byte
  irq : List Bool
  loop : Bool
  line : Bool

/-- The chip is a SimChip that always returns ready, with these queues, and the ready line reads so. -/
structure Shows (d : SimView) (s : State) : Prop where
  left : Left [] s
  rx : s.agent.sim.rx = d.rx
  irq : s.agent.sim.irq = d.irq
  loop : s.agent.sim.loop = d.loop
  line : s.irq = d.line

theorem Shows.stepDone {d : SimView} {s : State} (h : Shows d s) : Shows d (stepDone s) where
  left := h.left.stepDone
  rx := by rw [stepDone_agent]; exact h.rx
  irq := by rw [stepDone_agent]; exact h.irq
  loop := by rw [stepDone_agent]; exact h.loop
  line := by rw [stepDone_irq]; exact h.line

/-- From the view `d` the step goes through, puts `es` on the bus, and leaves the view `d'`. -/
def Runs (c : Config) (d : SimView) (f : Step) (es : List Event) (d' : SimView) : Prop :=
  ∀ s, s.cfg = c → Shows d s → ∃ t, f s = .ok () t ∧ Went s t es ∧ Shows d' t

/-- The steps go through one after another, counted (R45). -/
inductive RunsAll (c : Config) : SimView → List Step → List Event → SimView → Prop where
  | nil {d : SimView} : RunsAll c d [] [] d
  | cons {d e g : SimView} {f : Step} {fs : List Step} {a b : List Event} (hf : Runs c d f a e)
      (hfs : RunsAll c e fs b g) : RunsAll c d (f :: fs) (a ++ b) g

theorem RunsAll.counted {d g : SimView} {fs : List Step} {es : List Event} (h : RunsAll c d fs es g) :
    Runs c d (chain (counted fs)) es g := by
  induction h with
  | nil => exact fun s _ hs => ⟨s, rfl, .refl s, hs⟩
  | cons hf _ ih =>
    intro s hc hs
    obtain ⟨t, ht, hwent, hshow⟩ := hf s hc hs
    obtain ⟨u, hu, hwent', hshow'⟩ := ih (stepDone t) ((stepDone_cfg t).trans (hwent.cfg.trans hc)) hshow.stepDone
    refine ⟨u, ?_, hwent.stepDone.trans hwent', hshow'⟩
    rw [← hu]
    exact chain_ok (by dsimp only; rw [ht, Flow.bind_ok])

/-- A step that goes through, leaves the queues alone and takes no sample leaves the view as it was. -/
theorem Runs.of_goes {n : Nat} {f : Step} {es : List Event} {w : List Reg} (d : SimView) (hg : Goes c n f es)
    (hk : KeepsAt c SameFifo f) (hf : Keeps (Frame w) f) (hw : Reg.irq ∉ w := by decide) : Runs c d f es d := by
  intro s hc hs
  obtain ⟨t, ht, hwent, hleft⟩ := hg s [] hc hs.left (by simp)
  obtain ⟨hsame, -⟩ := hk s hc
  have hframe := hf s
  rw [ht] at hsame hframe
  obtain ⟨-, hq⟩ := hsame hs.left.1
  exact ⟨t, ht, hwent, by simpa using hleft, hq.rx.trans hs.rx, hq.irq.trans hs.irq, hq.loop.trans hs.loop,
    (hframe.irq hw).trans hs.line⟩

section
variable (ha : c.admitted = true) (d : SimView)
include ha

theorem runs_cmdWait {f : List Byte} (hf : NoFifo f) (hl : f.length ≤ c.cmdBufCap) :
    Runs c d (cmdWait f) (cmdOut c f) d :=
  .of_goes d (goes_cmdWait (facts_of_admitted ha).polls hl) (sameFifo_cmdWait (pollOpcode_of_admitted ha) hf)
    (frame_cmdWait f)

theorem runs_clearInterrupts : Runs c d clearInterrupts (clearOut c) d :=
  .of_goes d (goes_clearInterrupts (facts_of_admitted ha)) (sameFifo_clearInterrupts ha) frame_clearInterrupts

end

end

section

/-! ### The sample and the FIFO accesses against SimChip -/

section
variable {c : Config}

theorem sample_queues (h : SimChip) : h.sample.1 = h.irq.headD false ∧ h.sample.2 = { h with irq := h.irq.tail } := by
  rcases h with ⟨busy, current, rx, irq, loop⟩
  cases irq <;> exact ⟨rfl, rfl⟩

theorem runs_sampleIrq (d : SimView) :
    Runs c d (lift sampleIrq) [.irq (d.irq.headD false)] { d with irq := d.irq.tail, line := d.irq.headD false } := by
  rintro s - h
  have hx := onSample_sim s.cfg h.left.1
  obtain ⟨h1, h2⟩ := sample_queues s.agent.sim
  rw [h.irq] at h1
  refine ⟨sampleIrq s, rfl, ⟨sampleIrq_cfg s, ?_, sampleIrq_log s, sampleIrq_status s⟩, h.left.sampleIrq, ?_, ?_, ?_, ?_⟩
  · have hp := puts_one (s := s) (t := sampleIrq s) (.irq (d.irq.headD false)) (by rw [sampleIrq_trace, hx, h1])
    exact hp
  · rw [sampleIrq_agent, hx, h2]
    exact h.rx
  · rw [sampleIrq_agent, hx, h2, ← h.irq]
  · rw [sampleIrq_agent, hx, h2]
    exact h.loop
  · rw [sampleIrq_irq, hx, h1]

theorem writeBytes_window_sim {s : State} (hl : s.agent.law = .sim) (l : List Byte) :
    (writeBytes l s).agent.window = s.agent.window ++ l := by
  induction l generalizing s with
  | nil => exact (List.append_nil _).symm
  | cons m l ih =>
    have hx : (xfer m s).agent = _ := congrArg Prod.snd (onExchange_sim s.cfg hl m)
    rw [writeBytes, ih (by rw [hx]; exact hl), hx]
    simp

theorem close_write (g : SimChip) (f : List Byte) :
    g.close (Literal.opWriteTxFifo :: f) = { g with rx := if g.loop then f else g.rx } := by
  unfold SimChip.close
  dsimp only
  split
  · next h => rw [if_pos h.1]
  · next h => rw [if_neg fun hl => h ⟨hl, rfl⟩]

/-- The window of WRITE_TX_FIFO holds the opcode and the data when it closes. -/
theorem writeFifo_sim {s : State} (hl : s.agent.law = .sim) (f : List Byte) :
    ∃ g, SameQueues s.agent.sim g ∧
      (writeWindow (Literal.opWriteTxFifo :: f) s).agent.sim = g.close (Literal.opWriteTxFifo :: f) := by
  have hfirst := openSim_first hl Literal.opWriteTxFifo
  have hopen := hfirst.writeBytes (by decide) f
  have hwin : (writeBytes f (xfer Literal.opWriteTxFifo (selOn s))).agent.window = Literal.opWriteTxFifo :: f := by
    have hsel : (selOn s).agent = { s.agent with window := [] } := by rw [selOn_agent, onSel_sim _ hl]
    rw [writeBytes_window_sim hfirst.law, xfer_agent, onExchange_sim _ (by rw [hsel]; exact hl), hsel]
    rfl
  refine ⟨_, hopen.queues, ?_⟩
  exact (congrArg Agent.sim (onDesel_sim _ hopen.law)).trans (congrArg (SimChip.close · _) hwin)

/-- WRITE_TX_FIFO's window against SimChip: in the loop form its bytes take the place of the queue (R68). -/
theorem runs_writeTxFifo (d : SimView) (f : List Byte) :
    Runs c d (writeTxFifo f) (wOut (Literal.opWriteTxFifo :: f)) { d with rx := if d.loop then f else d.rx } := by
  rintro s - h
  obtain ⟨g, hg, hclose⟩ := writeFifo_sim h.left.1 f
  rw [close_write, hg.rx, hg.loop, h.rx, h.loop] at hclose
  refine ⟨_, rfl, ⟨writeWindow_cfg s _, puts_writeWindow _ s, writeWindow_log s _, writeWindow_status s _⟩,
    h.left.writeWindow _, ?_, ?_, ?_, (writeWindow_irq s _).trans h.line⟩ <;> rw [hclose]
  exact hg.irq.trans h.irq

/-- A window that began with the FIFO-read opcode is open. -/
structure ReadsSim (d : SimView) (s : State) : Prop extends Shows d s where
  window : s.agent.window.head? = some Literal.opReadRxFifo

theorem read_queues (h : SimChip) : h.read.1 = h.rx.headD 0x00 ∧ h.read.2 = { h with rx := h.rx.tail } := by
  rcases h with ⟨busy, current, rx, irq, loop⟩
  cases rx <;> exact ⟨rfl, rfl⟩

/-- One read of the RX FIFO answers its head and takes it (R68). -/
theorem ReadsSim.xfer {d : SimView} {s : State} (h : ReadsSim d s) (m : Byte) :
    xferByte m s = d.rx.headD 0x00 ∧ ReadsSim { d with rx := d.rx.tail } (xfer m s) := by
  obtain ⟨args, hargs⟩ := List.head?_eq_some_iff.1 h.window
  have hx := onExchange_sim s.cfg h.left.1 m
  have hanswer : s.agent.sim.answer s.cfg s.agent.window = s.agent.sim.read := by
    rw [hargs, SimChip.answer, if_pos rfl]
  obtain ⟨h1, h2⟩ := read_queues s.agent.sim
  rw [hanswer, h1, h2, h.rx] at hx
  refine ⟨congrArg Prod.fst hx, ⟨⟨h.left.xfer m, ?_, ?_, ?_, h.line⟩, ?_⟩⟩ <;> rw [xfer_agent, hx]
  · exact h.irq
  · exact h.loop
  · simp [hargs]

theorem ReadsSim.reads {d : SimView} {s : State} (h : ReadsSim d s) (n : Nat) :
    readBytes n s = (List.range n).map (fun k => d.rx.getD k 0x00) ∧
      ReadsSim { d with rx := d.rx.drop n } (afterReads n s) := by
  induction n generalizing d s with
  | zero => exact ⟨rfl, h⟩
  | succ n ih =>
    obtain ⟨hbyte, hnext⟩ := h.xfer Literal.dummyByte
    obtain ⟨hbytes, hend⟩ := ih hnext
    constructor
    · rw [readBytes, hbyte, hbytes, List.range_succ_eq_map, List.map_cons, List.map_map]
      cases d.rx <;> simp [Function.comp_def]
    · rw [List.drop_tail] at hend
      exact hend

theorem readsSim_open {d : SimView} {s : State} (h : Shows d s) : ReadsSim d (openRxRead s) := by
  have hsel : (selOn s).agent = { s.agent with window := [] } := by rw [selOn_agent, onSel_sim _ h.left.1]
  have hx : (openRxRead s).agent = { s.agent with window := [Literal.opReadRxFifo] } := by
    rw [openRxRead, xfer_agent, onExchange_sim _ (by rw [hsel]; exact h.left.1), hsel]
    rfl
  exact ⟨⟨h.left.selOn.xfer _, by rw [hx]; exact h.rx, by rw [hx]; exact h.irq, by rw [hx]; exact h.loop, h.line⟩,
    by rw [hx]; rfl⟩

/-- READ_RX_FIFO's bytes against SimChip, and what is left in its queue (R68, R119). -/
theorem readRxFifo_sim {d : SimView} {s : State} (h : Shows d s) (n : Nat) :
    readBytes n (openRxRead s) = (List.range n).map (fun k => d.rx.getD k 0x00) ∧
      Shows { d with rx := d.rx.drop n } (selOff (afterReads n (openRxRead s))) := by
  obtain ⟨hbytes, hend⟩ := (readsSim_open h).reads n
  have hclose := sameQueues_close (by rw [hend.window]; decide) (afterReads n (openRxRead s)).agent.sim
  have hx := onDesel_sim (afterReads n (openRxRead s)).cfg hend.left.1
  refine ⟨hbytes, hend.left.selOff, ?_, ?_, ?_, hend.line⟩ <;> rw [selOff_agent, hx]
  · exact hclose.rx.trans hend.rx
  · exact hclose.irq.trans hend.irq
  · exact hclose.loop.trans hend.loop

end

end

section

/-! ### Frame I/O against SimChip (R240 to R246) -/

theorem noFifo_fifoReset (sub : Byte) : NoFifo (fifoResetFrame sub) := noFifo_cons (by decide) (by decide)

theorem noFifo_rearm : NoFifo rearmFrame := noFifo_cons (by decide) (by decide)

theorem noFifo_startTx (ch cond : Byte) (len : Half) : NoFifo (startTxFrame ch cond len) :=
  noFifo_cons (by decide) (by decide)

section
variable {c : Config} (ha : c.admitted = true) (d : SimView)
include ha

theorem runs_standby : Runs c d standby (wOut (standbyFrame c)) d := by
  refine .of_goes (n := 0) d ?_ (sameFifo_standby ha) frame_standby
  rintro s l rfl
  exact goes_sendCommand (le_trans (by simp [standbyFrame]) (facts_of_admitted ha).cmdCap) s l rfl

theorem runs_startTx (ch cond : Byte) (len : Half) :
    Runs c d (startTx ch cond len) (wOut (startTxFrame ch cond len)) d :=
  .of_goes d (goes_sendCommand (le_trans (by simp [startTxFrame]) (facts_of_admitted ha).cmdCap))
    (sameFifo_sendCommand (noFifo_startTx ch cond len)) (frame_sendCommand _)

theorem runs_waitForCts : Runs c d waitForCts (pOut c) d :=
  .of_goes d (goes_waitForCts (facts_of_admitted ha).polls) (sameFifo_waitForCts (pollOpcode_of_admitted ha))
    frame_waitForCts

/-- The RevB1A workaround goes by the line as last sampled (R243). -/
theorem runs_clearIfAsserted : Runs c d clearIfAsserted (if d.line then clearOut c else []) d := by
  intro s hc h
  unfold clearIfAsserted
  rw [h.line]
  cases d.line with
  | true => exact runs_clearInterrupts ha d s hc h
  | false => exact ⟨s, rfl, .refl s, h⟩

/-- SEND_FRAME's steps, one after another (R242). -/
theorem runs_sendFrameSteps (f : List Byte) :
    RunsAll c d (sendFrameSteps f)
      (wOut (standbyFrame c) ++ (wOut (Literal.opWriteTxFifo :: f) ++ (pOut c ++ ([.irq (d.irq.headD false)] ++
        ((if d.irq.headD false then clearOut c else []) ++ (wOut sendTxFrame ++ []))))))
      { rx := if d.loop then f else d.rx, irq := d.irq.tail, loop := d.loop, line := d.irq.headD false } :=
  .cons (runs_standby ha _) <| .cons (runs_writeTxFifo _ f) <| .cons (runs_waitForCts ha _) <|
    .cons (runs_sampleIrq _) <| .cons (runs_clearIfAsserted ha _) <| .cons (runs_startTx ha _ _ _ _) .nil

/-- What TRY_RECEIVE does after the frame is staged (R240). -/
theorem runs_receiveRest :
    RunsAll c d receiveRest
      (cmdOut c (fifoResetFrame Literal.fifoSubRx) ++ (clearOut c ++ (cmdOut c rearmFrame ++ []))) d :=
  .cons (runs_cmdWait ha d (noFifo_fifoReset _) (fifoResetFrame_fits (facts_of_admitted ha) _)) <|
    .cons (runs_clearInterrupts ha d) <|
    .cons (runs_cmdWait ha d noFifo_rearm (facts_of_admitted ha).cmdCap) .nil

end

/-- The view that an always-ready SimChip shows. -/
def viewOf (s : State) : SimView := ⟨s.agent.sim.rx, s.agent.sim.irq, s.agent.sim.loop, s.irq⟩

theorem AlwaysReady.shows {s : State} (h : AlwaysReady s) : Shows (viewOf s) s := ⟨h, rfl, rfl, rfl, rfl⟩

theorem Shows.begin {d : SimView} {s : State} (h : Shows d s) (i : Instr) : Shows d (begin i s) := by
  have hx : (Machine.begin i s).agent = s.agent := by rw [begin_agent, onRequest_sim h.left.1]
  exact ⟨h.left.begin i, by rw [hx]; exact h.rx, by rw [hx]; exact h.irq, by rw [hx]; exact h.loop, h.line⟩

theorem Shows.complete {d : SimView} {s : State} (h : Shows d s) (i : Instr) (r : Result) : Shows d (complete i r s) := by
  have hx : (Machine.complete i r s).agent = s.agent := by rw [complete_agent, onEnd_sim h.left.1]
  exact ⟨h.left.complete i r, by rw [hx]; exact h.rx, by rw [hx]; exact h.irq, by rw [hx]; exact h.loop, h.line⟩

/-- SEND_FRAME against a SimChip that always returns ready: what it puts on the bus, and what the chip then holds. -/
theorem sendFrame_ready {s : State} {f : List Byte} {d : SimView} (hs : Accepts s) (h : Shows d s) (hf : f.length = 21) :
    ∃ t, exec (.sendFrame f) s = .next t ∧
      Completed (.sendFrame f) .ok
        (wOut (standbyFrame s.cfg) ++ wOut (Literal.opWriteTxFifo :: f) ++ pOut s.cfg ++ [.irq (d.irq.headD false)] ++
          (if d.irq.headD false then clearOut s.cfg else []) ++ wOut sendTxFrame)
        [.sel, .irq, .cmdBuf, .pollCount, .lastCts, .respBuf] s t ∧
      Shows { rx := if d.loop then f else d.rx, irq := d.irq.tail, loop := d.loop, line := d.irq.headD false } t := by
  obtain ⟨u, hu, hwent, hshow⟩ :=
    (runs_sendFrameSteps hs.1 d f).counted (begin (.sendFrame f) s) rfl (h.begin _)
  have hx : hostBody s.cfg (.sendFrame f) (begin (.sendFrame f) s) = .ok .ok u := by
    show stepsBody (sendFrameSteps f) (begin (.sendFrame f) s) = _
    rw [stepsBody, hu, Flow.bind_ok]
  obtain ⟨ht, hdone⟩ := completed_of_went (i := .sendFrame f) rfl hs (if_pos hf) hx hwent
  refine ⟨_, ht, ?_, hshow.complete _ _⟩
  simp only [List.append_assoc, List.append_nil] at hdone ⊢
  exact hdone

/-- Settles O43: the six steps in order, the sample deciding CLEAR_INTS. -/
theorem sendFrameSequence : Obligations.SendFrameSequence := by
  unfold Obligations.SendFrameSequence
  intro s f v hs hr hf hv
  obtain ⟨t, ht, hdone, hshow⟩ := sendFrame_ready hs hr.shows hf
  have hv : (viewOf s).irq.headD false = v := hv
  rw [hv] at hdone
  exact ⟨t, ht, hdone, hshow.line.trans hv⟩

theorem Shows.stagedBy {d : SimView} {s : State} (h : Shows d s) (n : Nat) :
    Shows { d with rx := d.rx.drop n } (stagedBy n s) := by
  obtain ⟨-, hshow⟩ := readRxFifo_sim h n
  exact ⟨hshow.left, hshow.rx, hshow.irq, hshow.loop, hshow.line⟩

theorem went_stagedBy (n : Nat) (s : State) :
    Went s (stagedBy n s) (wOut (Literal.opReadRxFifo :: List.replicate n Literal.dummyByte)) :=
  ⟨stagedBy_cfg n s, (puts_readRx n s).congr rfl rfl, by simp [stagedBy, openRxRead], by simp [stagedBy, openRxRead]⟩

/-- TRY_RECEIVE with the line asserted, against a SimChip that always returns ready: the bytes at the head of its queue, all
it puts on the bus, and what the chip then holds (R240, R241). -/
theorem tryReceive_ready {s : State} {d : SimView} (hs : Accepts s) (h : Shows d s) (hv : d.irq.headD false = true) :
    ∃ t l, exec .tryReceive s = .next t ∧ l = (List.range 21).map (fun k => d.rx.getD k 0x00) ∧
      Completed .tryReceive (.some l)
        ([.irq true] ++ wOut (Literal.opReadRxFifo :: List.replicate 21 Literal.dummyByte) ++
          cmdOut s.cfg (fifoResetFrame Literal.fifoSubRx) ++ clearOut s.cfg ++ cmdOut s.cfg rearmFrame)
        [.sel, .irq, .cmdBuf, .pollCount, .lastCts, .rxValid, .respBuf, .rxStage] s t ∧
      t.rxStage = overwrite l s.rxStage ∧ t.rxValid = false ∧
      Shows { d with rx := d.rx.drop 21, irq := d.irq.tail, line := true } t := by
  obtain ⟨v, hsample, hwent, hshow⟩ := runs_sampleIrq d (begin .tryReceive s) rfl (h.begin _)
  injection hsample with _ hsample
  subst hsample
  rw [hv] at hwent hshow
  obtain ⟨hbytes, -⟩ := readRxFifo_sim hshow.stepDone Literal.frameLen
  obtain ⟨u, hu, hwent', hshow'⟩ := (runs_receiveRest hs.1 _).counted
    (stepDone (staged (stepDone (sampleIrq (begin .tryReceive s))))) (by simp) (hshow.stepDone.stagedBy _).stepDone
  have hstage := receiveRest_stage hu
  rw [hbytes] at hstage
  have hx : tryReceive (begin .tryReceive s) =
      .ok (.some ((List.range 21).map fun k => d.rx.getD k 0x00)) { u with rxValid := false } := by
    unfold tryReceive
    dsimp only
    rw [if_pos hshow.stepDone.line, receive_eq, hu, Flow.bind_ok]
    exact handOff_staged (by simp) hstage
  have hall := ((hwent.stepDone.trans (went_stagedBy _ _).stepDone).trans hwent')
  obtain ⟨ht, hdone⟩ := completed_of_went (i := .tryReceive) (u := { u with rxValid := false }) rfl hs rfl hx
    ⟨hall.cfg, hall.puts, hall.log, hall.status⟩
  refine ⟨_, _, ht, rfl, ?_, hstage.trans (by simp), rfl, ?_⟩
  · simp only [List.append_assoc, List.append_nil] at hdone ⊢
    exact hdone
  · refine Shows.complete ?_ _ _
    exact ⟨hshow'.left, hshow'.rx, hshow'.irq, hshow'.loop, hshow'.line⟩

theorem overwrite_full {l : List Byte} {b : Buffer} (h : b.length = l.length) : overwrite l b = l.map some := by
  rw [overwrite, ← h, List.drop_length, List.append_nil]

/-- Settles O42: the sample, the 21 bytes, and the three operations after them. -/
theorem tryReceiveAsserted : Obligations.TryReceiveAsserted := by
  unfold Obligations.TryReceiveAsserted
  intro s hs hr hv hlen
  obtain ⟨t, l, ht, hl, hdone, hstage, hvalid, -⟩ := tryReceive_ready hs hr.shows hv
  exact ⟨t, l, ht, hl, hdone, hstage.trans (overwrite_full (by rw [hlen, hl]; simp)), hvalid⟩

theorem Completed.accepts {i : Instr} {r : Result} {es : List Event} {w : List Reg} {s t : State} (hs : Accepts s)
    (h : Completed i r es w s t) : Accepts t :=
  ⟨h.frame.cfg ▸ hs.1, h.idle⟩

theorem map_getD_range {l : List Byte} {n : Nat} (h : l.length = n) :
    (List.range n).map (fun k => l.getD k 0x00) = l := by
  subst h
  refine List.ext_getElem (by simp) fun k h1 h2 => ?_
  simp [h2]

/-- Settles O46: the loop puts the frame in the place of the queue, and the next read takes it from there. -/
theorem roundTripThroughTheFifo : Obligations.RoundTripThroughTheFifo := by
  unfold Obligations.RoundTripThroughTheFifo
  intro s f v rest hs hr hloop hirq hf
  have hview : viewOf s = ⟨s.agent.sim.rx, v :: true :: rest, true, s.irq⟩ := by rw [viewOf, hloop, hirq]
  obtain ⟨t, ht, hsent, hshow⟩ := sendFrame_ready hs (hview ▸ hr.shows) hf
  obtain ⟨u, l, hu, hl, hgot, -⟩ := tryReceive_ready (hsent.accepts hs) hshow rfl
  rw [if_pos rfl, map_getD_range hf] at hl
  refine ⟨t, u, ht, hu, ?_⟩
  rw [hgot.log, hsent.log, hl, List.append_assoc]
  rfl

/-- Settles O47: the second call samples a deasserted line, and the first ends with the re-arm. -/
theorem tryReceiveTwice : Obligations.TryReceiveTwice := by
  unfold Obligations.TryReceiveTwice
  intro s hs hr hv hv'
  obtain ⟨t, l, ht, hl, hgot, -, -, hshow⟩ := tryReceive_ready hs hr.shows hv
  have hs' := hgot.accepts hs
  have hline : s.agent.sim.irq.tail.headD false = false := by
    rw [← hv']
    cases s.agent.sim.irq with
    | nil => rfl
    | cons a l => cases l <;> rfl
  obtain ⟨v, hsample, hwent, hshow'⟩ := runs_sampleIrq _ (begin .tryReceive t) rfl (hshow.begin _)
  injection hsample with _ hsample
  subst hsample
  have hx : tryReceive (begin .tryReceive t) = .ok .none (stepDone (sampleIrq (begin .tryReceive t))) := by
    unfold tryReceive
    dsimp only
    rw [if_neg]
    rw [hshow'.stepDone.line, show SimView.line _ = s.agent.sim.irq.tail.headD false from rfl, hline]
    decide
  have hwent := hwent.stepDone
  rw [show SimView.irq _ = s.agent.sim.irq.tail from rfl, hline] at hwent
  obtain ⟨hu, hnone⟩ := completed_of_went (i := .tryReceive) rfl hs' rfl hx hwent
  exact ⟨t, _, l, _, ht, hu, by rw [hl]; simp, by rw [hnone.log, hgot.log, List.append_assoc]; rfl, hgot.puts, hnone.puts⟩

end

/-! ### The chip's own moves -/

theorem enter_mode (m : Mode) (h : Chip) : (h.enter m).mode = m := by
  unfold Chip.enter
  split
  · next hm => exact hm.symm
  · rfl

theorem enter_known {m : Mode} (hm : m ≠ .unknown) (h : Chip) : h.enter m = { h with mode := m } := if_neg hm

/-- R216: a transmission completes at a chip that transmits. -/
theorem txComplete_transmitting {h : Chip} (hm : h.mode = .txArmed) (ha : h.txActive = true) :
    h.txComplete = (({ h with txFifo := h.txFifo.drop h.txLength, txActive := false } : Chip).raiseSent).enter
      (afterTx h.txCondition .txArmed) := by
  rw [Chip.txComplete, if_pos ⟨hm, ha⟩, hm]

/-- R217 (a): a packet of the armed length arrives, and fits. -/
theorem rxValid_fits {c : Config} {h : Chip} {p : List Byte} (hm : h.mode = .rxArmed) (hp : p.length = h.rxLength)
    (hfit : h.rxFifo.length + p.length ≤ c.fifoCap) :
    h.rxValid c p = (({ h with rxFifo := h.rxFifo ++ p } : Chip).raiseReceived).enter (nextMode h.onValid .rxArmed) := by
  rw [Chip.rxValid, if_pos ⟨hm, hp⟩, if_neg (Nat.not_lt.2 hfit), hm]

/-- Settles O57: each move enters the mode that its code or condition names, and entering a known mode keeps the rest. -/
theorem modesAfterTheChipsMoves : Obligations.ModesAfterTheChipsMoves := by
  unfold Obligations.ModesAfterTheChipsMoves
  refine ⟨fun c h hm ha hcond => ?_, fun c h hm ha => ?_, fun c h hm ha hk => ?_, fun c h p hm hp hfit => ?_,
    fun c h hm => ?_, fun c h hm => ?_, fun code m => rfl, fun c h => processed_act c h⟩
  · rw [Chip.move, txComplete_transmitting hm ha, enter_mode, hcond]
    decide
  · rw [Chip.move, txComplete_transmitting hm ha, enter_mode, afterTx]
  · rw [Chip.move, txComplete_transmitting hm ha] at hk ⊢
    rw [enter_mode] at hk
    rw [enter_known hk]
    exact ⟨rfl, Bool.or_eq_true_iff, rfl⟩
  · rw [Chip.move, rxValid_fits hm hp hfit]
    refine ⟨enter_mode _ _, fun hk => ?_⟩
    rw [enter_known hk]
    exact ⟨rfl, Bool.or_eq_true_iff, rfl⟩
  · rw [Chip.move, Chip.rxInvalid, if_pos hm, enter_mode, hm]
  · rw [Chip.move, Chip.rxTimeout, if_pos hm, enter_mode, hm]

/-! ### FIFO accesses of a powered chip -/

/-- A chip with no move of its own, in an open window that began with the FIFO-read opcode. -/
structure ReadsChip (g : Chip) (s : State) : Prop where
  still : Still g s.agent
  window : s.agent.window.head? = some Literal.opReadRxFifo

theorem turn_still {c : Config} {g : Chip} {a : Agent} (h : Still g a) : a.turn c = a := by
  obtain ⟨hl, hp, -⟩ := h
  unfold Agent.turn
  rw [hl, hp]

/-- An exchange with a chip that makes no move of its own: what the model answers, and the window with the byte sent. -/
theorem onExchange_still {c : Config} {g : Chip} {a : Agent} (h : Still g a) (m : Byte) :
    a.onExchange c m = ((a.modelAnswer c).1, { (a.modelAnswer c).2 with window := a.window ++ [m] }) := by
  unfold Agent.onExchange
  dsimp only
  rw [turn_still h, h.1]

/-- One read takes the head of the RX FIFO, and from an empty one makes the chip Unknown (R64). -/
theorem modelAnswer_read {c : Config} {g : Chip} {a : Agent} (h : Still g a) (hg : g.mode.powered = true)
    (hw : a.window.head? = some Literal.opReadRxFifo) : a.modelAnswer c = a.modelRx := by
  obtain ⟨args, hargs⟩ := List.head?_eq_some_iff.1 hw
  obtain ⟨-, -, hchip⟩ := h
  obtain ⟨h1, h2, -⟩ := powered_ne hg
  unfold Agent.modelAnswer
  rw [hargs]
  dsimp only
  rw [hchip, if_neg (by simp [h1, h2]), if_pos rfl, if_pos hg]

theorem ReadsChip.xfer_head {g : Chip} {s : State} {b : Byte} {rest : List Byte} (h : ReadsChip g s)
    (hg : g.mode.powered = true) (hrx : g.rxFifo = b :: rest) (m : Byte) :
    xferByte m s = b ∧ ReadsChip { g with rxFifo := rest } (xfer m s) := by
  obtain ⟨args, hargs⟩ := List.head?_eq_some_iff.1 h.window
  have hx := onExchange_still (c := s.cfg) h.still m
  have hread : s.agent.modelRx = (b, { s.agent with chip := { g with rxFifo := rest } }) := by
    unfold Agent.modelRx
    rw [h.still.2.2, hrx]
  rw [modelAnswer_read h.still hg h.window, hread] at hx
  refine ⟨congrArg Prod.fst hx, ?_, ?_⟩ <;> rw [xfer_agent, hx]
  · exact ⟨h.still.1, h.still.2.1, rfl⟩
  · simp [hargs]

theorem ReadsChip.xfer_empty {g : Chip} {s : State} (h : ReadsChip g s) (hg : g.mode.powered = true)
    (hrx : g.rxFifo = []) (m : Byte) : ReadsChip g.lost (xfer m s) := by
  obtain ⟨args, hargs⟩ := List.head?_eq_some_iff.1 h.window
  have hx := onExchange_still (c := s.cfg) h.still m
  have hread : s.agent.modelRx.2 = ({ s.agent with chip := g.lost } : Agent).draw.2 := by
    unfold Agent.modelRx
    rw [h.still.2.2, hrx]
    rfl
  obtain ⟨h1, h2, h3⟩ := draw_same { s.agent with chip := g.lost }
  rw [modelAnswer_read h.still hg h.window, hread] at hx
  refine ⟨?_, ?_⟩ <;> rw [xfer_agent, hx]
  · exact ⟨h1.trans h.still.1, h3.trans h.still.2.1, h2⟩
  · simp [hargs]

theorem ReadsChip.xfer_unknown {g : Chip} {s : State} (h : ReadsChip g s) (hg : g.mode = .unknown) (m : Byte) :
    ReadsChip g (xfer m s) := by
  obtain ⟨args, hargs⟩ := List.head?_eq_some_iff.1 h.window
  have hx := onExchange_still (c := s.cfg) h.still m
  have hdraw : (s.agent.modelAnswer s.cfg).2 = s.agent.draw.2 := by
    unfold Agent.modelAnswer
    rw [hargs]
    dsimp only
    rw [h.still.2.2, if_pos (.inl hg)]
    rfl
  obtain ⟨h1, h2, h3⟩ := draw_same s.agent
  rw [hdraw] at hx
  refine ⟨?_, ?_⟩ <;> rw [xfer_agent, hx]
  · exact ⟨h1.trans h.still.1, h3.trans h.still.2.1, h2.trans h.still.2.2⟩
  · simp [hargs]

/-- As many reads as the RX FIFO has bytes answer its head, in order, and take it (R64, R83). -/
theorem ReadsChip.reads {g : Chip} {s : State} (h : ReadsChip g s) (hg : g.mode.powered = true) {n : Nat}
    (hn : n ≤ g.rxFifo.length) :
    readBytes n s = g.rxFifo.take n ∧ ReadsChip { g with rxFifo := g.rxFifo.drop n } (afterReads n s) := by
  induction n generalizing g s with
  | zero => exact ⟨rfl, h⟩
  | succ n ih =>
    cases hrx : g.rxFifo with
    | nil => rw [hrx] at hn; cases hn
    | cons b rest =>
      rw [hrx] at hn
      obtain ⟨hbyte, hnext⟩ := h.xfer_head hg hrx Literal.dummyByte
      obtain ⟨hbytes, hend⟩ := ih hnext hg (Nat.le_of_succ_le_succ hn)
      exact ⟨by rw [readBytes, hbyte, hbytes]; rfl, hend⟩

theorem ReadsChip.reads_unknown {g : Chip} {s : State} (h : ReadsChip g s) (hg : g.mode = .unknown) (n : Nat) :
    ReadsChip g (afterReads n s) := by
  induction n generalizing s with
  | zero => exact h
  | succ n ih => exact ih (h.xfer_unknown hg _)

theorem afterReads_add (m n : Nat) (s : State) : afterReads (m + n) s = afterReads n (afterReads m s) := by
  induction m generalizing s with
  | zero => rw [Nat.zero_add]; rfl
  | succ m ih => rw [Nat.succ_add]; exact ih _

/-- One read more than the RX FIFO has bytes makes the chip Unknown (R64, R223). -/
theorem ReadsChip.underflow {g : Chip} {s : State} (h : ReadsChip g s) (hg : g.mode.powered = true) {n : Nat}
    (hn : g.rxFifo.length < n) : ∃ k : Chip, k.mode = .unknown ∧ ReadsChip k (afterReads n s) := by
  obtain ⟨m, rfl⟩ := Nat.exists_eq_add_of_lt hn
  obtain ⟨-, hall⟩ := h.reads hg le_rfl
  have hlost := hall.xfer_empty hg (List.drop_length) Literal.dummyByte
  rw [Nat.add_assoc, Nat.add_comm m, afterReads_add, afterReads_add]
  exact ⟨_, rfl, hlost.reads_unknown rfl m⟩

theorem readsChip_open {g : Chip} {s : State} (h : Still g s.agent) : ReadsChip g (openRxRead s) := by
  have hsel : (selOn s).agent = { s.agent with window := [] } := by
    rw [selOn_agent, Agent.onSel, turn_still h]
  have hstill : Still g (selOn s).agent := hsel ▸ h
  have hx := onExchange_still (c := s.cfg) hstill Literal.opReadRxFifo
  have hdraw : ((selOn s).agent.modelAnswer s.cfg).2 = (selOn s).agent.draw.2 := by
    rw [hsel]
    rfl
  obtain ⟨h1, h2, h3⟩ := draw_same (selOn s).agent
  rw [hdraw] at hx
  have hopen : (openRxRead s).agent = _ := congrArg Prod.snd hx
  exact ⟨by rw [hopen]; exact ⟨h1.trans hstill.1, h3.trans hstill.2.1, h2.trans hstill.2.2⟩, by rw [hopen, hsel]; rfl⟩

/-- Closing the window of a FIFO read leaves the chip as it is (R157). -/
theorem ReadsChip.selOff {g : Chip} {s : State} (h : ReadsChip g s) : Still g (selOff s).agent := by
  obtain ⟨args, hargs⟩ := List.head?_eq_some_iff.1 h.window
  have hclose : s.agent.modelClose s.cfg = s.agent := by
    unfold Agent.modelClose
    rw [hargs]
    dsimp only
    rw [if_neg (by decide), if_pos rfl]
  rw [selOff_agent, Agent.onDesel, turn_still h.still, h.still.1]
  dsimp only
  rw [hclose]
  exact h.still

theorem begin_still {g : Chip} {s : State} (h : Still g s.agent) (i : Instr) : Still (g.request i) (begin i s).agent := by
  rw [begin_model h.1]
  exact ⟨h.1, h.2.1, by rw [h.2.2]⟩

theorem Powered.still {s : State} (h : Powered s) : Still s.agent.chip s.agent := ⟨h.1, h.2.1, rfl⟩

/-- READ_RX_FIFO runs to its end, whatever the chip answers. -/
theorem exec_readRxFifo {s : State} {n : Nat} (hs : Accepts s) (hn : n ≤ s.cfg.fifoCap) :
    exec (.readRxFifo n) s = .next (complete (.readRxFifo n) (.okBytes (readBytes n (openRxRead (begin (.readRxFifo n) s))))
      (stepDone (selOff (afterReads n (openRxRead (begin (.readRxFifo n) s)))))) :=
  exec_completed (i := .readRxFifo n) rfl hs (if_neg (Nat.not_lt.2 hn)) rfl

theorem complete_model_chip {i : Instr} {r : Result} {u : State} {g : Chip} (h : Still g u.agent) :
    (complete i r (stepDone u)).agent.chip = { g with held := false } := by
  have hl : (stepDone u).agent.law = .abstractModel := by rw [stepDone_agent]; exact h.1
  rw [(end_chip hl).1, stepDone_agent, h.2.2]

theorem failingCheck_writeTxFifo {c : Config} {d : List Byte} (h : d.length ≤ c.fifoCap) :
    (Instr.writeTxFifo d).failingCheck c = none := if_neg (Nat.not_lt.2 h)

/-- WRITE_TX_FIFO at a powered chip, busy or not, is one `pushTx`. -/
theorem exec_writeTxFifo_chip {s t : State} {d : List Byte} (hs : Accepts s) (hp : Powered s)
    (h : exec (.writeTxFifo d) s = .next t) (hd : d.length ≤ s.cfg.fifoCap) :
    t.agent.chip = { s.agent.chip.pushTx s.cfg d with held := false } := by
  have hrun := exec_completed (i := .writeTxFifo d) rfl hs (failingCheck_writeTxFifo hd) (stepsBody_one_ok rfl)
  have hst : t.status = .ok := by
    rw [hrun] at h
    injection h with h
    rw [← h]
    rfl
  have hpush : Leads s.cfg (· = []) (· = s.agent.chip) (stepsBody [writeTxFifo d]) (· = s.agent.chip.pushTx s.cfg d) :=
    .steps (.cons' (.push hs.1 quiet_nil d fun g hg => by rw [hg]) .nil')
  obtain ⟨-, -, -, g, rfl, hchip⟩ := completed_chip (P := (· = s.agent.chip)) hs hp.1 hp.2.1 rfl
    (failingCheck_writeTxFifo hd) rfl (request_plain rfl rfl _) rfl hpush h hst
  exact hchip

/-- Settles O58: a write is one push, and a read takes the head byte by byte until the queue is empty. -/
theorem fifosOfTheChip : Obligations.FifosOfTheChip := by
  unfold Obligations.FifosOfTheChip
  refine ⟨fun s t d hs hp h hd => ?_, fun s n hs hp hn hlen => ?_, fun s t n hs hp hn hlen h => ?_⟩
  · rw [exec_writeTxFifo_chip hs hp h hd, Chip.pushTx, if_neg (powered_ne hp.2.2).1]
    refine ⟨fun hfit => ?_, fun hover => ?_⟩
    · rw [if_neg (by simp [hp.2.2, hfit])]
    · rw [if_pos (.inr hover)]
      rfl
  · have hopen := readsChip_open (begin_still hp.still (.readRxFifo n))
    obtain ⟨hbytes, hend⟩ := hopen.reads hp.2.2 hlen
    refine ⟨_, exec_readRxFifo hs hn, ?_, complete_model_chip hend.selOff⟩
    rw [hbytes]
    simp [openRxRead]
    rfl
  · rw [exec_readRxFifo hs hn] at h
    injection h with h
    obtain ⟨k, hk, hend⟩ := (readsChip_open (begin_still hp.still (.readRxFifo n))).underflow hp.2.2 hlen
    rw [← h, complete_model_chip hend.selOff]
    exact hk

/-! ### One command frame at the chip -/

theorem Attentive.still {s : State} (h : Attentive s) : Still s.agent.chip s.agent := ⟨h.1, h.2.1, rfl⟩

/-- An operation that is one command frame: what it leaves of a chip that makes no move of its own (R212). -/
theorem exec_send_chip {i : Instr} {s t : State} {f : List Byte} {g : Chip} (hs : Accepts s) (hg : Still g s.agent)
    (hw : i.isWire = false) (hk : i.failingCheck s.cfg = none) (hx : i.expand = i)
    (hb : ∀ u : State, u.cfg = s.cfg → hostBody s.cfg i u = stepsBody [sendCommand f] u) (hne : f ≠ [])
    (hcf : CommandFrame s.cfg f) (hf : f.length ≤ s.cfg.cmdBufCap) (h : exec i s = .next t) :
    t.cfg = s.cfg ∧ t.seq = .idle ∧ Still { (g.request i).command s.cfg .command f with held := false } t.agent := by
  obtain ⟨t', ht', hdone, -⟩ := completed_of_send hw hs hk hf (hb _ rfl)
  obtain rfl : t' = t := by rw [ht'] at h; injection h
  have hL : Leads s.cfg (· = []) (· = g.request i) (hostBody s.cfg i) (· = (g.request i).command s.cfg .command f) := by
    intro u r v hu ha hv
    rw [hb u hu] at hv
    exact Leads.steps (.cons' (.send quiet_nil hne hcf hf fun k hk => by rw [hk]) .nil') u r v hu ha hv
  obtain ⟨hcfg, hl, hp, k, rfl, hchip⟩ := completed_chip (P := (· = g.request i)) hs hg.1 hg.2.1 hw hk hx
    (by rw [hg.2.2]) rfl hL h hdone.status
  exact ⟨hcfg, hdone.idle, hl, hp, hchip⟩

/-- SEND_CMD of a command frame, of which the request tells the chip nothing (R155). -/
theorem exec_sendCmd_chip {s t : State} {op : Byte} {args : List Byte} {g : Chip} (hs : Accepts s) (hg : Still g s.agent)
    (hcf : CommandFrame s.cfg (op :: args)) (hf : (op :: args).length ≤ s.cfg.cmdBufCap)
    (h : exec (.sendCmd (op :: args)) s = .next t) :
    t.cfg = s.cfg ∧ t.seq = .idle ∧ Still { g.command s.cfg .command (op :: args) with held := false } t.agent := by
  have hrun := exec_send_chip (i := .sendCmd (op :: args)) hs hg rfl
    (failingCheck_sendCmd (Nat.le_add_left 1 args.length) hf) rfl (fun _ _ => rfl) (List.cons_ne_nil _ _) hcf hf h
  rwa [request_plain rfl rfl] at hrun

/-- WAIT_CTS, when it completes, leaves a busy chip that makes no move of its own as one that has processed its frame (R97,
R212). -/
theorem exec_waitCts_chip {s t : State} {g : Chip} (hs : Accepts s) (hg : Still g s.agent) (hcts : g.cts = false)
    (hm : g.mode.powered = true) (h : exec .waitCts s = .next t) (hst : t.status = .ok) :
    Still { g.processed s.cfg with held := false } t.agent := by
  obtain ⟨h1, h2, -⟩ := powered_ne hm
  have hL : Leads s.cfg (· = []) (· = g) (stepsBody [waitForCts]) (· = g.processed s.cfg) :=
    .steps (.cons' (.waitCts hs.1 quiet_nil quiet_nil (by rintro k rfl; exact ⟨hcts, h1, h2⟩) fun k hk => by rw [hk]) .nil')
  obtain ⟨-, hl, hp, k, rfl, hchip⟩ := completed_chip (i := .waitCts) (P := (· = g)) hs hg.1 hg.2.1 rfl rfl rfl
    ((request_plain rfl rfl _).trans hg.2.2) rfl hL h hst
  exact ⟨hl, hp, hchip⟩

/-- The sample of a known chip that makes no move of its own (R65). -/
theorem onSample_still {c : Config} {g : Chip} {a : Agent} (h : Still g a) (hm : g.mode.powered = true) :
    (a.onSample c).1 = g.irqLevel := by
  obtain ⟨h1, h2, -⟩ := powered_ne hm
  unfold Agent.onSample
  dsimp only
  rw [turn_still h, h.1]
  dsimp only
  rw [h.2.2, if_neg (by simp [h1, h2])]

/-- A frame that makes the chip Unknown does so at once (R129, R223). -/
theorem command_lost {c : Config} {src : FrameSource} {f : List Byte} {h : Chip} (hm : h.mode.powered = true)
    (hc : h.cts = true) (he : (({ h with intRead := false } : Chip).effect c src f).mode = .unknown) :
    (h.command c src f).mode = .unknown := by
  rw [command_powered hm hc, if_pos he]
  exact he

theorem command_unknown {c : Config} {src : FrameSource} {f : List Byte} {h : Chip} (hm : h.mode = .unknown) :
    h.command c src f = h := if_pos hm

/-- R214, C11: STANDBY stands from its frame on. -/
theorem standby_command {c : Config} (hc : c.admitted = true) {h : Chip} (hm : h.mode.powered = true)
    (hcts : h.cts = true) :
    h.command c .command (standbyFrame c) =
      { h.cutTx with
        mode := .standbyReady, intRead := false, cts := false, taken := some (.command, standbyFrame c) } := by
  have hat : atOnce c .command (standbyFrame c) = true := by simp [atOnce, standbyFrame]
  rw [command_powered hm hcts, standby_effect hc, if_neg (by simp), hat]
  rfl

theorem startTx_command {c : Config} {ch cond : Byte} {len : Half} {h : Chip} (hm : h.mode.powered = true)
    (hcts : h.cts = true) (hcf : h.configured = true) (hl : len ≠ 0) (hlen : len.toNat ≤ h.txFifo.length) :
    h.command c .command (startTxFrame ch cond len) =
      { h with
        mode := .txArmed, txActive := decide (cond.extractLsb' 0 2 = 0#2), txLength := len.toNat, txCondition := cond
        intRead := false, cts := false, taken := some (.command, startTxFrame ch cond len) } := by
  have hat : atOnce c .command (startTxFrame ch cond len) = true := by simp [atOnce, startTxFrame]
  rw [command_powered hm hcts, startTx_effect (h := { h with intRead := false }) ch cond len hcf hl hlen,
    if_neg (by simp), hat]
  rfl

/-- U9, U11: a START_TX frame with length 0 or beyond the TX FIFO. -/
theorem startTx_command_lost {c : Config} {ch cond : Byte} {len : Half} {h : Chip} (hm : h.mode.powered = true)
    (hcts : h.cts = true) (hbad : len = 0 ∨ h.txFifo.length < len.toNat) :
    (h.command c .command (startTxFrame ch cond len)).mode = .unknown := by
  refine command_lost hm hcts ?_
  unfold Chip.effect startTxFrame
  rw [decodeFrame_startTx]
  simp only [decodeWireStartTx, half_hi8_lo8, Chip.obey, Chip.startTx]
  rw [if_pos (.inr hbad)]
  rfl

theorem propFrame_effect {c : Config} (src : FrameSource) (g n o : Byte) (d : List Byte) (h : Chip) :
    h.effect c src (Literal.opSetProperty :: g :: n :: o :: d) = h.propWrite g n o d := by
  unfold Chip.effect
  rw [decodeFrame_propWrite]
  cases src <;> rfl

theorem propWrite_counted {g n o : Byte} {d : List Byte} (hn : n.toNat = d.length) (h : Chip) :
    h.propWrite g n o d =
      { h with props := Memory.writeRun (propAddress g o.toNat) (inGroup o d) h.props } := if_pos hn

theorem propWrite_miscounted {g n o : Byte} {d : List Byte} (hn : n.toNat ≠ d.length) (h : Chip) :
    h.propWrite g n o d = h.lost := if_neg hn

/-- No property write acts at once, by the opcodes' distinctness (R128). -/
theorem atOnce_prop {c : Config} (hc : c.admitted = true) (src : FrameSource) (l : List Byte) :
    atOnce c src (Literal.opSetProperty :: l) = false := by
  have h2 := (Config.distinct hc).state
  simp only [List.mem_cons, List.not_mem_nil, or_false, not_or] at h2
  have h1 : Literal.opSetProperty ≠ Literal.opStartTx := by decide
  simp [atOnce, h1, Ne.symm h2.1]

theorem propFrame_command {c : Config} (hc : c.admitted = true) {src : FrameSource} {g n o : Byte} {d : List Byte}
    (hn : n.toNat = d.length) {h : Chip} (hm : h.mode.powered = true) (hcts : h.cts = true) :
    h.command c src (Literal.opSetProperty :: g :: n :: o :: d) =
      h.take src (Literal.opSetProperty :: g :: n :: o :: d) := by
  refine command_take hm hcts (atOnce_prop hc src _) ?_
  rw [propFrame_effect, propWrite_counted hn]
  exact (powered_ne hm).1

theorem cf_propBytes {c : Config} (hc : c.admitted = true) (l : List Byte) :
    CommandFrame c (Literal.opSetProperty :: l) :=
  cf_cons (by decide) (by decide) (Ne.symm (poll_wf hc).2.2.1)

/-- An opcode that R128 names for no frame the engine composes, and not the first byte of POWER_UP_FRAME. -/
theorem unnamed_effect {c : Config} {op : Byte} {args : List Byte}
    (hop : op ∉ [0x11, 0x15, 0x31, 0x32, 0x66, 0x77, c.opReadCmdBuff, c.opGetIntStatus, c.opChangeState])
    (hp : c.powerUpFrame.headD 0 ≠ op) (h : Chip) : h.effect c .command (op :: args) = h.lost := by
  simp only [List.mem_cons, List.not_mem_nil, or_false, not_or] at hop
  obtain ⟨h1, h2, h3, h4, h5, h6, h7, h8, h9⟩ := hop
  have hdecode : decodeFrame c (op :: args) = .error .unknownFrame := by
    unfold decodeFrame
    dsimp only
    rw [if_neg (show op ≠ Literal.opSetProperty from h1), if_neg (show op ≠ Literal.opFifoReset from h2),
      if_neg (show op ≠ Literal.opStartTx from h3), if_neg (show op ≠ Literal.opStartRx from h4),
      if_neg (show op ≠ Literal.opWriteTxFifo from h5), if_neg (show op ≠ Literal.opReadRxFifo from h6), if_neg h7,
      if_neg h8, if_neg h9, if_neg (Ne.symm hp)]
  unfold Chip.effect
  rw [hdecode]

theorem powerUp_headD {c : Config} (hc : c.admitted = true) {op : Byte} (h : c.powerUpFrame.head? ≠ some op) :
    c.powerUpFrame.headD 0 ≠ op := by
  obtain ⟨hne, -⟩ := power_wf hc
  cases hp : c.powerUpFrame with
  | nil => exact absurd hp hne
  | cons a l => rw [hp] at h; simpa using h

/-! ### What the unwaited commands do to the chip -/

theorem standby_chip {s t : State} (hs : Accepts s) (hat : Attentive s) (h : exec .standby s = .next t) :
    t.agent.chip = { s.agent.chip.cutTx with
      mode := .standbyReady, intRead := false, cts := false, taken := some (.command, standbyFrame s.cfg)
      held := false } := by
  obtain ⟨-, -, -, -, hchip⟩ := exec_send_chip (f := standbyFrame s.cfg) hs hat.still rfl rfl rfl
    (fun u hu => by rw [← hu]; rfl) (List.cons_ne_nil _ _) (cf_standby hs.1)
    (le_trans (by simp [standbyFrame]) (facts_of_admitted hs.1).cmdCap) h
  rw [request_plain rfl rfl, standby_command hs.1 hat.2.2.1 hat.2.2.2] at hchip
  exact hchip

theorem startTx_chip {s t : State} {ch cond : Byte} {len : Half} (hs : Accepts s) (hat : Attentive s)
    (h : exec (.startTx ch cond len) s = .next t) :
    t.agent.chip = { (s.agent.chip.request (.startTx ch cond len)).command s.cfg .command (startTxFrame ch cond len) with
      held := false } := by
  obtain ⟨-, -, -, -, hchip⟩ := exec_send_chip (f := startTxFrame ch cond len) hs hat.still rfl rfl rfl
    (fun u hu => rfl) (List.cons_ne_nil _ _) (cf_tx hs.1 ch cond len)
    (le_trans (by simp [startTxFrame]) (facts_of_admitted hs.1).cmdCap) h
  exact hchip

/-- R293: a TX or RX operation before a completed replay. -/
theorem request_unconfigured {i : Instr} {h : Chip} (h1 : Instr.bringsUp i = false) (h2 : Instr.needsReplay i = true)
    (h3 : h.configured = false) : h.request i = h.lost := by
  rw [Chip.request, if_neg (by simp [h1]), if_pos ⟨h2, by simp [h3]⟩]

theorem startTx_chip_lost {s t : State} {ch cond : Byte} {len : Half} (hs : Accepts s) (hat : Attentive s)
    (h : exec (.startTx ch cond len) s = .next t)
    (hbad : s.agent.chip.configured = false ∨ len = 0 ∨ s.agent.chip.txFifo.length < len.toNat) :
    t.agent.chip.mode = .unknown := by
  rw [startTx_chip hs hat h]
  cases hcf : s.agent.chip.configured with
  | false =>
    rw [request_unconfigured rfl rfl hcf, command_unknown rfl]
    rfl
  | true =>
    rw [request_configured rfl hcf]
    exact startTx_command_lost hat.2.2.1 hat.2.2.2 (hbad.resolve_left (by simp [hcf]))

/-- GET_INT_STATUS by SEND_CMD, and after the WAIT_CTS (R65, R97). -/
theorem intStatus_chip {s u t : State} (hs : Accepts s) (hat : Attentive s)
    (h : exec (.sendCmd (intStatusFrame s.cfg)) s = .next u) :
    u.agent.chip.mode = s.agent.chip.mode ∧ u.agent.chip.cts = false ∧
      (exec .waitCts u = .next t → t.status = .ok →
        t.agent.chip.mode = s.agent.chip.mode ∧ t.agent.chip.intPending = ⟨false, false⟩ ∧
          (t.agent.onSample t.cfg).1 = false) := by
  obtain ⟨hcfg, hidle, hu⟩ :=
    exec_sendCmd_chip hs hat.still (cf_status hs.1) (intStatusFrame_fits (facts_of_admitted hs.1)) h
  rw [show s.cfg.opGetIntStatus :: s.cfg.intClrArgs = intStatusFrame s.cfg from rfl,
    status_command hs.1 hat.2.2.1 hat.2.2.2] at hu
  refine ⟨by rw [hu.2.2]; rfl, by rw [hu.2.2]; rfl, fun h' hst => ?_⟩
  have ht := exec_waitCts_chip ⟨hcfg ▸ hs.1, hidle⟩ hu rfl hat.2.2.1 h' hst
  rw [hcfg, show ({ s.agent.chip.take .command (intStatusFrame s.cfg) with held := false } : Chip) =
      ({ s.agent.chip with held := false } : Chip).take .command (intStatusFrame s.cfg) from rfl,
    processed_take (h := { s.agent.chip with held := false }) hat.2.2.1 (atOnce_status hs.1), status_effect hs.1] at ht
  refine ⟨by rw [ht.2.2]; rfl, by rw [ht.2.2]; rfl, ?_⟩
  rw [onSample_still ht hat.2.2.1]
  rfl

/-- A property write by SEND_CMD, and after the WAIT_CTS (R66, R97, R221). -/
theorem propBytes_chip {s u : State} {g n o : Byte} {d : List Byte} (hs : Accepts s) (hat : Attentive s)
    (hf : 4 + d.length ≤ s.cfg.cmdBufCap) (h : exec (.sendCmd (0x11 :: g :: n :: o :: d)) s = .next u) :
    (n.toNat ≠ d.length → u.agent.chip.mode = .unknown) ∧
    (n.toNat = d.length → u.agent.chip.mode = s.agent.chip.mode ∧ u.agent.chip.cts = false ∧
      ∀ t, exec .waitCts u = .next t → t.status = .ok →
        t.agent.chip.mode = s.agent.chip.mode ∧ t.agent.chip.intPending = s.agent.chip.intPending ∧
        (t.agent.chip.intEnabled.packetReceived = true ↔
          s.agent.chip.intEnabled.packetReceived = true ∨ 0x11 :: g :: n :: o :: d ∈ s.cfg.rxIrqEnable) ∧
        (t.agent.chip.intEnabled.packetSent = true ↔
          s.agent.chip.intEnabled.packetSent = true ∨ 0x11 :: g :: n :: o :: d ∈ s.cfg.txIrqEnable)) := by
  obtain ⟨hcfg, hidle, hu⟩ := exec_sendCmd_chip hs hat.still (cf_propBytes hs.1 _)
    (by simp only [List.length_cons]; omega) h
  constructor
  · intro hn
    rw [hu.2.2]
    refine command_lost hat.2.2.1 hat.2.2.2 ?_
    rw [propFrame_effect, propWrite_miscounted hn]
    rfl
  · intro hn
    rw [propFrame_command hs.1 hn hat.2.2.1 hat.2.2.2] at hu
    refine ⟨by rw [hu.2.2]; rfl, by rw [hu.2.2]; rfl, fun t h' hst => ?_⟩
    have ht := exec_waitCts_chip ⟨hcfg ▸ hs.1, hidle⟩ hu rfl hat.2.2.1 h' hst
    rw [hcfg, show ({ s.agent.chip.take .command (Literal.opSetProperty :: g :: n :: o :: d) with held := false } : Chip) =
        ({ s.agent.chip with held := false } : Chip).take .command (Literal.opSetProperty :: g :: n :: o :: d) from rfl,
      processed_take (h := { s.agent.chip with held := false }) hat.2.2.1 (atOnce_prop hs.1 _ _), propFrame_effect, propWrite_counted hn] at ht
    refine ⟨by rw [ht.2.2]; rfl, by rw [ht.2.2]; rfl, ?_, ?_⟩ <;> rw [ht.2.2] <;>
      exact Bool.or_eq_true_iff.trans (or_congr Iff.rfl decide_eq_true_iff)

/-- WAIT_CTS that completes is a handshake that returns (R154). -/
theorem exec_waitCts_ok {s t : State} (hs : Accepts s) (h : exec .waitCts s = .next t) (hst : t.status = .ok) :
    ∃ u, waitForCts (begin .waitCts s) = .ok () u ∧ t = complete .waitCts .ok (stepDone u) := by
  have hend := ends_waitForCts (facts_of_admitted hs.1).polls (begin .waitCts s) rfl
  cases hx : waitForCts (begin .waitCts s) with
  | ok a u =>
    rw [exec_completed (i := .waitCts) rfl hs rfl (stepsBody_one_ok hx)] at h
    injection h with h
    exact ⟨u, rfl, h.symm⟩
  | timeout n u =>
    rw [exec_timeout (i := .waitCts) rfl hs rfl (stepsBody_one_timeout hx)] at h
    injection h with h
    rw [← h] at hst
    cases hst
  | fault u =>
    rw [hx] at hend
    exact hend.elim

/-- A completed WAIT_CTS is a barrier, for every chip (R98). -/
theorem waitCts_barrier {s t : State} (hs : Accepts s) (hl : s.agent.law = .abstractModel)
    (hacted : s.agent.chip.cts = true → s.agent.chip.taken = none) (h : exec .waitCts s = .next t) (hst : t.status = .ok)
    (hm : t.agent.chip.mode.powered = true) : t.agent.chip.cts = true ∧ t.agent.chip.taken = none := by
  obtain ⟨u, hx, rfl⟩ := exec_waitCts_ok hs h hst
  have hbegin : (begin .waitCts s).agent.law = .abstractModel := (onRequest_law _ _).trans hl
  have hclean := clean_waitForCts bus_onBus (begin .waitCts s)
  rw [hx] at hclean
  obtain ⟨l, hr⟩ := wait_ok hx
  have hchip : (complete .waitCts .ok (stepDone u)).agent.chip = { u.agent.chip with held := false } := by
    have hl : (stepDone u).agent.law = .abstractModel := by rw [stepDone_agent]; exact hclean.agent.law.trans hbegin
    rw [(end_chip hl).1, stepDone_agent]
  rw [hchip] at hm ⊢
  obtain ⟨h1, h2, -⟩ := powered_ne hm
  have hcts : u.agent.chip.cts = true :=
    (ready_handshake (s := begin .waitCts s) (poll_wf hs.1).2.1 rfl hbegin hr).resolve_right (not_or.2 ⟨h1, h2⟩)
  exact ⟨hcts, hclean.agent.keeps.acted (request_acted _ .waitCts hacted) hcts⟩

/-- Settles O59: each unwaited command is one frame, and a completed WAIT_CTS after it is the poll that reads 0xFF. -/
theorem unwaitedCommandsAtTheChip : Obligations.UnwaitedCommandsAtTheChip := by
  unfold Obligations.UnwaitedCommandsAtTheChip
  refine ⟨fun s t hs hat h => ?_, fun s t ch cond len hs hat h => ⟨fun hgood => ?_, startTx_chip_lost hs hat h⟩,
    fun s u t hs hat h => intStatus_chip hs hat h, fun s u g n o d hs hat hf h => propBytes_chip hs hat hf h,
    fun s t op args hs hat hf hop hp h => ?_, fun s t hs hl hacted h hst hm => waitCts_barrier hs hl hacted h hst hm⟩
  · rw [standby_chip hs hat h]
    exact ⟨rfl, rfl, rfl, rfl, rfl, rfl⟩
  · obtain ⟨hcf, hl, hlen⟩ := hgood
    rw [startTx_chip hs hat h, request_configured rfl hcf, startTx_command hat.2.2.1 hat.2.2.2 hcf hl hlen]
    exact ⟨rfl, rfl, rfl, decide_eq_true_iff, rfl⟩
  · have hp' := powerUp_headD hs.1 hp
    have hop' := hop
    simp only [List.mem_cons, List.not_mem_nil, or_false, not_or] at hop'
    obtain ⟨-, -, -, -, h66, h77, h44, -, -⟩ := hop'
    obtain ⟨-, -, -, -, hchip⟩ := exec_sendCmd_chip hs hat.still (cf_cons h66 h77 h44)
      (by rw [List.length_cons]; omega) h
    rw [hchip]
    refine command_lost hat.2.2.1 hat.2.2.2 ?_
    rw [unnamed_effect hop hp']
    rfl

section

/-! ### Unknown lasts without a reset pulse (R223) -/

/-- Nothing at the bus leads out of Unknown. -/
theorem closed_unknown (c : Config) :
    ChipClosed c (fun _ => True) (fun g h => g.mode = .unknown → h.mode = .unknown) where
  refl _ := id
  trans h k := k ∘ h
  move m h hm := by
    rcases move_idle (c := c) m (g := h) (by rw [hm]; decide) (by rw [hm]; decide) with hg | hg <;> rw [hg]
    · exact hm
    · unfold Chip.act
      split
      · exact hm
      · rw [if_neg (by rw [hm]; decide), if_pos (by rw [hm]; decide)]
        exact hm
  lost _ _ := rfl
  rx _ _ hm := hm
  processed h hn hm := absurd hm hn
  push d h hm := by rw [Chip.pushTx, if_pos hm]; exact hm
  read n h hm := by unfold Chip.afterRead; split <;> exact hm
  command f h _ hm := by rw [command_unknown hm]; exact hm

/-- A host operation ends with status Ok, or by a Timeout with the chip Unknown (R263, R223). -/
theorem exec_ok_or_unknown {i : Instr} {s t : State} (hs : Accepts s) (hl : s.agent.law = .abstractModel)
    (hw : i.isWire = false) (hk : i.failingCheck s.cfg = none) (h : exec i s = .next t) :
    (∃ r u, hostBody s.cfg i (begin i.expand s) = .ok r u ∧ t = complete i.expand r u) ∨
      t.status = .timeout ∧ t.agent.chip.mode = .unknown := by
  have hend := ends_hostBody hs.1 hk (begin i.expand s) rfl
  cases hx : hostBody s.cfg i (begin i.expand s) with
  | ok r u =>
    rw [exec_completed hw hs hk hx] at h
    injection h with h
    exact .inl ⟨r, u, rfl, h.symm⟩
  | timeout n u =>
    have hlu : u.agent.law = .abstractModel := by
      have hclean := clean_hostBody s.cfg i (begin i.expand s)
      rw [hx] at hclean
      exact hclean.agent.law.trans ((onRequest_law _ _).trans hl)
    rw [exec_timeout hw hs hk hx] at h
    injection h with h
    subst h
    refine .inr ⟨rfl, ?_⟩
    rw [abort_agent, Agent.onTimeout, hlu]
    rfl
  | fault u =>
    rw [hx] at hend
    exact hend.elim

/-- What everything at the bus keeps of the chip, whatever its plan, a part that keeps it leads to. -/
theorem Leads.ofKeeps {α : Type} {c : Config} {f : State → Flow α} {R : Chip → Chip → Prop} {P Q : Chip → Prop}
    (hf : KeepsAt c (Under R) f) (h : ∀ g k, P g → R g k → Q k) : Leads c (fun _ => True) P f Q := by
  intro s r t hs ha ht
  obtain ⟨h1, h2⟩ := hf s hs
  rw [ht] at h1 h2
  obtain ⟨h3, h4⟩ := h1 ha.1
  exact ⟨h2, h3, trivial, h _ _ ha.2.2 h4⟩

/-- Whatever the chip's moves are. -/
theorem quiet_any {c : Config} {P : Chip → Prop} (h : ∀ m g, P g → P (g.move c m)) : Quiet c (fun _ => True) P :=
  .inr ⟨fun _ => trivial, h⟩

/-! ### A frame that waits for its handshake, at a powered chip that is ready -/

/-- What such a chip is when it has processed the frame (R97, R212). -/
def Chip.through (c : Config) (src : FrameSource) (f : List Byte) (g : Chip) : Chip :=
  { (({ g with intRead := false, cts := false, taken := none } : Chip).effect c src f).enableInts c f with cts := true }

/-- No effect reads whether the chip is busy, nor what it has in hand. -/
theorem effect_mode (c : Config) (src : FrameSource) (f : List Byte) (g : Chip) (b : Bool) (k) :
    (({ g with cts := b, taken := k } : Chip).effect c src f).mode = (g.effect c src f).mode := by
  unfold Chip.effect Chip.obey Chip.configure Chip.propWrite Chip.startTx Chip.startRx
  repeat' split
  all_goals rfl

theorem through_mode (c : Config) (src : FrameSource) (f : List Byte) (g : Chip) :
    (g.through c src f).mode = (({ g with intRead := false } : Chip).effect c src f).mode :=
  effect_mode c src f { g with intRead := false } false none

/-- The chips of `P`, with the frame in hand. -/
def Taken (src : FrameSource) (f : List Byte) (P : Chip → Prop) (k : Chip) : Prop := ∃ g, P g ∧ k = g.take src f

variable {c : Config} {src : FrameSource} {f : List Byte} {P Q : Chip → Prop}

/-- The chips are powered and ready. -/
def Idle (P : Chip → Prop) : Prop := ∀ g, P g → g.mode.powered = true ∧ g.cts = true

theorem Leads.ask (hP : Idle P) (hne : f ≠ []) (hcf : CommandFrame c f) (hl : f.length ≤ c.cmdBufCap)
    (ha : atOnce c src f = false) (he : ∀ g, P g → (g.through c src f).mode ≠ .unknown) :
    Leads c (· = []) P (sendFrom src f) (Taken src f P) :=
  .send quiet_nil hne hcf hl fun g hg =>
    ⟨g, hg, command_take (hP g hg).1 (hP g hg).2 ha (by rw [← through_mode]; exact he g hg)⟩

theorem taken_busy (hP : Idle P) : ∀ k, Taken src f P k → k.cts = false ∧ k.mode ≠ .unknown ∧ k.mode ≠ .off := by
  rintro _ ⟨g, hg, rfl⟩
  obtain ⟨h1, h2, -⟩ := powered_ne (hP g hg).1
  exact ⟨rfl, h1, h2⟩

theorem Leads.through (hc : c.admitted = true) (hP : Idle P) (ha : atOnce c src f = false)
    (hQ : ∀ g, P g → Q (g.through c src f)) : Leads c (· = []) (Taken src f P) waitForCts Q := by
  refine .waitCts hc quiet_nil quiet_nil (taken_busy hP) ?_
  rintro _ ⟨g, hg, rfl⟩
  rw [processed_take (hP g hg).1 ha]
  exact hQ g hg

/-- A frame and its handshake. -/
theorem Leads.framed (hc : c.admitted = true) (hP : Idle P) (hne : f ≠ []) (hcf : CommandFrame c f)
    (hl : f.length ≤ c.cmdBufCap) (ha : atOnce c src f = false) (he : ∀ g, P g → (g.through c src f).mode ≠ .unknown)
    (hQ : ∀ g, P g → Q (g.through c src f)) : Leads c (· = []) P (chain [sendFrom src f, waitForCts]) Q :=
  (Leads.ask hP hne hcf hl ha he).cons (.one (.through hc hP ha hQ))

/-! ### CLEAR_INTS -/

/-- What a ready chip is after GET_INT_STATUS and its response read (R65, R220). -/
def Chip.cleared (c : Config) (g : Chip) : Chip :=
  { g.enableInts c (intStatusFrame c) with intRead := false, cts := true, taken := none, intPending := ⟨false, false⟩ }

theorem status_through (hc : c.admitted = true) (g : Chip) :
    g.through c .command (intStatusFrame c) =
      { g.enableInts c (intStatusFrame c) with intRead := true, cts := true, taken := none, intPending := ⟨false, false⟩ } := by
  unfold Chip.through
  rw [status_effect hc]
  rfl

theorem Leads.askStatus (hc : c.admitted = true) (hP : Idle P) :
    Leads c (· = []) P (sendCommand (intStatusFrame c)) (Taken .command (intStatusFrame c) P) :=
  .ask hP (List.cons_ne_nil _ _) (cf_status hc) (intStatusFrame_fits (facts_of_admitted hc)) (atOnce_status hc)
    fun g hg => by rw [status_through hc]; exact (powered_ne (hP g hg).1).1

theorem Leads.readStatus (hc : c.admitted = true) (hP : Idle P) (hQ : ∀ g, P g → Q (g.cleared c)) :
    Leads c (· = []) (Taken .command (intStatusFrame c) P)
      (fun s => (getResponse Literal.intStatusRespLen s).bind fun _ t => .ok () t) Q := by
  refine (Leads.wait (R := fun k => ∃ g, P g ∧ k = g.through c .command (intStatusFrame c)) hc quiet_nil quiet_nil
    (taken_busy hP) ?_ ?_).discard
  · rintro _ ⟨g, hg, rfl⟩
    exact ⟨g, hg, processed_take (hP g hg).1 (atOnce_status hc)⟩
  · rintro _ ⟨g, hg, rfl⟩
    rw [status_through hc, Chip.afterRead, if_pos ⟨(powered_ne (hP g hg).1).1, rfl, rfl, by decide⟩]
    exact hQ g hg

theorem Leads.clearInterrupts (hc : c.admitted = true) (hP : Idle P) (hQ : ∀ g, P g → Q (g.cleared c)) :
    Leads c (· = []) P clearInterrupts Q := by
  rintro s r t rfl
  exact (Leads.askStatus hc hP).cons (.one (.readStatus hc hP hQ)) s r t rfl

/-! ### CLEAR_INTS, RESET_FIFO and START_RX at the chip -/

/-- A host operation of which the request tells an attentive chip nothing, from what its body leads to. -/
theorem attentive_completed {i : Instr} {s t : State} {f : State → Flow Result} {Q : Chip → Prop} (hs : Accepts s)
    (hat : Attentive s) (hw : i.isWire = false) (hk : i.failingCheck s.cfg = none) (hx : i.expand = i)
    (hreq : s.agent.chip.request i = s.agent.chip) (hb : hostBody s.cfg i = f)
    (hL : Leads s.cfg (· = []) (· = s.agent.chip) f Q) (h : exec i s = .next t) (hst : t.status = .ok) :
    t.cfg = s.cfg ∧ ∃ g, Q g ∧ Still { g with held := false } t.agent := by
  obtain ⟨hcfg, hl, hp, g, hg, hchip⟩ := completed_chip (P := (· = s.agent.chip)) hs hat.1 hat.2.1 hw hk hx hreq hb hL h hst
  exact ⟨hcfg, g, hg, hl, hp, hchip⟩

theorem idle_chip {s : State} (hat : Attentive s) : Idle (· = s.agent.chip) := by
  rintro _ rfl
  exact hat.2.2

/-- An operation that is one frame and its handshake. -/
theorem exec_framed_chip {i : Instr} {s t : State} {f : List Byte} (hs : Accepts s) (hat : Attentive s)
    (hw : i.isWire = false) (hk : i.failingCheck s.cfg = none) (hx : i.expand = i)
    (hreq : s.agent.chip.request i = s.agent.chip) (hb : hostBody s.cfg i = stepsBody [sendCommand f, waitForCts])
    (hne : f ≠ []) (hcf : CommandFrame s.cfg f) (hf : f.length ≤ s.cfg.cmdBufCap) (ha : atOnce s.cfg .command f = false)
    (he : (s.agent.chip.through s.cfg .command f).mode ≠ .unknown) (h : exec i s = .next t) (hst : t.status = .ok) :
    t.agent.chip = { s.agent.chip.through s.cfg .command f with held := false } := by
  have hidle := idle_chip hat
  have hL : Leads s.cfg (· = []) (· = s.agent.chip) (stepsBody [sendCommand f, waitForCts])
      (· = s.agent.chip.through s.cfg .command f) :=
    .steps (.cons' (.ask hidle hne hcf hf ha (by rintro _ rfl; exact he))
      (.cons' (.through hs.1 hidle ha (by rintro _ rfl; rfl)) .nil'))
  obtain ⟨-, g, rfl, -, -, hchip⟩ := attentive_completed hs hat hw hk hx hreq hb hL h hst
  exact hchip

/-- CLEAR_INTS at an attentive chip (R65, R197). -/
theorem clearInts_chip {s t : State} (hs : Accepts s) (hat : Attentive s) (h : exec .clearInts s = .next t)
    (hst : t.status = .ok) : Still { s.agent.chip.cleared s.cfg with held := false } t.agent := by
  have hidle := idle_chip hat
  have hL : Leads s.cfg (· = []) (· = s.agent.chip) (stepsBody (clearIntsSteps s.cfg))
      (· = s.agent.chip.cleared s.cfg) :=
    .steps (.cons' (.askStatus hs.1 hidle) (.cons' (.readStatus hs.1 hidle (by rintro _ rfl; rfl)) .nil'))
  obtain ⟨-, g, rfl, hstill⟩ := attentive_completed (i := .clearInts) hs hat rfl rfl rfl (request_plain rfl rfl _) rfl hL h hst
  exact hstill

theorem atOnce_fifo {c : Config} (hc : c.admitted = true) (sub : Byte) :
    atOnce c .command (fifoResetFrame sub) = false := by
  have h2 := (Config.distinct hc).state
  simp only [List.mem_cons, List.not_mem_nil, or_false, not_or] at h2
  have h1 : Literal.opFifoReset ≠ Literal.opStartTx := by decide
  simp [atOnce, fifoResetFrame, h1, Ne.symm h2.2.1]

theorem atOnce_rx {c : Config} (hc : c.admitted = true) (ch cond : Byte) (len : Half) (x y z : Byte) :
    atOnce c .command (startRxFrame ch cond len x y z) = false := by
  have h2 := (Config.distinct hc).state
  simp only [List.mem_cons, List.not_mem_nil, or_false, not_or] at h2
  have h1 : Literal.opStartRx ≠ Literal.opStartTx := by decide
  simp [atOnce, startRxFrame, h1, Ne.symm h2.2.2.2.1]

theorem fifo_through {c : Config} {sub : Byte} (hsub : sub = 1 ∨ sub = 2 ∨ sub = 3) (g : Chip) :
    g.through c .command (fifoResetFrame sub) =
      { (g.fifoReset sub).enableInts c (fifoResetFrame sub) with intRead := false, cts := true, taken := none } := by
  unfold Chip.through
  rw [fifo_effect sub hsub]
  rfl

theorem rx_through {c : Config} {ch cond : Byte} {len : Half} {x y z : Byte} {g : Chip} (hcf : g.configured = true)
    (hlen : len ≠ 0) :
    g.through c .command (startRxFrame ch cond len x y z) =
      { g.cutTx.enableInts c (startRxFrame ch cond len x y z) with
        mode := .rxArmed, rxLength := len.toNat, onTimeout := x, onValid := y, onInvalid := z
        intRead := false, cts := true, taken := none } := by
  unfold Chip.through
  rw [startRx_effect (h := { g with intRead := false, cts := false, taken := none }) ch cond len x y z hcf hlen]
  rfl

theorem startRxFrame_fits {c : Config} (hf : Facts c) (ch cond : Byte) (len : Half) (x y z : Byte) :
    (startRxFrame ch cond len x y z).length ≤ c.cmdBufCap := le_trans (by simp [startRxFrame]) hf.cmdCap

theorem resetFifo_chip {s t : State} {sub : Byte} (hs : Accepts s) (hat : Attentive s)
    (hsub : sub = 1 ∨ sub = 2 ∨ sub = 3) (h : exec (.resetFifo sub) s = .next t) (hst : t.status = .ok) :
    t.agent.chip.mode = s.agent.chip.mode ∧ t.agent.chip.txFifo = (s.agent.chip.fifoReset sub).txFifo ∧
      t.agent.chip.rxFifo = (s.agent.chip.fifoReset sub).rxFifo := by
  have hk : (Instr.resetFifo sub).failingCheck s.cfg = none := by rcases hsub with rfl | rfl | rfl <;> rfl
  have hchip := exec_framed_chip (i := .resetFifo sub) hs hat rfl hk rfl (request_plain rfl rfl _) rfl
    (List.cons_ne_nil _ _) (cf_fifo hs.1 sub) (fifoResetFrame_fits (facts_of_admitted hs.1) _) (atOnce_fifo hs.1 sub)
    (by rw [fifo_through hsub]; exact (powered_ne hat.2.2.1).1) h hst
  rw [fifo_through hsub] at hchip
  rw [hchip]
  exact ⟨rfl, rfl, rfl⟩

theorem startRx_chip {s t : State} {ch cond : Byte} {len : Half} {x y z : Byte} (hs : Accepts s) (hat : Attentive s)
    (hcf : s.agent.chip.configured = true) (hlen : len ≠ 0) (h : exec (.startRx ch cond len x y z) s = .next t)
    (hst : t.status = .ok) :
    t.agent.chip = { s.agent.chip.cutTx.enableInts s.cfg (startRxFrame ch cond len x y z) with
      mode := .rxArmed, rxLength := len.toNat, onTimeout := x, onValid := y, onInvalid := z
      intRead := false, cts := true, taken := none, held := false } := by
  have hchip := exec_framed_chip (i := .startRx ch cond len x y z) hs hat rfl rfl rfl (request_configured rfl hcf) rfl
    (List.cons_ne_nil _ _) (cf_rx hs.1 ch cond len x y z) (startRxFrame_fits (facts_of_admitted hs.1) ch cond len x y z)
    (atOnce_rx hs.1 ch cond len x y z) (by rw [rx_through hcf hlen]; exact Mode.noConfusion) h hst
  rw [rx_through hcf hlen] at hchip
  exact hchip

/-! ### Before a completed replay, and START_RX with length 0 -/

/-- An operation whose request makes the chip Unknown leaves it so (R223, R293). -/
theorem exec_unknown {i : Instr} {s t : State} (hs : Accepts s) (hl : s.agent.law = .abstractModel) (hw : i.isWire = false)
    (hk : i.failingCheck s.cfg = none) (hx : i.expand = i) (hreq : (s.agent.chip.request i).mode = .unknown)
    (hp : ¬ Pulses i) (hr : ¬ Replays i) (h : exec i s = .next t) : t.agent.chip.mode = .unknown := by
  rcases exec_ok_or_unknown hs hl hw hk h with ⟨r, u, hu, rfl⟩ | ⟨-, hm⟩
  · have hkeeps := (closed_unknown s.cfg).closed.hostBody hw hs.1 hk (fun _ _ => trivial) (absurd · hp) (absurd · hr)
    rw [hx] at hu ⊢
    obtain ⟨hlu, hm⟩ := (hkeeps (begin i s) rfl).1 ((onRequest_law _ _).trans hl)
    rw [hu] at hlu hm
    rw [(end_chip (u := u) hlu).1]
    exact hm (by rw [begin_model hl]; exact hreq)
  · exact hm

/-- U11: a START_RX frame with length 0. -/
theorem startRx_command_lost {c : Config} {ch cond x y z : Byte} (h : Chip) :
    (h.command c .command (startRxFrame ch cond 0 x y z)).mode = .unknown ∨
      h.mode = .boot ∧ startRxFrame ch cond 0 x y z = c.powerUpFrame := by
  unfold Chip.command
  split
  · exact .inl ‹_›
  split
  · exact .inl rfl
  split
  · rename_i hboot
    split
    · exact .inr ⟨hboot, ‹_›⟩
    · exact .inl rfl
  · have heff : ∀ k : Chip, (k.effect c .command (startRxFrame ch cond 0 x y z)).mode = .unknown := fun k => by
      unfold Chip.effect startRxFrame
      rw [decodeFrame_startRx]
      simp only [decodeWireStartRx, half_hi8_lo8, Chip.obey, Chip.startRx]
      rw [if_pos (.inr trivial)]
      rfl
    dsimp only
    rw [if_pos (heff _)]
    exact .inl (heff _)

theorem startRx_zero_chip {s t : State} {ch cond x y z : Byte} (hs : Accepts s) (hl : s.agent.law = .abstractModel)
    (h : exec (.startRx ch cond 0 x y z) s = .next t) : t.agent.chip.mode = .unknown := by
  have hpower : startRxFrame ch cond 0 x y z ≠ s.cfg.powerUpFrame := by
    intro he
    have hd := (Config.distinct hs.1).power
    rw [← he] at hd
    exact hd (by simp [startRxFrame])
  rcases exec_ok_or_unknown (i := .startRx ch cond 0 x y z) hs hl rfl rfl h with ⟨r, u, hu, rfl⟩ | ⟨-, hm⟩
  · have hL : Leads s.cfg (fun _ => True) (fun _ => True) (stepsBody (startRxSteps ch cond 0 x y z)) (·.mode = .unknown) :=
      .steps (.cons' (.send (quiet_any fun _ _ h => h) (List.cons_ne_nil _ _) (cf_rx hs.1 ch cond 0 x y z)
          (startRxFrame_fits (facts_of_admitted hs.1) ch cond 0 x y z)
          fun g _ => (startRx_command_lost g).resolve_right fun hb => hpower hb.2)
        (.cons' (.ofKeeps (closed_unknown s.cfg).closed.waitForCts fun g k hg hk => hk hg) .nil'))
    obtain ⟨-, hlu, -, hm⟩ := hL (begin (.startRx ch cond 0 x y z) s) r u rfl
      ⟨(onRequest_law _ _).trans hl, trivial, trivial⟩ hu
    rw [(end_chip hlu).1]
    exact hm
  · exact hm

end

section

/-! ### SEND_FRAME at the chip -/

/-- The chip in Standby/Ready, its replay done, `tx` and `rx` in its FIFOs: what SEND_FRAME's first steps leave it as. -/
structure Loaded (tx rx : List Byte) (g : Chip) : Prop where
  mode : g.mode = .standbyReady
  configured : g.configured = true
  txFifo : g.txFifo = tx
  rxFifo : g.rxFifo = rx

variable {tx rx : List Byte}

theorem Loaded.powered {g : Chip} (h : Loaded tx rx g) : g.mode.powered = true := by rw [h.mode]; rfl

/-- STANDBY stands already, and acting on it changes only readiness and the enabled classes (R97, R207). -/
theorem Loaded.processed {c : Config} {g : Chip} (h : Loaded tx rx g)
    (ht : g.taken = some (.command, standbyFrame c)) : Loaded tx rx (g.processed c) ∧ (g.processed c).cts = true := by
  have hat : atOnce c .command (standbyFrame c) = true := by simp [atOnce, standbyFrame]
  have hact : g.processed c = { ({ g with taken := none } : Chip).enableInts c (standbyFrame c) with cts := true } := by
    unfold Chip.processed Chip.act
    rw [ht]
    dsimp only
    rw [if_neg (powered_ne h.powered).2.2, if_neg (by simp [h.powered]), if_pos hat]
  rw [hact]
  exact ⟨⟨h.mode, h.configured, h.txFifo, h.rxFifo⟩, rfl⟩

/-- The chips of `Loaded` that are ready. -/
def ReadyLoaded (tx rx : List Byte) (g : Chip) : Prop := Loaded tx rx g ∧ g.cts = true

/-- The chips of `Loaded` with the STANDBY frame in hand. -/
def StandingBy (c : Config) (tx rx : List Byte) (g : Chip) : Prop :=
  Loaded tx rx g ∧ g.cts = false ∧ g.taken = some (.command, standbyFrame c)

theorem idle_readyLoaded : Idle (ReadyLoaded tx rx) := fun _ h => ⟨h.1.powered, h.2⟩

theorem readyLoaded_cleared {c : Config} {g : Chip} (h : ReadyLoaded tx rx g) : ReadyLoaded tx rx (g.cleared c) :=
  ⟨⟨h.1.mode, h.1.configured, h.1.txFifo, h.1.rxFifo⟩, rfl⟩

theorem Leads.clearIfAsserted {c : Config} (hc : c.admitted = true) :
    Leads c (· = []) (ReadyLoaded tx rx) clearIfAsserted (ReadyLoaded tx rx) := by
  intro s r t hs ha ht
  unfold Machine.clearIfAsserted at ht
  split at ht
  · exact Leads.clearInterrupts hc idle_readyLoaded (fun g hg => readyLoaded_cleared hg) s r t hs ha ht
  · injection ht with _ ht
    subst ht
    exact ⟨hs, ha⟩

/-- What SEND_FRAME leaves the chip as (R224). -/
structure Transmits (tx rx : List Byte) (g : Chip) : Prop where
  mode : g.mode = .txArmed
  txFifo : g.txFifo = tx
  txActive : g.txActive = true
  txLength : g.txLength = 21
  txCondition : g.txCondition = 0x30
  rxFifo : g.rxFifo = rx

theorem leads_sendFrame {c : Config} (hc : c.admitted = true) {h : Chip} (hm : h.mode.powered = true)
    (hcts : h.cts = true) (hcf : h.configured = true) {f : List Byte} (hf : f.length = 21)
    (hfit : h.txFifo.length + 21 ≤ c.fifoCap) :
    Leads c (· = []) (· = h) (stepsBody (sendFrameSteps f)) (Transmits (h.txFifo ++ f) h.rxFifo) := by
  refine .steps (.cons' (Q := StandingBy c h.txFifo h.rxFifo) ?_ (.cons' (Q := StandingBy c (h.txFifo ++ f) h.rxFifo) ?_
    (.cons' (Q := ReadyLoaded (h.txFifo ++ f) h.rxFifo) ?_ (.cons' (.sample quiet_nil) (.cons' (.clearIfAsserted hc)
    (.cons' ?_ .nil'))))))
  · rintro s r t rfl
    refine Leads.send quiet_nil (List.cons_ne_nil _ _) (cf_standby hc)
      (le_trans (by simp) (facts_of_admitted hc).cmdCap) ?_ s r t rfl
    rintro _ rfl
    rw [show _ :: _ = standbyFrame s.cfg from rfl, standby_command hc hm hcts]
    exact ⟨⟨rfl, hcf, rfl, rfl⟩, rfl, rfl⟩
  · refine .push hc quiet_nil f fun g hg => ?_
    obtain ⟨hg, hbusy, ht⟩ := hg
    rw [Chip.pushTx, if_neg (powered_ne hg.powered).1, if_neg (by simp [hg.powered, hg.txFifo, hf, hfit])]
    exact ⟨⟨hg.mode, hg.configured, congrArg (· ++ f) hg.txFifo, hg.rxFifo⟩, hbusy, ht⟩
  · refine .waitCts hc quiet_nil quiet_nil (fun g hg => ?_) fun g hg => hg.1.processed hg.2.2
    obtain ⟨h1, h2, -⟩ := powered_ne hg.1.powered
    exact ⟨hg.2.1, h1, h2⟩
  · refine .send quiet_nil (List.cons_ne_nil _ _) (cf_tx hc _ _ _)
      (le_trans (by simp [startTxFrame]) (facts_of_admitted hc).cmdCap) fun g hg => ?_
    have hlen : (Literal.frameLength : Half).toNat ≤ g.txFifo.length := by
      rw [hg.1.txFifo, List.length_append, hf]
      exact Nat.le_add_left _ _
    rw [startTx_command hg.1.powered hg.2 hg.1.configured (by decide) hlen]
    exact ⟨rfl, hg.1.txFifo, rfl, rfl, rfl, hg.1.rxFifo⟩

theorem sendFrame_chip {s t : State} {f : List Byte} (hs : Accepts s) (hat : Attentive s)
    (hcf : s.agent.chip.configured = true) (hf : f.length = 21) (hfit : s.agent.chip.txFifo.length + 21 ≤ s.cfg.fifoCap)
    (h : exec (.sendFrame f) s = .next t) (hst : t.status = .ok) :
    Transmits (s.agent.chip.txFifo ++ f) s.agent.chip.rxFifo t.agent.chip := by
  obtain ⟨-, g, hg, -, -, hchip⟩ := attentive_completed (i := .sendFrame f) hs hat rfl
    (if_pos hf) rfl (request_configured rfl hcf) rfl (leads_sendFrame hs.1 hat.2.2.1 hat.2.2.2 hcf hf hfit) h hst
  rw [hchip]
  exact ⟨hg.mode, hg.txFifo, hg.txActive, hg.txLength, hg.txCondition, hg.rxFifo⟩

/-! ### TRY_RECEIVE at the chip -/

/-- A powered chip that is ready, its replay done, with `tx` in the TX FIFO and what `R` says in the RX FIFO. -/
structure Receiving (tx : List Byte) (R : List Byte → Prop) (g : Chip) : Prop where
  powered : g.mode.powered = true
  cts : g.cts = true
  configured : g.configured = true
  txFifo : g.txFifo = tx
  rxFifo : R g.rxFifo

/-- What a TRY_RECEIVE that hands a frame over leaves the chip as (R224). -/
structure Rearmed (tx : List Byte) (g : Chip) : Prop where
  mode : g.mode = .rxArmed
  rxFifo : g.rxFifo = []
  rxLength : g.rxLength = 21
  onTimeout : g.onTimeout = 0
  onValid : g.onValid = 3
  onInvalid : g.onInvalid = 3
  txFifo : g.txFifo = tx

theorem idle_receiving {R : List Byte → Prop} : Idle (Receiving tx R) := fun _ h => ⟨h.powered, h.cts⟩

/-- A read takes its bytes from the RX FIFO, which has as many at least (R64, R83). -/
theorem leads_readRxFifo {c : Config} (n : Nat) :
    Leads c (· = []) (Receiving tx (n ≤ ·.length)) (readRxFifo n) (Receiving tx fun _ => True) := by
  intro s r t hs ha ht
  obtain ⟨hl, hp, hg⟩ := ha
  obtain ⟨-, hend⟩ := (readsChip_open (s := s) ⟨hl, hp, rfl⟩).reads hg.powered hg.rxFifo
  obtain ⟨hl', hp', hchip⟩ := hend.selOff
  injection ht with _ ht
  subst ht
  refine ⟨by simpa [openRxRead] using hs, hl', hp', ?_⟩
  rw [hchip]
  exact ⟨hg.powered, hg.cts, hg.configured, hg.txFifo, trivial⟩

theorem leads_stageFrame {c : Config} :
    Leads c (· = []) (Receiving tx (Literal.frameLen ≤ ·.length)) stageFrame (Receiving tx fun _ => True) :=
  (leads_readRxFifo Literal.frameLen).bind fun _ _ _ _ hs ha ht => by
    injection ht with _ ht
    subst ht
    exact ⟨hs, ha⟩

theorem leads_rearm {c : Config} (hc : c.admitted = true) :
    Leads c (· = []) (Receiving tx (· = [])) rearm (Rearmed tx) := by
  have hthrough : ∀ g, Receiving tx (· = []) g → _ := fun g hg =>
    rx_through (c := c) (ch := Literal.rearmChannel) (cond := Literal.rearmCondition) (len := Literal.frameLength)
      (x := Literal.rearmOnTimeout) (y := Literal.rearmOnValid) (z := Literal.rearmOnInvalid) hg.configured (by decide)
  refine .framed (f := rearmFrame) hc idle_receiving (List.cons_ne_nil _ _) (cf_rx hc ..)
    (startRxFrame_fits (facts_of_admitted hc) ..) (atOnce_rx hc ..) (fun g hg => ?_) fun g hg => ?_
  · rw [rearmFrame, hthrough g hg]
    exact Mode.noConfusion
  · rw [rearmFrame, hthrough g hg]
    exact ⟨rfl, hg.rxFifo, rfl, rfl, rfl, rfl, hg.txFifo⟩

theorem leads_resetRxFifo {c : Config} (hc : c.admitted = true) {R : List Byte → Prop} :
    Leads c (· = []) (Receiving tx R) (resetFifo Literal.fifoSubRx) (Receiving tx (· = [])) := by
  refine .framed (f := fifoResetFrame Literal.fifoSubRx) hc idle_receiving (List.cons_ne_nil _ _) (cf_fifo hc _)
    (fifoResetFrame_fits (facts_of_admitted hc) _) (atOnce_fifo hc _) (fun g hg => ?_) fun g hg => ?_ <;>
    rw [fifo_through (sub := Literal.fifoSubRx) (.inr (.inl rfl))]
  · exact (powered_ne hg.powered).1
  · exact ⟨hg.powered, rfl, hg.configured, hg.txFifo, rfl⟩

theorem leads_receive {c : Config} (hc : c.admitted = true) :
    Leads c (· = []) (Receiving tx (Literal.frameLen ≤ ·.length)) (chain (counted receiveSteps)) (Rearmed tx) :=
  .cons' leads_stageFrame (.cons' (leads_resetRxFifo hc)
    (.cons' (Q := Receiving tx (· = [])) (.clearInterrupts hc idle_receiving fun _ hg =>
        ⟨hg.powered, rfl, hg.configured, hg.txFifo, hg.rxFifo⟩)
      (.cons' (leads_rearm hc) .nil')))

/-- A TRY_RECEIVE that hands over a frame has gone through all of its steps (R240). -/
theorem tryReceive_some {s u : State} {d : List Byte} (h : tryReceive s = .ok (.some d) u) :
    ∃ v, chain (counted receiveSteps) (stepDone (sampleIrq s)) = .ok () v ∧ u.agent = v.agent := by
  unfold tryReceive at h
  dsimp only at h
  split at h
  · cases hx : chain (counted receiveSteps) (stepDone (sampleIrq s)) with
    | ok a v =>
      rw [hx, Flow.bind_ok] at h
      unfold handOff at h
      split at h
      · injection h with _ h
        exact ⟨v, rfl, by rw [← h]⟩
      · cases h
    | timeout n v => rw [hx] at h; cases h
    | fault v => rw [hx] at h; cases h
  · injection h with h _
    cases h

theorem tryReceive_chip {s t : State} {d : List Byte} (hs : Accepts s) (hat : Attentive s)
    (hcf : s.agent.chip.configured = true) (hrx : 21 ≤ s.agent.chip.rxFifo.length) (h : exec .tryReceive s = .next t)
    (hlog : t.log = s.log ++ [⟨.op .tryReceive, .some d, .ok⟩]) : Rearmed s.agent.chip.txFifo t.agent.chip := by
  obtain ⟨t', r, ht', hr, -⟩ := resultAndStatus .tryReceive s rfl hs
  obtain rfl : t' = t := by rw [ht'] at h; injection h
  obtain ⟨hres, hst⟩ : r = .some d ∧ t'.status = .ok := by
    simpa [Instr.expand] using hr.symm.trans hlog
  subst hres
  rcases exec_ok_or_unknown (i := .tryReceive) hs hat.1 rfl rfl h with ⟨r, u, hu, rfl⟩ | ⟨hst', -⟩
  · have hclean := clean_hostBody s.cfg .tryReceive (begin .tryReceive s)
    change hostBody s.cfg .tryReceive (begin .tryReceive s) = .ok r u at hu
    rw [hu] at hclean
    have hul : u.log = s.log := hclean.log
    obtain rfl : r = .some d := by simpa [hul, Instr.expand] using hlog
    obtain ⟨v, hv, hagent⟩ := tryReceive_some hu
    have hbegin : Calm (· = []) (· = s.agent.chip) (begin .tryReceive s).agent := by
      rw [begin_model hat.1]
      exact ⟨hat.1, hat.2.1, request_configured (i := .tryReceive) rfl hcf⟩
    obtain ⟨-, hcalm⟩ := Leads.sample (c := s.cfg) quiet_nil (begin .tryReceive s) () _ rfl hbegin rfl
    obtain ⟨-, hl, -, hg⟩ := leads_receive hs.1 (stepDone (sampleIrq (begin .tryReceive s))) () v
      (by simp) (by
        rw [stepDone_agent]
        refine ⟨hcalm.1, hcalm.2.1, ?_⟩
        rw [hcalm.2.2]
        exact ⟨hat.2.2.1, hat.2.2.2, hcf, rfl, hrx⟩) hv
    rw [(end_chip (u := u) (hagent ▸ hl)).1, hagent]
    exact ⟨hg.mode, hg.rxFifo, hg.rxLength, hg.onTimeout, hg.onValid, hg.onInvalid, hg.txFifo⟩
  · rw [hst'] at hst
    cases hst

end

section

variable {c : Config}

/-! ### Configured frames -/

/-- No record is empty: its length byte is not 0 (R181). -/
theorem tableRecordsFuel_ne_nil {k : Nat} {t : List Byte} {fs : List (List Byte)} (h : tableRecordsFuel k t = some fs) :
    ∀ f ∈ fs, f ≠ [] := by
  induction k generalizing t fs with
  | zero => cases h
  | succ k ih =>
    cases t with
    | nil => cases h
    | cons l rest =>
      rw [tableRecordsFuel] at h
      split at h
      · injection h with h
        simp [← h]
      · rename_i hl
        split at h
        · obtain ⟨gs, hgs, rfl⟩ := Option.map_eq_some_iff.1 h
          rintro f (_ | ⟨_, hf⟩)
          · rename_i hlen
            refine List.ne_nil_of_length_pos ?_
            rw [List.length_take_of_le hlen]
            exact Nat.pos_of_ne_zero fun h0 => hl (BitVec.eq_of_toNat_eq h0)
          · exact ih hgs f hf
        · cases h

theorem frameParams_ne_nil (hc : c.admitted = true) : ∀ f ∈ c.frameParams, f ≠ [] := by
  obtain ⟨-, -, hd⟩ := Config.admitted_parts hc
  simp only [Config.dataOk, Bool.and_eq_true, List.all_eq_true] at hd
  intro f hf
  have hfits := hd.1.1.1.1.1 f hf
  simp only [frameFits, Bool.and_eq_true, decide_eq_true_eq] at hfits
  exact List.ne_nil_of_length_pos hfits.1

/-- As to mode, completed replay, enabled classes and empty FIFOs, `h` is as `g`. -/
structure Bears (g h : Chip) : Prop where
  mode : h.mode = g.mode
  configured : h.configured = g.configured
  intEnabled : h.intEnabled = g.intEnabled
  txFifo : g.txFifo = [] → h.txFifo = []
  rxFifo : g.rxFifo = [] → h.rxFifo = []

theorem Bears.refl (g : Chip) : Bears g g := ⟨rfl, rfl, rfl, id, id⟩

theorem bears_propWrite {g n o : Byte} {d : List Byte} (hn : n.toNat = d.length) (h : Chip) :
    Bears h (h.propWrite g n o d) := by
  rw [propWrite_counted hn]
  exact ⟨rfl, rfl, rfl, id, id⟩

theorem bears_fifoReset (sub : Byte) (h : Chip) : Bears h (h.fifoReset sub) := by
  refine ⟨rfl, rfl, rfl, fun he => ?_, fun he => ?_⟩
  · show (if _ then _ else _) = _
    split
    · rfl
    · exact he
  · show (if _ then _ else _) = _
    split
    · rfl
    · exact he

theorem bears_intStatus (h : Chip) : Bears h h.intStatus := ⟨rfl, rfl, rfl, id, id⟩

/-- A configured frame that is no property write with a wrong count (R222). -/
theorem bears_configure {i : Instr} (hi : ∀ g n o d, i = .wirePropWrite g n o d → n.toNat = d.length) (h : Chip) :
    Bears h (h.configure c i) := by
  cases i with
  | wirePropWrite g n o d => exact bears_propWrite (hi g n o d rfl) h
  | wireFifoReset sub =>
    dsimp only [Chip.configure]
    split
    · exact bears_fifoReset sub h
    · exact .refl h
  | wireGetIntStatus a =>
    dsimp only [Chip.configure]
    split
    · exact bears_intStatus h
    · exact .refl h
  | _ => exact .refl h

/-- Only a frame with opcode 0x11 decodes as a property write (R128). -/
theorem decodeFrame_prop {f : List Byte} {g n o : Byte} {d : List Byte}
    (h : decodeFrame c f = .ok (.wirePropWrite g n o d)) : f = Literal.opSetProperty :: g :: n :: o :: d := by
  unfold decodeFrame at h
  split at h
  · cases h
  · rename_i op rest
    split at h
    · rename_i hop
      unfold decodePropWrite at h
      split at h
      · injection h with h
        injection h with h1 h2 h3 h4
        rw [hop, h1, h2, h3, h4]
      · cases h
    · exfalso
      unfold decodeOneByte decodeWireStartTx decodeWireStartRx decodeWireReadRx decodeWirePoll at h
      repeat' split at h
      all_goals cases h

theorem plain_effect {f : List Byte} (hf : PlainFrame c f) (h : Chip) : Bears h (h.effect c .configuration f) := by
  unfold Chip.effect
  cases hd : decodeFrame c f with
  | ok i =>
    refine bears_configure (fun g n o d hi => ?_) h
    rw [hi] at hd
    have heq := decodeFrame_prop hd
    obtain ⟨g', n', o', d', hf', hn⟩ := hf.2 (by rw [heq]; rfl)
    rw [heq] at hf'
    injection hf' with _ hf'
    injection hf' with _ hf'
    injection hf' with h1 hf'
    injection hf' with _ h2
    rw [h1, h2]
    exact hn
  | error e =>
    dsimp only
    split
    · obtain ⟨g, n, o, d, rfl, -⟩ := hf.2 ‹_›
      cases hd
    · exact .refl h

/-! ### The bring-up -/

/-- What a bring-up leaves a chip as: in Standby/Ready, ready, with empty FIFOs, and as to its replay and its enabled classes
what has been done so far (R204 to R206, R221). -/
structure Brought (cf rx tx : Prop) (g : Chip) : Prop where
  mode : g.mode = .standbyReady
  cts : g.cts = true
  txFifo : g.txFifo = []
  rxFifo : g.rxFifo = []
  configured : cf → g.configured = true
  received : rx → g.intEnabled.packetReceived = true
  sent : tx → g.intEnabled.packetSent = true

variable {cf rx tx : Prop}

theorem Brought.mono {rx' tx' : Prop} {g : Chip} (h : Brought cf rx tx g) (hr : rx' → rx) (ht : tx' → tx) :
    Brought cf rx' tx' g := ⟨h.mode, h.cts, h.txFifo, h.rxFifo, h.configured, h.received ∘ hr, h.sent ∘ ht⟩

theorem idle_brought : Idle (Brought cf rx tx) := fun g h => ⟨by rw [h.mode]; rfl, h.cts⟩

theorem Brought.through {g : Chip} (h : Brought cf rx tx g) {src : FrameSource} {f : List Byte}
    (he : ∀ k : Chip, Bears k (k.effect c src f)) :
    Brought cf (rx ∨ f ∈ c.rxIrqEnable) (tx ∨ f ∈ c.txIrqEnable) (g.through c src f) := by
  obtain ⟨hmode, hconf, hint, htx, hrx⟩ := he { g with intRead := false, cts := false, taken := none }
  refine ⟨hmode.trans h.mode, rfl, htx h.txFifo, hrx h.rxFifo, fun hcf => hconf.trans (h.configured hcf),
    fun hr => Bool.or_eq_true_iff.2 ?_, fun ht => Bool.or_eq_true_iff.2 ?_⟩
  · exact hr.imp (fun hr => (congrArg IntSet.packetReceived hint).trans (h.received hr)) decide_eq_true
  · exact ht.imp (fun ht => (congrArg IntSet.packetSent hint).trans (h.sent ht)) decide_eq_true

/-- A frame and its handshake at a chip that is being brought up. -/
theorem Leads.broughtFrame (hc : c.admitted = true) {src : FrameSource} {f : List Byte} (hne : f ≠ [])
    (hcf : CommandFrame c f) (hl : f.length ≤ c.cmdBufCap) (ha : atOnce c src f = false)
    (he : ∀ k : Chip, Bears k (k.effect c src f)) :
    Leads c (· = []) (Brought cf rx tx) (chain [sendFrom src f, waitForCts])
      (Brought cf (rx ∨ f ∈ c.rxIrqEnable) (tx ∨ f ∈ c.txIrqEnable)) :=
  .framed hc idle_brought hne hcf hl ha (fun g hg => by rw [(hg.through he).mode]; exact Mode.noConfusion)
    fun g hg => hg.through he

theorem Leads.broughtConfig (hc : c.admitted = true) {f : List Byte} (hne : f ≠ []) (hf : PlainFrame c f)
    (hl : f.length ≤ c.cmdBufCap) :
    Leads c (· = []) (Brought cf rx tx) (configWait f)
      (Brought cf (rx ∨ f ∈ c.rxIrqEnable) (tx ∨ f ∈ c.txIrqEnable)) :=
  .broughtFrame hc hne hf.1 hl (by simp [atOnce]) (plain_effect hf)

theorem Leads.broughtProp (hc : c.admitted = true) (g o : Byte) {d : List Byte} (hd : d.length ≤ c.propMax) :
    Leads c (· = []) (Brought cf rx tx) (setProperty g o d) (Brought cf rx tx) := by
  have hf := facts_of_admitted hc
  have hn : (BitVec.ofNat 8 d.length).toNat = d.length := by
    rw [BitVec.toNat_ofNat]
    exact Nat.mod_eq_of_lt (by have := hf.propMax; omega)
  refine (Leads.broughtFrame hc (f := propFrame g o d) (List.cons_ne_nil _ _) (cf_prop hc g o d)
    (by have := hf.propCap; simp only [propFrame, List.length_cons]; omega) (atOnce_prop hc _ _) fun k => ?_).mono
    (fun _ h => h) fun _ h => h.mono .inl .inl
  rw [propFrame, propFrame_effect]
  exact bears_propWrite hn k

theorem Leads.broughtClear (hc : c.admitted = true) :
    Leads c (· = []) (Brought cf rx tx) Machine.clearInterrupts (Brought cf rx tx) :=
  .clearInterrupts hc idle_brought fun g hg => by
    refine ⟨hg.mode, rfl, hg.txFifo, hg.rxFifo, hg.configured, fun h => ?_, fun h => ?_⟩
    · exact Bool.or_eq_true_iff.2 (.inl (hg.received h))
    · exact Bool.or_eq_true_iff.2 (.inl (hg.sent h))

theorem Leads.broughtFifo (hc : c.admitted = true) {sub : Byte} (hsub : sub = 1 ∨ sub = 2 ∨ sub = 3) :
    Leads c (· = []) (Brought cf rx tx) (resetFifo sub) (Brought cf rx tx) := by
  refine (Leads.broughtFrame hc (f := fifoResetFrame sub) (List.cons_ne_nil _ _) (cf_fifo hc sub)
    (fifoResetFrame_fits (facts_of_admitted hc) sub) (atOnce_fifo hc sub) fun k => ?_).mono
    (fun _ h => h) fun _ h => h.mono .inl .inl
  rw [fifo_effect sub hsub]
  exact bears_fifoReset sub k

theorem Leads.broughtConfigs (hc : c.admitted = true) {fs : List (List Byte)} (hne : ∀ f ∈ fs, f ≠ [])
    (hf : ∀ f ∈ fs, PlainFrame c f) (hl : ∀ f ∈ fs, f.length ≤ c.cmdBufCap) :
    Leads c (· = []) (Brought cf rx tx) (chain (fs.map configWait)) (Brought cf rx tx) := by
  refine .all fun g hg => ?_
  obtain ⟨f, hm, rfl⟩ := List.mem_map.1 hg
  exact (Leads.broughtConfig hc (hne f hm) (hf f hm) (hl f hm)).mono (fun _ h => h) fun _ h => h.mono .inl .inl

/-- As `Leads.broughtConfigs`, with what the frames enable. -/
theorem Leads.broughtEnables (hc : c.admitted = true) {fs : List (List Byte)} (hne : ∀ f ∈ fs, f ≠ [])
    (hf : ∀ f ∈ fs, PlainFrame c f) (hl : ∀ f ∈ fs, f.length ≤ c.cmdBufCap) :
    Leads c (· = []) (Brought cf rx tx) (chain (Machine.counted (fs.map configWait)))
      (Brought cf (rx ∨ ∃ f ∈ fs, f ∈ c.rxIrqEnable) (tx ∨ ∃ f ∈ fs, f ∈ c.txIrqEnable)) := by
  induction fs generalizing rx tx with
  | nil => exact Leads.nil'.mono (fun _ h => h) fun _ h => h.mono (by simp) (by simp)
  | cons f fs ih =>
    simp only [List.forall_mem_cons] at hne hf hl
    refine (Leads.cons' (Leads.broughtConfig hc hne.1 hf.1 hl.1) (ih hne.2 hf.2 hl.2)).mono (fun _ h => h)
      fun _ h => h.mono (fun hr => ?_) fun ht => ?_
    · simpa only [List.exists_mem_cons_iff, or_assoc] using hr
    · simpa only [List.exists_mem_cons_iff, or_assoc] using ht

theorem Leads.cursor {P : Chip → Prop} (g : State → Nat) : Leads c (· = []) P (lift fun s => { s with cursor := g s }) P :=
  .pure (fun _ => rfl) fun _ => rfl

/-- The chip is told that the replay of CONFIG_TABLE has completed (R293). -/
theorem noteReplayed_brought {s : State} (h : Calm (· = []) (Brought cf rx tx) s.agent) :
    Calm (· = []) (Brought True rx tx) (noteReplayed s.cfg.configTable s).agent := by
  obtain ⟨hl, hp, hg⟩ := h
  rw [noteReplayed, if_pos rfl]
  unfold Agent.onReplayed
  dsimp only
  rw [hl]
  refine ⟨rfl, hp, ?_⟩
  show Brought True rx tx (Chip.replayed _)
  rw [Chip.replayed, if_neg (by rw [hg.mode]; exact Mode.noConfusion)]
  exact ⟨hg.mode, hg.cts, hg.txFifo, hg.rxFifo, fun _ => rfl, hg.received, hg.sent⟩

theorem Leads.broughtReplay (hc : c.admitted = true) (hp : ∀ f ∈ (tableRecords c.configTable).getD [], PlainFrame c f) :
    Leads c (· = []) (Brought cf rx tx) (replay c.configTable) (Brought True rx tx) := by
  obtain ⟨fs, hfs, hcap⟩ := tableWF_records (facts_of_admitted hc).table
  rw [hfs] at hp
  have hsteps : Leads c (· = []) (Brought cf rx tx) (chain (recordSteps .configuration fs)) (Brought cf rx tx) := by
    refine .all fun g hg => ?_
    obtain ⟨f, hm, rfl⟩ := List.mem_map.1 hg
    refine Leads.append (fs := [sendFrom .configuration f, waitForCts]) ?_ (.one (.cursor _))
    exact (Leads.broughtConfig hc (tableRecordsFuel_ne_nil hfs f hm) (hp f hm) (hcap f hm)).mono (fun _ h => h)
      fun _ h => h.mono .inl .inl
  rintro s r t rfl ha ht
  rw [replay_eq hfs, tableSource, if_pos rfl] at ht
  cases hx : chain (recordSteps .configuration fs) { s with cursor := 0 } with
  | ok a u =>
    obtain ⟨hcfg, hu⟩ := hsteps { s with cursor := 0 } a u rfl ha hx
    rw [hx, Flow.bind_ok] at ht
    injection ht with _ ht
    subst ht
    rw [← hcfg]
    exact ⟨noteReplayed_cfg u _, noteReplayed_brought hu⟩
  | timeout n u => rw [hx] at ht; cases ht
  | fault u => rw [hx] at ht; cases ht

theorem Leads.broughtPlan (hc : c.admitted = true) {plan : List PlanEntry} (h : ∀ e ∈ plan, e.count ≤ c.propMax)
    (p : List Byte) : Leads c (· = []) (Brought cf rx tx) (chain (planSteps plan p)) (Brought cf rx tx) := by
  refine .all fun g hg => ?_
  obtain ⟨e, he, rfl⟩ := List.mem_map.1 hg
  exact .broughtProp hc _ _ ((length_planSlice p e).trans (h e he))

/-! ### The power-up -/

/-- An edge of the reset line and a delay, at a chip that makes no move of its own (R211). -/
theorem Leads.setRst {P Q : Chip → Prop} (b : Bool) (h : ∀ g, P g → Q (g.reset b)) :
    Leads c (· = []) P (lift (setRst b)) Q := by
  intro s r t hs ha ht
  injection ht with _ ht
  subst ht
  refine ⟨hs, ?_⟩
  rw [setRst_agent, Agent.onRst, turn_still ⟨ha.1, ha.2.1, rfl⟩, ha.1]
  exact ⟨rfl, ha.2.1, h _ ha.2.2⟩

theorem Leads.delayUs {P : Chip → Prop} (n : Nat) : Leads c (· = []) P (lift (delayUs n)) P := by
  intro s r t hs ha ht
  injection ht with _ ht
  subst ht
  refine ⟨hs, ?_⟩
  rw [delayUs_agent, Agent.onDelayUs, turn_still ⟨ha.1, ha.2.1, rfl⟩]
  exact ha

theorem Leads.delayMs {P Q : Chip → Prop} (n : Nat) (h : ∀ g, P g → Q (g.settle c n)) :
    Leads c (· = []) P (lift (delayMs n)) Q := by
  rintro s r t rfl ha ht
  injection ht with _ ht
  subst ht
  refine ⟨rfl, ?_⟩
  rw [delayMs_agent, Agent.onDelayMs, turn_still ⟨ha.1, ha.2.1, rfl⟩, ha.1]
  exact ⟨rfl, ha.2.1, h _ ha.2.2⟩

/-- The chip in mode `m` as its reset leaves it (R211): nothing in its FIFOs. -/
structure Fresh (m : Mode) (g : Chip) : Prop where
  mode : g.mode = m
  held : g.held = false
  txFifo : g.txFifo = []
  rxFifo : g.rxFifo = []

/-- The power-up brings a chip up that no bring-up holds in Unknown (R196, R211, R213). -/
theorem Leads.powerUp (hc : c.admitted = true) :
    Leads c (· = []) (·.held = false) Machine.powerUp (Brought False False False) := by
  have hpower := power_wf hc
  have hchain : Leads c (· = []) (·.held = false) (chain (powerUpSteps c)) (Brought False False False) := by
    refine .cons (Q := Fresh .off) (.setRst true fun g hg => ?_) (.cons (.delayUs _)
      (.cons (Q := fun g => Fresh .off g ∧ g.rstHeld = false) (.setRst false fun g hg => ?_)
      (.cons (Q := fun g => Fresh .boot g ∧ g.cts = true) (.delayMs _ fun g hg => ?_)
      (.cons (Q := fun g => Fresh .boot g ∧ g.cts = false ∧ g.taken = some (.command, c.powerUpFrame))
        (.send quiet_nil hpower.1 hpower.2 (facts_of_admitted hc).powerFits fun g hg => ?_)
      (.cons (Q := Brought False False False) (.waitCts hc quiet_nil quiet_nil (fun g hg => ?_) fun g hg => ?_)
      (.one (.broughtClear hc)))))))
    · rw [Chip.reset, if_neg (by simp [hg]), if_pos rfl]
      exact ⟨rfl, rfl, rfl, rfl⟩
    · rw [Chip.reset, if_neg (by simp [hg.held]), if_neg (by simp)]
      exact ⟨⟨hg.mode, hg.held, hg.txFifo, hg.rxFifo⟩, rfl⟩
    · rw [Chip.settle, if_pos ⟨hg.1.mode, by simp [hg.2], le_rfl⟩]
      exact ⟨⟨rfl, hg.1.held, hg.1.txFifo, hg.1.rxFifo⟩, rfl⟩
    · rw [Chip.command, if_neg (by simp [hg.1.mode]), if_neg (by simp [hg.1.mode, hg.2]), if_pos hg.1.mode, if_pos rfl]
      exact ⟨⟨hg.1.mode, hg.1.held, hg.1.txFifo, hg.1.rxFifo⟩, rfl, rfl⟩
    · exact ⟨hg.2.1, by simp [hg.1.mode], by simp [hg.1.mode]⟩
    · have hact : g.processed c = { g with taken := none, mode := .standbyReady, cts := true } := by
        unfold Chip.processed Chip.act
        rw [hg.2.2]
        dsimp only
        rw [if_pos hg.1.mode]
      rw [hact]
      exact ⟨rfl, rfl, hg.1.txFifo, hg.1.rxFifo, False.elim, False.elim, False.elim⟩
  rintro s r t rfl
  exact hchain s r t rfl

theorem Leads.bringup (hc : c.admitted = true) (hplain : PlainConfig c) :
    Leads c (· = []) (·.held = false) bringup (Brought True False False) := by
  have hf := facts_of_admitted hc
  have hfreq : Leads c (· = []) (Brought True False False) (setFrequency c.freqParams) (Brought True False False) := by
    rintro s r t rfl
    exact Leads.broughtPlan hc (fun e he => (hf.freqPlan e he).1) _ s r t rfl
  have hpow : Leads c (· = []) (Brought True False False) (setPower c.powerParams) (Brought True False False) := by
    rintro s r t rfl
    exact Leads.broughtPlan hc (fun e he => (hf.powerPlan e he).1) _ s r t rfl
  have hextra := Leads.broughtConfigs (cf := True) (rx := False) (tx := False) hc (fs := bringupFrames c.bringupExtra)
    (fun f hm => frameParams_ne_nil hc f (by simp [Config.frameParams, hm])) (fun f hm => hplain f (by simp [hm]))
    hf.extraFits
  have hchain : Leads c (· = []) (·.held = false) (chain (bringupSteps c)) (Brought True False False) := by
    refine .append (.append (.cons (.powerUp hc) (.cons (.broughtReplay hc fun f hm => hplain f (by simp [hm]))
      (.cons hfreq (.one hpow)))) hextra) (.cons (.broughtFifo hc (.inr (.inr rfl))) (.one (.broughtClear hc)))
  rintro s r t rfl
  exact hchain s r t rfl

/-! ### ENTER_RX and ENTER_TX at the chip -/

/-- A bring-up is in flight only at a chip in Tx-Armed (R207). -/
theorem request_bringup {i : Instr} {h : Chip} (hi : Instr.bringsUp i = true) (hm : h.mode ≠ .txArmed) :
    h.request i = h := by rw [Chip.request, if_pos hi, if_neg hm]

theorem leads_rearmBrought (hc : c.admitted = true) :
    Leads c (· = []) (Brought True rx tx) rearm fun g => Rearmed [] g ∧ (rx → g.intEnabled.packetReceived = true) := by
  have hthrough : ∀ g, Brought True rx tx g → _ := fun g hg =>
    rx_through (c := c) (ch := Literal.rearmChannel) (cond := Literal.rearmCondition) (len := Literal.frameLength)
      (x := Literal.rearmOnTimeout) (y := Literal.rearmOnValid) (z := Literal.rearmOnInvalid) (hg.configured trivial)
      (by decide)
  refine .framed (f := rearmFrame) hc idle_brought (List.cons_ne_nil _ _) (cf_rx hc ..)
    (startRxFrame_fits (facts_of_admitted hc) ..) (atOnce_rx hc ..) (fun g hg => ?_) fun g hg => ?_
  · rw [rearmFrame, hthrough g hg]
    exact Mode.noConfusion
  · rw [rearmFrame, hthrough g hg]
    exact ⟨⟨rfl, hg.rxFifo, rfl, rfl, rfl, rfl, hg.txFifo⟩, fun h => Bool.or_eq_true_iff.2 (.inl (hg.received h))⟩

theorem enterRx_chip {s t : State} (hs : Accepts s) (hl : s.agent.law = .abstractModel) (hp : s.agent.plan = [])
    (hheld : s.agent.chip.held = false) (hm : s.agent.chip.mode ≠ .txArmed) (hplain : PlainConfig s.cfg)
    (h : exec .enterRx s = .next t) (hst : t.status = .ok) :
    Rearmed [] t.agent.chip ∧ (s.cfg.rxIrqEnable ≠ [] → t.agent.chip.intEnabled.packetReceived = true) := by
  have hL : Leads s.cfg (· = []) (·.held = false) (stepsBody (enterRxSteps s.cfg))
      fun g => Rearmed [] g ∧ (s.cfg.rxIrqEnable ≠ [] → g.intEnabled.packetReceived = true) :=
    .steps (.cons' (.bringup hs.1 hplain) (.append' (.broughtEnables hs.1
        (fun f hf => frameParams_ne_nil hs.1 f (by simp [Config.frameParams, hf])) (fun f hf => hplain f (by simp [hf]))
        (facts_of_admitted hs.1).rxFits)
      (.cons' ((leads_rearmBrought hs.1).mono (fun _ h => h) fun _ h => ⟨h.1, fun hne => h.2 (.inr ((List.exists_mem_of_ne_nil _ hne).imp fun _ h => ⟨h, h⟩))⟩)
        .nil')))
  obtain ⟨-, -, -, g, ⟨hg, hrx⟩, hchip⟩ := completed_chip (i := .enterRx) (P := (·.held = false)) hs hl hp rfl rfl rfl
    (by rw [request_bringup rfl hm]; exact hheld) rfl hL h hst
  rw [hchip]
  exact ⟨⟨hg.mode, hg.rxFifo, hg.rxLength, hg.onTimeout, hg.onValid, hg.onInvalid, hg.txFifo⟩, hrx⟩

theorem enterTx_chip {s t : State} (hs : Accepts s) (hl : s.agent.law = .abstractModel) (hp : s.agent.plan = [])
    (hheld : s.agent.chip.held = false) (hm : s.agent.chip.mode ≠ .txArmed) (hplain : PlainConfig s.cfg)
    (h : exec .enterTx s = .next t) (hst : t.status = .ok) :
    Brought True False (s.cfg.txIrqEnable ≠ []) t.agent.chip := by
  have hL : Leads s.cfg (· = []) (·.held = false) (stepsBody (enterTxSteps s.cfg))
      (Brought True False (s.cfg.txIrqEnable ≠ [])) :=
    .steps (.cons' (.bringup hs.1 hplain) (.append' (.broughtEnables hs.1
        (fun f hf => frameParams_ne_nil hs.1 f (by simp [Config.frameParams, hf])) (fun f hf => hplain f (by simp [hf]))
        (facts_of_admitted hs.1).txFits)
      (.cons' ((Leads.broughtFifo hs.1 (.inl rfl)).mono (fun _ h => h)
        fun _ h => h.mono .inl fun hne => .inr ((List.exists_mem_of_ne_nil _ hne).imp fun _ h => ⟨h, h⟩)) .nil')))
  obtain ⟨-, -, -, g, hg, hchip⟩ := completed_chip (i := .enterTx) (P := (·.held = false)) hs hl hp rfl rfl rfl
    (by rw [request_bringup rfl hm]; exact hheld) rfl hL h hst
  rw [hchip]
  exact ⟨hg.mode, hg.cts, hg.txFifo, hg.rxFifo, hg.configured, hg.received, hg.sent⟩

/-- The operations that must not come before a completed replay make the chip Unknown there (R293). -/
theorem needsReplay_chip {i : Instr} {s t : State} (hs : Accepts s) (hk : i.failingCheck s.cfg = none)
    (hl : s.agent.law = .abstractModel) (hcf : s.agent.chip.configured = false)
    (hi : (∃ ch cond len x y z, i = .startRx ch cond len x y z) ∨ (∃ f, i = .sendFrame f) ∨ i = .tryReceive)
    (h : exec i s = .next t) : t.agent.chip.mode = .unknown := by
  rcases hi with ⟨ch, cond, len, x, y, z, rfl⟩ | ⟨f, rfl⟩ | rfl <;>
    exact exec_unknown hs hl rfl hk rfl (by rw [request_unconfigured rfl rfl hcf]; rfl) (by simp [Pulses])
      (by simp [Replays]) h

/-- Settles O60: each operation's frames in turn, what each leaves of the chip, and the poll that ends it. -/
theorem waitedCommandsAtTheChip : Obligations.WaitedCommandsAtTheChip := by
  unfold Obligations.WaitedCommandsAtTheChip
  refine ⟨fun s t hs hat h hst => ?_, fun s t sub hs hat hsub h hst => ?_,
    fun s t ch cond len x y z hs hat hcf hlen h hst => ?_, fun s t f hs hat hcf hf hfit h hst => ?_,
    fun s t d hs hat hcf hrx h hlog => ?_, fun s t hs hl hp hheld hm hplain h hst => ?_,
    fun s t hs hl hp hheld hm hplain h hst => ?_, fun i s t hs hk hl hcf hi h => needsReplay_chip hs hk hl hcf hi h,
    fun s t ch cond x y z hs hl h => startRx_zero_chip hs hl h⟩
  · have hstill := clearInts_chip hs hat h hst
    refine ⟨by rw [hstill.2.2]; rfl, by rw [hstill.2.2]; rfl, ?_⟩
    rw [onSample_still hstill hat.2.2.1]
    rfl
  · obtain ⟨hm, htx, hrx⟩ := resetFifo_chip hs hat hsub h hst
    rw [htx, hrx]
    rcases hsub with rfl | rfl | rfl <;> exact ⟨hm, rfl, rfl⟩
  · rw [startRx_chip hs hat hcf hlen h hst]
    exact ⟨rfl, rfl, rfl, rfl, rfl, rfl, rfl⟩
  · obtain ⟨h1, h2, h3, h4, h5, h6⟩ := sendFrame_chip hs hat hcf hf hfit h hst
    exact ⟨h1, h2, h3, h4, h5, h6⟩
  · obtain ⟨h1, h2, h3, h4, h5, h6, h7⟩ := tryReceive_chip hs hat hcf hrx h hlog
    exact ⟨h1, h2, h3, h4, h5, h6, h7⟩
  · obtain ⟨⟨h1, h2, h3, h4, h5, h6, h7⟩, h8⟩ := enterRx_chip hs hl hp hheld hm hplain h hst
    exact ⟨h1, h7, h2, h3, h4, h5, h6, h8⟩
  · obtain ⟨h1, -, h2, h3, -, -, h4⟩ := enterTx_chip hs hl hp hheld hm hplain h hst
    exact ⟨h1, h2, h3, h4⟩

end

section

variable {c : Config}

/-! ### What the chip's functions keep of its property store -/

/-- As to property store, frame in hand, readiness and what holds it, `h` is as `g`, and powered if `g` is. -/
structure SameStore (g h : Chip) : Prop where
  props : h.props = g.props
  taken : h.taken = g.taken
  cts : h.cts = g.cts
  held : h.held = g.held
  known : h.mode ≠ .unknown → g.mode ≠ .unknown
  powered : g.mode.powered = true → h.mode ≠ .unknown → h.mode.powered = true

theorem SameStore.refl (g : Chip) : SameStore g g := ⟨rfl, rfl, rfl, rfl, id, fun h _ => h⟩

theorem SameStore.of_mode {g h : Chip} (h1 : h.props = g.props) (h2 : h.taken = g.taken) (h3 : h.cts = g.cts)
    (h4 : h.held = g.held) (hm : h.mode = g.mode) : SameStore g h :=
  ⟨h1, h2, h3, h4, hm ▸ id, fun hp _ => hm ▸ hp⟩

/-- A chip that goes from a powered mode to another. -/
theorem SameStore.of_powered {g h : Chip} (h1 : h.props = g.props) (h2 : h.taken = g.taken) (h3 : h.cts = g.cts)
    (h4 : h.held = g.held) (hg : g.mode.powered = true) (hh : h.mode ≠ .unknown → h.mode.powered = true) : SameStore g h :=
  ⟨h1, h2, h3, h4, fun _ => (powered_ne hg).1, fun _ hm => hh hm⟩

/-- A function of the chip loses it, or leaves its property store alone. -/
def Lossy (g h : Chip) : Prop := h.mode = .unknown ∨ SameStore g h

theorem lossy_lost (g k : Chip) : Lossy g k.lost := .inl rfl

theorem nextMode_powered {code : Byte} {m : Mode} (hm : m.powered = true) :
    nextMode code m ≠ .unknown → (nextMode code m).powered = true := by
  unfold nextMode
  split
  · exact fun _ => hm
  split
  · exact fun _ => rfl
  · exact fun h => absurd rfl h

/-- A chip in Tx-Armed or Rx-Armed goes to the mode a next-state code names (R218). -/
theorem lossy_enter {g k : Chip} {m : Mode} (h1 : k.props = g.props) (h2 : k.taken = g.taken) (h3 : k.cts = g.cts)
    (h4 : k.held = g.held) (hg : g.mode.powered = true) (hm : m ≠ .unknown → m.powered = true) : Lossy g (k.enter m) := by
  unfold Chip.enter
  split
  · exact .inl rfl
  · exact .inr (.of_powered h1 h2 h3 h4 hg hm)

/-- The chip's own moves other than acting on its frame (R216, R217). -/
theorem lossy_move {m : ChipMove} (hm : m ≠ .act) (g : Chip) : Lossy g (g.move c m) := by
  have hrx : g.mode = .rxArmed → g.mode.powered = true := fun h => by rw [h]; rfl
  cases m with
  | act => exact absurd rfl hm
  | txComplete =>
    show Lossy g g.txComplete
    unfold Chip.txComplete
    split
    · rename_i h
      have htx : g.mode.powered = true := by rw [h.1]; rfl
      refine lossy_enter rfl rfl rfl rfl htx ?_
      unfold afterTx
      split
      · exact nextMode_powered htx
      · exact fun h => absurd rfl h
    · exact .inr (.refl g)
  | rxValid p =>
    show Lossy g (g.rxValid c p)
    unfold Chip.rxValid
    split
    · rename_i h
      split
      · exact lossy_lost g g
      · exact lossy_enter rfl rfl rfl rfl (hrx h.1) (nextMode_powered (hrx h.1))
    · exact .inr (.refl g)
  | rxInvalid =>
    show Lossy g g.rxInvalid
    unfold Chip.rxInvalid
    split
    · exact lossy_enter rfl rfl rfl rfl (hrx ‹_›) (nextMode_powered (hrx ‹_›))
    · exact .inr (.refl g)
  | rxTimeout =>
    show Lossy g g.rxTimeout
    unfold Chip.rxTimeout
    split
    · exact lossy_enter rfl rfl rfl rfl (hrx ‹_›) (nextMode_powered (hrx ‹_›))
    · exact .inr (.refl g)

theorem lossy_push (d : List Byte) (g : Chip) : Lossy g (g.pushTx c d) := by
  unfold Chip.pushTx
  split
  · exact .inl ‹_›
  split
  · exact lossy_lost g g
  · exact .inr (.of_mode rfl rfl rfl rfl rfl)

theorem lossy_read (n : Nat) (g : Chip) : Lossy g (g.afterRead n) := by
  unfold Chip.afterRead
  split
  · exact .inr (.of_mode rfl rfl rfl rfl rfl)
  · exact .inr (.refl g)

theorem sameStore_fifoReset (sub : Byte) (g : Chip) : SameStore g (g.fifoReset sub) := .of_mode rfl rfl rfl rfl rfl

theorem sameStore_intStatus (g : Chip) : SameStore g g.intStatus := .of_mode rfl rfl rfl rfl rfl

/-- Every command frame but a property write (R222). -/
theorem lossy_obey {i : Instr} (hi : ∀ g n o d, i ≠ .wirePropWrite g n o d) {g : Chip} (hg : g.mode.powered = true) :
    Lossy g (g.obey c i) := by
  cases i with
  | wirePropWrite a n o d => exact absurd rfl (hi a n o d)
  | wireFifoReset sub =>
    dsimp only [Chip.obey]
    split
    · exact .inr (sameStore_fifoReset sub g)
    · exact lossy_lost g g
  | wireStartTx ch cond len =>
    dsimp only [Chip.obey, Chip.startTx]
    split
    · exact lossy_lost g g
    · exact .inr (.of_powered rfl rfl rfl rfl hg fun _ => rfl)
  | wireStartRx ch cond len x y z =>
    dsimp only [Chip.obey, Chip.startRx]
    split
    · exact lossy_lost g g
    · exact .inr (.of_powered rfl rfl rfl rfl hg fun _ => rfl)
  | wireGetIntStatus a =>
    dsimp only [Chip.obey]
    split
    · exact .inr (sameStore_intStatus g)
    · exact lossy_lost g g
  | wireChangeState code =>
    dsimp only [Chip.obey]
    split
    · exact .inr (.of_powered rfl rfl rfl rfl hg fun _ => rfl)
    · exact lossy_lost g g
  | _ => exact lossy_lost g g

/-- Every configured frame but a property write (R222). -/
theorem lossy_configure {i : Instr} (hi : ∀ g n o d, i ≠ .wirePropWrite g n o d) (g : Chip) :
    Lossy g (g.configure c i) := by
  cases i with
  | wirePropWrite a n o d => exact absurd rfl (hi a n o d)
  | wireFifoReset sub =>
    dsimp only [Chip.configure]
    split
    · exact .inr (sameStore_fifoReset sub g)
    · exact .inr (.refl g)
  | wireGetIntStatus a =>
    dsimp only [Chip.configure]
    split
    · exact .inr (sameStore_intStatus g)
    · exact .inr (.refl g)
  | _ => exact .inr (.refl g)

/-- Every frame that is no property write (R66, R128, R222). -/
theorem lossy_effect {src : FrameSource} {f : List Byte} (hf : ∀ g n o d, f ≠ Literal.opSetProperty :: g :: n :: o :: d)
    {g : Chip} (hg : g.mode.powered = true) : Lossy g (g.effect c src f) := by
  unfold Chip.effect
  cases hd : decodeFrame c f with
  | ok i =>
    have hi : ∀ g n o d, i ≠ .wirePropWrite g n o d := fun g n o d hi => hf g n o d (decodeFrame_prop (hi ▸ hd))
    cases src with
    | command => exact lossy_obey hi hg
    | configuration => exact lossy_configure hi g
  | error e =>
    cases src with
    | command => exact lossy_lost g g
    | configuration =>
      dsimp only
      split
      · exact lossy_lost g g
      · exact .inr (.refl g)

/-! ### One byte of the store -/

/-- The frame in hand does not store to `a` (R97). -/
def Chip.spares (a : Nat) (g : Chip) : Prop := ∀ src f, g.taken = some (src, f) → ¬ StoresTo f a

/-- Unless the chip is Unknown: it was known before, nothing holds it that did not before, and if no frame in hand stored to `a`,
none does and the byte is as it was. -/
structure Spared (a : Nat) (g h : Chip) : Prop where
  known : g.mode ≠ .unknown
  held : h.held = g.held
  byte : g.spares a → h.spares a ∧ Memory.read a h.props = Memory.read a g.props

/-- `Spared`, if the chip ends known. -/
def Spares (a : Nat) (g h : Chip) : Prop := h.mode ≠ .unknown → Spared a g h

variable {a : Nat}

theorem SameStore.spared {g h : Chip} (hs : SameStore g h) (hm : h.mode ≠ .unknown) : Spared a g h :=
  ⟨hs.known hm, hs.held, fun hg => ⟨fun src f ht => hg src f (hs.taken ▸ ht), by rw [hs.props]⟩⟩

theorem SameStore.spares {g h : Chip} (hs : SameStore g h) : Spares a g h := hs.spared

theorem Lossy.spares {g h : Chip} (hl : Lossy g h) : Spares a g h := fun hm => (hl.resolve_left hm).spared hm

theorem Spares.refl (a : Nat) (g : Chip) : Spares a g g := (SameStore.refl g).spares

theorem Spares.trans {f g h : Chip} (h1 : Spares a f g) (h2 : Spares a g h) : Spares a f h := by
  intro hm
  obtain ⟨hgk, hgh, hgb⟩ := h2 hm
  obtain ⟨hfk, hfh, hfb⟩ := h1 hgk
  exact ⟨hfk, hgh.trans hfh, fun hf => ⟨(hgb (hfb hf).1).1, (hgb (hfb hf).1).2.trans (hfb hf).2⟩⟩

/-- The run of a property write that does not cover `a` (R66, R82). -/
theorem read_run_other {f : List Byte} {g n o : Byte} {d : List Byte} (hf : f = Literal.opSetProperty :: g :: n :: o :: d)
    (h : ¬ StoresTo f a) (m : Memory) :
    Memory.read a (Memory.writeRun (propAddress g o.toNat) (inGroup o d) m) = Memory.read a m := by
  refine Memory.read_writeRun_other _ _ ?_
  by_contra hin
  push Not at hin
  refine h ⟨g, n, o, d, hf, hin.1, ?_, ?_⟩ <;> have hlt := hin.2 <;> have ho := o.isLt <;>
    simp only [inGroup, List.length_take, propAddress] at hlt ⊢ <;> omega

/-- What a frame leaves of a powered chip: powered, nothing more to hold it, and the byte, unless the frame stores to `a` (R66). -/
theorem effect_spared {src : FrameSource} {f : List Byte} {g : Chip} (hg : g.mode.powered = true)
    (hm : (g.effect c src f).mode ≠ .unknown) : (g.effect c src f).held = g.held ∧
      (g.effect c src f).mode.powered = true ∧
      (¬ StoresTo f a → Memory.read a (g.effect c src f).props = Memory.read a g.props) := by
  by_cases hf : ∃ b n o d, f = Literal.opSetProperty :: b :: n :: o :: d
  · obtain ⟨b, n, o, d, rfl⟩ := hf
    rw [propFrame_effect] at hm ⊢
    by_cases hn : n.toNat = d.length
    · rw [propWrite_counted hn]
      exact ⟨rfl, hg, fun h => read_run_other rfl h _⟩
    · rw [propWrite_miscounted hn] at hm
      exact absurd rfl hm
  · have hs := (lossy_effect (c := c) (src := src) (f := f) (by simpa using hf) hg).resolve_left hm
    exact ⟨hs.held, hs.powered hg hm, fun _ => by rw [hs.props]⟩

/-- What acting on a frame leaves of the chip (R97). -/
theorem act_spared {g : Chip} {src : FrameSource} {f : List Byte} (ht : g.taken = some (src, f))
    (hm : (g.act c).mode ≠ .unknown) : (g.act c).held = g.held ∧
      (g.mode.powered = true → (g.act c).mode.powered = true) ∧
      (¬ StoresTo f a → Memory.read a (g.act c).props = Memory.read a g.props) := by
  unfold Chip.act at hm ⊢
  rw [ht] at hm ⊢
  dsimp only at hm ⊢
  by_cases hboot : g.mode = .boot
  · rw [if_pos hboot]
    exact ⟨rfl, fun _ => rfl, fun _ => rfl⟩
  rw [if_neg hboot] at hm ⊢
  by_cases hp : g.mode.powered = true
  · rw [if_neg (not_not.2 hp)] at hm ⊢
    by_cases hat : atOnce c src f = true
    · rw [if_pos hat]
      exact ⟨rfl, id, fun _ => rfl⟩
    · rw [if_neg hat] at hm ⊢
      obtain ⟨h1, h2, h3⟩ := effect_spared (a := a) (g := { g with taken := none }) hp hm
      exact ⟨h1, fun _ => h2, h3⟩
  · rw [if_pos hp]
    exact ⟨rfl, fun h => h, fun _ => rfl⟩

theorem act_none {g : Chip} (ht : g.taken = none) : g.act c = g := by
  unfold Chip.act
  rw [ht]

theorem act_unknown {g : Chip} (hg : g.mode = .unknown) : (g.act c).mode = .unknown :=
  (closed_unknown c).move .act g hg

theorem spares_none {g : Chip} (ht : g.taken = none) : g.spares a := fun src f h => by rw [ht] at h; cases h

theorem spares_act (g : Chip) : Spares a g (g.act c) := by
  intro hm
  cases ht : g.taken with
  | none =>
    rw [act_none ht] at hm ⊢
    exact Spares.refl a g hm
  | some p =>
    obtain ⟨hheld, -, hbyte⟩ := act_spared (a := a) ht hm
    exact ⟨fun hg => hm (act_unknown hg), hheld, fun hs => ⟨spares_none (act_taken c g), hbyte (hs p.1 p.2 ht)⟩⟩

theorem powered_of_ne {m : Mode} (h1 : m ≠ .unknown) (h2 : m ≠ .off) (h3 : m ≠ .boot) : m.powered = true := by
  cases m <;> simp_all [Mode.powered]

/-- A command frame (R212): the chip is Unknown after it, or was in Boot and has POWER_UP_FRAME in hand, or was powered and has
the frame in hand, which stands at once or has yet to be acted on. -/
theorem command_cases (c : Config) (src : FrameSource) (f : List Byte) (g : Chip) :
    (g.command c src f).mode = .unknown ∨
      (f = c.powerUpFrame ∧ g.mode ≠ .unknown ∧ g.command c src f = { g with cts := false, taken := some (src, f) }) ∨
      (g.mode.powered = true ∧ (({ g with intRead := false } : Chip).effect c src f).mode ≠ .unknown ∧
        g.command c src f =
          { (if atOnce c src f then ({ g with intRead := false } : Chip).effect c src f else { g with intRead := false }) with
            cts := false, taken := some (src, f) }) := by
  unfold Chip.command
  split
  · exact .inl ‹_›
  split
  · exact .inl rfl
  rename_i hu hbusy
  split
  · split
    · exact .inr (.inl ⟨‹_›, hu, rfl⟩)
    · exact .inl rfl
  · dsimp only
    split
    · exact .inl ‹_›
    · exact .inr (.inr ⟨powered_of_ne hu (fun h => hbusy (.inr h)) ‹_›, ‹_›, rfl⟩)

/-- A command frame that does not store to `a` (R97, R212). -/
theorem spares_command {src : FrameSource} {f : List Byte} (hf : ¬ StoresTo f a) (g : Chip) :
    Spares a g (g.command c src f) := by
  intro hm
  have hother : ∀ k : Chip, k.taken = some (src, f) → k.spares a := fun k hk src' f' ht => by
    rw [hk] at ht
    cases ht
    exact hf
  rcases command_cases c src f g with hu | ⟨-, hu, hg⟩ | ⟨hp, he, hg⟩
  · exact absurd hu hm
  · rw [hg]
    exact ⟨hu, rfl, fun _ => ⟨hother _ rfl, rfl⟩⟩
  · obtain ⟨hheld, -, hbyte⟩ := effect_spared (a := a) (g := { g with intRead := false }) hp he
    rw [hg]
    split
    · exact ⟨(powered_ne hp).1, hheld, fun _ => ⟨hother _ rfl, hbyte hf⟩⟩
    · exact ⟨(powered_ne hp).1, rfl, fun _ => ⟨hother _ rfl, rfl⟩⟩

/-- The chip keeps the byte at everything at the bus, for command frames that do not store to it. -/
theorem closed_spares (c : Config) (a : Nat) : ChipClosed c (fun f => ¬ StoresTo f.2 a) (Spares a) where
  refl := Spares.refl a
  trans := Spares.trans
  move m h := by
    by_cases hact : m = .act
    · rw [hact]
      exact spares_act h
    · exact (lossy_move hact h).spares
  lost h := (lossy_lost h h).spares
  rx h l := SameStore.spares (.of_mode rfl rfl rfl rfl rfl)
  processed h _ hm := by
    obtain ⟨h1, h2, h3⟩ := spares_act (a := a) (c := c) h hm
    exact ⟨h1, h2, h3⟩
  push d h := (lossy_push d h).spares
  read n h := (lossy_read n h).spares
  command f h hf := spares_command hf h

/-- A completed replay tells the chip nothing of its store (R293). -/
theorem onReplayed_spares {s : State} (t : List Byte) : Under (Spares a) s (noteReplayed t s) := by
  intro hl
  unfold noteReplayed
  split
  · show s.agent.onReplayed.law = _ ∧ Spares a _ s.agent.onReplayed.chip
    unfold Agent.onReplayed
    rw [hl]
    refine ⟨rfl, ?_⟩
    show Spares a _ (Chip.replayed _)
    unfold Chip.replayed
    split
    · exact .refl a _
    · exact SameStore.spares (.of_mode rfl rfl rfl rfl rfl)
  · exact ⟨hl, .refl a _⟩

/-! ### One byte of the store, over an instruction that drives no reset -/

theorem request_spares (i : Instr) (g : Chip) : Spares a g (g.request i) := by
  rcases request_cases i g with h | h | h <;> rw [h]
  · exact .refl a g
  · exact fun hm => absurd rfl hm
  · exact fun hm => absurd rfl hm

/-- What the parts of an instruction keep of the byte, the whole of it keeps, unless the chip ends Unknown. -/
theorem exec_spares {i : Instr} {s t : State} (ha : s.cfg.admitted = true) (h : exec i s = .next t)
    (hl : s.agent.law = .abstractModel) (hm : t.agent.chip.mode ≠ .unknown) (hp : ¬ Pulses i)
    (hf : ∀ f ∈ frames s.cfg i, ¬ StoresTo f.2 a) :
    s.agent.chip.mode ≠ .unknown ∧ (s.agent.chip.spares a →
      t.agent.chip.spares a ∧ Memory.read a t.agent.chip.props = Memory.read a s.agent.chip.props) := by
  obtain ⟨hseq, ⟨k, -, rfl⟩ | ⟨hk, hw, -⟩ | ⟨-, hw, rfl⟩⟩ := exec_next h
  · exact ⟨hm, fun hs => ⟨hs, rfl⟩⟩
  · rcases exec_ok_or_unknown ⟨ha, hseq⟩ hl hw hk h with ⟨r, u, hu, rfl⟩ | ⟨-, hunk⟩
    · have hkeeps := (closed_spares s.cfg a).closed.hostBody hw ha hk hf (absurd · hp) fun _ t s _ => onReplayed_spares t
      obtain ⟨hlu, hsp⟩ := (hkeeps (begin i.expand s) rfl).1 ((onRequest_law _ _).trans hl)
      rw [hu] at hlu hsp
      rw [begin_model hl] at hsp
      rw [(end_chip (u := u) hlu).1] at hm ⊢
      obtain ⟨h1, -, h3⟩ := (request_spares i.expand s.agent.chip).trans hsp hm
      exact ⟨h1, h3⟩
    · exact absurd hunk hm
  · obtain ⟨-, hsp⟩ := ((closed_spares s.cfg a).wireBody hw hf s rfl).1 hl
    have hagent : (settle (wireBody s.cfg i s)).agent = (wireBody s.cfg i s).state.agent := by
      cases wireBody s.cfg i s <;> rfl
    rw [hagent] at hm ⊢
    obtain ⟨h1, -, h3⟩ := hsp hm
    exact ⟨h1, h3⟩

theorem exec_readProp {i : Instr} {s t : State} (ha : s.cfg.admitted = true) (h : exec i s = .next t)
    (hl : s.agent.law = .abstractModel) (hm : t.agent.chip.mode ≠ .unknown) (hp : ¬ Pulses i)
    (hf : ∀ f ∈ frames s.cfg i, ¬ StoresTo f.2 a) (hs : NotInHand s a) : readProp a t = readProp a s := by
  obtain ⟨hk, hbyte⟩ := exec_spares ha h hl hm hp hf
  rw [readProp, readProp, if_neg hm, if_neg hk, (hbyte hs).2]

/-! ### Which frames store where -/

theorem not_storesTo_of_head {f : List Byte} (h : f.head? ≠ some Literal.opSetProperty) : ¬ StoresTo f a := by
  rintro ⟨g, n, o, d, rfl, -⟩
  exact h rfl

theorem storesTo_iff {g n o : Byte} {d : List Byte} : StoresTo (Literal.opSetProperty :: g :: n :: o :: d) a ↔
    propAddress g o.toNat ≤ a ∧ a < propAddress g o.toNat + d.length ∧ a < propAddress g 256 := by
  constructor
  · rintro ⟨g', n', o', d', heq, h⟩
    simp only [List.cons.injEq, true_and] at heq
    obtain ⟨rfl, -, rfl, rfl⟩ := heq
    exact h
  · exact fun h => ⟨g, n, o, d, rfl, h⟩

theorem not_storesTo_outside {g n o : Byte} {d : List Byte} (h : a < propAddress g o.toNat ∨
    propAddress g o.toNat + d.length ≤ a ∨ propAddress g 256 ≤ a) :
    ¬ StoresTo (Literal.opSetProperty :: g :: n :: o :: d) a := by
  rw [storesTo_iff]
  omega

theorem planFrames_spare {plan : List PlanEntry} {p : List Byte} (h : ∀ e ∈ plan, a < propAddress e.group e.offset.toNat ∨
    propAddress e.group e.offset.toNat + e.count ≤ a ∨ propAddress e.group 256 ≤ a) :
    ∀ f ∈ planFrames plan p, ¬ StoresTo f.2 a := by
  intro f hf
  obtain ⟨e, he, rfl⟩ := List.mem_map.1 hf
  refine not_storesTo_outside ?_
  have hlen := length_planSlice p e
  have := h e he
  omega

theorem tableFrames_spare {t : List Byte} (h : ∀ f ∈ (tableRecords t).getD [], ¬ StoresTo f a) :
    ∀ f ∈ tableFrames c t, ¬ StoresTo f.2 a := by
  intro f hf
  obtain ⟨l, hl, rfl⟩ := List.mem_map.1 hf
  exact h l hl

/-- The opcodes of the configuration are none of a property write (R128). -/
theorem heads_spare (hc : c.admitted = true) : c.opGetIntStatus ≠ Literal.opSetProperty ∧
    c.opChangeState ≠ Literal.opSetProperty ∧ c.powerUpFrame.headD 0 ≠ Literal.opSetProperty := by
  obtain ⟨-, h1, h2, h3⟩ := Config.distinct hc
  simp only [List.mem_cons, not_or] at h1 h2 h3
  exact ⟨h1.1, h2.1, h3.1⟩

theorem spare_status (hc : c.admitted = true) (l : List Byte) : ¬ StoresTo (c.opGetIntStatus :: l) a :=
  not_storesTo_of_head fun h => (heads_spare hc).1 (Option.some.inj h)

theorem spare_state (hc : c.admitted = true) (l : List Byte) : ¬ StoresTo (c.opChangeState :: l) a :=
  not_storesTo_of_head fun h => (heads_spare hc).2.1 (Option.some.inj h)

theorem spare_power (hc : c.admitted = true) (l : List Byte) : ¬ StoresTo (c.powerUpFrame.headD 0 :: l) a :=
  not_storesTo_of_head fun h => (heads_spare hc).2.2 (Option.some.inj h)

theorem spare_powerUpFrame (hc : c.admitted = true) : ¬ StoresTo c.powerUpFrame a := by
  have hspare := spare_power (a := a) hc
  have hne := (power_wf hc).1
  cases hf : c.powerUpFrame with
  | nil => exact absurd hf hne
  | cons op args =>
    rw [hf] at hspare
    exact hspare args

theorem spare_fifo (sub : Byte) : ¬ StoresTo (fifoResetFrame sub) a := not_storesTo_of_head fun h => absurd (Option.some.inj h) (by decide)
theorem spare_tx (ch cond : Byte) (len : Half) : ¬ StoresTo (startTxFrame ch cond len) a := not_storesTo_of_head fun h => absurd (Option.some.inj h) (by decide)
theorem spare_rx (ch cond : Byte) (len : Half) (x y z : Byte) : ¬ StoresTo (startRxFrame ch cond len x y z) a :=
  not_storesTo_of_head fun h => absurd (Option.some.inj h) (by decide)

/-- A wire row other than PROP_WRITE stores nothing (R112). -/
theorem wireFrames_spare (hc : c.admitted = true) {i : Instr} (hw : i.isWire = true)
    (hi : ∀ g n o d, i ≠ .wirePropWrite g n o d) : ∀ f ∈ frames c i, ¬ StoresTo f.2 a := by
  have one : ∀ {l : List Byte}, ¬ StoresTo l a → ∀ f ∈ [Sent.ofCommand l], ¬ StoresTo f.2 a := fun h f hf => by
    rw [List.mem_singleton.1 hf]
    exact h
  cases i with
  | wirePropWrite g n o d => exact absurd rfl (hi g n o d)
  | wireWriteTxFifo | wireReadRxFifo | wireReadCmdBuff => exact fun _ h => absurd h List.not_mem_nil
  | wireFifoReset sub => exact one (spare_fifo sub)
  | wireStartTx ch cond len => exact one (spare_tx ch cond len)
  | wireStartRx ch cond len x y z => exact one (spare_rx ch cond len x y z)
  | wireGetIntStatus l => exact one (spare_status hc l)
  | wireChangeState code => exact one (spare_state hc [code])
  | wirePowerUp l => exact one (spare_power hc l)
  | _ => cases hw

/-- The host operations that send no property write, and drive no reset. -/
theorem hostFrames_spare (hc : c.admitted = true) {i : Instr}
    (hi : i = .waitCts ∨ (∃ n, i = .getResp n) ∨ (∃ n, i = .readRxFifo n) ∨ (∃ d, i = .writeTxFifo d) ∨ i = .clearInts ∨
      (∃ ch cond len, i = .startTx ch cond len) ∨ (∃ ch cond len x y z, i = .startRx ch cond len x y z) ∨
      (∃ sub, i = .resetFifo sub) ∨ i = .standby ∨ i = .tryReceive ∨ (∃ f, i = .sendFrame f) ∨ i = .readRssi ∨
      i = .resetTxFifo ∨ i = .resetRxFifo ∨ i = .resetBothFifos ∨ i = .rearmRx) :
    ¬ Pulses i ∧ ∀ f ∈ frames c i, ¬ StoresTo f.2 a := by
  have hstatus : ¬ StoresTo (intStatusFrame c) a := spare_status hc c.intClrArgs
  have hstandby : ¬ StoresTo (standbyFrame c) a := spare_state hc [c.standbyCode]
  have hrearm : ¬ StoresTo rearmFrame a := spare_rx _ _ _ _ _ _
  have hsend : ¬ StoresTo sendTxFrame a := spare_tx _ _ _
  rcases hi with rfl | ⟨n, rfl⟩ | ⟨n, rfl⟩ | ⟨d, rfl⟩ | rfl | ⟨ch, cond, len, rfl⟩ | ⟨ch, cond, len, x, y, z, rfl⟩ | ⟨sub, rfl⟩ |
    rfl | rfl | ⟨f, rfl⟩ | rfl | rfl | rfl | rfl | rfl <;>
    simp [Pulses, frames, Sent.ofCommand, spare_fifo, spare_tx, spare_rx, hstatus, hstandby, hrearm, hsend]

end

section

variable {c : Config} {a : Nat}

/-! ### Parts that send property writes, whatever the chip does (R66, R97) -/

/-- Of a chip that is known: no frame in hand stores to `a`, and the byte reads as `v`. -/
structure Settled (a : Nat) (v : Option Byte) (g : Chip) : Prop where
  spares : g.spares a
  byte : Memory.read a g.props = v

/-- `Settled`, if the chip is known. -/
def Stands (a : Nat) (v : Option Byte) (g : Chip) : Prop := g.mode ≠ .unknown → Settled a v g

/-- The frame is a property write that puts `v` at `a`, whatever the store holds (R66, R82). -/
def PutsByte (f : List Byte) (a : Nat) (v : Byte) : Prop :=
  ∃ g n o d, f = Literal.opSetProperty :: g :: n :: o :: d ∧
    ∀ m, Memory.read a (Memory.writeRun (propAddress g o.toNat) (inGroup o d) m) = some v

theorem puts_byte (g n o : Byte) {d : List Byte} {k : Nat} (hk : k < d.length) (ho : o.toNat + k ≤ 0xFF) :
    PutsByte (Literal.opSetProperty :: g :: n :: o :: d) (propAddress g o.toNat + k) d[k] := by
  refine ⟨g, n, o, d, rfl, fun m => ?_⟩
  have hlt : k < (inGroup o d).length := by
    rw [inGroup, List.length_take]
    omega
  rw [Memory.read_writeRun_mem (inGroup o d) m hlt]
  simp [inGroup]

/-- Of a chip that is known: it is powered, and the frame is in hand, at a busy chip, or has been acted on. -/
structure Handled (f : List Byte) (a : Nat) (v : Byte) (g : Chip) : Prop where
  powered : g.mode.powered = true
  acted : g.cts = true → g.taken = none
  frame : (∃ src, g.taken = some (src, f)) ∨ Settled a (some v) g

/-- `Handled`, if the chip is known. -/
def InHand (f : List Byte) (a : Nat) (v : Byte) (g : Chip) : Prop := g.mode ≠ .unknown → Handled f a v g

variable {f : List Byte} {v : Byte}

theorem inHand_lossy {g h : Chip} (hg : InHand f a v g) (hl : Lossy g h) : InHand f a v h := by
  intro hm
  have hs := hl.resolve_left hm
  obtain ⟨hp, hact, hfr⟩ := hg (hs.known hm)
  refine ⟨hs.powered hp hm, fun hc => hs.taken.trans (hact (hs.cts ▸ hc)), ?_⟩
  rw [hs.taken]
  exact hfr.imp id fun hset => ⟨fun src l ht => hset.spares src l (hs.taken ▸ ht), by rw [hs.props]; exact hset.byte⟩

/-- A command frame that puts `v` at `a` is in hand after its window, unless the chip is Unknown (R97, R212). -/
theorem inHand_command (hc : c.admitted = true) (hf : PutsByte f a v) (src : FrameSource) (g : Chip) :
    InHand f a v (g.command c src f) := by
  intro hm
  obtain ⟨b, n, o, d, rfl, hread⟩ := hf
  rcases command_cases c src (Literal.opSetProperty :: b :: n :: o :: d) g with hu | ⟨hpower, -⟩ | ⟨hp, -, hg⟩
  · exact absurd hu hm
  · exact absurd (by rw [← hpower]; rfl) (heads_spare hc).2.2
  · rw [hg, atOnce_prop hc]
    exact ⟨hp, fun h => absurd h (by simp), .inl ⟨src, rfl⟩⟩

/-- Acting on the frame puts the byte in its place (R66, R97). -/
theorem settled_act (hc : c.admitted = true) (hf : PutsByte f a v) {g : Chip} (hp : g.mode.powered = true)
    {src : FrameSource} (ht : g.taken = some (src, f)) (hm : (g.act c).mode ≠ .unknown) : Settled a (some v) (g.act c) := by
  obtain ⟨b, n, o, d, rfl, hread⟩ := hf
  refine ⟨spares_none (act_taken c g), ?_⟩
  unfold Chip.act at hm ⊢
  rw [ht] at hm ⊢
  dsimp only at hm ⊢
  rw [if_neg (powered_ne hp).2.2, if_neg (not_not.2 hp), atOnce_prop hc, if_neg Bool.false_ne_true, propFrame_effect] at hm ⊢
  by_cases hn : n.toNat = d.length
  · rw [propWrite_counted hn]
    exact hread _
  · rw [propWrite_miscounted hn] at hm
    exact absurd rfl hm

theorem Settled.spared {w : Option Byte} {g h : Chip} (hg : Settled a w g) (hs : Spared a g h) : Settled a w h :=
  ⟨(hs.byte hg.spares).1, (hs.byte hg.spares).2.trans hg.byte⟩

theorem inHand_act (hc : c.admitted = true) (hf : PutsByte f a v) {g : Chip} (hg : InHand f a v g) :
    InHand f a v (g.act c) := by
  intro hm
  obtain ⟨hp, hact, hfr⟩ := hg fun hu => hm (act_unknown hu)
  cases ht : g.taken with
  | none =>
    rw [act_none ht]
    exact ⟨hp, hact, hfr⟩
  | some p =>
    obtain ⟨-, hpow, -⟩ := act_spared (a := a) ht hm
    refine ⟨hpow hp, fun _ => act_taken c g, .inr ?_⟩
    rcases hfr with ⟨src, hsrc⟩ | hset
    · exact settled_act hc hf hp hsrc hm
    · exact hset.spared (spares_act g hm)

/-- What a handshake keeps of a frame in hand. -/
theorem closed_inHand (hc : c.admitted = true) (hf : PutsByte f a v) :
    ChipClosed c (fun _ => False) (fun g h => InHand f a v g → InHand f a v h) where
  refl _ := id
  trans h k := k ∘ h
  move m h hg := by
    by_cases hact : m = .act
    · rw [hact]
      exact inHand_act hc hf hg
    · exact inHand_lossy hg (lossy_move hact h)
  lost h hg := inHand_lossy hg (lossy_lost h h)
  rx h l hg := inHand_lossy hg (.inr (.of_mode rfl rfl rfl rfl rfl))
  processed h _ hg hm := by
    obtain ⟨hp, -, hfr⟩ := inHand_act hc hf hg hm
    exact ⟨hp, fun _ => act_taken c h, hfr.imp id fun hset => ⟨hset.spares, hset.byte⟩⟩
  push d h hg := inHand_lossy hg (lossy_push d h)
  read n h hg := inHand_lossy hg (lossy_read n h)
  command f h hn := hn.elim

/-- After the handshake that follows it, the byte stands (R97). -/
theorem Leads.putByte (hc : c.admitted = true) (hf : PutsByte f a v) :
    Leads c (fun _ => True) (InHand f a v) waitForCts (Stands a (some v)) := by
  intro s r t hs ha ht
  obtain ⟨hcfg, hlaw, -, hg⟩ := Leads.ofKeeps (closed_inHand hc hf).closed.waitForCts (fun _ _ hg hk => hk hg) s r t hs ha ht
  obtain ⟨l, hr⟩ := wait_ok ht
  refine ⟨hcfg, hlaw, trivial, fun hm => ?_⟩
  obtain ⟨hp, hact, hfr⟩ := hg hm
  have hcts := (ready_handshake (poll_wf hc).2.1 hs ha.1 hr).resolve_right (not_or.2 ⟨hm, (powered_ne hp).2.1⟩)
  refine hfr.resolve_left ?_
  rintro ⟨src, hsrc⟩
  rw [hact hcts] at hsrc
  cases hsrc

/-! ### Sequences of frames with their handshakes -/

/-- The part sends the frames `ws` in order, each with its handshake, and nothing else that concerns the byte at `a`: it keeps what
everything that spares the byte keeps, if none of the frames stores to `a`; and a byte that one of them puts there, and no later
one stores to, stands at its end. -/
structure Writes {α : Type} (c : Config) (a : Nat) (f : State → Flow α) (ws : List (List Byte)) : Prop where
  law : Leads c (fun _ => True) (fun _ => True) f (fun _ => True)
  spares : (∀ w ∈ ws, ¬ StoresTo w a) → KeepsAt c (Under (Spares a)) f
  puts : ∀ {pre post w v}, ws = pre ++ w :: post → PutsByte w a v → (∀ l ∈ post, ¬ StoresTo l a) →
    Leads c (fun _ => True) (fun _ => True) f (Stands a (some v))

theorem Stands.spares {w : Option Byte} {g h : Chip} (hg : Stands a w g) (hs : Spares a g h) : Stands a w h :=
  fun hm => (hg (hs hm).known).spared (hs hm)

/-- A part that sends no frame that concerns the byte. -/
theorem Writes.none {α : Type} {p : State → Flow α} (h : KeepsAt c (Under (Spares a)) p) : Writes c a p [] where
  law := .ofKeeps h fun _ _ _ _ => trivial
  spares _ := h
  puts he := absurd he (by simp)

theorem Writes.bind {α β : Type} {p : State → Flow α} {q : α → State → Flow β} {ws vs : List (List Byte)}
    (hp : Writes c a p ws) (hq : ∀ x, Writes c a (q x) vs) : Writes c a (fun s => (p s).bind q) (ws ++ vs) where
  law := hp.law.bind fun x => (hq x).law
  spares hspare := .bind (closed_spares c a).composes (hp.spares fun w hw => hspare w (List.mem_append_left _ hw))
    fun x => (hq x).spares fun w hw => hspare w (List.mem_append_right _ hw)
  puts {pre post w v} he hw hpost := by
    rcases List.append_eq_append_iff.1 he with ⟨mid, rfl, hvs⟩ | ⟨mid, rfl, hvs⟩
    · exact hp.law.bind fun x => (hq x).puts hvs hw hpost
    · cases mid with
      | nil => exact hp.law.bind fun x => (hq x).puts (pre := []) (by simpa using hvs.symm) hw hpost
      | cons y mid =>
        injection hvs with h1 h2
        subst h1 h2
        exact (hp.puts rfl hw fun l hl => hpost l (List.mem_append_left _ hl)).bind fun x =>
          .ofKeeps ((hq x).spares fun l hl => hpost l (List.mem_append_right _ hl)) fun _ _ => Stands.spares

theorem Writes.discard {α : Type} {p : State → Flow α} {ws : List (List Byte)} (hp : Writes c a p ws) {d : State → State}
    (hd : KeepsAt c (Under (Spares a)) (lift d)) {β : Type} (r : β) :
    Writes c a (fun s => (p s).bind fun _ t => .ok r (d t)) ws := by
  have hq : Writes c a (fun t => Flow.ok r (d t)) [] := .none fun s hs => hd s hs
  simpa using hp.bind fun _ => hq

/-- What a part does under the configuration is all that counts. -/
theorem Writes.congr {α : Type} {p q : State → Flow α} {ws : List (List Byte)} (hq : Writes c a q ws)
    (h : ∀ s, s.cfg = c → p s = q s) : Writes c a p ws where
  law s r t hs ha ht := hq.law s r t hs ha (h s hs ▸ ht)
  spares hw s hs := by rw [h s hs]; exact hq.spares hw s hs
  puts he hw hp s r t hs ha ht := hq.puts he hw hp s r t hs ha (h s hs ▸ ht)

/-- The steps write these frames one after another. -/
inductive WritesAll (c : Config) (a : Nat) : List Step → List (List Byte) → Prop
  | nil : WritesAll c a [] []
  | cons {p : Step} {ps : List Step} {ws vs : List (List Byte)} :
    Writes c a p ws → WritesAll c a ps vs → WritesAll c a (p :: ps) (ws ++ vs)

theorem WritesAll.append {ps qs : List Step} {ws vs : List (List Byte)} (hp : WritesAll c a ps ws)
    (hq : WritesAll c a qs vs) : WritesAll c a (ps ++ qs) (ws ++ vs) := by
  induction hp with
  | nil => exact hq
  | cons h _ ih =>
    rw [List.append_assoc]
    exact .cons h ih

theorem WritesAll.none {ps : List Step} (h : ∀ p ∈ ps, KeepsAt c (Under (Spares a)) p) : WritesAll c a ps [] := by
  induction ps with
  | nil => exact .nil
  | cons p ps ih =>
    exact .cons (ws := []) (.none (h p List.mem_cons_self)) (ih fun q hq => h q (List.mem_cons_of_mem _ hq))

/-- One part for each of the frames. -/
theorem WritesAll.map {α : Type} {l : List α} {p : α → Step} {w : α → List Byte}
    (h : ∀ x ∈ l, Writes c a (p x) [w x]) : WritesAll c a (l.map p) (l.map w) := by
  induction l with
  | nil => exact .nil
  | cons x xs ih => exact .cons (h x List.mem_cons_self) (ih fun y hy => h y (List.mem_cons_of_mem _ hy))

theorem WritesAll.each {l : List (List Byte)} {p : List Byte → Step} (h : ∀ f ∈ l, Writes c a (p f) [f]) :
    WritesAll c a (l.map p) l := by
  have hmap := WritesAll.map (w := id) h
  rwa [List.map_id] at hmap

theorem WritesAll.chain {ps : List Step} {ws : List (List Byte)} (h : WritesAll c a ps ws) :
    Writes c a (chain ps) ws := by
  induction h with
  | nil => exact .none fun _ hs => ⟨fun hl => ⟨hl, .refl a _⟩, hs⟩
  | cons h _ ih => exact h.bind fun _ => ih

theorem WritesAll.counted {ps : List Step} {ws : List (List Byte)} (h : WritesAll c a ps ws) :
    WritesAll c a (Machine.counted ps) ws := by
  induction h with
  | nil => exact .nil
  | cons h _ ih => exact .cons (h.discard (closed_spares c a).closed.stepDone ()) ih

theorem WritesAll.steps {ps : List Step} {ws : List (List Byte)} (h : WritesAll c a ps ws) :
    Writes c a (stepsBody ps) ws :=
  h.counted.chain.discard (d := id) (fun _ hs => ⟨fun hl => ⟨hl, .refl a _⟩, hs⟩) Result.ok

/-! ### The parts of the operations that write properties -/

/-- A frame that is a property write is a command frame to the chip, and not empty. -/
theorem PutsByte.frame (hc : c.admitted = true) (hf : PutsByte f a v) : f ≠ [] ∧ CommandFrame c f := by
  obtain ⟨g, n, o, d, rfl, -⟩ := hf
  exact ⟨List.cons_ne_nil _ _, cf_propBytes hc _⟩

/-- The frame's own window (R212). -/
theorem Leads.handByte (hc : c.admitted = true) (hf : PutsByte f a v) (hl : f.length ≤ c.cmdBufCap) (src : FrameSource) :
    Leads c (fun _ => True) (fun _ => True) (sendFrom src f) (InHand f a v) :=
  .send (quiet_any fun _ _ _ => trivial) (hf.frame hc).1 (hf.frame hc).2 hl fun g _ => inHand_command hc hf src g

/-- A frame and its handshake. -/
theorem writes_framed (hc : c.admitted = true) (src : FrameSource) (hl : f.length ≤ c.cmdBufCap) :
    Writes c a (chain [sendFrom src f, waitForCts]) [f] where
  law := .ofKeeps (R := fun g h => g.mode = .unknown → h.mode = .unknown)
    (.chain (closed_unknown c).composes ((closed_unknown c).closed.cmdSteps trivial)) fun _ _ _ _ => trivial
  spares h := .chain (closed_spares c a).composes ((closed_spares c a).closed.cmdSteps (h f List.mem_cons_self))
  puts he hw _ := by
    obtain ⟨-, hfw⟩ | ⟨-, hnil⟩ := List.append_eq_singleton_iff.1 he.symm
    · injection hfw with hfw
      subst hfw
      exact (Leads.handByte hc hw hl src).cons (.one (.putByte hc hw))
    · cases hnil

theorem writes_configWaits (hc : c.admitted = true) {fs : List (List Byte)} (hl : ∀ f ∈ fs, f.length ≤ c.cmdBufCap) :
    WritesAll c a (fs.map configWait) fs :=
  .each fun f hf => writes_framed hc .configuration (hl f hf)

/-- The frames of a plan's property writes (R198, R199). -/
def planWrites (plan : List PlanEntry) (p : List Byte) : List (List Byte) :=
  plan.map fun e => propFrame e.group e.offset (planSlice p e)

theorem writes_planSteps (hc : c.admitted = true) {plan : List PlanEntry} (h : ∀ e ∈ plan, e.count ≤ c.propMax)
    (p : List Byte) : WritesAll c a (planSteps plan p) (planWrites plan p) := by
  refine .map fun e he => writes_framed hc .command ?_
  have hcap := (facts_of_admitted hc).propCap
  have hlen := (length_planSlice p e).trans (h e he)
  simp only [propFrame, List.length_cons]
  omega

theorem keepsAt_cursor (g : State → Nat) : KeepsAt c (Under (Spares a)) (lift fun s => { s with cursor := g s }) :=
  fun _ hs => ⟨fun hl => ⟨hl, .refl a _⟩, hs⟩

theorem writes_record (hc : c.admitted = true) (src : FrameSource) (n : Nat) (hl : f.length ≤ c.cmdBufCap) :
    Writes c a (replayRecord src n f) [f] := by
  have hrun : replayRecord src n f =
      fun s => (chain [sendFrom src f, waitForCts] s).bind fun _ => chain [lift fun s => { s with cursor := s.cursor + n + 1 }] :=
    funext fun s => chain_append (fs := [sendFrom src f, waitForCts])
  rw [hrun]
  exact (writes_framed hc src hl).bind fun _ =>
    (WritesAll.none (List.forall_mem_singleton.2 (keepsAt_cursor fun s => s.cursor + n + 1))).chain

theorem writes_replay (hc : c.admitted = true) {t : List Byte} {fs : List (List Byte)} (hfs : tableRecords t = some fs)
    (hcap : ∀ f ∈ fs, f.length ≤ c.cmdBufCap) : Writes c a (replay t) fs := by
  have hrec : WritesAll c a (recordSteps (tableSource c t) fs) fs := .each fun f hf => writes_record hc _ _ (hcap f hf)
  have hnote : KeepsAt c (Under (Spares a)) (lift (noteReplayed t)) := fun s hs =>
    ⟨onReplayed_spares t, (noteReplayed_cfg s t).trans hs⟩
  have hstart : Writes c a (lift fun s => { s with cursor := 0 }) [] := .none (keepsAt_cursor fun _ => 0)
  refine (hstart.bind fun _ => hrec.chain.discard hnote ()).congr fun s hs => ?_
  subst hs
  rw [replay_eq hfs]
  rfl

theorem writes_setFrequency (hc : c.admitted = true) (p : List Byte) :
    Writes c a (setFrequency p) (planWrites c.freqPlan p) :=
  (writes_planSteps hc (fun e he => ((facts_of_admitted hc).freqPlan e he).1) p).chain.congr fun s hs => by
    rw [← hs]
    rfl

theorem writes_setPower (hc : c.admitted = true) (p : List Byte) :
    Writes c a (setPower p) (planWrites c.powerPlan p) :=
  (writes_planSteps hc (fun e he => ((facts_of_admitted hc).powerPlan e he).1) p).chain.congr fun s hs => by
    rw [← hs]
    rfl

/-- The bring-up after its power-up (R204): the frames of `bringupWrites` in order, and two that write no property. -/
theorem writes_bringup (hc : c.admitted = true) : WritesAll c a (bringupSteps c).tail (bringupWrites c) := by
  have hf := facts_of_admitted hc
  obtain ⟨fs, hfs, hcap⟩ := tableWF_records hf.table
  have hend : WritesAll c a [resetFifo Literal.fifoSubBoth, clearInterrupts] [] :=
    .none (List.forall_mem_cons.2 ⟨(closed_spares c a).closed.cmdWait (spare_fifo _),
      List.forall_mem_singleton.2 ((closed_spares c a).closed.clearInterrupts (spare_status hc _))⟩)
  have hall := (WritesAll.cons (writes_replay hc hfs hcap) (.cons (writes_setFrequency hc c.freqParams)
    (.cons (writes_setPower hc c.powerParams) ((writes_configWaits hc hf.extraFits).append hend))))
  have hsteps : (bringupSteps c).tail = replay c.configTable :: setFrequency c.freqParams :: setPower c.powerParams ::
      ((bringupFrames c.bringupExtra).map configWait ++ [resetFifo Literal.fifoSubBoth, clearInterrupts]) := rfl
  have hwrites : bringupWrites c = fs ++ (planWrites c.freqPlan c.freqParams ++ (planWrites c.powerPlan c.powerParams ++
      (bringupFrames c.bringupExtra ++ []))) := by
    simp [bringupWrites, planWrites, hfs]
  rw [hsteps, hwrites]
  exact hall

end

section

variable {c : Config} {a : Nat}

/-! ### The power-up loses the store (R211) -/

/-- Nothing holds the chip in Unknown, if it is known. -/
def Free (g : Chip) : Prop := g.mode ≠ .unknown → g.held = false

/-- Nothing holds the chip, if it is known, and the byte at `a` has no value. -/
def Lacks (a : Nat) (g : Chip) : Prop := Free g ∧ Stands a none g

theorem Free.spares {g h : Chip} (hg : Free g) (hs : Spares a g h) : Free h :=
  fun hm => (hs hm).held.trans (hg (hs hm).known)

theorem Lacks.spares {g h : Chip} (hg : Lacks a g) (hs : Spares a g h) : Lacks a h :=
  ⟨hg.1.spares hs, hg.2.spares hs⟩

theorem closed_lacks (c : Config) (a : Nat) : ChipClosed c (fun f => ¬ StoresTo f.2 a) (fun g h => Lacks a g → Lacks a h) where
  refl _ := id
  trans h k := k ∘ h
  move m h hg := hg.spares ((closed_spares c a).move m h)
  lost h hg := hg.spares ((closed_spares c a).lost h)
  rx h l hg := hg.spares ((closed_spares c a).rx h l)
  processed h hm hg := hg.spares ((closed_spares c a).processed h hm)
  push d h hg := hg.spares ((closed_spares c a).push d h)
  read n h hg := hg.spares ((closed_spares c a).read n h)
  command f h hf hg := hg.spares ((closed_spares c a).command f h hf)

theorem lacks_unknown {g : Chip} (hm : g.mode = .unknown) : Lacks a g :=
  ⟨fun h => absurd hm h, fun h => absurd hm h⟩

/-- The reset line falls: the chip is in Off, with nothing of what it was, or still held in Unknown (R211, R223). -/
theorem lacks_reset {g : Chip} (hg : Free g) : Lacks a (g.reset true) := by
  unfold Chip.reset
  split
  · rename_i hheld
    exact lacks_unknown (by_contra fun hm => by rw [hg hm] at hheld; cases hheld)
  · exact ⟨fun _ => rfl, fun _ => ⟨spares_none rfl, rfl⟩⟩

theorem lacks_release {g : Chip} (hg : Lacks a g) (b : Bool) : Lacks a (g.reset b) := by
  cases b with
  | true => exact lacks_reset hg.1
  | false =>
    refine hg.spares (SameStore.spares ?_)
    unfold Chip.reset
    split <;> exact .of_mode rfl rfl rfl rfl rfl

theorem lacks_settle {g : Chip} (hg : Lacks a g) (n : Nat) : Lacks a (g.settle c n) := by
  unfold Chip.settle
  split
  · rename_i hoff
    have hm : g.mode ≠ .unknown := by rw [hoff.1]; decide
    exact ⟨fun _ => hg.1 hm, fun _ => ⟨spares_none rfl, (hg.2 hm).byte⟩⟩
  · exact hg

theorem reset_lacks (c : Config) (a : Nat) : ClosedReset c (Under fun g h => Lacks a g → Lacks a h) where
  rst b s hs hl := by
    subst hs
    obtain ⟨hlaw, hturn, -⟩ := (closed_lacks s.cfg a).turn hl
    rw [setRst_agent, Agent.onRst]
    dsimp only
    rw [hlaw]
    exact ⟨rfl, fun hg => lacks_release (hturn hg) b⟩
  us n s hs hl := by
    subst hs
    obtain ⟨hlaw, hturn, -⟩ := (closed_lacks s.cfg a).turn hl
    exact ⟨hlaw, hturn⟩
  ms n s hs hl := by
    subst hs
    obtain ⟨hlaw, hturn, -⟩ := (closed_lacks s.cfg a).turn hl
    rw [delayMs_agent, Agent.onDelayMs]
    dsimp only
    rw [hlaw]
    exact ⟨rfl, fun hg => lacks_settle (hturn hg) n⟩

/-- The first edge of the reset pulse, whatever the chip's moves are. -/
theorem Leads.resetLine : Leads c (fun _ => True) Free (lift (Machine.setRst true)) (Lacks a) := by
  rintro s r t rfl ⟨hl, -, hg⟩ ht
  injection ht with _ ht
  subst ht
  obtain ⟨hlaw, hturn, -⟩ := (closed_spares s.cfg a).turn hl
  refine ⟨rfl, ?_⟩
  rw [setRst_agent, Agent.onRst, hlaw]
  exact ⟨rfl, trivial, lacks_reset (hg.spares hturn)⟩

theorem powerUpSteps_lack (hc : c.admitted = true) :
    ∀ p ∈ (powerUpSteps c).tail, KeepsAt c (Under fun g h => Lacks a g → Lacks a h) p := fun p hp =>
  (closed_lacks c a).closed.powerUpSteps (reset_lacks c a) (spare_powerUpFrame hc) (spare_status hc _) p
    (List.mem_of_mem_tail hp)

theorem Leads.powerUpLacks (hc : c.admitted = true) : Leads c (fun _ => True) Free Machine.powerUp (Lacks a) := by
  rintro s r t rfl
  exact Leads.cons .resetLine (.ofKeeps (.chain (closed_lacks s.cfg a).composes (powerUpSteps_lack hc)) fun _ _ hg hk => hk hg)
    s r t rfl

theorem Leads.powerUpBody (hc : c.admitted = true) :
    Leads c (fun _ => True) Free (stepsBody (powerUpSteps c)) (Lacks a) :=
  .steps (.cons' .resetLine (.ofKeeps ((closed_lacks c a).closed.counted (powerUpSteps_lack hc)) fun _ _ hg hk => hk hg))

/-! ### The bring-up operations after their power-up -/

/-- ENTER_RX and ENTER_TX from the end of their power-up: the rest of the bring-up, the frames `fs` and the last step. -/
def afterPowerUp (c : Config) (fs : List (List Byte)) (last : Step) : State → Flow Result := fun s =>
  (chain (bringupSteps c).tail s).bind fun _ t => stepsBody (fs.map configWait ++ [last]) (stepDone t)

theorem enterBody_eq {fs : List (List Byte)} {last : Step} {s : State} (hs : s.cfg = c) :
    stepsBody (bringup :: (fs.map configWait ++ [last])) s = (powerUp s).bind fun _ t => afterPowerUp c fs last t := by
  subst hs
  have hbring : bringup s = (powerUp s).bind fun _ t => chain (bringupSteps s.cfg).tail t := rfl
  show (((bringup s).bind fun _ t => .ok () (stepDone t)).bind fun _ t => chain (counted _) t).bind _ = _
  rw [hbring]
  cases powerUp s with
  | ok x u =>
    simp only [Flow.bind_ok, afterPowerUp]
    cases chain (bringupSteps s.cfg).tail u <;> rfl
  | timeout n u => rfl
  | fault u => rfl

theorem writes_afterPowerUp (hc : c.admitted = true) {fs : List (List Byte)} (hl : ∀ f ∈ fs, f.length ≤ c.cmdBufCap)
    {l : List Byte} (hspare : ¬ StoresTo l a) : Writes c a (afterPowerUp c fs (cmdWait l)) (bringupWrites c ++ fs) := by
  have hlast : WritesAll c a (fs.map configWait ++ [cmdWait l]) (fs ++ []) :=
    (writes_configWaits hc hl).append (.none (List.forall_mem_singleton.2 ((closed_spares c a).closed.cmdWait hspare)))
  have hdone : Writes c a (lift stepDone) [] := .none (closed_spares c a).closed.stepDone
  have hbody := (writes_bringup hc).chain.bind fun _ => hdone.bind fun _ => hlast.steps
  rw [List.append_nil, List.nil_append] at hbody
  exact hbody

/-! ### The property store over an instruction -/

/-- A host operation that ends with the chip known has completed, and its body leads where it leads. -/
theorem exec_leads {i : Instr} {s t : State} {P Q : Chip → Prop} (hs : Accepts s) (hl : s.agent.law = .abstractModel)
    (hw : i.isWire = false) (hk : i.failingCheck s.cfg = none) (hP : P (s.agent.chip.request i.expand))
    (hL : Leads s.cfg (fun _ => True) P (hostBody s.cfg i) Q) (h : exec i s = .next t)
    (hm : t.agent.chip.mode ≠ .unknown) : ∃ g, Q g ∧ t.agent.chip = { g with held := false } ∧ t.cfg = s.cfg ∧
      t.agent.law = .abstractModel ∧ t.seq = .idle := by
  rcases exec_ok_or_unknown hs hl hw hk h with ⟨r, u, hu, rfl⟩ | ⟨-, hunk⟩
  · obtain ⟨hcfg, hlaw, -, hg⟩ := hL (begin i.expand s) r u rfl
      ⟨(onRequest_law _ _).trans hl, trivial, by rw [begin_model hl]; exact hP⟩ hu
    obtain ⟨hchip, hlaw', -⟩ := end_chip (i := i.expand) (r := r) (u := u) hlaw
    exact ⟨_, hg, hchip, hcfg, hlaw', rfl⟩
  · exact absurd hunk hm

theorem readProp_lacks {t : State} {g : Chip} (hg : Lacks a g) (h : t.agent.chip = { g with held := false }) :
    readProp a t = none := by
  unfold readProp
  rw [h]
  split
  · rfl
  · exact (hg.2 ‹_›).byte

theorem free_request {i : Instr} {g : Chip} (hg : g.held = false) : Free (g.request i) := by
  intro hm
  rcases request_cases i g with h | h | h <;> rw [h] at hm ⊢
  · exact hg
  · exact absurd rfl hm
  · exact absurd rfl hm

/-- POWER_UP loses the store (R211). -/
theorem powerUp_readProp {s t : State} (hs : Accepts s) (hl : s.agent.law = .abstractModel)
    (hheld : s.agent.chip.held = false) (h : exec .powerUp s = .next t) (hm : t.agent.chip.mode ≠ .unknown) :
    readProp a t = none := by
  obtain ⟨g, hg, hchip, -⟩ := exec_leads (i := .powerUp) hs hl rfl rfl (free_request hheld) (Leads.powerUpBody hs.1) h hm
  exact readProp_lacks hg hchip

theorem bringupWrites_spare {fs : List (List Byte)}
    (hf : ∀ f ∈ (tableRecords c.configTable).getD [] ++ bringupFrames c.bringupExtra ++ fs, ¬ StoresTo f a)
    (he : ∀ e ∈ c.freqPlan ++ c.powerPlan, a < propAddress e.group e.offset.toNat ∨
      propAddress e.group e.offset.toNat + e.count ≤ a ∨ propAddress e.group 256 ≤ a) :
    ∀ f ∈ bringupWrites c ++ fs, ¬ StoresTo f a := by
  have hplan : ∀ plan p, (∀ e ∈ plan, e ∈ c.freqPlan ++ c.powerPlan) → ∀ f ∈ planWrites plan p, ¬ StoresTo f a := by
    intro plan p hsub f hf
    obtain ⟨e, hm, rfl⟩ := List.mem_map.1 hf
    exact planFrames_spare (plan := plan) (p := p) (fun e hm => he e (hsub e hm)) _ (List.mem_map.2 ⟨e, hm, rfl⟩)
  have hfreq := hplan c.freqPlan c.freqParams fun e h => List.mem_append_left _ h
  have hpow := hplan c.powerPlan c.powerParams fun e h => List.mem_append_right _ h
  simp only [List.forall_mem_append] at hf
  simp only [bringupWrites, List.forall_mem_append]
  exact ⟨⟨⟨⟨hf.1.1, hfreq⟩, hpow⟩, hf.1.2⟩, hf.2⟩

/-- A bring-up loses the store, and puts back only what its frames store (R211, R204). -/
theorem leads_enterLacks (hc : c.admitted = true) {fs : List (List Byte)} (hl : ∀ f ∈ fs, f.length ≤ c.cmdBufCap)
    {l : List Byte} (hspare : ¬ StoresTo l a) (hf : ∀ f ∈ bringupWrites c ++ fs, ¬ StoresTo f a) :
    Leads c (fun _ => True) Free (stepsBody (bringup :: (fs.map configWait ++ [cmdWait l]))) (Lacks a) := by
  intro s r t hs ha ht
  rw [enterBody_eq hs] at ht
  exact (Leads.powerUpLacks hc).bind (fun _ => .ofKeeps ((writes_afterPowerUp hc hl hspare).spares hf) fun _ _ => Lacks.spares)
    s r t hs ha ht

theorem enter_readProp {i : Instr} {s t : State} {fs : List (List Byte)}
    (hi : (i = .enterRx ∧ fs = s.cfg.rxIrqEnable) ∨ (i = .enterTx ∧ fs = s.cfg.txIrqEnable)) (hs : Accepts s)
    (hl : s.agent.law = .abstractModel) (hheld : s.agent.chip.held = false) (h : exec i s = .next t)
    (hm : t.agent.chip.mode ≠ .unknown) (hf : ∀ f ∈ bringupWrites s.cfg ++ fs, ¬ StoresTo f a) : readProp a t = none := by
  have hfacts := facts_of_admitted hs.1
  rcases hi with ⟨rfl, rfl⟩ | ⟨rfl, rfl⟩
  · obtain ⟨g, hg, hchip, -⟩ := exec_leads (i := .enterRx) hs hl rfl rfl (free_request hheld)
      (leads_enterLacks hs.1 hfacts.rxFits (spare_rx _ _ _ _ _ _) hf) h hm
    exact readProp_lacks hg hchip
  · obtain ⟨g, hg, hchip, -⟩ := exec_leads (i := .enterTx) hs hl rfl rfl (free_request hheld)
      (leads_enterLacks hs.1 hfacts.txFits (spare_fifo _) hf) h hm
    exact readProp_lacks hg hchip

/-- Settles O51: what no frame of the instruction stores to is kept at every event of the bus, and a reset pulse loses it. -/
theorem propertyStoreFrame : Obligations.PropertyStoreFrame := by
  unfold Obligations.PropertyStoreFrame
  intro i s t ha h hl hm
  have hs : Accepts s := ⟨ha, (exec_next h).1⟩
  have keep : ∀ {a}, ¬ Pulses i → (∀ f ∈ frames s.cfg i, ¬ StoresTo f.2 a) → NotInHand s a → readProp a t = readProp a s :=
    fun hp hf hn => exec_readProp ha h hl hm hp hf hn
  have one : ∀ {a l}, ¬ StoresTo l a → ∀ f ∈ [Sent.ofCommand l], ¬ StoresTo f.2 a := fun h =>
    List.forall_mem_singleton.2 h
  refine ⟨fun hi a hn => ?_, fun g o d hi a hn hout => ?_, fun g n o d hi a hn hout => ?_, fun f hi hhead a hn => ?_,
    fun p hi a hn hout => ?_, fun p hi a hn hout => ?_, fun T hi a hn hout => ?_, fun hi hheld a => ?_,
    fun fs hi hheld a hf he => enter_readProp hi hs hl hheld h hm (bringupWrites_spare hf he)⟩
  · by_cases hw : i.isWire = true ∧ ∀ g n o d, i ≠ .wirePropWrite g n o d
    · refine keep ?_ (wireFrames_spare ha hw.1 hw.2) hn
      rintro (rfl | rfl | rfl) <;> exact absurd hw.1 (by decide)
    · simp only [← or_assoc] at hi
      have hi := hi.resolve_right hw
      simp only [or_assoc] at hi
      obtain ⟨hp, hf⟩ := hostFrames_spare ha hi
      exact keep hp hf hn
  · subst hi
    exact keep (by simp [Pulses]) (one (not_storesTo_outside hout)) hn
  · rcases hi with rfl | rfl
    · exact keep (by simp [Pulses]) (one (not_storesTo_outside hout)) hn
    · exact keep (by simp [Pulses]) (one (not_storesTo_outside hout)) hn
  · subst hi
    exact keep (by simp [Pulses]) (one (not_storesTo_of_head hhead)) hn
  · subst hi
    exact keep (by simp [Pulses]) (planFrames_spare hout) hn
  · subst hi
    exact keep (by simp [Pulses]) (planFrames_spare hout) hn
  · subst hi
    exact keep (by simp [Pulses]) (tableFrames_spare hout) hn
  · subst hi
    exact powerUp_readProp hs hl hheld h hm

end

section

variable {c : Config} {a : Nat} {f : List Byte} {v : Byte}

/-! ### Property writes at the chip (R66, R97) -/

theorem readProp_stands {t : State} {g : Chip} (hg : Stands a (some v) g) (h : t.agent.chip = { g with held := false })
    (hm : t.agent.chip.mode ≠ .unknown) : readProp a t = some v := by
  rw [readProp, if_neg hm]
  rw [h] at hm ⊢
  exact (hg hm).byte

/-- Whatever the chip is and does. -/
theorem Leads.any {p : Step} {E : Event → Prop} (h : Keeps (Clean E) p) :
    Leads c (fun _ => True) (fun _ => True) p (fun _ => True) := by
  intro s r t hs ha ht
  have hclean := h s
  rw [ht] at hclean
  exact ⟨hclean.cfg.trans hs, hclean.agent.law.trans ha.1, trivial, trivial⟩

/-- What the body of a host operation writes stands at its end. -/
theorem exec_puts {i : Instr} {s t : State} {ws pre post : List (List Byte)} (hs : Accepts s)
    (hl : s.agent.law = .abstractModel) (hw : i.isWire = false) (hk : i.failingCheck s.cfg = none)
    (hwrites : Writes s.cfg a (hostBody s.cfg i) ws) (hsplit : ws = pre ++ f :: post) (hf : PutsByte f a v)
    (hpost : ∀ l ∈ post, ¬ StoresTo l a) (h : exec i s = .next t) (hm : t.agent.chip.mode ≠ .unknown) :
    readProp a t = some v := by
  obtain ⟨g, hg, hchip, -⟩ := exec_leads hs hl hw hk trivial (hwrites.puts hsplit hf hpost) h hm
  exact readProp_stands hg hchip hm

/-- A run stores nothing past its group (log entry 16). -/
theorem not_storesTo_nextGroup {g n o : Byte} {d : List Byte} (h : propAddress g 256 ≤ a) :
    ¬ StoresTo (Literal.opSetProperty :: g :: n :: o :: d) a := not_storesTo_outside (.inr (.inr h))

theorem failingCheck_setProperty {g o : Byte} {d : List Byte} (h1 : 1 ≤ d.length) (h2 : d.length ≤ c.propMax) :
    (Instr.setProperty g o d).failingCheck c = none := by
  rw [Instr.failingCheck, if_neg (by omega)]

/-- SET_PROPERTY (R159). -/
theorem setProperty_runStored {s t : State} {g o : Byte} {d : List Byte} (hs : Accepts s)
    (hl : s.agent.law = .abstractModel) (h1 : 1 ≤ d.length) (h2 : d.length ≤ s.cfg.propMax)
    (h : exec (.setProperty g o d) s = .next t) (hm : t.agent.chip.mode ≠ .unknown) : RunStored g o d s t where
  stored k hk ho := by
    have hf := facts_of_admitted hs.1
    have hfits : (propFrame g o d).length ≤ s.cfg.cmdBufCap := by
      have := hf.propCap
      simp only [propFrame, List.length_cons]
      omega
    have hputs := puts_byte g (BitVec.ofNat 8 d.length) o hk ho
    obtain ⟨k, hk, hchip, -⟩ := exec_leads (i := .setProperty g o d) hs hl rfl (failingCheck_setProperty h1 h2)
      (P := fun _ => True) trivial (.steps (.cons' (.handByte hs.1 hputs hfits .command) (.cons' (.putByte hs.1 hputs) .nil'))) h hm
    exact readProp_stands hk hchip hm
  nextGroup a ha hn := exec_readProp hs.1 h hl hm (by simp [Pulses])
    (List.forall_mem_singleton.2 (not_storesTo_nextGroup ha)) hn

theorem length_of_failingCheck {i : Instr} {g n o : Byte} {d : List Byte}
    (hi : i = .wirePropWrite g n o d ∨ i = .sendCmd (Literal.opSetProperty :: g :: n :: o :: d))
    (hk : i.failingCheck c = none) : (Literal.opSetProperty :: g :: n :: o :: d).length ≤ c.cmdBufCap := by
  rcases hi with rfl | rfl <;> simp only [Instr.failingCheck] at hk <;> split at hk
  · cases hk
  · simp only [List.length_cons]
    omega
  · cases hk
  · split at hk
    · cases hk
    · exact Nat.le_of_not_lt ‹_›

/-- SEND_CMD of a property frame, and the wire row PROP_WRITE, end where its window leads (R155; log entry 5). -/
theorem exec_propFrame {i : Instr} {s u : State} {g n o : Byte} {d : List Byte} {Q : Chip → Prop} (hs : Accepts s)
    (hl : s.agent.law = .abstractModel)
    (hi : i = .wirePropWrite g n o d ∨ i = .sendCmd (Literal.opSetProperty :: g :: n :: o :: d))
    (hk : i.failingCheck s.cfg = none)
    (hL : Leads s.cfg (fun _ => True) (fun _ => True) (sendCommand (Literal.opSetProperty :: g :: n :: o :: d)) Q)
    (h : exec i s = .next u) (hm : u.agent.chip.mode ≠ .unknown) :
    ∃ k, Q k ∧ (u.agent.chip = k ∨ u.agent.chip = { k with held := false }) := by
  rcases hi with rfl | rfl
  · obtain ⟨w, hw⟩ := wireBody_ok hs.1 rfl hk s rfl
    obtain ⟨-, -, -, hg⟩ := hL s () w rfl ⟨hl, trivial, trivial⟩ hw
    obtain ⟨-, ⟨k, hk', -⟩ | ⟨-, hwire, -⟩ | ⟨-, -, rfl⟩⟩ := exec_next h
    · rw [hk] at hk'
      cases hk'
    · cases hwire
    · rw [hw]
      exact ⟨_, hg, .inl rfl⟩
  · obtain ⟨k, hg, hchip, -⟩ := exec_leads hs hl rfl hk (P := fun _ => True) trivial (.steps (.cons' hL .nil')) h hm
    exact ⟨k, hg, .inr hchip⟩

/-- No instruction changes the chip's law (R60). -/
theorem exec_law {i : Instr} {s t : State} (h : exec i s = .next t) : t.agent.law = s.agent.law := by
  have hend : ∀ b : Agent, b.onEnd.law = b.law := fun b => by unfold Agent.onEnd; split <;> rfl
  have habort : ∀ b : Agent, b.onTimeout.law = b.law := fun b => by unfold Agent.onTimeout; split <;> rfl
  have hfinish : ∀ (j : Instr) (x : Flow Result), (finish j x).agent.law = x.state.agent.law := fun j x => by
    cases x with
    | ok r u => exact hend u.agent
    | timeout n u => exact habort u.agent
    | fault u => exact hend u.agent
  have hsettle : ∀ x : Flow Unit, (settle x).agent.law = x.state.agent.law := fun x => by cases x <;> rfl
  obtain ⟨-, ⟨k, -, rfl⟩ | ⟨-, -, rfl⟩ | ⟨-, hw, rfl⟩⟩ := exec_next h
  · rfl
  · rw [hfinish, (clean_hostBody s.cfg i (begin i.expand s)).agent.law]
    exact onRequest_law _ _
  · rw [hsettle, (clean_wireBody s.cfg hw s).agent.law]

theorem inHand_free {g k : Chip} (hg : InHand f a v g) (hk : k = g ∨ k = { g with held := false }) : InHand f a v k := by
  rcases hk with rfl | rfl
  · exact hg
  · intro hm
    obtain ⟨hp, hact, hfr⟩ := hg hm
    exact ⟨hp, hact, hfr.imp id fun hset => ⟨hset.spares, hset.byte⟩⟩

/-- A property frame and the WAIT_CTS after it. -/
theorem propFrame_runStored {i : Instr} {s u t : State} {g n o : Byte} {d : List Byte} (hs : Accepts s)
    (hl : s.agent.law = .abstractModel)
    (hi : i = .wirePropWrite g n o d ∨ i = .sendCmd (Literal.opSetProperty :: g :: n :: o :: d))
    (hk : i.failingCheck s.cfg = none) (h : exec i s = .next u) (h' : exec .waitCts u = .next t)
    (hm : t.agent.chip.mode ≠ .unknown) : RunStored g o d s t := by
  have hlen := length_of_failingCheck hi hk
  have hlu : u.agent.law = .abstractModel := (exec_law h).trans hl
  have hu : Accepts u := ⟨(keepsMarks_exec h).cfg ▸ hs.1, (exec_next h').1⟩
  have hwait := fun a => exec_spares (a := a) hu.1 h' hlu hm (by simp [Pulses]) (by simp [frames])
  have hknown := (hwait 0).1
  constructor
  · intro k hk' ho
    have hputs := puts_byte g n o hk' ho
    obtain ⟨x, hx, hchip⟩ := exec_propFrame hs hl hi hk (.handByte hs.1 hputs hlen .command) h hknown
    obtain ⟨y, hy, hychip, -⟩ := exec_leads (i := .waitCts) hu hlu rfl rfl
      (P := InHand (Literal.opSetProperty :: g :: n :: o :: d) (propAddress g o.toNat + k) d[k])
      (by rw [request_plain rfl rfl]; exact inHand_free hx hchip) (.steps (.cons' (.putByte hu.1 hputs) .nil')) h' hm
    exact readProp_stands hy hychip hm
  · intro a ha hn
    have hspare : ¬ StoresTo (Literal.opSetProperty :: g :: n :: o :: d) a := not_storesTo_nextGroup ha
    obtain ⟨hks, hfirst⟩ := exec_spares (a := a) hs.1 h hl hknown (by rcases hi with rfl | rfl <;> simp [Pulses])
      (by rcases hi with rfl | rfl <;> exact List.forall_mem_singleton.2 hspare)
    obtain ⟨hsu, hbyte⟩ := hfirst hn
    rw [readProp, readProp, if_neg hm, if_neg hks, ((hwait a).2 hsu).2, hbyte]

/-! ### Plans, tables and the bring-up -/

theorem planSlice_length {p : List Byte} {e : PlanEntry} (h : e.start + e.count ≤ p.length) :
    (planSlice p e).length = e.count := by
  simp only [planSlice, List.length_take, List.length_drop]
  omega

theorem planSlice_getElem {p : List Byte} {e : PlanEntry} {k : Nat} (h : e.start + e.count ≤ p.length) (hk : k < e.count) :
    p[e.start + k]? = some ((planSlice p e)[k]'(by rw [planSlice_length h]; exact hk)) := by
  rw [List.getElem?_eq_getElem (by omega)]
  simp [planSlice]

/-- The bytes of a plan entry that no later entry stores to (R198, R199). -/
theorem plan_readProp {i : Instr} {s t : State} {p : List Byte} {pre post : List PlanEntry} {e : PlanEntry} (hs : Accepts s)
    (hl : s.agent.law = .abstractModel) (hw : i.isWire = false) (hk : i.failingCheck s.cfg = none)
    (hbody : hostBody s.cfg i = stepsBody (planSteps (pre ++ e :: post) p))
    (hcount : ∀ l ∈ pre ++ e :: post, l.count ≤ s.cfg.propMax) (hfit : e.start + e.count ≤ p.length)
    (h : exec i s = .next t) (hm : t.agent.chip.mode ≠ .unknown) {k : Nat} (hlt : k < e.count)
    (ho : e.offset.toNat + k ≤ 0xFF)
    (hpost : ∀ l ∈ post, propAddress e.group e.offset.toNat + k < propAddress l.group l.offset.toNat ∨
      propAddress l.group l.offset.toNat + l.count ≤ propAddress e.group e.offset.toNat + k ∨
      propAddress l.group 256 ≤ propAddress e.group e.offset.toNat + k) :
    readProp (propAddress e.group e.offset.toNat + k) t = p[e.start + k]? := by
  have hputs := puts_byte e.group (BitVec.ofNat 8 (planSlice p e).length) e.offset
    (by rw [planSlice_length hfit]; exact hlt) ho
  have hwrites := (writes_planSteps (a := propAddress e.group e.offset.toNat + k) hs.1 hcount p).steps
  rw [← hbody] at hwrites
  rw [planSlice_getElem hfit hlt]
  refine exec_puts hs hl hw hk hwrites (pre := planWrites pre p) (post := planWrites post p)
    (by simp [planWrites, propFrame]) hputs ?_ h hm
  intro f hf
  obtain ⟨l, hl', rfl⟩ := List.mem_map.1 hf
  exact planFrames_spare (p := p) hpost _ (List.mem_map.2 ⟨l, hl', rfl⟩)

/-- ENTER_RX and ENTER_TX write the frames of the bring-up after their power-up, whatever the chip was. -/
theorem leads_enterPuts (hc : c.admitted = true) {fs : List (List Byte)} (hl : ∀ f ∈ fs, f.length ≤ c.cmdBufCap)
    {l : List Byte} (hspare : ¬ StoresTo l a) {pre post : List (List Byte)} (hsplit : bringupWrites c ++ fs = pre ++ f :: post)
    (hf : PutsByte f a v) (hpost : ∀ l ∈ post, ¬ StoresTo l a) :
    Leads c (fun _ => True) (fun _ => True) (stepsBody (bringup :: (fs.map configWait ++ [cmdWait l]))) (Stands a (some v)) := by
  intro s r t hs ha ht
  rw [enterBody_eq hs] at ht
  exact (Leads.any clean_powerUp).bind (fun _ => (writes_afterPowerUp hc hl hspare).puts hsplit hf hpost) s r t hs ha ht

theorem enter_puts {i : Instr} {s t : State} {fs pre post : List (List Byte)}
    (hi : (i = .enterRx ∧ fs = s.cfg.rxIrqEnable) ∨ (i = .enterTx ∧ fs = s.cfg.txIrqEnable)) (hs : Accepts s)
    (hl : s.agent.law = .abstractModel) (hsplit : bringupWrites s.cfg ++ fs = pre ++ f :: post) (hf : PutsByte f a v)
    (hpost : ∀ l ∈ post, ¬ StoresTo l a) (h : exec i s = .next t) (hm : t.agent.chip.mode ≠ .unknown) :
    readProp a t = some v := by
  have hfacts := facts_of_admitted hs.1
  rcases hi with ⟨rfl, rfl⟩ | ⟨rfl, rfl⟩
  · obtain ⟨g, hg, hchip, -⟩ := exec_leads (i := .enterRx) (P := fun _ => True) hs hl rfl rfl trivial
      (leads_enterPuts hs.1 hfacts.rxFits (spare_rx _ _ _ _ _ _) hsplit hf hpost) h hm
    exact readProp_stands hg hchip hm
  · obtain ⟨g, hg, hchip, -⟩ := exec_leads (i := .enterTx) (P := fun _ => True) hs hl rfl rfl trivial
      (leads_enterPuts hs.1 hfacts.txFits (spare_fifo _) hsplit hf hpost) h hm
    exact readProp_stands hg hchip hm

/-- The bytes of a table's record that no later record stores to (R180, R186). -/
theorem replay_puts {s t : State} {T : List Byte} {pre post : List (List Byte)} (hs : Accepts s)
    (hl : s.agent.law = .abstractModel) (hk : (Instr.replay T).failingCheck s.cfg = none)
    (hrec : tableRecords T = some (pre ++ f :: post)) (hf : PutsByte f a v) (hpost : ∀ l ∈ post, ¬ StoresTo l a)
    (h : exec (.replay T) s = .next t) (hm : t.agent.chip.mode ≠ .unknown) : readProp a t = some v := by
  have hwf : tableWF s.cfg.cmdBufCap T = true := by
    by_contra hn
    rw [Instr.failingCheck, if_neg hn] at hk
    cases hk
  obtain ⟨fs, hfs, hcap⟩ := tableWF_records hwf
  obtain rfl : fs = pre ++ f :: post := Option.some.inj (hfs.symm.trans hrec)
  have hwrites := (WritesAll.cons (writes_replay (a := a) hs.1 hfs hcap) .nil).steps
  rw [List.append_nil] at hwrites
  exact exec_puts hs hl rfl hk hwrites rfl hf hpost h hm

/-- Settles O52: the frame is in hand after its window, stands at the poll that reads 0xFF, and no later frame stores to the
byte. -/
theorem propertyWriteStores : Obligations.PropertyWriteStores := by
  unfold Obligations.PropertyWriteStores
  refine ⟨fun s t g o d hs hl h1 h2 h hm => setProperty_runStored hs hl h1 h2 h hm,
    fun i s u t g n o d hs hl hi hk h h' hm => propFrame_runStored hs hl hi hk h h' hm,
    fun i s t p pre post e hs hl hi h hm k hk ho hpost => ?_,
    fun s t T pre post g n o d hs hl hk hrec h hm k hlt ho hpost =>
      replay_puts hs hl hk hrec (puts_byte g n o hlt ho) hpost h hm,
    fun i s t fs pre post g n o d hs hl hi hsplit h hm k hlt ho hpost =>
      enter_puts hi hs hl hsplit (puts_byte g n o hlt ho) hpost h hm⟩
  have hf := facts_of_admitted hs.1
  rcases hi with ⟨rfl, hlen, hplan⟩ | ⟨rfl, hlen, hplan⟩
  · have hall := hf.freqPlan
    rw [hplan] at hall
    exact plan_readProp (i := .setFreq p) hs hl rfl (if_pos hlen) (by rw [← hplan]; rfl) (fun l hm => (hall l hm).1)
      (hlen ▸ (hall e (by simp)).2.2) h hm hk ho hpost
  · have hall := hf.powerPlan
    rw [hplan] at hall
    exact plan_readProp (i := .setPower p) hs hl rfl (if_pos hlen) (by rw [← hplan]; rfl) (fun l hm => (hall l hm).1)
      (hlen ▸ (hall e (by simp)).2.2) h hm hk ho hpost

end

end Sys2Proof.Machine
end

section
/-! PROOFS. Family 30_encoding: the decoder against the encoder (O1, O2, O3), the frames the engine composes (O4), program
text (O5), the wire rows run on their own (O30, O31), and what is refused or stops the machine (O8, O10, O11). -/

namespace Sys2Proof

/-! ### Decoding what was encoded -/

/-- Each instruction's encoding decodes to its expansion, where the opcodes are distinct (R128). -/
theorem decode_encode {c : Config} (h : c.Distinct) (i : Instr) : decode c (encode c i) = .ok i.expand := by
  cases i with
  | waitCts => exact Laws.RoundTrip.waitCts c h
  | sendCmd f => exact Laws.RoundTrip.sendCmd f c h
  | getResp n => exact Laws.RoundTrip.getResp n c h
  | readRxFifo n => exact Laws.RoundTrip.readRxFifo n c h
  | writeTxFifo d => exact Laws.RoundTrip.writeTxFifo d c h
  | setProperty g o d => exact Laws.RoundTrip.setProperty g o d c h
  | replay t => exact Laws.RoundTrip.replay t c h
  | powerUp => exact Laws.RoundTrip.powerUp c h
  | clearInts => exact Laws.RoundTrip.clearInts c h
  | setFreq p => exact Laws.RoundTrip.setFreq p c h
  | setPower p => exact Laws.RoundTrip.setPower p c h
  | startTx ch cond len => exact Laws.RoundTrip.startTx ch cond len c h
  | startRx ch cond len t v x => exact Laws.RoundTrip.startRx ch cond len t v x c h
  | resetFifo sub => exact Laws.RoundTrip.resetFifo sub c h
  | standby => exact Laws.RoundTrip.standby c h
  | enterRx => exact Laws.RoundTrip.enterRx c h
  | enterTx => exact Laws.RoundTrip.enterTx c h
  | tryReceive => exact Laws.RoundTrip.tryReceive c h
  | sendFrame f => exact Laws.RoundTrip.sendFrame f c h
  | readRssi => exact Laws.RoundTrip.readRssi c h
  | wirePropWrite g n o d => exact Laws.RoundTrip.wirePropWrite g n o d c h
  | wireFifoReset sub => exact Laws.RoundTrip.wireFifoReset sub c h
  | wireStartTx ch cond len => exact Laws.RoundTrip.wireStartTx ch cond len c h
  | wireStartRx ch cond len t v x => exact Laws.RoundTrip.wireStartRx ch cond len t v x c h
  | wireWriteTxFifo d => exact Laws.RoundTrip.wireWriteTxFifo d c h
  | wireReadRxFifo n => exact Laws.RoundTrip.wireReadRxFifo n c h
  | wireReadCmdBuff n => exact Laws.RoundTrip.wireReadCmdBuff n c h
  | wireGetIntStatus a => exact Laws.RoundTrip.wireGetIntStatus a c h
  | wireChangeState code => exact Laws.RoundTrip.wireChangeState code c h
  | wirePowerUp a => exact Laws.RoundTrip.wirePowerUp a c h
  | resetTxFifo => exact Laws.RoundTrip.resetTxFifo c h
  | resetRxFifo => exact Laws.RoundTrip.resetRxFifo c h
  | resetBothFifos => exact Laws.RoundTrip.resetBothFifos c h
  | rearmRx => exact Laws.RoundTrip.rearmRx c h

/-- Settles O1: an admitted configuration's opcodes are distinct, and each row decodes to itself. -/
theorem decodingAnEncoding : Obligations.DecodingAnEncoding := by
  unfold Obligations.DecodingAnEncoding
  intro c i hc
  exact decode_encode (Config.distinct hc) i

/-- Settles O3: each item is the encoding of the instruction it stands for. -/
theorem wordsOfTheSpec : Obligations.WordsOfTheSpec := by
  unfold Obligations.WordsOfTheSpec
  have h := decode_encode (Config.distinct (c := Config.reference) (by decide))
  exact ⟨h .waitCts, h (.replay [3, 0x11, 0xAA, 0xBB, 0]), h (.startRx 0 0 21 0 3 3), h .tryReceive,
    h (.wirePropWrite 0x40 0x02 0x00 [0x41, 0x0A]), h (.wireStartRx 0 0 21 0 3 3), h (.wireStartTx 0x01 0x80 0x1234),
    h (.wireReadCmdBuff 0)⟩

/-! ### What the argument shapes accept (R131, R132) -/

theorem exceptMap_ok {α β : Type} {f : α → β} {x : Except Check α} {b : β} (h : x.map f = .ok b) :
    ∃ a, x = .ok a ∧ b = f a := by
  cases x with
  | ok a => exact ⟨a, rfl, (Except.ok.inj h).symm⟩
  | error k => cases h

theorem exceptBind_ok {α β : Type} {f : α → Except Check β} {x : Except Check α} {b : β} (h : x.bind f = .ok b) :
    ∃ a, x = .ok a ∧ f a = .ok b := by
  cases x with
  | ok a => exact ⟨a, rfl, h⟩
  | error k => cases h

theorem numArg_of_byteArg {n : Nat} {b : Byte} (h : byteArg n = .ok b) : Arg.num n = numArg b :=
  congrArg Arg.num (byteArg_ok h).symm

theorem numArg_of_halfArg {n : Nat} {v : Half} (h : halfArg n = .ok v) : Arg.num n = numArg v :=
  congrArg Arg.num (halfArg_ok h).symm

theorem listArg_of_bytesArg {l : List Nat} {bs : List Byte} (h : bytesArg l = .ok bs) : Arg.list l = listArg bs :=
  congrArg Arg.list (bytesArg_ok h).symm

theorem decodeNone_ok {i j : Instr} {args : List Arg} (h : decodeNone i args = .ok j) : args = [] ∧ j = i := by
  unfold decodeNone at h
  split at h
  · exact ⟨rfl, (Except.ok.inj h).symm⟩
  · cases h

theorem decodeList_ok {f : List Byte → Instr} {j : Instr} {args : List Arg} (h : decodeList f args = .ok j) :
    ∃ l, args = [listArg l] ∧ j = f l := by
  unfold decodeList at h
  split at h
  · obtain ⟨l, hl, rfl⟩ := exceptMap_ok h
    exact ⟨l, by rw [listArg_of_bytesArg hl], rfl⟩
  · cases h

theorem decodeCount_ok {f : Nat → Instr} {j : Instr} {args : List Arg} (h : decodeCount f args = .ok j) :
    ∃ n, args = [.num n] ∧ j = f n := by
  unfold decodeCount at h
  split at h
  · exact ⟨_, rfl, (Except.ok.inj h).symm⟩
  · cases h

theorem decodeByte_ok {f : Byte → Instr} {j : Instr} {args : List Arg} (h : decodeByte f args = .ok j) :
    ∃ b, args = [numArg b] ∧ j = f b := by
  unfold decodeByte at h
  split at h
  · obtain ⟨b, hb, rfl⟩ := exceptMap_ok h
    exact ⟨b, by rw [numArg_of_byteArg hb], rfl⟩
  · cases h

theorem decodeSetProperty_ok {j : Instr} {args : List Arg} (h : decodeSetProperty args = .ok j) :
    ∃ g o d, args = [numArg g, numArg o, listArg d] ∧ j = .setProperty g o d := by
  unfold decodeSetProperty at h
  split at h
  · obtain ⟨g, hg, h⟩ := exceptBind_ok h
    obtain ⟨o, ho, h⟩ := exceptBind_ok h
    obtain ⟨d, hd, rfl⟩ := exceptMap_ok h
    exact ⟨g, o, d, by rw [numArg_of_byteArg hg, numArg_of_byteArg ho, listArg_of_bytesArg hd], rfl⟩
  · cases h

theorem decodeStartTx_ok {j : Instr} {args : List Arg} (h : decodeStartTx args = .ok j) :
    ∃ ch cond len, args = [numArg ch, numArg cond, numArg len] ∧ j = .startTx ch cond len := by
  unfold decodeStartTx at h
  split at h
  · obtain ⟨ch, hch, h⟩ := exceptBind_ok h
    obtain ⟨cond, hcond, h⟩ := exceptBind_ok h
    obtain ⟨len, hlen, rfl⟩ := exceptMap_ok h
    exact ⟨ch, cond, len, by rw [numArg_of_byteArg hch, numArg_of_byteArg hcond, numArg_of_halfArg hlen], rfl⟩
  · cases h

theorem decodeStartRx_ok {j : Instr} {args : List Arg} (h : decodeStartRx args = .ok j) :
    ∃ ch cond len t v x, args = [numArg ch, numArg cond, numArg len, numArg t, numArg v, numArg x] ∧
      j = .startRx ch cond len t v x := by
  unfold decodeStartRx at h
  split at h
  · obtain ⟨ch, hch, h⟩ := exceptBind_ok h
    obtain ⟨cond, hcond, h⟩ := exceptBind_ok h
    obtain ⟨len, hlen, h⟩ := exceptBind_ok h
    obtain ⟨t, ht, h⟩ := exceptBind_ok h
    obtain ⟨v, hv, h⟩ := exceptBind_ok h
    obtain ⟨x, hx, rfl⟩ := exceptMap_ok h
    refine ⟨ch, cond, len, t, v, x, ?_, rfl⟩
    rw [numArg_of_byteArg hch, numArg_of_byteArg hcond, numArg_of_halfArg hlen, numArg_of_byteArg ht,
      numArg_of_byteArg hv, numArg_of_byteArg hx]
  · cases h

/-- The code of a request by its number, as the decoder's table reads it (R131). -/
theorem encode_of_code {c : Config} {i : Instr} {hop : Byte} {n : Nat} {args : List Arg} (hcode : hop.toNat = n)
    (h : encode c i = .request ⟨BitVec.ofNat 8 n, args⟩) : encode c i = .request ⟨hop, args⟩ := by
  rw [h, ← hcode, BitVec.ofNat_toNat, BitVec.setWidth_eq]

/-- A request that decodes is the one request of its operation (R131). -/
theorem encode_of_decodeRequest {c : Config} {r : Request} {i : Instr} (h : decodeRequest r = .ok i) :
    encode c i = .request r := by
  obtain ⟨hop, args⟩ := r
  unfold decodeRequest at h
  dsimp only at h
  split at h
  case h_1 | h_8 | h_9 | h_15 | h_16 | h_17 | h_18 | h_20 =>
    rename_i hcode
    obtain ⟨rfl, rfl⟩ := decodeNone_ok h
    exact encode_of_code hcode rfl
  case h_2 | h_5 | h_7 | h_10 | h_11 | h_19 =>
    rename_i hcode
    obtain ⟨l, rfl, rfl⟩ := decodeList_ok h
    exact encode_of_code hcode rfl
  case h_3 | h_4 =>
    rename_i hcode
    obtain ⟨n, rfl, rfl⟩ := decodeCount_ok h
    exact encode_of_code hcode rfl
  case h_6 hcode =>
    obtain ⟨g, o, d, rfl, rfl⟩ := decodeSetProperty_ok h
    exact encode_of_code hcode rfl
  case h_12 hcode =>
    obtain ⟨ch, cond, len, rfl, rfl⟩ := decodeStartTx_ok h
    exact encode_of_code hcode rfl
  case h_13 hcode =>
    obtain ⟨ch, cond, len, t, v, x, rfl, rfl⟩ := decodeStartRx_ok h
    exact encode_of_code hcode rfl
  case h_14 hcode =>
    obtain ⟨b, rfl, rfl⟩ := decodeByte_ok h
    exact encode_of_code hcode rfl
  case h_21 => cases h

/-! ### What the wire formats accept (R112 to R124) -/

theorem decodePropWrite_ok {l : List Byte} {i : Instr} (h : decodePropWrite l = .ok i) :
    ∃ g n o d, l = g :: n :: o :: d ∧ i = .wirePropWrite g n o d := by
  unfold decodePropWrite at h
  split at h
  · exact ⟨_, _, _, _, rfl, (Except.ok.inj h).symm⟩
  · cases h

theorem decodeOneByte_ok {f : Byte → Instr} {l : List Byte} {i : Instr} (h : decodeOneByte f l = .ok i) :
    ∃ b, l = [b] ∧ i = f b := by
  unfold decodeOneByte at h
  split at h
  · exact ⟨_, rfl, (Except.ok.inj h).symm⟩
  · cases h

theorem decodeWireStartTx_ok {l : List Byte} {i : Instr} (h : decodeWireStartTx l = .ok i) :
    ∃ ch cond len, l = [ch, cond, hi8 len, lo8 len] ∧ i = .wireStartTx ch cond len := by
  unfold decodeWireStartTx at h
  split at h
  · exact ⟨_, _, _, by rw [hi8_half, lo8_half], (Except.ok.inj h).symm⟩
  · cases h

theorem decodeWireStartRx_ok {l : List Byte} {i : Instr} (h : decodeWireStartRx l = .ok i) :
    ∃ ch cond len t v x, l = [ch, cond, hi8 len, lo8 len, t, v, x] ∧ i = .wireStartRx ch cond len t v x := by
  unfold decodeWireStartRx at h
  split at h
  · exact ⟨_, _, _, _, _, _, by rw [hi8_half, lo8_half], (Except.ok.inj h).symm⟩
  · cases h

theorem decodeWireReadRx_ok {l : List Byte} {i : Instr} (h : decodeWireReadRx l = .ok i) :
    ∃ n, l = List.replicate n Literal.dummyByte ∧ i = .wireReadRxFifo n := by
  unfold decodeWireReadRx at h
  split at h
  · exact ⟨_, allDummy_eq ‹_›, (Except.ok.inj h).symm⟩
  · cases h

theorem decodeWirePoll_ok {l : List Byte} {i : Instr} (h : decodeWirePoll l = .ok i) :
    ∃ n, l = List.replicate (n + 1) Literal.dummyByte ∧ i = .wireReadCmdBuff n := by
  unfold decodeWirePoll at h
  split at h
  · split at h
    · exact ⟨_, allDummy_eq ‹_›, (Except.ok.inj h).symm⟩
    · cases h
  · cases h

/-- A frame that decodes is the one frame of its wire row (R136). -/
theorem encode_of_decodeFrame {c : Config} {l : List Byte} {i : Instr} (h : decodeFrame c l = .ok i) :
    encode c i = .transaction l := by
  cases l with
  | nil => cases h
  | cons op rest =>
    unfold decodeFrame at h
    dsimp only at h
    split_ifs at h with h1 h2 h3 h4 h5 h6 h7 h8 h9 h10
    · obtain ⟨g, n, o, d, rfl, rfl⟩ := decodePropWrite_ok h
      rw [h1]
      rfl
    · obtain ⟨b, rfl, rfl⟩ := decodeOneByte_ok h
      rw [h2]
      rfl
    · obtain ⟨ch, cond, len, rfl, rfl⟩ := decodeWireStartTx_ok h
      rw [h3]
      rfl
    · obtain ⟨ch, cond, len, t, v, x, rfl, rfl⟩ := decodeWireStartRx_ok h
      rw [h4]
      rfl
    · rw [← Except.ok.inj h, h5]
      rfl
    · obtain ⟨n, rfl, rfl⟩ := decodeWireReadRx_ok h
      rw [h6]
      rfl
    · obtain ⟨n, rfl, rfl⟩ := decodeWirePoll_ok h
      rw [h7]
      rfl
    · rw [← Except.ok.inj h, h8]
      rfl
    · obtain ⟨b, rfl, rfl⟩ := decodeOneByte_ok h
      rw [h9]
      rfl
    · rw [← Except.ok.inj h, h10]
      rfl

/-- Settles O2: the request of a host operation and the frame of a wire row are the only items that decode to it. -/
theorem encodingADecoding : Obligations.EncodingADecoding := by
  unfold Obligations.EncodingADecoding
  intro c it i h
  cases it with
  | request r => exact encode_of_decodeRequest h
  | transaction l => exact encode_of_decodeFrame h

/-! ### What the decoder refuses (R133) -/

theorem exceptMap_error {α β : Type} {f : α → β} {x : Except Check α} {k : Check} :
    x.map f = .error k ↔ x = .error k := by
  cases x with
  | ok a => exact ⟨nofun, nofun⟩
  | error j => exact ⟨fun h => congrArg _ (Except.error.inj h), fun h => congrArg _ (Except.error.inj h)⟩

/-- A part of the decoder that finds fault with the arguments only: their shape or their range (R133). -/
def ArgErrors {α : Type} (x : Except Check α) : Prop := ∀ k, x = .error k → k = .argShape ∨ k = .byteRange

theorem argErrors_ok {α : Type} (a : α) : ArgErrors (.ok a) := nofun

theorem argErrors_argShape {α : Type} : ArgErrors (.error .argShape : Except Check α) :=
  fun _ h => .inl (Except.error.inj h).symm

theorem argErrors_byteRange {α : Type} : ArgErrors (.error .byteRange : Except Check α) :=
  fun _ h => .inr (Except.error.inj h).symm

theorem ArgErrors.map {α β : Type} {x : Except Check α} (h : ArgErrors x) (f : α → β) : ArgErrors (x.map f) :=
  fun k hk => h k (exceptMap_error.1 hk)

theorem ArgErrors.bind {α β : Type} {x : Except Check α} {f : α → Except Check β} (h : ArgErrors x)
    (hf : ∀ a, ArgErrors (f a)) : ArgErrors (x.bind f) := by
  cases x with
  | ok a => exact hf a
  | error k => exact fun j hj => h j (congrArg _ (Except.error.inj hj))

theorem argErrors_byteArg (n : Nat) : ArgErrors (byteArg n) := by
  unfold byteArg
  split
  · exact argErrors_ok _
  · exact argErrors_byteRange

theorem argErrors_halfArg (n : Nat) : ArgErrors (halfArg n) := by
  unfold halfArg
  split
  · exact argErrors_ok _
  · exact argErrors_byteRange

theorem argErrors_bytesArg (l : List Nat) : ArgErrors (bytesArg l) := by
  unfold bytesArg
  split
  · exact argErrors_ok _
  · exact argErrors_byteRange

theorem argErrors_decodeNone (i : Instr) (args : List Arg) : ArgErrors (decodeNone i args) := by
  unfold decodeNone
  split
  · exact argErrors_ok i
  · exact argErrors_argShape

theorem argErrors_decodeList (f : List Byte → Instr) (args : List Arg) : ArgErrors (decodeList f args) := by
  unfold decodeList
  split
  · exact (argErrors_bytesArg _).map f
  · exact argErrors_argShape

theorem argErrors_decodeCount (f : Nat → Instr) (args : List Arg) : ArgErrors (decodeCount f args) := by
  unfold decodeCount
  split
  · exact argErrors_ok _
  · exact argErrors_argShape

theorem argErrors_decodeByte (f : Byte → Instr) (args : List Arg) : ArgErrors (decodeByte f args) := by
  unfold decodeByte
  split
  · exact (argErrors_byteArg _).map f
  · exact argErrors_argShape

theorem argErrors_decodeSetProperty (args : List Arg) : ArgErrors (decodeSetProperty args) := by
  unfold decodeSetProperty
  split
  · exact (argErrors_byteArg _).bind fun _ => (argErrors_byteArg _).bind fun _ => (argErrors_bytesArg _).map _
  · exact argErrors_argShape

theorem argErrors_decodeStartTx (args : List Arg) : ArgErrors (decodeStartTx args) := by
  unfold decodeStartTx
  split
  · exact (argErrors_byteArg _).bind fun _ => (argErrors_byteArg _).bind fun _ => (argErrors_halfArg _).map _
  · exact argErrors_argShape

theorem argErrors_decodeStartRx (args : List Arg) : ArgErrors (decodeStartRx args) := by
  unfold decodeStartRx
  split
  · exact (argErrors_byteArg _).bind fun _ => (argErrors_byteArg _).bind fun _ => (argErrors_halfArg _).bind fun _ =>
      (argErrors_byteArg _).bind fun _ => (argErrors_byteArg _).bind fun _ => (argErrors_byteArg _).map _
  · exact argErrors_argShape

/-- Under a code of R131 only the arguments can be at fault. -/
theorem argErrors_decodeRequest {r : Request} (h0 : r.hop.toNat ≠ 0) (h20 : r.hop.toNat ≤ 20) :
    ArgErrors (decodeRequest r) := by
  unfold decodeRequest
  split
  case h_1 | h_8 | h_9 | h_15 | h_16 | h_17 | h_18 | h_20 => exact argErrors_decodeNone _ _
  case h_2 | h_5 | h_7 | h_10 | h_11 | h_19 => exact argErrors_decodeList _ _
  case h_3 | h_4 => exact argErrors_decodeCount _ _
  case h_6 => exact argErrors_decodeSetProperty _
  case h_12 => exact argErrors_decodeStartTx _
  case h_13 => exact argErrors_decodeStartRx _
  case h_14 => exact argErrors_decodeByte _ _
  case h_21 =>
    simp only [imp_false] at *
    omega

/-- REF_UNKNOWN_OP is for the codes outside R131. -/
theorem decodeRequest_unknownOp {r : Request} :
    decodeRequest r = .error .unknownOp ↔ r.hop.toNat = 0 ∨ 20 < r.hop.toNat := by
  constructor
  · intro h
    by_contra hcode
    obtain hk | hk := argErrors_decodeRequest (r := r) (by omega) (by omega) _ h <;> cases hk
  · intro hcode
    unfold decodeRequest
    split
    case h_21 => rfl
    all_goals omega

/-! ### REF_BYTE_RANGE -/

theorem byteArg_byteRange {n : Nat} : byteArg n = .error .byteRange ↔ 255 < n := by
  unfold byteArg
  split
  · exact ⟨nofun, fun h => by omega⟩
  · exact ⟨fun _ => by omega, fun _ => rfl⟩

theorem halfArg_byteRange {n : Nat} : halfArg n = .error .byteRange ↔ 65535 < n := by
  unfold halfArg
  split
  · exact ⟨nofun, fun h => by omega⟩
  · exact ⟨fun _ => by omega, fun _ => rfl⟩

theorem bytesArg_byteRange {l : List Nat} : bytesArg l = .error .byteRange ↔ ∃ n ∈ l, 255 < n := by
  unfold bytesArg
  split
  case isTrue hall =>
    rw [List.all_eq_true] at hall
    exact ⟨nofun, fun ⟨n, hn, hlt⟩ => absurd (of_decide_eq_true (hall n hn)) (by omega)⟩
  case isFalse hall =>
    simp only [List.all_eq_true, decide_eq_true_eq, not_forall, Nat.not_lt, exists_prop] at hall
    exact ⟨fun _ => hall, fun _ => rfl⟩

theorem byteArg_bind_byteRange {β : Type} {n : Nat} {f : Byte → Except Check β} :
    (byteArg n).bind f = .error .byteRange ↔ 255 < n ∨ f (BitVec.ofNat 8 n) = .error .byteRange := by
  unfold byteArg
  split
  · exact ⟨.inr, fun h => h.resolve_left (by omega)⟩
  · exact ⟨fun _ => .inl (by omega), fun _ => rfl⟩

theorem halfArg_bind_byteRange {β : Type} {n : Nat} {f : Half → Except Check β} :
    (halfArg n).bind f = .error .byteRange ↔ 65535 < n ∨ f (BitVec.ofNat 16 n) = .error .byteRange := by
  unfold halfArg
  split
  · exact ⟨.inr, fun h => h.resolve_left (by omega)⟩
  · exact ⟨fun _ => .inl (by omega), fun _ => rfl⟩

theorem decodeStartTx_byteRange {ch cond len : Nat} :
    decodeStartTx [.num ch, .num cond, .num len] = .error .byteRange ↔ 255 < ch ∨ 255 < cond ∨ 65535 < len := by
  simp only [decodeStartTx, byteArg_bind_byteRange, exceptMap_error, halfArg_byteRange]

theorem decodeStartRx_byteRange {ch cond len x y z : Nat} :
    decodeStartRx [.num ch, .num cond, .num len, .num x, .num y, .num z] = .error .byteRange ↔
      255 < ch ∨ 255 < cond ∨ 65535 < len ∨ 255 < x ∨ 255 < y ∨ 255 < z := by
  simp only [decodeStartRx, byteArg_bind_byteRange, halfArg_bind_byteRange, exceptMap_error, byteArg_byteRange]

theorem decodeByte_byteRange {f : Byte → Instr} {n : Nat} :
    decodeByte f [.num n] = .error .byteRange ↔ 255 < n := by
  rw [decodeByte, exceptMap_error, byteArg_byteRange]

theorem decodeSetProperty_byteRange {g o : Nat} {d : List Nat} :
    decodeSetProperty [.num g, .num o, .list d] = .error .byteRange ↔ 255 < g ∨ 255 < o ∨ ∃ n ∈ d, 255 < n := by
  simp only [decodeSetProperty, byteArg_bind_byteRange, exceptMap_error, bytesArg_byteRange]

theorem decodeList_byteRange {f : List Byte → Instr} {l : List Nat} :
    decodeList f [.list l] = .error .byteRange ↔ ∃ n ∈ l, 255 < n := by
  rw [decodeList, exceptMap_error, bytesArg_byteRange]

/-! ### The checks of a decoded request -/

theorem sendCmd_emptyFrame {c : Config} {f : List Byte} :
    (Instr.sendCmd f).failingCheck c = some .emptyFrame ↔ f.length = 0 := by
  rw [Instr.failingCheck]
  split_ifs with h0 hcap
  · exact ⟨fun _ => h0, fun _ => rfl⟩
  · exact ⟨nofun, fun h => absurd h h0⟩
  · exact ⟨nofun, fun h => absurd h h0⟩

theorem sendCmd_frameTooLong {c : Config} {f : List Byte} :
    (Instr.sendCmd f).failingCheck c = some .frameTooLong ↔ f.length ≠ 0 ∧ c.cmdBufCap < f.length := by
  rw [Instr.failingCheck]
  split_ifs with h0 hcap
  · exact ⟨nofun, fun h => absurd h0 h.1⟩
  · exact ⟨fun _ => ⟨h0, hcap⟩, fun _ => rfl⟩
  · exact ⟨nofun, fun h => absurd h.2 hcap⟩

/-- A check that refuses where its condition holds. -/
theorem ite_some_none {p : Prop} [Decidable p] {k : Check} : (if p then some k else none) = some k ↔ p := by
  rw [Option.ite_none_right_eq_some, and_iff_left rfl]

/-- A check that refuses where its condition fails. -/
theorem ite_none_some {p : Prop} [Decidable p] {k : Check} : (if p then none else some k) = some k ↔ ¬ p := by
  rw [Option.ite_none_left_eq_some, and_iff_left rfl]

/-- Settles O11: the decoder's two checks by the argument shapes, the others by their own conditions. -/
theorem refusalChecks : Obligations.RefusalChecks := by
  unfold Obligations.RefusalChecks
  refine ⟨fun hop args => decodeRequest_unknownOp, fun ch cond len => decodeStartTx_byteRange,
    fun ch cond len x y z => decodeStartRx_byteRange, fun sub => decodeByte_byteRange,
    fun g o d => decodeSetProperty_byteRange, ?lists, fun c f => sendCmd_emptyFrame, fun c f => sendCmd_frameTooLong,
    fun c n => ite_some_none, fun c n => ite_some_none, fun c d => ite_some_none, fun c g o d => ite_some_none,
    fun c p => ite_none_some, fun c p => ite_none_some, ?subs, fun c f => ite_none_some, ?tables⟩
  case lists => rintro hop l (rfl | rfl | rfl | rfl | rfl | rfl) <;> exact decodeList_byteRange
  case subs =>
    intro c sub
    refine ite_none_some.trans ?_
    rw [not_or, not_or]
    rfl
  case tables =>
    intro c t
    refine ite_none_some.trans ?_
    rw [Bool.not_eq_true]

end Sys2Proof

namespace Sys2Proof.Machine

/-! ### Frames and program text -/

/-- Settles O4: the layouts are the frames' own, and the count byte holds every length up to 255. -/
theorem composedFrames : Obligations.ComposedFrames := by
  unfold Obligations.ComposedFrames
  refine ⟨fun g o d hd => ⟨BitVec.ofNat 8 d.length, ?count, rfl⟩, fun sub => rfl, fun ch cond hi lo => ?startTx,
    fun ch cond hi lo t v x => ?startRx, fun c => rfl, fun c => rfl⟩
  case count => exact (BitVec.toNat_ofNat _ _).trans (Nat.mod_eq_of_lt (by omega))
  case startTx =>
    show startTxFrame ch cond (half hi lo) = _
    rw [startTxFrame, hi8_half, lo8_half]
    rfl
  case startRx =>
    show startRxFrame ch cond (half hi lo) t v x = _
    rw [startRxFrame, hi8_half, lo8_half]
    rfl

/-- Settles O5: the assembler runs on the text. -/
theorem assembledText : Obligations.AssembledText := by
  unfold Obligations.AssembledText
  decide

/-! ### Wire rows -/

/-- An admitted wire row's transaction, whatever the chip answers: the body goes through, and writes no register beyond the
row's, no `status` and no line of the log (log entry 5). -/
theorem exec_wire_ok {i : Instr} {s : State} (hw : i.isWire = true) (hs : Accepts s) (hk : i.failingCheck s.cfg = none) :
    ∃ t, wireBody s.cfg i s = .ok () t ∧ exec i s = .next t ∧ t.status = s.status ∧ t.log = s.log ∧
      Frame i.writes s t := by
  obtain ⟨t, ht⟩ := wireBody_ok hs.1 hw hk s rfl
  have hrun : exec i s = .next t := by
    rw [exec_runs_wire hw hs.2 hk, ht]
    rfl
  obtain ⟨hstatus, hlog⟩ := exec_wire_outcome hw hk hrun
  exact ⟨t, ht, hrun, hstatus, hlog, frame_exec hs.1 hk hrun⟩

/-- A `send_command` that has returned put its frame on the bus from `cmd_buf` (R36, R155). -/
theorem sendCommand_done {f : List Byte} {s t : State} (h : sendCommand f s = .ok () t) :
    Puts s t (wOut f) ∧ t.cmdBuf = overwrite f s.cmdBuf := by
  obtain ⟨-, hr⟩ | ⟨-, hr⟩ := sendCommand_cases f s <;> rw [hr] at h
  · obtain rfl : writeWindow f (loadCmd .command f s) = t := by
      injection h
    exact ⟨(puts_writeWindow f (loadCmd .command f s)).congr rfl rfl, by simp⟩
  · cases h

/-- An admitted wire row whose body is `send_command` of a frame completes as one transaction of its bytes. -/
theorem exec_wireCommand {i : Instr} {s : State} {f : List Byte} (hw : i.isWire = true) (hs : Accepts s)
    (hk : i.failingCheck s.cfg = none) (hb : wireBody s.cfg i = sendCommand f) (hwrites : i.writes = [.sel, .cmdBuf]) :
    ∃ t, exec i s = .next t ∧ Puts s t (wOut f) ∧ t.cmdBuf = overwrite f s.cmdBuf ∧ t.status = s.status ∧ t.log = s.log ∧
      Frame [.sel, .cmdBuf] s t := by
  obtain ⟨t, ht, hrun, hstatus, hlog, hframe⟩ := exec_wire_ok hw hs hk
  rw [hb] at ht
  rw [hwrites] at hframe
  obtain ⟨hputs, hcmd⟩ := sendCommand_done ht
  exact ⟨t, hrun, hputs, hcmd, hstatus, hlog, hframe⟩

/-- Settles O30: each of the seven rows is `send_command` of its own encoding. -/
theorem wireCommands : Obligations.WireCommands := by
  unfold Obligations.WireCommands
  rintro i s f hs hk (⟨g, n, o, d, rfl, rfl⟩ | ⟨sub, rfl, rfl⟩ | ⟨ch, cond, len, rfl, rfl⟩ |
    ⟨ch, cond, len, t, v, x, rfl, rfl⟩ | ⟨a, rfl, rfl⟩ | ⟨code, rfl, rfl⟩ | ⟨a, rfl, rfl⟩) <;>
    exact exec_wireCommand rfl hs hk rfl rfl

/-- The window of a poll, up to its CTS byte, as events (R120). -/
theorem trace_askCts (s : State) : (askCts s).trace = s.trace ++
    [.sel, .x s.cfg.opReadCmdBuff (xferByte s.cfg.opReadCmdBuff (selOn s)),
      .x Literal.dummyByte (xferByte Literal.dummyByte (xfer s.cfg.opReadCmdBuff (selOn s)))] := by
  simp [askCts]

/-- READ_CMD_BUFF as a wire row: one poll, with the response in its window if it reads ready (R120, R121). -/
theorem wireReadCmdBuff_done {n : Nat} {s t : State} (h : wireBody s.cfg (.wireReadCmdBuff n) s = .ok () t) :
    ∃ new v, t.trace = s.trace ++ new ∧ t.lastCts = some v ∧
      ((v = 0xFF ∧ ∃ r, r.length = n ∧ ResponseWindow s.cfg r new ∧ t.respBuf = overwrite r s.respBuf) ∨
        (v ≠ 0xFF ∧ PollSeq s.cfg [v] new ∧ t.respBuf = s.respBuf)) := by
  have htrace := trace_askCts s
  have hlast := askCts_lastCts s
  generalize xferByte s.cfg.opReadCmdBuff (selOn s) = m at htrace
  generalize xferByte Literal.dummyByte (xfer s.cfg.opReadCmdBuff (selOn s)) = v at htrace hlast
  by_cases hready : v = 0xFF
  · subst hready
    have hbody : wireBody s.cfg (.wireReadCmdBuff n) s = (respond n (askCts s)).bind fun _ u => .ok () u := if_pos hlast
    rw [hbody] at h
    obtain ⟨-, hr⟩ | ⟨-, hr⟩ := respond_cases n (askCts s) <;> rw [hr] at h
    · injection h with _ h
      subst h
      refine ⟨[.sel, .x s.cfg.opReadCmdBuff m, .x Literal.dummyByte 0xFF] ++
        (readBytes n (askCts s)).map (Event.x Literal.dummyByte) ++ [.desel], 0xFF, ?_, by simpa using hlast,
        .inl ⟨rfl, readBytes n (askCts s), length_readBytes n _, ⟨m, rfl⟩, rfl⟩⟩
      show (afterReads n (askCts s)).trace ++ [.desel] = _
      rw [trace_afterReads, htrace]
      simp only [List.append_assoc]
    · cases h
  · have hbusy : (askCts s).lastCts ≠ some Literal.ctsReady := by
      rw [hlast]
      exact fun he => hready (Option.some.inj he)
    have hbody : wireBody s.cfg (.wireReadCmdBuff n) s = .ok () (selOff (askCts s)) := if_neg hbusy
    rw [hbody] at h
    injection h with _ h
    subst h
    refine ⟨[.sel, .x s.cfg.opReadCmdBuff m, .x Literal.dummyByte v, .desel], v, ?_, hlast,
      .inr ⟨hready, ⟨m, [], rfl, rfl⟩, rfl⟩⟩
    rw [selOff_trace, htrace, List.append_assoc]
    rfl

/-- Settles O31: two FIFO transactions, and a poll that a response follows if it reads ready. -/
theorem wireAccesses : Obligations.WireAccesses := by
  unfold Obligations.WireAccesses
  refine ⟨fun s d hs hd => ?write, fun s n hs hn => ?read, fun s n hs hn => ?poll⟩
  case write =>
    obtain ⟨t, ht, hrun, hstatus, hlog, hframe⟩ := exec_wire_ok (i := .wireWriteTxFifo d) rfl hs (if_neg (by omega))
    injection ht with _ ht
    subst ht
    exact ⟨_, hrun, puts_writeWindow _ s, hstatus, hlog, hframe⟩
  case read =>
    obtain ⟨t, ht, hrun, hstatus, hlog, hframe⟩ := exec_wire_ok (i := .wireReadRxFifo n) rfl hs (if_neg (by omega))
    injection ht with _ ht
    subst ht
    exact ⟨_, hrun, puts_readRx n s, hstatus, hlog, hframe⟩
  case poll =>
    obtain ⟨t, ht, hrun, hstatus, hlog, hframe⟩ := exec_wire_ok (i := .wireReadCmdBuff n) rfl hs (if_neg (by omega))
    obtain ⟨new, v, htrace, hlast, hends⟩ := wireReadCmdBuff_done ht
    exact ⟨t, new, v, hrun, htrace, hlast, hstatus, hlog, hframe, hends⟩

/-! ### Where the machine stops, and what it refuses (R46, R133, R305) -/

theorem step_notAdmitted {s : State} (h : s.cfg.admitted = false) : step s = .refused .configurationNotAdmitted := by
  unfold step
  rw [h]
  rfl

/-- An engine that is not IDLE takes no instruction (R46, R305 (a)). -/
theorem exec_busy (i : Instr) {s : State} (h : s.seq ≠ .idle) : exec i s = .fault .requestWhileRunning := by
  cases hw : i.isWire with
  | true =>
    rw [exec_wire hw]
    exact if_neg h
  | false =>
    rw [exec_host hw]
    exact if_neg h

/-- Settles O8: the admission stands before the fetch, and every instruction begins with the test of `seq`. -/
theorem whereTheMachineStops : Obligations.WhereTheMachineStops := by
  unfold Obligations.WhereTheMachineStops
  exact ⟨fun s h => step_notAdmitted h, fun i s h => exec_busy i h⟩

/-- Settles O10: the item is taken, the chip has its turn, and the refusal is all that follows. -/
theorem refusedItem : Obligations.RefusedItem := by
  unfold Obligations.RefusedItem
  intro s it rest k ha hs hp hd
  rw [step_undecoded ha hp hd]
  exact if_pos hs

end Sys2Proof.Machine
end

section
/-! PROOFS. Family 40_channel: the select discipline of every instruction (O19), and what WAIT_CTS, GET_RESP (O26) and the
FIFO accesses (O28) do for every answer the chip may give. -/

namespace Sys2Proof.Machine

/-! ### The select discipline (R151, R152) -/

/-- From `s` to `t` every select window that was opened has been closed, and the events keep the discipline of R151. -/
def ClosesWindows (s t : State) : Prop :=
  t.sel = false ∧ ∃ new, t.trace = s.trace ++ new ∧ selAfter false new = some false

theorem Clean.closesWindows {P : Event → Prop} {s t : State} (h : Clean P s t) (hs : s.sel = false) :
    ClosesWindows s t := by
  obtain ⟨new, hnew, -, hsel⟩ := h.trace
  obtain ⟨ht, hdiscipline⟩ := hsel hs
  exact ⟨ht, new, hnew, hdiscipline⟩

/-- Only the select line and the trace matter. -/
theorem ClosesWindows.congr {s s' t t' : State} (h : ClosesWindows s t) (hs : s'.trace = s.trace)
    (hsel : t'.sel = t.sel) (ht : t'.trace = t.trace) : ClosesWindows s' t' := by
  unfold ClosesWindows
  rwa [hsel, ht, hs]

theorem closesWindows_refuse {s : State} (hs : s.sel = false) (w : Issued) (k : Check) : ClosesWindows s (refuse w k s) :=
  ⟨hs, [], (List.append_nil _).symm, rfl⟩

theorem finish_sel (i : Instr) (x : Flow Result) : (finish i x).sel = x.state.sel := by
  cases x <;> rfl

theorem settle_sel (x : Flow Unit) : (settle x).sel = x.state.sel := by
  cases x <;> rfl

/-- Settles O19: a refusal puts nothing on the bus, every body closes the windows it opens, and no end of an operation touches
the line. -/
theorem everyInstructionDeselects : Obligations.EveryInstructionDeselects := by
  unfold Obligations.EveryInstructionDeselects
  intro i s t hs h
  obtain ⟨-, ⟨k, -, rfl⟩ | ⟨-, -, rfl⟩ | ⟨-, hw, rfl⟩⟩ := exec_next h
  · exact closesWindows_refuse hs _ k
  · have hbody := (clean_hostBody s.cfg i (begin i.expand s)).closesWindows hs
    exact hbody.congr rfl (finish_sel _ _) (finish_observed _ _).2.1
  · have hbody := (clean_wireBody s.cfg hw s).closesWindows hs
    exact hbody.congr rfl (settle_sel _) (settle_observed _).2.1

/-! ### Polls counted (R153, R154, R156) -/

/-- The window of a ready poll that no response follows is one poll more (R120, D44). -/
theorem PollSeq.snoc_ready {c : Config} {busy r : List Byte} {polls last : List Event} (h : PollSeq c busy polls)
    (hlast : ResponseWindow c r last) (hr : r.length = 0) : PollSeq c (busy ++ [0xFF]) (polls ++ last) := by
  obtain ⟨m, rfl⟩ := hlast
  obtain rfl := List.length_eq_zero_iff.1 hr
  exact pollSeq_snoc h

theorem getResponse_log (n : Nat) (s : State) : (getResponse n s).state.log = s.log :=
  (clean_getResponse bus_onBus n s).log

theorem getResponse_log_ok {n : Nat} {s u : State} {r : List Byte} (h : getResponse n s = .ok r u) : u.log = s.log := by
  simpa [h] using getResponse_log n s

theorem getResponse_log_timeout {n k : Nat} {s u : State} (h : getResponse n s = .timeout k u) : u.log = s.log := by
  simpa [h] using getResponse_log n s

/-- From `s` to `u` the engine has polled, and done nothing else on the bus: `vs` are the CTS bytes read, oldest first, and
the poll registers hold their count and the last of them (R40, R41, R153). -/
structure Polling (vs : List Byte) (s u : State) : Prop where
  events : ∃ new, u.trace = s.trace ++ new ∧ PollSeq s.cfg vs new
  count : u.pollCount = vs.length
  last : u.lastCts = vs.getLast?
  log : u.log = s.log

/-- `wait_for_cts()` polls until the first 0xFF, or makes CTS_RETRY_MAX busy polls and raises Timeout (R153, R154). -/
theorem waitForCts_polling {s : State} (hp : Polls s.cfg) :
    ∃ vs u, Polling vs s u ∧
      ((waitForCts s = .ok () u ∧ ∃ busy, vs = busy ++ [0xFF] ∧ (∀ v ∈ busy, v ≠ 0xFF) ∧ vs.length ≤ s.cfg.ctsRetryMax) ∨
        (waitForCts s = .timeout s.cfg.ctsRetryMax u ∧ (∀ v ∈ vs, v ≠ 0xFF) ∧ vs.length = s.cfg.ctsRetryMax)) := by
  obtain ⟨busy, polls, hbusy, hseq, ⟨r, last, u, hu, hr, hwindow, htrace, hlt, hcount, hlast, -⟩ |
    ⟨u, hu, htrace, hmax, hcount, -, hlast⟩⟩ := getResponse_all hp (Nat.zero_le s.cfg.respBufCap)
  · refine ⟨busy ++ [0xFF], u, ⟨⟨polls ++ last, ?_, hseq.snoc_ready hwindow hr⟩, ?_, ?_, getResponse_log_ok hu⟩,
      .inl ⟨?_, busy, rfl, hbusy, ?_⟩⟩
    · rw [htrace, List.append_assoc]
    · simpa using hcount
    · simpa using hlast
    · rw [waitForCts, hu, Flow.bind_ok]
    · simpa using hlt
  · refine ⟨busy, u, ⟨⟨polls, htrace, hseq⟩, hcount.trans hmax.symm, hlast, getResponse_log_timeout hu⟩,
      .inr ⟨?_, hbusy, hmax⟩⟩
    rw [waitForCts, hu, Flow.bind_timeout]

/-- Settles O26: both bodies are one handshake, whose polls are counted from 0; a ready poll completes the operation, and
CTS_RETRY_MAX busy ones abort it. -/
theorem pollCountingIsExact : Obligations.PollCountingIsExact := by
  unfold Obligations.PollCountingIsExact
  refine ⟨fun c => rfl, fun c n => rfl, fun s hs => ?wait, fun s n hs hn => ?get⟩
  case wait =>
    obtain ⟨vs, u, ⟨⟨new, htrace, hseq⟩, hcount, hlast, hlog⟩, ⟨hu, hready⟩ | ⟨hu, hbusy, hmax⟩⟩ :=
      waitForCts_polling (s := begin .waitCts s) (facts_of_admitted hs.1).polls
    · obtain ⟨busy, hvs, hbusy, hle⟩ := hready
      exact ⟨_, new, vs, exec_completed (i := .waitCts) rfl hs rfl (stepsBody_one_ok hu), (stepDone_trace u).trans htrace,
        (stepDone_pollCount u).trans hcount, (stepDone_lastCts u).trans hlast, hseq,
        .inl ⟨busy, hvs, hbusy, hle, congrArg (· ++ [_]) ((stepDone_log u).trans hlog), rfl⟩⟩
    · exact ⟨_, new, vs, exec_timeout (i := .waitCts) rfl hs rfl (stepsBody_one_timeout hu), htrace, hcount, hlast, hseq,
        .inr ⟨hbusy, hmax, congrArg (· ++ [_]) hlog, rfl⟩⟩
  case get =>
    have hk : (Instr.getResp n).failingCheck s.cfg = none := if_neg (Nat.not_lt.2 hn)
    obtain ⟨busy, polls, hbusy, hseq, ⟨r, last, u, hu, hr, hwindow, htrace, hlt, hcount, hlast, hresp⟩ |
      ⟨u, hu, htrace, hmax, hcount, hresp, hlast⟩⟩ :=
      getResponse_all (s := begin (.getResp n) s) (facts_of_admitted hs.1).polls hn
    · have hlog := getResponse_log_ok hu
      have hx : hostBody s.cfg (.getResp n) (begin (.getResp n) s) = .ok (.okBytes r) (stepDone u) := by
        show (getResponse n (begin (.getResp n) s)).bind _ = _
        rw [hu, Flow.bind_ok]
      exact ⟨_, busy, polls, exec_completed (i := .getResp n) rfl hs hk hx, hseq, hbusy,
        .inl ⟨r, last, hr, hwindow, (stepDone_trace u).trans htrace, hlt, (stepDone_pollCount u).trans hcount,
          (stepDone_lastCts u).trans hlast, (stepDone_respBuf u).trans hresp,
          congrArg (· ++ [_]) ((stepDone_log u).trans hlog), rfl⟩⟩
    · have hlog := getResponse_log_timeout hu
      have hx : hostBody s.cfg (.getResp n) (begin (.getResp n) s) = .timeout s.cfg.ctsRetryMax u := by
        show (getResponse n (begin (.getResp n) s)).bind _ = _
        rw [hu, Flow.bind_timeout]
        rfl
      exact ⟨_, busy, polls, exec_timeout (i := .getResp n) rfl hs hk hx, hseq, hbusy,
        .inr ⟨htrace, hmax, hcount, hlast, hresp, congrArg (· ++ [_]) hlog, rfl⟩⟩

/-! ### FIFO accesses (R157, R158) -/

/-- The window of READ_RX_FIFO carries the chip's answers, in order (R87, R119). -/
theorem trace_readRx (n : Nat) (s : State) :
    (selOff (afterReads n (openRxRead s))).trace = s.trace ++
      ([.sel, .x Literal.opReadRxFifo (xferByte Literal.opReadRxFifo (selOn s))] ++
        (readBytes n (openRxRead s)).map (Event.x Literal.dummyByte) ++ [.desel]) := by
  rw [selOff_trace, trace_afterReads]
  simp [openRxRead]

/-- A window of writes is a part of an operation: it puts its bytes on the bus and writes no outcome (R12). -/
theorem went_writeWindow (l : List Byte) (s : State) : Went s (writeWindow l s) (wOut l) :=
  ⟨by simp, puts_writeWindow l s, by simp, by simp⟩

theorem decodeList_toNat (f : List Byte → Instr) (d : List Byte) : decodeList f [.list (d.map BitVec.toNat)] = .ok (f d) := by
  show (bytesArg _).map f = _
  rw [bytesArg_toNat]
  rfl

/-- Settles O28: each body is one window, whose reads return what the chip answered. -/
theorem fifoAccesses : Obligations.FifoAccesses := by
  unfold Obligations.FifoAccesses
  refine ⟨fun s n hs hn => ?read, fun s d hs hd => ?write, fun c n => rfl, fun c d => decodeList_toNat .writeTxFifo d⟩
  case read =>
    have hrun := exec_readRxFifo hs hn
    have htrace := trace_readRx n (begin (.readRxFifo n) s)
    have hframe := frame_exec (i := .readRxFifo n) hs.1 (if_neg (Nat.not_lt.2 hn)) hrun
    exact ⟨_, _, _, hrun, length_readBytes n _, (stepDone_trace _).trans htrace, by simp [openRxRead], rfl, hframe⟩
  case write =>
    have hk : (Instr.writeTxFifo d).failingCheck s.cfg = none := if_neg (Nat.not_lt.2 hd)
    have hwent := went_writeWindow (Literal.opWriteTxFifo :: d) (begin (.writeTxFifo d) s)
    exact ⟨_, completed_of_went (i := .writeTxFifo d) rfl hs hk (stepsBody_one_ok rfl) hwent.stepDone⟩

end Sys2Proof.Machine
end

section
/-! PROOFS. Family 41_replay: the check of a configuration table against the offsets of R185 (O36). -/

namespace Sys2Proof.Machine

section

variable {cap K : Nat} {T : List Byte} {a : Nat → Nat}

/-! ### Record offsets (R185) -/

/-- The offset behind the record at `p`: its length byte and its frame (R185). -/
def nextOffset (T : List Byte) (p : Nat) : Nat := p + (T.getD p 0).toNat + 1

/-- The frame of the record at `p` (R181). -/
def recordAt (T : List Byte) (p : Nat) : List Byte := (T.drop (p + 1)).take (T.getD p 0).toNat

/-- `a 0 … a K` are record offsets of `T`, the last one its first terminator: the offsets of R185 from `a 0` on, with its
conditions (a) and (b). -/
structure Framing (T : List Byte) (a : Nat → Nat) (K : Nat) : Prop where
  step : ∀ k < K, a (k + 1) = nextOffset T (a k)
  inside : ∀ k ≤ K, a k < T.length
  nonzero : ∀ k < K, T.getD (a k) 0 ≠ 0
  terminator : T.getD (a K) 0 = 0

theorem one_le_toNat_iff {b : Byte} : 1 ≤ b.toNat ↔ b ≠ 0 := by
  rw [Nat.one_le_iff_ne_zero]
  exact not_congr (BitVec.toNat_inj (y := 0))

theorem Framing.tail (h : Framing T a (K + 1)) : Framing T (fun k => a (k + 1)) K :=
  ⟨fun k hk => h.step (k + 1) (by omega), fun k hk => h.inside (k + 1) (by omega),
    fun k hk => h.nonzero (k + 1) (by omega), h.terminator⟩

/-- (c): each record fits inside the table, because the next offset does. -/
theorem Framing.fits (h : Framing T a K) {k : Nat} (hk : k < K) : a k + (T.getD (a k) 0).toNat < T.length := by
  have hstep := h.step k hk
  have hnext := h.inside (k + 1) hk
  unfold nextOffset at hstep
  omega

theorem Framing.le_offset (h : Framing T a K) : ∀ k ≤ K, k ≤ a k
  | 0, _ => Nat.zero_le _
  | k + 1, hk => by
    have ih := h.le_offset k (by omega)
    rw [h.step k hk]
    unfold nextOffset
    omega

theorem Framing.count_lt (h : Framing T a K) : K < T.length :=
  (h.le_offset K le_rfl).trans_lt (h.inside K le_rfl)

/-! ### The records as read at an offset -/

theorem drop_eq_getD_cons {p : Nat} (hp : p < T.length) : T.drop p = T.getD p 0 :: T.drop (p + 1) := by
  rw [List.getD_eq_getElem _ _ hp, List.drop_eq_getElem_cons hp]

theorem length_recordAt {p : Nat} (h : p + (T.getD p 0).toNat < T.length) :
    (recordAt T p).length = (T.getD p 0).toNat := by
  unfold recordAt
  rw [List.length_take, List.length_drop]
  omega

theorem tableRecordsFuel_terminator {n p : Nat} (hp : p < T.length) (h0 : T.getD p 0 = 0) :
    tableRecordsFuel (n + 1) (T.drop p) = some [] := by
  rw [drop_eq_getD_cons hp, tableRecordsFuel, if_pos h0]

theorem tableRecordsFuel_record {n p : Nat} (hp : p < T.length) (h0 : T.getD p 0 ≠ 0) :
    tableRecordsFuel (n + 1) (T.drop p) =
      if nextOffset T p ≤ T.length then
        (tableRecordsFuel n (T.drop (nextOffset T p))).map (recordAt T p :: ·)
      else none := by
  have hfit : (T.getD p 0).toNat ≤ (T.drop (p + 1)).length ↔ nextOffset T p ≤ T.length := by
    unfold nextOffset
    rw [List.length_drop]
    omega
  have hnext : (T.drop (p + 1)).drop (T.getD p 0).toNat = T.drop (nextOffset T p) := by
    rw [List.drop_drop, nextOffset, Nat.add_right_comm]
  rw [drop_eq_getD_cons hp, tableRecordsFuel, if_neg h0, hnext]
  simp only [hfit, recordAt]

/-- Along a framing the records read are those at its offsets. -/
theorem Framing.tableRecordsFuel_eq (h : Framing T a K) {n : Nat} (hn : K < n) :
    tableRecordsFuel n (T.drop (a 0)) = some ((List.range K).map fun k => recordAt T (a k)) := by
  induction K generalizing a n with
  | zero =>
    obtain ⟨m, rfl⟩ := Nat.exists_eq_add_of_lt hn
    exact tableRecordsFuel_terminator (h.inside 0 le_rfl) h.terminator
  | succ K ih =>
    obtain ⟨m, rfl⟩ : ∃ m, n = m + 1 := ⟨n - 1, by omega⟩
    have hstep := h.step 0 K.succ_pos
    have hnext : nextOffset T (a 0) ≤ T.length := hstep ▸ (h.inside 1 (by omega)).le
    rw [tableRecordsFuel_record (h.inside 0 (by omega)) (h.nonzero 0 K.succ_pos), if_pos hnext, ← hstep,
      ih h.tail (by omega), List.range_succ_eq_map, List.map_cons, List.map_map]
    rfl

/-- What is read as records has a framing: the offsets `p`, `nextOffset T p` and so on. -/
theorem framing_of_tableRecordsFuel {n p : Nat} {fs : List (List Byte)}
    (h : tableRecordsFuel n (T.drop p) = some fs) : Framing T (fun k => (nextOffset T)^[k] p) fs.length := by
  induction n generalizing p fs with
  | zero => cases h
  | succ n ih =>
    have hp : p < T.length := by
      by_contra hout
      rw [List.drop_eq_nil_of_le (Nat.le_of_not_lt hout)] at h
      cases h
    by_cases h0 : T.getD p 0 = 0
    · rw [tableRecordsFuel_terminator hp h0] at h
      injection h with h
      subst h
      exact ⟨fun k hk => absurd hk (Nat.not_lt_zero k), fun k hk => Nat.le_zero.1 hk ▸ hp,
        fun k hk => absurd hk (Nat.not_lt_zero k), h0⟩
    · rw [tableRecordsFuel_record hp h0] at h
      split at h
      · obtain ⟨gs, hgs, rfl⟩ := Option.map_eq_some_iff.1 h
        have rest := ih hgs
        refine ⟨fun k _ => Function.iterate_succ_apply' .., ?inside, ?nonzero, rest.terminator⟩
        case inside =>
          rintro (_ | k) hk
          · exact hp
          · exact rest.inside k (Nat.le_of_succ_le_succ hk)
        case nonzero =>
          rintro (_ | k) hk
          · exact h0
          · exact rest.nonzero k (Nat.lt_of_succ_lt_succ hk)
      · cases h

/-! ### The check and the count -/

theorem Framing.tableRecords_eq (h : Framing T a K) (h0 : a 0 = 0) :
    tableRecords T = some ((List.range K).map fun k => recordAt T (a k)) := by
  have hread := h.tableRecordsFuel_eq (h.count_lt.trans (Nat.lt_succ_self _))
  rwa [h0] at hread

/-- `count(T)` is the `K` of any framing from offset 0: there is only one (R185, R186). -/
theorem Framing.tableCount_eq (h : Framing T a K) (h0 : a 0 = 0) : tableCount T = K := by
  simp [tableCount, h.tableRecords_eq h0]

/-- (d): the records fit the command buffer when their length bytes do. -/
theorem Framing.records_le_iff (h : Framing T a K) :
    (∀ f ∈ (List.range K).map fun k => recordAt T (a k), f.length ≤ cap) ↔ ∀ k < K, (T.getD (a k) 0).toNat ≤ cap := by
  simp only [List.forall_mem_map, List.mem_range]
  exact forall₂_congr fun k hk => by rw [length_recordAt (h.fits hk)]

/-- The check is the existence of a framing from offset 0 whose length bytes fit the command buffer. -/
theorem tableWF_iff_framing : tableWF cap T = true ↔
    ∃ a K, a 0 = 0 ∧ Framing T a K ∧ ∀ k < K, (T.getD (a k) 0).toNat ≤ cap := by
  constructor
  · intro hwf
    obtain ⟨fs, hfs, hcap⟩ := tableWF_records hwf
    have hframing : Framing T (fun k => (nextOffset T)^[k] 0) fs.length := framing_of_tableRecordsFuel hfs
    have hrecords := Option.some.inj (hfs.symm.trans (hframing.tableRecords_eq rfl))
    exact ⟨_, _, rfl, hframing, hframing.records_le_iff.1 (hrecords ▸ hcap)⟩
  · rintro ⟨a, K, h0, hframing, hcap⟩
    exact tableWF_of_records (hframing.tableRecords_eq h0) (hframing.records_le_iff.2 hcap)

/-- A configuration whose table fails the check is not admitted (R133, R185). -/
theorem not_admitted_of_table {c : Config} (h : tableWF c.cmdBufCap c.configTable = false) : c.admitted = false :=
  Bool.eq_false_iff.2 fun hc => Bool.eq_false_iff.1 h (facts_of_admitted hc).table

end

/-- Settles O36: what the check reads are the records at the offsets of R185, and their number is the `K` of any such
offsets. -/
theorem tableWellFormed : Obligations.TableWellFormed := by
  unfold Obligations.TableWellFormed
  intro cap T
  refine ⟨tableWF_iff_framing.trans ?iff, ?count, ?refused⟩
  case iff =>
    constructor
    · rintro ⟨a, K, h0, hframing, hcap⟩
      exact ⟨a, K, h0, hframing.step, hframing.inside,
        ⟨fun k hk => one_le_toNat_iff.2 (hframing.nonzero k hk), hframing.terminator⟩, fun k hk => hframing.fits hk, hcap⟩
    · rintro ⟨a, K, h0, hstep, hinside, ⟨hlength, hterm⟩, -, hcap⟩
      exact ⟨a, K, h0, ⟨hstep, hinside, fun k hk => one_le_toNat_iff.1 (hlength k hk), hterm⟩, hcap⟩
  case count =>
    intro a K _ h0 hstep hlength hterm hinside
    exact Framing.tableCount_eq ⟨hstep, hinside, fun k hk => one_le_toNat_iff.1 (hlength k hk), hterm⟩ h0
  case refused =>
    rintro c rfl hfails
    exact ⟨ite_none_some.2 (Bool.eq_false_iff.1 hfails), by rintro rfl; exact not_admitted_of_table hfails⟩

end Sys2Proof.Machine
end

section
/-! PROOFS. Family 42_radio_state: READ_RSSI (O29); what POWER_UP leaves of the chip (O53), a bring-up in flight (O54), and how
the chip is and stays Unknown without a reset pulse (O55, O56). -/

namespace Sys2Proof.Machine

/-! ### READ_RSSI -/

/-- Settles O29: the body is the end of its one step, at which nothing has been put on the bus. -/
theorem readRssi : Obligations.ReadRssi := by
  unfold Obligations.ReadRssi
  refine ⟨fun c => rfl, fun s hs => ?_⟩
  obtain ⟨ht, hdone⟩ := completed_of_went (i := .readRssi) rfl hs rfl rfl (Went.refl (begin .readRssi s)).stepDone
  exact ⟨_, ht, hdone⟩

section

variable {c : Config} {ok : Sent → Prop} {Q : Chip → Chip → Prop}

/-! ### Events beside the transactions -/

/-- The chip agent told of a completed replay, as far as the chip goes (R293). -/
theorem under_noteReplayed (hrefl : ∀ g, Q g g) (hreplayed : ∀ g : Chip, Q g g.replayed) (l : List Byte) (s : State) :
    Under Q s (noteReplayed l s) := by
  intro hl
  unfold noteReplayed
  split
  · show s.agent.onReplayed.law = _ ∧ Q _ s.agent.onReplayed.chip
    unfold Agent.onReplayed
    rw [hl]
    exact ⟨rfl, hreplayed _⟩
  · exact ⟨hl, hrefl _⟩

/-- The reset line and the delays, as far as the chip goes (R211). -/
theorem ChipClosed.closedReset (h : ChipClosed c ok Q) (hreset : ∀ b (g : Chip), Q g (g.reset b))
    (hsettle : ∀ n (g : Chip), Q g (g.settle c n)) : ClosedReset c (Under Q) where
  rst b s hs hl := by
    subst hs
    obtain ⟨hlaw, hturn, -⟩ := h.turn hl
    rw [setRst_agent, Agent.onRst, hlaw]
    exact ⟨rfl, h.trans hturn (hreset b _)⟩
  us n s hs hl := by
    subst hs
    obtain ⟨hlaw, hturn, -⟩ := h.turn hl
    exact ⟨hlaw, hturn⟩
  ms n s hs hl := by
    subst hs
    obtain ⟨hlaw, hturn, -⟩ := h.turn hl
    rw [delayMs_agent, Agent.onDelayMs, hlaw]
    exact ⟨rfl, h.trans hturn (hsettle n _)⟩

/-- A host operation whose body leads to mode Unknown leaves the chip there: a Timeout does so too (R223). -/
theorem exec_leads_unknown {i : Instr} {s t : State} {P : Chip → Prop} (hs : Accepts s) (hl : s.agent.law = .abstractModel)
    (hw : i.isWire = false) (hk : i.failingCheck s.cfg = none) (hP : P (s.agent.chip.request i.expand))
    (hL : Leads s.cfg (fun _ => True) P (hostBody s.cfg i) (·.mode = .unknown)) (h : exec i s = .next t) :
    t.agent.chip.mode = .unknown := by
  by_contra hm
  obtain ⟨g, hg, hchip, -⟩ := exec_leads hs hl hw hk hP hL h hm
  exact hm (hchip ▸ hg)

end

section

variable {c : Config}

/-! ### Unknown lasts without a reset pulse (R223) -/

/-- Being in mode Unknown, as a relation between chips: it lasts. -/
abbrev UnknownStays (g h : Chip) : Prop := g.mode = .unknown → h.mode = .unknown

/-- A part that keeps mode Unknown, however it ends. -/
theorem Leads.stays {α : Type} {f : State → Flow α} (h : KeepsAt c (Under UnknownStays) f) :
    Leads c (fun _ => True) (·.mode = .unknown) f (·.mode = .unknown) := .ofKeeps h fun _ _ hg hstays => hstays hg

theorem replayed_unknown {g : Chip} (hm : g.mode = .unknown) : g.replayed = g := if_pos hm

theorem unknownStays_replay (c : Config) : ClosedReplay c (Under UnknownStays) := fun l s _ =>
  under_noteReplayed (fun _ => id) (fun _ hm => by rw [replayed_unknown hm]; exact hm) l s

theorem request_unknown (i : Instr) {g : Chip} (hm : g.mode = .unknown) : (g.request i).mode = .unknown := by
  rcases request_cases i g with h | h | h <;> rw [h]
  · exact hm
  · rfl
  · rfl

theorem unknownStays_hostBody {i : Instr} (hw : i.isWire = false) (ha : c.admitted = true) (hk : i.failingCheck c = none)
    (hp : ¬ Pulses i) : KeepsAt c (Under UnknownStays) (hostBody c i) :=
  (closed_unknown c).closed.hostBody hw ha hk (fun _ _ => trivial) (absurd · hp) fun _ => unknownStays_replay c

/-- A wire row leaves the engine as its transaction left it. -/
theorem settle_agent (x : Flow Unit) : (settle x).agent = x.state.agent := by cases x <;> rfl

/-- Settles O55: a refusal leaves the chip alone, and no transaction and no move of its own leads out of Unknown. -/
theorem unknownLasts : Obligations.UnknownLasts := by
  unfold Obligations.UnknownLasts
  intro i s t ha hl hm hpower hrx htx h
  have hp : ¬ Pulses i := by rintro (h | h | h) <;> contradiction
  obtain ⟨hseq, ⟨k, -, rfl⟩ | ⟨hk, hw, -⟩ | ⟨-, hw, rfl⟩⟩ := exec_next h
  · exact hm
  · exact exec_leads_unknown ⟨ha, hseq⟩ hl hw hk (request_unknown i.expand hm)
      (.stays (unknownStays_hostBody hw ha hk hp)) h
  · rw [settle_agent]
    exact (((closed_unknown s.cfg).wireBody hw (fun _ _ => trivial) s rfl).1 hl).2 hm

/-! ### A bring-up in flight (R207, R223) -/

/-- In mode Unknown, and held there: the operation's own reset pulse does not lift it (R223). -/
structure HeldUnknown (g : Chip) : Prop where
  mode : g.mode = .unknown
  held : g.held = true

/-- Acting on a frame changes nothing of a chip in Unknown but that it has none in hand (R97). -/
theorem act_held {g : Chip} (hm : g.mode = .unknown) : (g.act c).held = g.held := by
  unfold Chip.act
  split
  · rfl
  · rw [if_neg (by simp [hm]), if_pos (by simp [hm, Mode.powered])]

theorem HeldUnknown.move {g : Chip} (hg : HeldUnknown g) (m : ChipMove) : HeldUnknown (g.move c m) := by
  refine ⟨(closed_unknown c).move m g hg.mode, ?_⟩
  rcases move_idle (c := c) m (g := g) (by simp [hg.mode]) (by simp [hg.mode]) with h | h <;> rw [h]
  · exact hg.held
  · rw [act_held hg.mode]
    exact hg.held

theorem HeldUnknown.reset {g : Chip} (hg : HeldUnknown g) (b : Bool) : HeldUnknown (g.reset b) := by
  rw [Chip.reset, if_pos hg.held]
  exact ⟨hg.mode, hg.held⟩

theorem HeldUnknown.settle {g : Chip} (hg : HeldUnknown g) (n : Nat) : HeldUnknown (g.settle c n) := by
  rw [Chip.settle, if_neg (by simp [hg.mode])]
  exact hg

/-- Nothing at the bus lifts it. -/
theorem closed_heldUnknown (c : Config) :
    ChipClosed c (fun _ => True) (fun g h => HeldUnknown g → HeldUnknown h) where
  refl _ := id
  trans h k := k ∘ h
  move m _ hg := hg.move m
  lost _ hg := ⟨rfl, hg.held⟩
  rx _ _ hg := ⟨hg.mode, hg.held⟩
  processed _ hm hg := absurd hg.mode hm
  push d h hg := by rw [Chip.pushTx, if_pos hg.mode]; exact hg
  read n h hg := by rw [Chip.afterRead, if_neg (by simp [hg.mode])]; exact hg
  command f h _ hg := by rw [command_unknown hg.mode]; exact hg

theorem heldUnknown_hostBody {i : Instr} (hw : i.isWire = false) (ha : c.admitted = true) (hk : i.failingCheck c = none) :
    KeepsAt c (Under fun g h => HeldUnknown g → HeldUnknown h) (hostBody c i) :=
  (closed_heldUnknown c).closed.hostBody hw ha hk (fun _ _ => trivial)
    (fun _ => (closed_heldUnknown c).closedReset (fun b _ hg => hg.reset b) fun n _ hg => hg.settle n)
    fun _ l s _ => under_noteReplayed (fun _ => id) (fun _ hg => by rw [replayed_unknown hg.mode]; exact hg) l s

/-- The request of a bring-up in flight (R207). -/
theorem request_inFlight {i : Instr} {g : Chip} (hi : Instr.bringsUp i = true) (hm : g.mode = .txArmed) :
    HeldUnknown (g.request i) := by
  rw [Chip.request, if_pos hi, if_pos hm]
  exact ⟨rfl, rfl⟩

theorem exec_inFlight {i : Instr} {s t : State} (hs : Accepts s) (hl : s.agent.law = .abstractModel)
    (hm : s.agent.chip.mode = .txArmed) (hw : i.isWire = false) (hk : i.failingCheck s.cfg = none)
    (hi : Instr.bringsUp i.expand = true) (h : exec i s = .next t) : t.agent.chip.mode = .unknown :=
  exec_leads_unknown hs hl hw hk (request_inFlight hi hm)
    (.ofKeeps (heldUnknown_hostBody hw hs.1 hk) fun _ _ hg hkeeps => (hkeeps hg).mode) h

/-- Settles O54: from the request on the chip is held in Unknown, through the reset pulse and to the end. -/
theorem bringUpInFlight : Obligations.BringUpInFlight := by
  unfold Obligations.BringUpInFlight
  rintro s t hs hl hm (h | h)
  · exact exec_inFlight (i := .enterRx) hs hl hm rfl rfl rfl h
  · exact exec_inFlight (i := .enterTx) hs hl hm rfl rfl rfl h

end
section

variable {c : Config} {E : List (List ChipMove) → Prop} {P Q : Chip → Prop}

/-! ### The reset line and the delays at a chip that may move (R211) -/

theorem Leads.edge (hq : Quiet c E P) (b : Bool) (h : ∀ g, P g → Q (g.reset b)) : Leads c E P (lift (Machine.setRst b)) Q := by
  rintro s r t rfl ha ht
  injection ht with _ ht
  subst ht
  obtain ⟨hl, hp, hg⟩ := (stable_calm hq).turn ha
  refine ⟨rfl, ?_⟩
  rw [setRst_agent, Agent.onRst, hl]
  exact ⟨rfl, hp, h _ hg⟩

theorem Leads.pause (hq : Quiet c E P) (n : Nat) : Leads c E P (lift (Machine.delayUs n)) P := by
  rintro s r t rfl ha ht
  injection ht with _ ht
  subst ht
  exact ⟨rfl, (stable_calm hq).turn ha⟩

theorem Leads.settling (hq : Quiet c E P) (n : Nat) (h : ∀ g, P g → Q (g.settle c n)) :
    Leads c E P (lift (Machine.delayMs n)) Q := by
  rintro s r t rfl ha ht
  injection ht with _ ht
  subst ht
  obtain ⟨hl, hp, hg⟩ := (stable_calm hq).turn ha
  refine ⟨rfl, ?_⟩
  rw [delayMs_agent, Agent.onDelayMs, hl]
  exact ⟨rfl, hp, h _ hg⟩

/-! ### The chip through the power-up (R211, R213) -/

/-- A chip that neither transmits nor receives and has no frame in hand makes no move. -/
theorem move_none {g : Chip} (h1 : g.mode ≠ .txArmed) (h2 : g.mode ≠ .rxArmed) (ht : g.taken = none) (m : ChipMove) :
    g.move c m = g := by
  rcases move_idle (c := c) m h1 h2 with h | h
  · exact h
  · exact h.trans (act_none ht)

/-- The chip in Off: nothing of what it was (R211). -/
def Chip.inOff (rstHeld : Bool) : Chip := { Chip.unknown with mode := .off, rstHeld := rstHeld }

/-- The chip in Boot, ready for POWER_UP_FRAME (R211). -/
def Chip.inBoot : Chip := { Chip.unknown with mode := .boot, cts := true }

/-- The chip in Standby/Ready, as POWER_UP_FRAME brings it there (R213). -/
def Chip.poweredUp (cts : Bool) : Chip := { Chip.unknown with mode := .standbyReady, cts := cts }

/-- POWER_UP_FRAME has arrived in Boot: it is in hand, or the chip has acted on it (R97, R213). -/
def PoweringUp (c : Config) (g : Chip) : Prop :=
  g = { Chip.inBoot with cts := false, taken := some (.command, c.powerUpFrame) } ∨ g = Chip.poweredUp false

theorem quiet_fixed {k : Chip} (h1 : k.mode ≠ .txArmed) (h2 : k.mode ≠ .rxArmed) (ht : k.taken = none) :
    Quiet c (fun _ => True) (· = k) := by
  refine quiet_any ?_
  rintro m _ rfl
  exact move_none h1 h2 ht m

theorem quiet_off (b : Bool) : Quiet c (fun _ => True) (· = Chip.inOff b) :=
  quiet_fixed (by simp [Chip.inOff]) (by simp [Chip.inOff]) rfl

theorem quiet_boot : Quiet c (fun _ => True) (· = Chip.inBoot) :=
  quiet_fixed (by simp [Chip.inBoot]) (by simp [Chip.inBoot]) rfl

theorem quiet_poweredUp (b : Bool) : Quiet c (fun _ => True) (· = Chip.poweredUp b) :=
  quiet_fixed (by simp [Chip.poweredUp]) (by simp [Chip.poweredUp]) rfl

theorem PoweringUp.act {g : Chip} (hg : PoweringUp c g) : g.act c = Chip.poweredUp false := by
  rcases hg with rfl | rfl
  · rfl
  · exact act_none rfl

theorem quiet_poweringUp : Quiet c (fun _ => True) (PoweringUp c) := by
  refine quiet_any fun m g hg => ?_
  have h1 : g.mode ≠ .txArmed ∧ g.mode ≠ .rxArmed := by
    rcases hg with rfl | rfl <;> exact ⟨Mode.noConfusion, Mode.noConfusion⟩
  rcases move_idle (c := c) m h1.1 h1.2 with h | h <;> rw [h]
  · exact hg
  · exact .inr hg.act

/-! ### CLEAR_INTS at the end of the power-up -/

/-- The chip in Standby/Ready, its FIFOs and pending interrupts empty, its property store lost (R211, R220). -/
structure Revived (g : Chip) : Prop where
  mode : g.mode = .standbyReady
  txFifo : g.txFifo = []
  rxFifo : g.rxFifo = []
  intPending : g.intPending = ⟨false, false⟩
  props : g.props = []

/-- GET_INT_STATUS is in hand at a revived chip, or it has acted on it. -/
structure AsksStatus (c : Config) (g : Chip) : Prop extends Revived g where
  cts : g.cts = false
  taken : g.taken = none ∨ g.taken = some (.command, intStatusFrame c)

/-- A revived chip that is ready. -/
structure RevivedReady (g : Chip) : Prop extends Revived g where
  cts : g.cts = true
  taken : g.taken = none

/-- Acting on GET_INT_STATUS (R65, R97). -/
theorem act_status (hc : c.admitted = true) {g : Chip} (hp : g.mode.powered = true)
    (ht : g.taken = some (.command, intStatusFrame c)) :
    g.act c = (({ g with taken := none } : Chip).intStatus).enableInts c (intStatusFrame c) := by
  unfold Chip.act
  rw [ht]
  dsimp only
  rw [if_neg (powered_ne hp).2.2, if_neg (by simp [hp]), atOnce_status hc, status_effect hc]
  rfl

theorem AsksStatus.act (hc : c.admitted = true) {g : Chip} (hg : AsksStatus c g) : AsksStatus c (g.act c) := by
  rcases hg.taken with ht | ht
  · rw [act_none ht]
    exact hg
  · rw [act_status hc (by rw [hg.mode]; rfl) ht]
    exact ⟨⟨hg.mode, hg.txFifo, hg.rxFifo, rfl, hg.props⟩, hg.cts, .inl rfl⟩

theorem quiet_asksStatus (hc : c.admitted = true) : Quiet c (fun _ => True) (AsksStatus c) := by
  refine quiet_any fun m g hg => ?_
  rcases move_idle (c := c) m (g := g) (by simp [hg.mode]) (by simp [hg.mode]) with h | h <;> rw [h]
  · exact hg
  · exact hg.act hc

theorem quiet_revivedReady : Quiet c (fun _ => True) RevivedReady := by
  refine quiet_any fun m g hg => ?_
  rw [move_none (by simp [hg.mode]) (by simp [hg.mode]) hg.taken]
  exact hg

theorem RevivedReady.afterRead {g : Chip} (hg : RevivedReady g) (n : Nat) : RevivedReady (g.afterRead n) := by
  unfold Chip.afterRead
  split
  · exact ⟨⟨hg.mode, hg.txFifo, hg.rxFifo, rfl, hg.props⟩, hg.cts, hg.taken⟩
  · exact hg

theorem Leads.reviveClear (hc : c.admitted = true) :
    Leads c (fun _ => True) (· = Chip.poweredUp true) Machine.clearInterrupts RevivedReady := by
  have hsteps : Leads c (fun _ => True) (· = Chip.poweredUp true) (chain (clearIntsSteps c)) RevivedReady := by
    refine .cons (Q := AsksStatus c) (.send (quiet_poweredUp true) (List.cons_ne_nil _ _) (cf_status hc)
      (intStatusFrame_fits (facts_of_admitted hc)) ?_) (.one (Leads.wait (R := RevivedReady) hc (quiet_asksStatus hc)
        quiet_revivedReady (fun g hg => ?_) (fun g hg => ?_) fun g hg => hg.afterRead _).discard)
    · rintro _ rfl
      rw [status_command hc rfl rfl]
      exact ⟨⟨rfl, rfl, rfl, rfl, rfl⟩, rfl, .inr rfl⟩
    · exact ⟨hg.cts, by simp [hg.mode], by simp [hg.mode]⟩
    · obtain ⟨⟨h1, h2, h3, h4, h5⟩, -, -⟩ := hg.act hc
      exact ⟨⟨h1, h2, h3, h4, h5⟩, rfl, act_taken c g⟩
  rintro s r t rfl
  exact hsteps s r t rfl

/-- The power-up, whatever moves the chip makes, brings it up if nothing holds it in Unknown (R196, R211, R213). -/
theorem leads_powerUp (hc : c.admitted = true) :
    Leads c (fun _ => True) (·.held = false) (stepsBody (powerUpSteps c)) RevivedReady := by
  have hpower := power_wf hc
  have hquiet : Quiet c (fun _ => True) (·.held = false) := quiet_any fun m g => (keeps_move c m g).held
  refine .steps (.cons' (Q := (· = Chip.inOff true)) (.edge hquiet true fun g hg => ?_) (.cons' (.pause (quiet_off true) _)
    (.cons' (Q := (· = Chip.inOff false)) (.edge (quiet_off true) false ?_)
    (.cons' (Q := (· = Chip.inBoot)) (.settling (quiet_off false) _ ?_)
    (.cons' (Q := PoweringUp c) (.send quiet_boot hpower.1 hpower.2 (facts_of_admitted hc).powerFits ?_)
    (.cons' (Q := (· = Chip.poweredUp true))
      (.waitCts hc quiet_poweringUp (quiet_poweredUp true) (fun g hg => ?_) fun g hg => ?_)
    (.cons' (.reviveClear hc) .nil')))))))
  · rw [Chip.reset, if_neg (by simp [hg]), if_pos rfl]
    rfl
  · rintro _ rfl
    rfl
  · rintro _ rfl
    exact if_pos ⟨rfl, Bool.false_ne_true, le_rfl⟩
  · rintro _ rfl
    exact .inl (if_pos rfl)
  · rcases hg with rfl | rfl <;> exact ⟨rfl, Mode.noConfusion, Mode.noConfusion⟩
  · rw [Chip.processed, hg.act]
    rfl

/-- Settles O53: the reset pulse leaves nothing of the chip, and each later event finds it where the power-up has brought it. -/
theorem powerUpRevivesTheChip : Obligations.PowerUpRevivesTheChip := by
  unfold Obligations.PowerUpRevivesTheChip
  intro s t hs hl hheld h hst
  obtain ⟨-, -, -, g, hg, hchip⟩ := completed_chip (i := .powerUp) (P := (·.held = false)) (E := fun _ => True) hs hl trivial
    rfl rfl rfl (by rw [request_plain rfl rfl]; exact hheld) rfl (leads_powerUp hs.1) h hst
  rw [hchip]
  exact ⟨hg.mode, hg.cts, hg.txFifo, hg.rxFifo, hg.intPending, hg.props⟩

end
section

variable {c : Config} {P Q : Chip → Prop}

/-! ### A chip that takes no command frame (R212, R213) -/

/-- The chip takes the frame `f` for no command: it is busy, or it is Unknown already, or it waits in Boot for another frame. -/
def Deaf (c : Config) (f : List Byte) (g : Chip) : Prop :=
  g.cts = false ∨ g.mode = .unknown ∨ (g.mode = .boot ∧ g.taken = none ∧ f ≠ c.powerUpFrame)

/-- Such a chip the frame makes Unknown. -/
theorem Deaf.command {f : List Byte} {g : Chip} (hg : Deaf c f g) (src : FrameSource) :
    (g.command c src f).mode = .unknown := by
  by_cases hm : g.mode = .unknown
  · rw [command_unknown hm]
    exact hm
  rw [Chip.command, if_neg hm]
  split
  · rfl
  · rename_i hready
    rcases hg with hbusy | hunk | ⟨hboot, -, hf⟩
    · exact absurd (.inl (by simp [hbusy])) hready
    · exact absurd hunk hm
    · rw [if_pos hboot, if_neg hf]
      rfl

/-- Acting on a frame does not make a busy chip ready: a poll does (R97, R212). -/
theorem act_busy {g : Chip} (hg : g.cts = false) : (g.act c).cts = false ∨ (g.act c).mode = .unknown := by
  unfold Chip.act
  split
  · exact .inl hg
  · rename_i src f _
    dsimp only
    split
    · exact .inl hg
    split
    · exact .inl hg
    split
    · exact .inl hg
    · exact (effect_cts src f { g with taken := none }).imp_left (·.trans hg)

theorem move_busy {g : Chip} (hg : g.cts = false) (m : ChipMove) : (g.move c m).cts = false ∨ (g.move c m).mode = .unknown := by
  by_cases hm : m = .act
  · rw [hm]
    exact act_busy hg
  · exact (lossy_move (c := c) hm g).symm.imp_left fun h => h.cts.trans hg

theorem Deaf.move {f : List Byte} {g : Chip} (hg : Deaf c f g) (m : ChipMove) : Deaf c f (g.move c m) := by
  rcases hg with hbusy | hunk | ⟨hboot, ht, hf⟩
  · exact (move_busy hbusy m).imp_right .inl
  · exact .inr (.inl ((closed_unknown c).move m g hunk))
  · rw [move_none (by simp [hboot]) (by simp [hboot]) ht]
    exact .inr (.inr ⟨hboot, ht, hf⟩)

theorem quiet_deaf {f : List Byte} : Quiet c (fun _ => True) (Deaf c f) := quiet_any fun m _ hg => hg.move m

theorem Deaf.request {f : List Byte} {g : Chip} (hg : Deaf c f g) (i : Instr) : Deaf c f (g.request i) := by
  rcases request_cases i g with h | h | h <;> rw [h]
  · exact hg
  · exact .inl rfl
  · exact .inl rfl

/-- A window in which the frame is sent. -/
theorem Leads.sendDeaf {src : FrameSource} {f : List Byte} (hne : f ≠ []) (hcf : CommandFrame c f) :
    Leads c (fun _ => True) (Deaf c f) (sendFrom src f) (·.mode = .unknown) := by
  by_cases hl : f.length ≤ c.cmdBufCap
  · exact .send quiet_deaf hne hcf hl fun g hg => hg.command src
  · rintro s r t rfl - ht
    rw [sendFrom_fault (Nat.not_le.1 hl)] at ht
    cases ht

/-! ### A FIFO read of such a chip (R64, R157) -/

/-- What the answer to a FIFO read keeps: all that a lost chip and one with another RX FIFO meet too. -/
theorem Stable.answerRead {P : Agent → Prop} (hP : Stable c P) (hlost : ∀ a, P a → P { a with chip := a.chip.lost })
    (hrx : ∀ a l, P a → P { a with chip := { a.chip with rxFifo := l } }) {a : Agent} (h : P a)
    (hw : a.window.head? = some Literal.opReadRxFifo) : P (a.modelAnswer c).2 := by
  unfold Agent.modelAnswer
  split
  · exact hP.draw h
  rename_i op args hargs
  rw [hargs] at hw
  split
  · exact hP.draw h
  rw [if_pos (Option.some.inj hw)]
  split
  · unfold Agent.modelRx
    split
    · exact hrx _ _ h
    · exact hP.draw (hlost _ h)
  · exact hP.draw (hlost _ h)

theorem Stable.read {P : Agent → Prop} (hP : Stable c P) (hlost : ∀ a, P a → P { a with chip := a.chip.lost })
    (hrx : ∀ a l, P a → P { a with chip := { a.chip with rxFifo := l } }) {s : State} (hs : s.cfg = c) (h : P s.agent)
    (hw : s.agent.window.head? = some Literal.opReadRxFifo) (m : Byte) : P (Machine.xfer m s).agent := by
  subst hs
  have ht := hP.turn h
  rw [xfer_agent, Agent.onExchange]
  dsimp only
  rw [hP.law ht]
  exact hP.window _ (hP.answerRead hlost hrx ht (by rw [turn_window]; exact hw))

theorem Stable.reads {P : Agent → Prop} (hP : Stable c P) (hlost : ∀ a, P a → P { a with chip := a.chip.lost })
    (hrx : ∀ a l, P a → P { a with chip := { a.chip with rxFifo := l } }) (n : Nat) {s : State} (hs : s.cfg = c)
    (h : P s.agent) (hw : s.agent.window.head? = some Literal.opReadRxFifo) : P (Machine.afterReads n s).agent := by
  induction n generalizing s with
  | zero => exact h
  | succ n ih =>
    exact ih (s := Machine.xfer Literal.dummyByte s) hs (hP.read hlost hrx hs h hw _) (afterReads_head 1 s (hP.law h) hw)

/-- READ_RX_FIFO (R157), whatever the mode of the chip. -/
theorem Leads.pull {E : List (List ChipMove) → Prop} (hq : Quiet c E P) (hlost : ∀ g, P g → P g.lost)
    (hrx : ∀ (g : Chip) l, P g → P { g with rxFifo := l }) (n : Nat) : Leads c E P (readRxFifo n) P := by
  rintro s r t rfl ha ht
  injection ht with _ ht
  subst ht
  have hP := stable_calm hq
  have hsel := hP.selOn rfl ha
  have hopen : Calm E P (openRxRead s).agent := hP.xfer (s := selOn s) rfl hsel trivial _
  have hhead : (openRxRead s).agent.window.head? = some Literal.opReadRxFifo := by
    rw [openRxRead, xfer_window _ _ hsel.1]
    rfl
  have hreads := hP.reads (fun _ h => ⟨h.1, h.2.1, hlost _ h.2.2⟩) (fun _ _ h => ⟨h.1, h.2.1, hrx _ _ h.2.2⟩) n
    (by simp [openRxRead]) hopen hhead
  obtain ⟨args, hargs⟩ := List.head?_eq_some_iff.1 (afterReads_head n _ hopen.1 hhead)
  have hturn := hP.turn hreads
  refine ⟨by simp [openRxRead], ?_⟩
  rw [selOff_agent, show (afterReads n (openRxRead s)).cfg = s.cfg by simp [openRxRead], Agent.onDesel]
  dsimp only
  rw [hturn.1]
  dsimp only
  apply hP.window
  unfold Agent.modelClose
  rw [turn_window, hargs]
  dsimp only
  rw [if_neg (by decide), if_pos rfl]
  exact hturn

/-! ### Operations that begin with a command frame -/

/-- What the first step makes Unknown, the others leave so. -/
theorem Leads.firstCounted {p : Step} {ps : List Step} (hp : Leads c (fun _ => True) P p (·.mode = .unknown))
    (hps : ∀ q ∈ p :: ps, KeepsAt c (Under UnknownStays) q) :
    Leads c (fun _ => True) P (chain (Machine.counted (p :: ps))) (·.mode = .unknown) :=
  .cons' hp (.stays ((closed_unknown c).closed.counted fun q hq => hps q (List.mem_cons_of_mem _ hq)))

theorem Leads.firstOf {p : Step} {ps : List Step} (hp : Leads c (fun _ => True) P p (·.mode = .unknown))
    (hps : ∀ q ∈ p :: ps, KeepsAt c (Under UnknownStays) q) :
    Leads c (fun _ => True) P (chain (p :: ps)) (·.mode = .unknown) :=
  .cons hp (.stays (.chain (closed_unknown c).composes fun q hq => hps q (List.mem_cons_of_mem _ hq)))

theorem unknownStays_cmdSteps (src : FrameSource) (f : List Byte) :
    ∀ q ∈ [sendFrom src f, waitForCts], KeepsAt c (Under UnknownStays) q := (closed_unknown c).closed.cmdSteps trivial

theorem Leads.planDeaf {plan : List PlanEntry} {p : List Byte} {f : Sent} (hf : (planFrames plan p).head? = some f)
    (hne : f.2 ≠ []) (hcf : CommandFrame c f.2) :
    Leads c (fun _ => True) (Deaf c f.2) (stepsBody (planSteps plan p)) (·.mode = .unknown) := by
  cases plan with
  | nil => cases hf
  | cons e es =>
    obtain rfl : Sent.ofCommand (propFrame e.group e.offset (planSlice p e)) = f := Option.some.inj hf
    exact .steps (.firstCounted (.firstOf (.sendDeaf hne hcf) (unknownStays_cmdSteps _ _))
      ((closed_unknown c).closed.planSteps (plan := e :: es) fun _ _ => trivial))

theorem unknownStays_recordParts (src : FrameSource) (n : Nat) (f : List Byte) :
    ∀ q ∈ [sendFrom src f, waitForCts, lift fun s => { s with cursor := s.cursor + n + 1 }],
      KeepsAt c (Under UnknownStays) q := by
  simp only [List.mem_cons, List.not_mem_nil, or_false, forall_eq_or_imp, forall_eq]
  exact ⟨(closed_unknown c).closed.sendFrom trivial, (closed_unknown c).closed.waitForCts, fun s hs => ⟨fun hl => ⟨hl, id⟩, hs⟩⟩

theorem unknownStays_records (src : FrameSource) (fs : List (List Byte)) :
    ∀ q ∈ recordSteps src fs, KeepsAt c (Under UnknownStays) q := by
  intro q hq
  obtain ⟨f, -, rfl⟩ := List.mem_map.1 hq
  exact .chain (closed_unknown c).composes (unknownStays_recordParts src f.length f)

theorem Leads.replayDeaf {l : List Byte} (hwf : tableWF c.cmdBufCap l = true) {f : Sent}
    (hf : (tableFrames c l).head? = some f) (hne : f.2 ≠ []) (hcf : CommandFrame c f.2) :
    Leads c (fun _ => True) (Deaf c f.2) (replay l) (·.mode = .unknown) := by
  obtain ⟨fs, hfs, -⟩ := tableWF_records hwf
  rintro s r t rfl ha ht
  rw [replay_eq hfs] at ht
  rw [tableFrames, hfs] at hf
  cases fs with
  | nil => cases hf
  | cons k ks =>
    obtain rfl : (tableSource s.cfg l, k) = f := Option.some.inj hf
    have hrecords : Leads s.cfg (fun _ => True) (Deaf s.cfg k) (chain (recordSteps (tableSource s.cfg l) (k :: ks)))
        (·.mode = .unknown) :=
      .firstOf (.firstOf (.sendDeaf hne hcf) (unknownStays_recordParts _ _ k)) (unknownStays_records _ (k :: ks))
    have hnote : Leads s.cfg (fun _ => True) (·.mode = .unknown) (lift (noteReplayed l)) (·.mode = .unknown) :=
      .stays fun u hu => ⟨unknownStays_replay s.cfg l u hu, (noteReplayed_cfg u l).trans hu⟩
    exact hrecords.bind (fun _ => hnote) { s with cursor := 0 } r t rfl ha ht

end
section

variable {c : Config}

/-! ### The first command frame of an instruction -/

/-- The host does not make the instruction begin with POWER_UP_FRAME, the one frame that a chip in Boot takes (R213). -/
def SendsOther (c : Config) (i : Instr) : Prop :=
  i ≠ .sendCmd c.powerUpFrame ∧ (∀ a, i = .wirePowerUp a → encodeFrame c i ≠ c.powerUpFrame) ∧
    ∀ T fs, i = .replay T → tableRecords T ≠ some (c.powerUpFrame :: fs)

/-- The instruction drives no reset, and `f` is the first command frame it sends; POWER_UP_FRAME only if the host gives it. -/
structure FirstFrame (c : Config) (i : Instr) (f : Sent) : Prop where
  pulses : ¬ Pulses i
  first : (frames c i).head? = some f
  ne : f.2 ≠ []
  command : CommandFrame c f.2
  other : SendsOther c i → f.2 ≠ c.powerUpFrame

/-- A frame with one of the opcodes that the engine composes, none of which is POWER_UP_FRAME's (R128). -/
theorem composed_ne_power (hc : c.admitted = true) {op : Byte} (hop : op ∈ [Literal.opSetProperty, Literal.opFifoReset,
    Literal.opStartTx, Literal.opStartRx, c.opGetIntStatus, c.opChangeState]) (args : List Byte) :
    op :: args ≠ c.powerUpFrame := by
  intro he
  have hpower := (Config.distinct hc).power
  rw [← he] at hpower
  simp only [List.headD_cons, List.mem_cons, List.not_mem_nil, or_false, not_or] at hpower hop
  tauto

/-- An instruction that begins with such a frame. -/
theorem composed_firstFrame (hc : c.admitted = true) {i : Instr} {op : Byte} {args : List Byte}
    (hcf : CommandFrame c (op :: args)) (hfirst : (frames c i).head? = some (.ofCommand (op :: args)))
    (hop : op ∈ [Literal.opSetProperty, Literal.opFifoReset, Literal.opStartTx, Literal.opStartRx, c.opGetIntStatus,
      c.opChangeState] := by simp) (hp : ¬ Pulses i := by simp [Pulses]) : ∃ f, FirstFrame c i f :=
  ⟨_, hp, hfirst, List.cons_ne_nil _ _, hcf, fun _ => composed_ne_power hc hop args⟩

/-- An admitted plan has an entry (R198, R199). -/
theorem plans_ne_nil (hc : c.admitted = true) : c.freqPlan ≠ [] ∧ c.powerPlan ≠ [] := by
  obtain ⟨-, -, hd⟩ := Config.admitted_parts hc
  simp only [Config.dataOk, planOk, Bool.and_eq_true] at hd
  obtain ⟨⟨-, hfreq, -⟩, hpow, -⟩ := hd
  exact ⟨fun h => by simp [h] at hfreq, fun h => by simp [h] at hpow⟩

theorem plan_firstFrame (hc : c.admitted = true) {i : Instr} {plan : List PlanEntry} {p : List Byte} (hne : plan ≠ [])
    (hi : frames c i = planFrames plan p) (hp : ¬ Pulses i := by simp [Pulses]) : ∃ f, FirstFrame c i f := by
  cases plan with
  | nil => exact absurd rfl hne
  | cons e es => exact composed_firstFrame hc (cf_prop hc e.group e.offset (planSlice p e)) (by rw [hi]; rfl) (hp := hp)

/-- The wire rows that are command frames (R112 to R116, R122 to R124). -/
theorem wire_firstFrame (hc : c.admitted = true) {i : Instr} (hw : i.isWire = true) (h1 : ∀ d, i ≠ .wireWriteTxFifo d)
    (h2 : ∀ n, i ≠ .wireReadRxFifo n) (h3 : ∀ n, i ≠ .wireReadCmdBuff n) : ∃ f, FirstFrame c i f := by
  cases i with
  | wirePropWrite g n o d =>
    exact composed_firstFrame hc (op := Literal.opSetProperty) (cf_cons (by decide) (by decide) (poll_wf hc).2.2.1.symm) rfl
  | wireFifoReset sub => exact composed_firstFrame hc (cf_fifo hc sub) rfl
  | wireStartTx ch cond len => exact composed_firstFrame hc (cf_tx hc ch cond len) rfl
  | wireStartRx ch cond len x y z => exact composed_firstFrame hc (cf_rx hc ch cond len x y z) rfl
  | wireGetIntStatus a =>
    exact composed_firstFrame hc (cf_cons (status_wf hc).1 (status_wf hc).2.1 (status_wf hc).2.2) rfl
  | wireChangeState code =>
    exact composed_firstFrame hc (cf_cons (standby_wf hc).1 (standby_wf hc).2.1 (standby_wf hc).2.2) rfl
  | wirePowerUp a =>
    have hpower := (Config.distinct hc).power
    simp only [List.mem_cons, List.not_mem_nil, or_false, not_or] at hpower
    obtain ⟨-, -, -, -, h66, h77, h44, -⟩ := hpower
    exact ⟨_, by simp [Pulses], rfl, List.cons_ne_nil _ _, cf_cons h66 h77 h44, fun hs => hs.2.1 a rfl⟩
  | wireWriteTxFifo d => exact absurd rfl (h1 d)
  | wireReadRxFifo n => exact absurd rfl (h2 n)
  | wireReadCmdBuff n => exact absurd rfl (h3 n)
  | _ => cases hw

/-- SEND_CMD of a command frame (R155). -/
theorem FirstFrame.sendCmd {l : List Byte} (hk : (Instr.sendCmd l).failingCheck c = none) (hcf : CommandFrame c l) :
    FirstFrame c (.sendCmd l) (.ofCommand l) := by
  refine ⟨by simp [Pulses], rfl, ?_, hcf, fun hs he => hs.1 (congrArg _ he)⟩
  rintro rfl
  cases hk

/-- REPLAY of a table whose first record is a command frame (R180). -/
theorem FirstFrame.replay {T l : List Byte} {fs : List (List Byte)} (hfs : tableRecords T = some (l :: fs))
    (hcf : CommandFrame c l) : FirstFrame c (.replay T) (tableSource c T, l) := by
  refine ⟨by simp [Pulses], ?_, tableRecordsFuel_ne_nil hfs l List.mem_cons_self, hcf, ?_⟩
  · rw [frames, tableFrames, hfs]
    rfl
  · rintro hs (rfl : l = c.powerUpFrame)
    exact hs.2.2 T fs rfl hfs

/-! ### At a chip that takes no command frame -/

theorem Leads.hostDeaf (hc : c.admitted = true) {i : Instr} (hw : i.isWire = false) (hk : i.failingCheck c = none)
    (hi : i ≠ .tryReceive) {f : Sent} (hf : FirstFrame c i f) :
    Leads c (fun _ => True) (Deaf c f.2) (hostBody c i) (·.mode = .unknown) := by
  obtain ⟨hp, hfirst, hne, hcf, -⟩ := hf
  have send : ∀ {src : FrameSource}, Leads c (fun _ => True) (Deaf c f.2) (sendFrom src f.2) (·.mode = .unknown) :=
    .sendDeaf hne hcf
  have one {l : List Byte} (h : some (Sent.ofCommand l) = some f) :
      Leads c (fun _ => True) (Deaf c f.2) (stepsBody [sendCommand l]) (·.mode = .unknown) := by
    obtain rfl := Option.some.inj h
    exact .steps (.cons' send .nil')
  have two {l : List Byte} (h : some (Sent.ofCommand l) = some f) :
      Leads c (fun _ => True) (Deaf c f.2) (stepsBody [sendCommand l, waitForCts]) (·.mode = .unknown) := by
    obtain rfl := Option.some.inj h
    exact .steps (.firstCounted send (unknownStays_cmdSteps _ _))
  have standby (h : some (Sent.ofCommand (standbyFrame c)) = some f) :
      Leads c (fun _ => True) (Deaf c f.2) standby (·.mode = .unknown) := by
    obtain rfl := Option.some.inj h
    rintro s r t rfl
    exact send s r t rfl
  cases i with
  | sendCmd | startTx => exact one hfirst
  | setProperty | startRx | resetFifo | resetTxFifo | resetRxFifo | resetBothFifos | rearmRx => exact two hfirst
  | clearInts =>
    obtain rfl : Sent.ofCommand (intStatusFrame c) = f := Option.some.inj hfirst
    exact .steps (.firstCounted send ((closed_unknown c).closed.clearIntsSteps trivial))
  | setFreq p => exact .planDeaf hfirst hne hcf
  | setPower p => exact .planDeaf hfirst hne hcf
  | replay T =>
    have hwf : tableWF c.cmdBufCap T = true := by
      by_contra hn
      rw [Instr.failingCheck, if_neg hn] at hk
      cases hk
    exact .steps (.cons' (.replayDeaf hwf hfirst hne hcf) .nil')
  | standby => exact .steps (.cons' (standby hfirst) .nil')
  | sendFrame l =>
    exact .steps (.firstCounted (standby hfirst) ((closed_unknown c).closed.sendFrameSteps trivial trivial trivial l))
  | tryReceive => exact absurd rfl hi
  | powerUp | enterRx | enterTx => simp [Pulses] at hp
  | waitCts | getResp | readRxFifo | writeTxFifo | readRssi => cases hfirst
  | _ => cases hw

theorem exec_wireDeaf {i : Instr} {s t : State} (hl : s.agent.law = .abstractModel) (hw : i.isWire = true)
    (hk : i.failingCheck s.cfg = none) {f : Sent} (hf : FirstFrame s.cfg i f) (hg : Deaf s.cfg f.2 s.agent.chip)
    (hs : Accepts s) (h : exec i s = .next t) : t.agent.chip.mode = .unknown := by
  obtain ⟨u, hu⟩ := wireBody_ok hs.1 hw hk s rfl
  have hbody : f = .ofCommand (encodeFrame s.cfg i) ∧ wireBody s.cfg i = sendCommand (encodeFrame s.cfg i) := by
    obtain ⟨-, hfirst, -⟩ := hf
    cases i with
    | wireWriteTxFifo | wireReadRxFifo | wireReadCmdBuff => cases hfirst
    | wirePropWrite | wireFifoReset | wireStartTx | wireStartRx | wireGetIntStatus | wireChangeState | wirePowerUp =>
      exact ⟨(Option.some.inj hfirst).symm, rfl⟩
    | _ => cases hw
  obtain ⟨rfl, hsend⟩ := hbody
  rw [exec_runs_wire hw hs.2 hk, hu] at h
  injection h with h
  rw [hsend] at hu
  obtain ⟨-, -, -, hm⟩ := Leads.sendDeaf hf.ne hf.command s () u rfl ⟨hl, trivial, hg⟩ hu
  exact h ▸ hm

/-! ### TRY_RECEIVE with the line asserted (R240) -/

/-- TRY_RECEIVE after its sample has read asserted, as a sequence of parts. -/
theorem tryReceive_asserted {s : State} (h : (sampleIrq s).irq = true) :
    tryReceive s = (lift sampleIrq s).bind fun _ t => (lift stepDone t).bind fun _ u =>
      (chain (counted receiveSteps) u).bind fun _ v => handOff v := by
  unfold tryReceive
  dsimp only
  rw [if_pos (by simpa using h)]
  rfl

theorem Leads.handOff {E : List (List ChipMove) → Prop} {P : Chip → Prop} : Leads c E P Machine.handOff P := by
  intro s r t hs ha ht
  unfold Machine.handOff at ht
  split at ht
  · injection ht with _ ht
    subst ht
    exact ⟨hs, ha⟩
  · cases ht

theorem Leads.receiveDeaf (hc : c.admitted = true) :
    Leads c (fun _ => True) (Deaf c (fifoResetFrame Literal.fifoSubRx)) (chain (Machine.counted receiveSteps)) (·.mode = .unknown) := by
  have hread := Leads.pull (quiet_deaf (c := c) (f := fifoResetFrame Literal.fifoSubRx)) (fun _ _ => .inl rfl)
    (fun _ _ hg => hg) Literal.frameLen
  have hstage : Leads c (fun _ => True) (Deaf c (fifoResetFrame Literal.fifoSubRx)) stageFrame
      (Deaf c (fifoResetFrame Literal.fifoSubRx)) :=
    hread.bind fun _ _ _ _ hs ha ht => by
      injection ht with _ ht
      subst ht
      exact ⟨hs, ha⟩
  refine .cons' hstage (.firstCounted
    (.firstOf (.sendDeaf (List.cons_ne_nil _ _) (cf_fifo hc _)) (unknownStays_cmdSteps _ _)) ?_)
  simp only [List.mem_cons, List.not_mem_nil, or_false, forall_eq_or_imp, forall_eq]
  exact ⟨(closed_unknown c).closed.cmdWait trivial, (closed_unknown c).closed.clearInterrupts trivial,
    (closed_unknown c).closed.cmdWait trivial⟩

theorem exec_tryReceiveDeaf {s t : State} (hs : Accepts s) (hl : s.agent.law = .abstractModel)
    (hirq : (sampleIrq (begin .tryReceive s)).irq = true)
    (hg : Deaf s.cfg (fifoResetFrame Literal.fifoSubRx) s.agent.chip) (h : exec .tryReceive s = .next t) :
    t.agent.chip.mode = .unknown := by
  rcases exec_ok_or_unknown (i := .tryReceive) hs hl rfl rfl h with ⟨r, u, hu, rfl⟩ | ⟨-, hm⟩
  · have hL := (Leads.sample quiet_deaf).bind fun _ => (Leads.done (c := s.cfg)).bind fun _ =>
      (Leads.receiveDeaf hs.1).bind fun _ => Leads.handOff
    rw [show hostBody s.cfg .tryReceive = tryReceive from rfl, show Instr.tryReceive.expand = .tryReceive from rfl,
      tryReceive_asserted hirq] at hu
    obtain ⟨-, hlu, -, hm⟩ := hL (begin .tryReceive s) r u rfl
      ⟨(onRequest_law _ _).trans hl, trivial, by rw [begin_model hl]; exact hg.request _⟩ hu
    rw [(end_chip hlu).1]
    exact hm
  · exact hm

/-- Whatever instruction sends it: the first command frame makes such a chip Unknown, and it stays so to the end. -/
theorem exec_deaf {i : Instr} {s t : State} (hs : Accepts s) (hk : i.failingCheck s.cfg = none)
    (hl : s.agent.law = .abstractModel) {f : Sent} (hf : FirstFrame s.cfg i f) (hg : Deaf s.cfg f.2 s.agent.chip)
    (hirq : i = .tryReceive → (sampleIrq (begin .tryReceive s)).irq = true) (h : exec i s = .next t) :
    t.agent.chip.mode = .unknown := by
  cases hw : i.isWire with
  | true => exact exec_wireDeaf hl hw hk hf hg hs h
  | false =>
    by_cases hi : i = .tryReceive
    · subst hi
      obtain rfl : Sent.ofCommand (fifoResetFrame Literal.fifoSubRx) = f := Option.some.inj hf.first
      exact exec_tryReceiveDeaf hs hl (hirq rfl) hg h
    · exact exec_leads_unknown hs hl hw hk (hg.request i.expand) (.hostDeaf hs.1 hw hk hi hf) h

/-! ### POWER_UP_FRAME outside Boot (R300) -/

/-- No move of its own leads the chip into Boot (R211). -/
theorem move_notBoot {g : Chip} (hg : g.mode ≠ .boot) (m : ChipMove) : (g.move c m).mode ≠ .boot := by
  by_cases hp : g.mode.powered = true
  · intro hboot
    have hm : (g.move c m).mode ≠ .unknown := by simp [hboot]
    have hstays : (g.move c m).mode.powered = true := by
      by_cases hact : m = .act
      · subst hact
        cases ht : g.taken with
        | none => rw [Chip.move, act_none ht]; exact hp
        | some k => exact (act_spared (a := 0) (c := c) ht hm).2.1 hp
      · exact ((lossy_move (c := c) hact g).resolve_left hm).powered hp hm
    exact (powered_ne hstays).2.2 hboot
  · rcases move_idle (c := c) m (g := g) (fun h => hp (by simp [h, Mode.powered]))
      (fun h => hp (by simp [h, Mode.powered])) with h | h <;> rw [h]
    · exact hg
    · unfold Chip.act
      split
      · exact hg
      · rw [if_neg hg, if_pos hp]
        exact hg

theorem powerUp_command_lost (hc : c.admitted = true) {g : Chip} (hg : g.mode ≠ .boot) :
    (g.command c .command c.powerUpFrame).mode = .unknown := by
  have heff : ∀ k : Chip, (k.effect c .command c.powerUpFrame).mode = .unknown := fun k => by
    obtain ⟨op, args, hop⟩ := List.exists_cons_of_ne_nil (power_wf hc).1
    have hdecode := decodeFrame_power (Config.distinct hc) args
    rw [hop] at hdecode ⊢
    unfold Chip.effect
    rw [show op = (op :: args).headD 0 from rfl, hdecode]
    rfl
  by_cases hm : g.mode = .unknown
  · rw [command_unknown hm]
    exact hm
  by_cases hbusy : ¬ g.cts = true ∨ g.mode = .off
  · rw [Chip.command, if_neg hm, if_pos hbusy]
    rfl
  · obtain ⟨hcts, hoff⟩ := not_or.1 hbusy
    exact command_lost (powered_of_ne hm hoff hg) (not_not.1 hcts) (heff _)

theorem exec_sendPowerUp {s t : State} (hs : Accepts s) (hl : s.agent.law = .abstractModel) (hm : s.agent.chip.mode ≠ .boot)
    (h : exec (.sendCmd s.cfg.powerUpFrame) s = .next t) : t.agent.chip.mode = .unknown := by
  obtain ⟨hne, hcf⟩ := power_wf hs.1
  have hfits := (facts_of_admitted hs.1).powerFits
  have hL : Leads s.cfg (fun _ => True) (·.mode ≠ .boot) (stepsBody [sendCommand s.cfg.powerUpFrame]) (·.mode = .unknown) :=
    .steps (.cons' (.send (quiet_any fun m _ hg => move_notBoot hg m) hne hcf hfits fun g hg => powerUp_command_lost hs.1 hg) .nil')
  exact exec_leads_unknown (i := .sendCmd s.cfg.powerUpFrame) hs hl rfl
    (failingCheck_sendCmd (List.length_pos_iff.2 hne) hfits) (by rw [request_plain rfl rfl]; exact hm) hL h

/-- Settles O56: every sender begins with a command frame, which such a chip does not take, and Unknown lasts. -/
theorem commandToABusyChip : Obligations.CommandToABusyChip := by
  unfold Obligations.CommandToABusyChip
  refine ⟨fun i s t hs hk hl hchip hi h => ?_, fun s t hs hl hm h => exec_sendPowerUp hs hl hm h⟩
  obtain ⟨f, hf⟩ : ∃ f, FirstFrame s.cfg i f := by
    have hc := hs.1
    rcases hi with ⟨l, rfl, hcf⟩ | rfl | ⟨ch, cond, len, rfl⟩ | ⟨g, o, d, rfl⟩ | ⟨ch, cond, len, x, y, z, rfl⟩ | ⟨sub, rfl⟩ |
      rfl | ⟨p, rfl⟩ | ⟨p, rfl⟩ | ⟨l, rfl⟩ | ⟨rfl, -⟩ | ⟨T, l, fs, rfl, hfs, hcf⟩ | rfl | rfl | rfl | rfl | ⟨hw, h1, h2, h3⟩
    · exact ⟨_, .sendCmd hk hcf⟩
    · exact composed_firstFrame hc (cf_standby hc) rfl
    · exact composed_firstFrame hc (cf_tx hc ch cond len) rfl
    · exact composed_firstFrame hc (cf_prop hc g o d) rfl
    · exact composed_firstFrame hc (cf_rx hc ch cond len x y z) rfl
    · exact composed_firstFrame hc (cf_fifo hc sub) rfl
    · exact composed_firstFrame hc (cf_status hc) rfl
    · exact plan_firstFrame hc (plans_ne_nil hc).1 rfl
    · exact plan_firstFrame hc (plans_ne_nil hc).2 rfl
    · exact composed_firstFrame hc (cf_standby hc) rfl
    · exact composed_firstFrame hc (cf_fifo hc _) rfl
    · exact ⟨_, .replay hfs hcf⟩
    · exact composed_firstFrame hc (cf_fifo hc _) rfl
    · exact composed_firstFrame hc (cf_fifo hc _) rfl
    · exact composed_firstFrame hc (cf_fifo hc _) rfl
    · exact composed_firstFrame hc (cf_rx hc ..) rfl
    · exact wire_firstFrame hc hw h1 h2 h3
  refine exec_deaf hs hk hl hf ?_ ?_ h
  · exact hchip.imp_right fun ⟨hboot, ht, hother⟩ => .inr ⟨hboot, ht, hf.other hother⟩
  · rintro rfl
    simpa [Instr.isWire] using hi

end

end Sys2Proof.Machine
end

section
/-! PROOFS. Family 43_frame_io, for every chip: TRY_RECEIVE on a deasserted sample (O41), and what a completed SEND_FRAME (O44)
and a completed asserted TRY_RECEIVE (O45) have put on the bus, whatever the chip answers. -/

namespace Sys2Proof.Machine

/-! ### TRY_RECEIVE with the line deasserted (R240) -/

/-- One sample is that event and nothing else (R33). -/
theorem went_sampleIrq (s : State) : Went s (sampleIrq s) [.irq (sampleIrq s).irq] :=
  ⟨rfl, puts_one (.irq (sampleIrq s).irq) rfl, rfl, rfl⟩

theorem tryReceive_deasserted {s : State} (h : (sampleIrq s).irq = false) :
    tryReceive s = .ok .none (stepDone (sampleIrq s)) :=
  if_neg (by rw [stepDone_irq, h]; decide)

/-- Settles O41: the sample reads deasserted, and the operation ends there. -/
theorem tryReceiveDeasserted : Obligations.TryReceiveDeasserted := by
  unfold Obligations.TryReceiveDeasserted
  intro s hs hirq
  have hwent := (went_sampleIrq (begin .tryReceive s)).stepDone
  rw [hirq] at hwent
  obtain ⟨ht, hputs, hlog, hstatus, hidle, -⟩ :=
    completed_of_went (i := .tryReceive) rfl hs rfl (tryReceive_deasserted hirq) hwent
  have hframe : Frame [.irq] s (complete .tryReceive .none (stepDone (sampleIrq (begin .tryReceive s)))) :=
    (((frame_begin .tryReceive s).mono (List.nil_subset _)).trans (frame_sampleIrq _)).trans
      ((frame_stepDone _ _).trans ((frame_complete _ _ _).mono (List.nil_subset _)))
  exact ⟨_, ht, ⟨hputs, hlog, hstatus, hidle, hframe⟩, (stepDone_irq _).trans hirq⟩

/-! ### Completed operations, whatever the chip answers -/

/-- An operation that ends with status OK is one whose body has returned (R261, R265). -/
theorem body_of_exec_ok {i : Instr} {s t : State} (hw : i.isWire = false) (hs : Accepts s)
    (hk : i.failingCheck s.cfg = none) (h : exec i s = .next t) (hst : t.status = .ok) :
    ∃ r u, hostBody s.cfg i (begin i.expand s) = .ok r u ∧ u.log = s.log ∧ t = complete i.expand r u := by
  have hend := ends_hostBody hs.1 hk (begin i.expand s) rfl
  have hlog := (clean_hostBody s.cfg i (begin i.expand s)).log
  cases hx : hostBody s.cfg i (begin i.expand s) with
  | ok r u =>
    rw [exec_completed hw hs hk hx] at h
    rw [hx] at hlog
    injection h with h
    exact ⟨r, u, rfl, hlog, h.symm⟩
  | timeout n u =>
    rw [exec_timeout hw hs hk hx] at h
    injection h with h
    rw [← h] at hst
    cases hst
  | fault u =>
    rw [hx] at hend
    exact hend.elim

/-- The pieces of two lists, one after the other. -/
theorem Finished.split {c : Config} {ps qs : List Piece} {es : List Event} (h : Finished c (ps ++ qs) es) :
    ∃ a b, es = a ++ b ∧ Finished c ps a ∧ Finished c qs b := by
  induction ps generalizing es with
  | nil => exact ⟨[], es, rfl, rfl, h⟩
  | cons p ps ih =>
    obtain ⟨first, rest, rfl, hp, hrest⟩ := h
    obtain ⟨a, b, rfl, ha, hb⟩ := ih hrest
    exact ⟨first ++ a, b, (List.append_assoc ..).symm, ⟨first, a, rfl, hp, ha⟩, hb⟩

/-- One command frame and a handshake after it (R160, R197). -/
theorem Finished.framed {c : Config} {f : List Byte} {n : Nat} {es : List Event}
    (h : Finished c [.send f, .hand n] es) :
    ∃ e r, es = e ++ r ∧ e.map Event.out = wOut f ∧ Handshake c n r := by
  obtain ⟨e, _, rfl, he, r, _, rfl, hr, rfl⟩ := h
  exact ⟨e, r, by rw [List.append_nil], he, hr⟩

/-! ### SEND_FRAME (R242, R243, R244) -/

/-- The pieces of SEND_FRAME, taken apart (R242). -/
theorem finished_sendFrame {c : Config} {f : List Byte} {v : Bool} {es : List Event}
    (h : Finished c (Instr.pieces c v (.sendFrame f)) es) :
    ∃ e1 e2 w clr e3, es = e1 ++ e2 ++ w ++ [.irq v] ++ clr ++ e3 ∧
      e1.map Event.out = wOut (standbyFrame c) ∧ e2.map Event.out = wOut (Literal.opWriteTxFifo :: f) ∧
      Handshake c 0 w ∧ Finished c (if v then clearPieces c else []) clr ∧ e3.map Event.out = wOut sendTxFrame := by
  obtain ⟨_, _, rfl, hfront, e3, _, rfl, he3, rfl⟩ := h.split
  obtain ⟨_, clr, rfl, ⟨e1, _, rfl, he1, e2, _, rfl, he2, w, _, rfl, hw, _, _, rfl, rfl, rfl⟩, hclr⟩ := hfront.split
  exact ⟨e1, e2, w, clr, e3, by simp, he1, he2, hw, hclr, he3⟩

/-- Settles O44: the pieces of SEND_FRAME are all there, and the sample that stands in `irq` decides CLEAR_INTS. -/
theorem sendFrameForEveryChip : Obligations.SendFrameForEveryChip := by
  unfold Obligations.SendFrameForEveryChip
  intro s t f hs hf h hst
  have hk : (Instr.sendFrame f).failingCheck s.cfg = none := if_pos hf
  obtain ⟨r, u, hx, hlog, rfl⟩ := body_of_exec_ok rfl hs hk h hst
  have hacts := acts_hostBody hs.1 rfl hk (begin (.sendFrame f) s) rfl
  change hostBody s.cfg (.sendFrame f) (begin (.sendFrame f) s) = .ok r u at hx
  obtain rfl : r = .ok := stepsBody_ok hx
  rw [hx] at hacts
  obtain ⟨-, new, htrace, hfin⟩ := hacts
  obtain ⟨e1, e2, w, clr, e3, rfl, he1, he2, hw, hclr, he3⟩ := finished_sendFrame hfin
  refine ⟨e1, e2, w, u.irq, clr, e3, htrace, he1, he2, hw, fun hv => ?_, fun hv => ?_, he3, rfl,
    congrArg (· ++ [_]) hlog⟩
  · rw [Flow.state_ok, hv] at hclr
    exact hclr
  · rw [Flow.state_ok, hv] at hclr
    exact hclr.framed

/-! ### TRY_RECEIVE with the line asserted (R240, R241) -/

/-- What TRY_RECEIVE does after the frame is staged: three commands, each with its own handshake (R240). -/
theorem acts_receiveRest {c : Config} (hf : Facts c) :
    Acts c (chain (counted receiveRest))
      (waited (fifoResetFrame Literal.fifoSubRx) ++ (clearPieces c ++ waited rearmFrame)) :=
  ((ActsAll.cons (acts_pair (src := .command) hf.polls (fifoResetFrame_fits hf _)).chain <|
    .cons (acts_clearInterrupts hf) <|
    .one (acts_pair (src := .command) hf.polls (startRxFrame_fits hf ..)).chain).counted).chain

/-- A TRY_RECEIVE that returns after an asserted sample has read the frame's bytes in one window (R119), has then gone through
the three commands, and has handed over what it staged (R240, R241). -/
theorem tryReceive_ok_asserted {s u : State} {r : Result} (hv : (sampleIrq s).irq = true)
    (h : tryReceive s = .ok r u) :
    ∃ d m w v, d.length = Literal.frameLen ∧ w.cfg = s.cfg ∧
      w.trace = s.trace ++
        ([.irq true, .sel, .x Literal.opReadRxFifo m] ++ d.map (Event.x Literal.dummyByte) ++ [.desel]) ∧
      chain (counted receiveRest) w = .ok () v ∧ v.rxStage = overwrite d s.rxStage ∧ r = .some d ∧
      u = { v with rxValid := false } := by
  have hsample : (sampleIrq s).trace = s.trace ++ [.irq true] := by rw [← hv]; rfl
  have hread := trace_readRx Literal.frameLen (stepDone (sampleIrq s))
  rw [stepDone_trace (sampleIrq s), hsample, List.append_assoc] at hread
  have hbody : tryReceive s = (chain (counted receiveSteps) (stepDone (sampleIrq s))).bind fun _ v => handOff v :=
    tryReceive_asserted hv
  rw [hbody, receive_eq] at h
  cases hx : chain (counted receiveRest) (stepDone (staged (stepDone (sampleIrq s)))) with
  | ok a v =>
    have hstage := receiveRest_stage hx
    rw [hx, Flow.bind_ok, handOff_staged (length_readBytes _ _) hstage] at h
    injection h with hr hu
    exact ⟨_, _, stepDone (staged (stepDone (sampleIrq s))), v, length_readBytes _ _, by simp,
      (stepDone_trace _).trans hread, hx, hstage.trans (by rw [stepDone_rxStage, sampleIrq_rxStage]), hr.symm, hu.symm⟩
  | timeout n v => rw [hx] at h; cases h
  | fault v => rw [hx] at h; cases h

/-- Settles O45: the sample, one window that reads the frame, and the three commands after it, whose end leaves the staged
frame where it is. -/
theorem tryReceiveForEveryChip : Obligations.TryReceiveForEveryChip := by
  unfold Obligations.TryReceiveForEveryChip
  intro s t hs hlen hirq h hst
  obtain ⟨r, u, hx, hlog, rfl⟩ := body_of_exec_ok (i := .tryReceive) rfl hs rfl h hst
  obtain ⟨d, m, w, v, hd, hcfg, hread, hv, hstage, rfl, rfl⟩ := tryReceive_ok_asserted hirq hx
  have hacts := acts_receiveRest (facts_of_admitted hs.1) w hcfg
  rw [hv] at hacts
  obtain ⟨-, new, htrace, hfin⟩ := hacts
  obtain ⟨_, _, rfl, hreset, hfin⟩ := hfin.split
  obtain ⟨_, _, rfl, hclear, hrearm⟩ := hfin.split
  obtain ⟨e1, h1, rfl, he1, hh1⟩ := hreset.framed
  obtain ⟨e2, h2, rfl, he2, hh2⟩ := hclear.framed
  obtain ⟨e3, h3, rfl, he3, hh3⟩ := hrearm.framed
  refine ⟨d, m, e1, h1, e2, h2, e3, h3, hd, ?_, he1, hh1, he2, hh2, he3, hh3, congrArg (· ++ [_]) hlog,
    hstage.trans (overwrite_full (hlen.trans hd.symm)), rfl⟩
  refine htrace.trans ?_
  rw [hread]
  simp only [List.append_assoc]
  rfl

end Sys2Proof.Machine
end

section
/-! PROOFS. Family 60_exceptions: a step without a request (O7), a refusal (O9), what only Frame I/O does (O21), what no
instruction does (O22, O23), and the abort path of a Timeout (O24, O25). -/

namespace Sys2Proof.Machine

/-! ### A step without a request (R277) -/

/-- Only a chip under the abstract chip model makes moves at its turn (R97, R216, R217). -/
theorem turn_of_not_model (c : Config) {a : Agent} (h : a.law ≠ .abstractModel) : a.turn c = a := by
  cases hl : a.law with
  | base => simp [Agent.turn, hl]
  | abstractModel => exact absurd hl h
  | sim => exact turn_sim c hl

/-- Settles O7: the step is the chip's turn, which writes the agent alone. -/
theorem stepWithoutARequest : Obligations.StepWithoutARequest := by
  unfold Obligations.StepWithoutARequest
  exact fun s ha hp => ⟨s.agent.turn s.cfg, step_noRequest ha hp, turn_of_not_model s.cfg⟩

/-! ### A refused request (R264, R270) -/

/-- No check refuses a pseudo-instruction, so what is refused stands in the log as it was issued (R133, R135). -/
theorem expand_of_failingCheck {i : Instr} {c : Config} {k : Check} (h : i.failingCheck c = some k) : i.expand = i := by
  cases i with
  | resetTxFifo | resetRxFifo | resetBothFifos | rearmRx => cases h
  | _ => rfl

theorem exec_refused {i : Instr} {s : State} {k : Check} (hs : s.seq = .idle) (hk : i.failingCheck s.cfg = some k) :
    exec i s = .next (refuse (.op i) k s) := by
  cases hw : i.isWire with
  | true => rw [exec_wire hw, wireOp_idle hs, hk]
  | false => rw [exec_host hw, expand_of_failingCheck hk, hostOp_refused hs hk]

/-- Settles O9: the check comes before the body, for a wire row too, and a refusal is all that follows it. -/
theorem refusedRequest : Obligations.RefusedRequest := by
  unfold Obligations.RefusedRequest
  exact fun i s k hs hk => exec_refused hs hk

/-! ### The ready line (R271) -/

theorem finish_irq (i : Instr) (x : Flow Result) : (finish i x).irq = x.state.irq := by
  cases x <;> rfl

theorem settle_irq (x : Flow Unit) : (settle x).irq = x.state.irq := by
  cases x <;> rfl

/-- The sample stands in `irq`, which only Frame I/O may write (R33, R271). -/
theorem irq_mem_writes {i : Instr} (h : Reg.irq ∈ i.writes) : i = .tryReceive ∨ ∃ f, i = .sendFrame f := by
  cases i with
  | tryReceive => exact .inl rfl
  | sendFrame f => exact .inr ⟨f, rfl⟩
  | _ => simp [Instr.writes] at h

/-- An instruction outside Frame I/O causes no sample (R271). -/
theorem mayCause_noSample {i : Instr} (h1 : i ≠ .tryReceive) (h2 : ∀ f, i ≠ .sendFrame f) {e : Event}
    (h : mayCause i e) : e.onBusOrReset := by
  cases i with
  | tryReceive => exact absurd rfl h1
  | sendFrame f => exact absurd rfl (h2 f)
  | powerUp | enterRx | enterTx => exact h
  | _ => exact bus_reset e h

theorem noSample_of_onBusOrReset {e : Event} (h : e.onBusOrReset) (v : Bool) : e ≠ .irq v := by
  rintro rfl
  exact h

/-- Settles O21: outside Frame I/O no body writes `irq` or causes a sample, and no end of an operation does. -/
theorem onlyFrameIoSamplesTheReadyLine : Obligations.OnlyFrameIoSamplesTheReadyLine := by
  unfold Obligations.OnlyFrameIoSamplesTheReadyLine
  intro i s t h h1 h2
  obtain ⟨-, ⟨k, -, rfl⟩ | ⟨-, -, rfl⟩ | ⟨-, hw, rfl⟩⟩ := exec_next h
  · exact ⟨rfl, [], (List.append_nil _).symm, by simp⟩
  · have hirq : Reg.irq ∉ bodyWrites i := fun hm => by
      obtain h | ⟨f, h⟩ := irq_mem_writes (bodyWrites_subset i hm)
      · exact h1 h
      · exact h2 f h
    obtain ⟨new, hnew, hP, -⟩ := (clean_hostBody s.cfg i (begin i.expand s)).trace
    refine ⟨?_, new, ?_, fun e he => noSample_of_onBusOrReset (mayCause_noSample h1 h2 (hP e he))⟩
    · rw [finish_irq, (frame_hostBody s.cfg i _).irq hirq, begin_irq]
    · exact (finish_observed i.expand _).2.1.trans hnew
  · obtain ⟨new, hnew, hP, -⟩ := (clean_wireBody s.cfg hw s).trace
    refine ⟨?_, new, ?_, fun e he => noSample_of_onBusOrReset (bus_reset e (hP e he))⟩
    · rw [settle_irq, ((frame_wireBody s.cfg hw s).mono (writes_wire hw)).irq (by decide)]
    · exact (settle_observed _).2.1.trans hnew

/-! ### BusFault (R263) -/

/-- The end of a host operation writes OK or TIMEOUT or, at a point with no meaning, leaves `status` as it was; the host's
line carries the same (R261, log entry 9). -/
theorem finish_noBusFault (i : Instr) {x : Flow Result} (h : x.state.status ≠ .busFault) :
    (finish i x).status ≠ .busFault ∧ ∃ e, (finish i x).log = x.state.log ++ [e] ∧ e.status ≠ .busFault := by
  cases x with
  | ok r u => exact ⟨Status.noConfusion, _, rfl, Status.noConfusion⟩
  | timeout n u => exact ⟨Status.noConfusion, _, rfl, Status.noConfusion⟩
  | fault u => exact ⟨h, _, rfl, h⟩

theorem settle_status (x : Flow Unit) : (settle x).status = x.state.status := by
  cases x <;> rfl

/-- Settles O22: no body writes `status` or a line, and no end of an operation writes BusFault. -/
theorem busFaultIsNeverProduced : Obligations.BusFaultIsNeverProduced := by
  unfold Obligations.BusFaultIsNeverProduced
  intro i s t h hs
  obtain ⟨-, ⟨k, -, rfl⟩ | ⟨-, -, rfl⟩ | ⟨-, hw, rfl⟩⟩ := exec_next h
  · exact ⟨Status.noConfusion, [_], refuse_log s _ k, by simp⟩
  · have hclean := clean_hostBody s.cfg i (begin i.expand s)
    obtain ⟨hstatus, e, hlog, he⟩ := finish_noBusFault i.expand (hclean.status ▸ hs)
    exact ⟨hstatus, [e], by rw [hlog, hclean.log, begin_log], by simpa using he⟩
  · have hclean := clean_wireBody s.cfg hw s
    obtain ⟨-, -, hlog⟩ := settle_observed (wireBody s.cfg i s)
    exact ⟨by rwa [settle_status, hclean.status], [], by rw [hlog, hclean.log, List.append_nil], by simp⟩

/-! ### Points with no meaning (R278) -/

/-- Settles O23: a refusal leaves the mark as it was, and so does every instruction that an admitted configuration runs. -/
theorem noModelFault : Obligations.NoModelFault := by
  unfold Obligations.NoModelFault
  intro i s t ha h
  cases hk : i.failingCheck s.cfg with
  | some k =>
    obtain ⟨hs, -⟩ := exec_next h
    rw [exec_refused hs hk] at h
    injection h with h
    rw [← h, refuse_fault]
  | none => exact (frame_exec ha hk h).fault

/-! ### The abort path (R265) -/

theorem abortResult_eq (i : Instr) (n : Nat) : abortResult i n = if i = .tryReceive then .none else .timeout n := by
  unfold abortResult
  split
  · exact (if_pos rfl).symm
  · rename_i hi
    exact (if_neg hi).symm

/-- A body that raises Timeout ends its operation by the abort path (R265). -/
theorem hostOp_timeout {i : Instr} {body : State → Flow Result} {s u : State} {n : Nat} (hs : s.seq = .idle)
    (hk : i.failingCheck s.cfg = none) (hb : body (begin i s) = .timeout n u) :
    hostOp i body s = .next (abort i n u) := by
  rw [hostOp_admitted hs hk, hb]
  rfl

/-- An operation that ends with status TIMEOUT is one whose body has raised Timeout (R261, R265). -/
theorem body_of_exec_timeout {i : Instr} {s t : State} (hw : i.isWire = false) (ha : s.cfg.admitted = true)
    (h : exec i s = .next t) (hst : t.status = .timeout) :
    i.failingCheck s.cfg = none ∧
      ∃ n u, hostBody s.cfg i (begin i.expand s) = .timeout n u ∧ t = abort i.expand n u := by
  obtain ⟨-, ⟨k, -, rfl⟩ | ⟨hk, -, rfl⟩ | ⟨-, hw', -⟩⟩ := exec_next h
  · cases hst
  · have hend := ends_hostBody ha hk (begin i.expand s) rfl
    cases hx : hostBody s.cfg i (begin i.expand s) with
    | ok r u => rw [hx] at hst; cases hst
    | timeout n u => exact ⟨hk, n, u, rfl, rfl⟩
    | fault u => rw [hx] at hend; exact hend.elim
  · rw [hw] at hw'
    cases hw'

/-- What stands after a Timeout: the line deselected, the recorded values (R262), the abort path's own writes (R265), and a
chip that is Unknown under the abstract chip model (R223). -/
theorem state_of_exec_timeout {i : Instr} {s t : State} (hw : i.isWire = false) (hs : Accepts s) (hsel : s.sel = false)
    (h : exec i s = .next t) (hst : t.status = .timeout) :
    t.sel = false ∧ t.rxValid = false ∧ t.seq = .idle ∧ t.pollCount = s.cfg.ctsRetryMax ∧
      (∃ b, b ≠ Literal.ctsReady ∧ t.lastCts = some b) ∧
      (s.agent.law = .abstractModel → t.agent.chip.mode = .unknown) := by
  obtain ⟨hk, n, u, hx, ht⟩ := body_of_exec_timeout hw hs.1 h hst
  have hend := ends_hostBody hs.1 hk (begin i.expand s) rfl
  rw [hx] at hend
  refine ⟨(everyInstructionDeselects i s t hsel h).1, ?_, ?_, ?_, ?_, fun hl => ?_⟩
  · rw [ht, abort_rxValid]
  · rw [ht, abort_seq]
  · rw [ht, abort_pollCount]
    exact hend.count
  · rw [ht, abort_lastCts]
    exact hend.last
  · obtain ⟨r, v, hok, -⟩ | ⟨-, hunknown⟩ := exec_ok_or_unknown hs hl hw hk h
    · rw [hx] at hok
      cases hok
    · exact hunknown

/-- The bus after a Timeout ends with the handshake that failed (R265, R266, R267, R269). -/
theorem bus_of_exec_timeout {i : Instr} {s t : State} (hw : i.isWire = false) (ha : s.cfg.admitted = true)
    (h : exec i s = .next t) (hst : t.status = .timeout) :
    ∃ new, t.trace = s.trace ++ new ∧ Aborted s.cfg (i.pieces s.cfg t.irq) new := by
  obtain ⟨hk, n, u, hx, rfl⟩ := body_of_exec_timeout hw ha h hst
  have hacts := acts_hostBody ha hw hk (begin i.expand s) rfl
  rw [hx] at hacts
  exact hacts.2

/-- Settles O24: the abort path is the end of every body that raises, and the raise itself leaves what a handshake without a
ready poll leaves. -/
theorem abortPath : Obligations.AbortPath := by
  unfold Obligations.AbortPath
  refine ⟨fun i body s u n hs hk hb => ?_, fun i s t hw hs hsel h hst => state_of_exec_timeout hw hs hsel h hst,
    fun i s t hw hs h hst => bus_of_exec_timeout hw hs.1 h hst⟩
  rw [hostOp_timeout hs hk hb, ← abortResult_eq]
  rfl

/-- Settles O25: what times out has put a handshake on the bus, and these operations have none among their pieces. -/
theorem noHandshakeNoTimeout : Obligations.NoHandshakeNoTimeout := by
  unfold Obligations.NoHandshakeNoTimeout
  intro i s t ha hi h hst
  obtain ⟨hw, hnone⟩ : i.isWire = false ∧ ∀ n, Piece.hand n ∉ i.pieces s.cfg t.irq := by
    rcases hi with ⟨f, rfl⟩ | ⟨n, rfl⟩ | ⟨d, rfl⟩ | ⟨ch, cond, len, rfl⟩ | rfl | rfl <;>
      simp [Instr.isWire, Instr.pieces]
  obtain ⟨new, -, haborted⟩ := bus_of_exec_timeout hw ha h hst
  obtain ⟨n, hn⟩ := haborted.hand_mem
  exact hnone n hn

end Sys2Proof.Machine
end
